-- ==== Sys2Proof/Word.lean ====
section
/-! DEFINITION. The words of the Abecta 3120: link bytes, 32-bit part-window words, 24-bit link addresses, instants
of the timebase, and the small codes of the converter link and the Hall inputs (spec/00_scope.md, Conventions). -/
namespace Sys2Proof

/-- A byte of the memory link. -/
abbrev Byte := BitVec 8

/-- An aligned 32-bit word of the part window. -/
abbrev Word := BitVec 32

/-- A 16-bit field: the info of a log entry, a frame sequence, a saturating count. -/
abbrev Short := BitVec 16

/-- A link address (00 "Addresses and rows"). -/
abbrev Addr := BitVec 24

/-- A value of the 32-bit timebase (00 "Timebase and instants"). -/
abbrev Instant := BitVec 32

/-- The value of a motor's three Hall inputs (R51). -/
abbrev HallCode := BitVec 3

/-- A converter input I0 to I15 (R95). -/
abbrev InputNumber := BitVec 4

/-- The tag of a conversion request (R79). -/
abbrev ConverterTag := BitVec 3

end Sys2Proof
end

