-- ==== Sys2Proof/Config.lean ====
section
/-! DEFINITION. What the spec leaves open and this model leaves free: constants without a body, so that no proof and
no evaluation can know their value. -/
namespace Sys2Proof

/-- Which of several events that fall due at one instant is taken next, as a number that picks one of them
(a fresh one for each use). The spec lets either order happen (R11, R64, R78, R154, R174). Log 4. -/
opaque Config.eventOrder : Nat → Nat

/-- What the data lines carry where nothing that the spec describes drives them, by link address or byte place: a RAM
that does not answer a part which takes it to be AWAKE (R167), and the controller's clocks after its last byte. Log 11. -/
opaque Config.undrivenByte : Nat → Byte

end Sys2Proof
end

