-- ==== Sys2Proof/Syntax.lean ====
section
/-! DEFINITION. The commands of the block: one constructor of `Instr` for each row of spec/opcode_table.json. Every
command but `resetRelease` carries the instant `t` at which it is taken (DESIGN CHOICE, log 1). -/
namespace Sys2Proof

/-- The three motors (00 "Names"). -/
inductive Motor where
  | m0 | m1 | m2
deriving DecidableEq, Repr

/-- The two plan slots of a motor (R25). -/
inductive SlotName where
  | a | b
deriving DecidableEq, Repr

/-- The activation kind of a COMMIT (R26). -/
inductive ActivationKind where
  | next | atEnd
deriving DecidableEq, Repr

/-- The three legs of an inverter (00 "Names"). -/
inductive LegName where
  | leg0 | leg1 | leg2
deriving DecidableEq, Repr

/-- How a transaction opens: the bytes of it that count, none for the fall of select alone, and the instant (R140, R155, R159). -/
structure Opening where
  bytes : List Byte
  t : Instant
deriving DecidableEq, Repr

/-- A command to the block, or an event that reaches it: one constructor per row of the table of operations. -/
inductive Instr where
  /-- The reset pin is asserted, or the supply fails (R24, R171). -/
  | resetAssert (t : Instant)
  /-- The reset pin is released; bit 0 of `straps` is the first strap pin, bit 1 the second (R160, R171). -/
  | resetRelease (straps : BitVec 2)
  /-- The power-on LINK-CLEAR completes (R171). -/
  | powerOnLinkClearCompletion (t : Instant)
  /-- Select falls at the upstream port, and the opening's bytes count; with select low already, they count next (R140, R159).
  The command of the transaction's own row then brings the rest, to its select rise (log 13). -/
  | upstreamSelectFall (opening : Opening)
  /-- A READ to its select rise: the address, unless select rose before it was complete; the mode byte, unless select
  rose before it; the number of data bytes read (R155, R163). -/
  | read (addr : Option Addr) (mode : Option Byte) (n : Nat) (t : Instant)
  /-- A READ-WRAP to its select rise, operands as for `read` (R163). -/
  | readWrap (addr : Option Addr) (mode : Option Byte) (n : Nat) (t : Instant)
  /-- A transaction that begins with its address, to its select rise, operands as for `read` (R150, R157). -/
  | repeatModeRead (addr : Option Addr) (mode : Option Byte) (n : Nat) (t : Instant)
  /-- A WRITE to its select rise: the address, unless select rose before it was complete, and the whole data bytes (R164). -/
  | write (addr : Option Addr) (data : List Byte) (t : Instant)
  /-- A WRAP-SET to its select rise, with its byte unless select rose before it counted (R158). -/
  | wrapSet (byte : Option Byte) (t : Instant)
  /-- A SLEEP to its select rise (R166). -/
  | sleep (t : Instant)
  /-- A WAKE to its select rise (R167). -/
  | wake (t : Instant)
  /-- A LINK-CLEAR to its select rise (R157). -/
  | linkClear (t : Instant)
  /-- A transaction whose command byte, the first of `bytes`, is unknown, that ends before its first byte (R155, R157), or that has more
  bytes than its WRAP-SET, SLEEP, WAKE or LINK-CLEAR (R159, log 16). -/
  | unknownCommand (bytes : List Byte) (t : Instant)
  /-- A transaction whose select fell while READY was low, to its select rise: its first byte where one arrived, and the
  number of data bytes the controller reads in it (R170). -/
  | linkViolation (first : Option Byte) (n : Nat) (t : Instant)
  /-- START of a motor (R2). -/
  | start (m : Motor) (t : Instant)
  /-- STOP of a motor (R4). -/
  | stop (m : Motor) (t : Instant)
  /-- RESTART of a motor (R7). -/
  | restart (m : Motor) (t : Instant)
  /-- COMMIT of a slot with its tag and activation kind (R40). -/
  | commit (m : Motor) (slot : SlotName) (tag : Byte) (kind : ActivationKind) (t : Instant)
  /-- CANCEL of a slot (R42). -/
  | cancel (m : Motor) (slot : SlotName) (t : Instant)
  /-- CLEAR_COUNTS of a motor (R179). -/
  | clearCounts (m : Motor) (t : Instant)
  /-- SOFT_RESTART (R182). -/
  | softRestart (t : Instant)
  /-- A waiting SOFT_RESTART takes effect (R152). -/
  | softRestartEffect (t : Instant)
  /-- CLEAR_COUNTS_DEVICE (R93). -/
  | clearCountsDevice (t : Instant)
  /-- MAP_COMMIT (R162). -/
  | mapCommit (t : Instant)
  /-- A write of the log-pop word (R188). -/
  | logPop (t : Instant)
  /-- A write of the log clear-overflow word (R189). -/
  | logClearOverflow (t : Instant)
  /-- A write of a motor's consumed word (R133). -/
  | consumedWrite (m : Motor) (v : Word) (t : Instant)
  /-- A write of a staging-map word (R161). -/
  | stagingWordWrite (entry : Fin 8) (v : Word) (t : Instant)
  /-- A write of the attention-pending word (R192). -/
  | attentionPendingWrite (v : Word) (t : Instant)
  /-- A write of the whole part-window word at byte offset `off` (R176). -/
  | settingWordWrite (off : BitVec 12) (v : Word) (t : Instant)
  /-- A period boundary of a motor (R10). -/
  | periodBoundary (m : Motor) (t : Instant)
  /-- A rise or fall edge of a leg (R13). -/
  | gateEdge (m : Motor) (leg : LegName) (t : Instant)
  /-- A turn-on that dead time delayed (R14). -/
  | deadTimeTurnOn (m : Motor) (leg : LegName) (t : Instant)
  /-- A STOPPING channel becomes STOPPED (R6). -/
  | stoppingComplete (m : Motor) (t : Instant)
  /-- A motor's driver-fault input becomes active (R105). -/
  | driverFaultActivation (m : Motor) (t : Instant)
  /-- A motor's driver-fault input becomes inactive (R104). -/
  | driverFaultRelease (m : Motor) (t : Instant)
  /-- A motor's Hall inputs change to `code` (R55). -/
  | hallCodeChange (m : Motor) (code : HallCode) (t : Instant)
  /-- The scheduled examination of a Hall code (R56). -/
  | hallExamination (m : Motor) (t : Instant)
  /-- The scheduled commutation (R60). -/
  | commutation (m : Motor) (t : Instant)
  /-- Expiry of the sector timeout (R62, R63). -/
  | sectorTimeout (m : Motor) (t : Instant)
  /-- The start instant of the first PLACED reservation (R77). -/
  | reservationStart (t : Instant)
  /-- The earliest WAITING reservation starts at a free converter (R78). -/
  | waitingReservationStart (t : Instant)
  /-- The latest instant of a WAITING reservation (R78). -/
  | latestInstant (t : Instant)
  /-- A result record arrives from the converter (R80, R201). -/
  | resultRecord (input : InputNumber) (tag : ConverterTag) (value : BitVec 12) (t : Instant)
  /-- The result timer falls (R83). -/
  | converterTimeout (t : Instant)
  /-- The flush that the arbiter chooses starts (R146). -/
  | flushStart (t : Instant)
  /-- The flush burst in flight completes (R148). -/
  | flushCompletion (t : Instant)
  /-- The controller-window timer expires (R145). -/
  | controllerWindowExpiry (t : Instant)
  /-- The wake timer expires (R167). -/
  | wakeTimerExpiry (t : Instant)
  /-- The due instant of a frame-done record (R193). -/
  | frameDoneDue (m : Motor) (t : Instant)
  /-- The stale timer expires (R196). -/
  | staleTimerExpiry (m : Motor) (t : Instant)
deriving DecidableEq, Repr

end Sys2Proof
end

