-- ==== Sys2Proof/Decode.lean ====
section
/-! DEFINITION. What the block decodes: no row of spec/opcode_table.json gives bits, so `decodeTableWord` reads none;
the command bytes of the memory link and the fields of the two command words are decoded here (11.3, 11.4). -/
namespace Sys2Proof

/-- No row of the table of operations gives bits: no word spells a command. -/
def decodeTableWord (_nbits _w : Nat) : Option Instr := none

/-- The seven commands of the memory link (R156). -/
inductive LinkCommand where
  | read | readWrap | write | wrapSet | sleep | wake | linkClear
deriving DecidableEq, Repr

/-- The command byte of each command (11.4). -/
def LinkCommand.code : LinkCommand → Byte
  | .read => 0x1A
  | .readWrap => 0x1E
  | .write => 0x2A
  | .wrapSet => 0x4D
  | .sleep => 0x5C
  | .wake => 0x5E
  | .linkClear => 0x7E

/-- The command a byte names, none for an unknown one (R157, 11.4). -/
def linkCommandOf (b : Byte) : Option LinkCommand :=
  if b = LinkCommand.code .read then some .read
  else if b = LinkCommand.code .readWrap then some .readWrap
  else if b = LinkCommand.code .write then some .write
  else if b = LinkCommand.code .wrapSet then some .wrapSet
  else if b = LinkCommand.code .sleep then some .sleep
  else if b = LinkCommand.code .wake then some .wake
  else if b = LinkCommand.code .linkClear then some .linkClear
  else none

/-- The mode byte that leaves a read in repeat mode (11.4). -/
def repeatMarker : Byte := 0x96

/-- The recorded wrap setting: OFF or one of the four lengths (R158). -/
inductive WrapSetting where
  | off | wrap16 | wrap32 | wrap64 | wrap128
deriving DecidableEq, Repr

/-- The setting a WRAP-SET byte names, none for another byte (R156, 11.4). -/
def wrapSettingOf (b : Byte) : Option WrapSetting :=
  if b = 0x00 then some .off
  else if b = 0x01 then some .wrap16
  else if b = 0x02 then some .wrap32
  else if b = 0x03 then some .wrap64
  else if b = 0x04 then some .wrap128
  else none

/-- The three address bytes, most significant first (R155). -/
def addrBytes (a : Addr) : List Byte :=
  [BitVec.ofNat 8 (a.toNat / 65536), BitVec.ofNat 8 (a.toNat / 256), BitVec.ofNat 8 a.toNat]

/-- The address that three bytes give (R155). -/
def joinAddr (hi mid lo : Byte) : Addr :=
  BitVec.ofNat 24 (hi.toNat * 65536 + mid.toNat * 256 + lo.toNat)

/-- A command of a motor's command word, with its arguments (R179). -/
inductive MotorCommand where
  | start
  | stop
  | restart
  | commit (slot : SlotName) (tag : Byte) (kind : ActivationKind)
  | cancel (slot : SlotName)
  | clearCounts
deriving DecidableEq, Repr

/-- The slot field of a motor command word: bit 8 (11.3). -/
def motorCommandSlot (v : Word) : SlotName := if v.getLsbD 8 then .b else .a

/-- The kind field of a motor command word: bit 9 (11.3). -/
def motorCommandKind (v : Word) : ActivationKind := if v.getLsbD 9 then .atEnd else .next

/-- A motor command word: command in bits 0 to 3, slot bit 8, kind bit 9, tag bits 16 to 23; none where the command
field names no command (R179, R200). -/
def motorCommandOf (v : Word) : Option MotorCommand :=
  match (v.extractLsb' 0 4).toNat with
  | 1 => some .start
  | 2 => some .stop
  | 3 => some .restart
  | 4 => some (.commit (motorCommandSlot v) (v.extractLsb' 16 8) (motorCommandKind v))
  | 5 => some (.cancel (motorCommandSlot v))
  | 6 => some .clearCounts
  | _ => none

/-- A command of the device command word (R181). -/
inductive DeviceCommand where
  | softRestart | clearCountsDevice | mapCommit
deriving DecidableEq, Repr

/-- The device command word: command in bits 0 to 3; none where the field names no command (R181, R200). -/
def deviceCommandOf (v : Word) : Option DeviceCommand :=
  match (v.extractLsb' 0 4).toNat with
  | 1 => some .softRestart
  | 2 => some .clearCountsDevice
  | 3 => some .mapCommit
  | _ => none

end Sys2Proof
end

