-- ==== Sys2Proof/Machine/State.lean ====
section
/-! DEFINITION. The state of the Abecta 3120, block by block, as plain data, and the state after reset. Every field names
the rule of spec/ that gives it. -/
namespace Sys2Proof.Machine

/-! ### Memory -/

/-- Bytes by address, in ONE canonical form: addresses strictly rising, no entry equal to what an unlisted address
reads as. It holds the RAM and the captured copies of the plan slots (log 10). -/
abbrev Memory := List Host.Cell

/-! ### Motor channels and gates (chapter 01) -/

/-- The four channel states (R1). -/
inductive ChannelState where
  | stopped | running | stopping | tripped
deriving DecidableEq, Repr

/-- The command of a leg: the side the step, the sector map or the safe state wants on (R12). -/
inductive LegCommand where
  | off | highSide | lowSide
deriving DecidableEq, Repr

/-- What a leg follows in a period: one command, or HIGH_SIDE between a rise and a fall offset and LOW_SIDE otherwise (R13). -/
inductive LegDrive where
  | hold (c : LegCommand)
  | pulse (rise fall : Nat)
deriving DecidableEq, Repr

/-- The next edge of a pulsed leg: its instant and the command it brings (R13). -/
structure LegEdge where
  due : Instant
  command : LegCommand
deriving DecidableEq, Repr

/-- One leg: its command, what it follows, its next edge, a turn-on that waits out the dead time, its two outputs and
the instant of each side's last turn-off (R12 to R14). -/
structure Leg where
  command : LegCommand
  drive : LegDrive
  nextEdge : Option LegEdge
  turnOn : Option Instant
  highOn : Bool
  lowOn : Bool
  highOff : Instant
  lowOff : Instant
deriving DecidableEq, Repr

/-- The trip causes, and NONE (R17). -/
inductive TripCause where
  | none | converterLost | limitTrip | driverFault | hallInvalid | hallStall
deriving DecidableEq, Repr

/-- The state of a motor channel (R1, R24, R104, R107). -/
structure Channel where
  state : ChannelState
  /-- The start instant of the current carrier period; none while the carrier does not run (R8). -/
  periodStart : Option Instant
  periodCount : Word
  stepIndex : Nat
  narrowCount : Short
  tripCause : TripCause
  tripInfo : Short
  faultActive : Bool
  /-- The chop edges of the period after narrow-pulse substitution (R15). -/
  chop : LegDrive
  /-- The sector whose roles the channel holds (R51). -/
  driveSector : Option HallCode
  leg0 : Leg
  leg1 : Leg
  leg2 : Leg
deriving DecidableEq, Repr

/-- The safe-state setting (R1). -/
inductive SafeState where
  | allOff | lowBrake
deriving DecidableEq, Repr

/-! ### Plans (chapter 02) -/

/-- The four plan slot states (R26). -/
inductive SlotState where
  | empty | inactive | pending | active
deriving DecidableEq, Repr

/-- A plan slot (R26). -/
structure PlanSlot where
  copy : Memory
  state : SlotState
  tag : Byte
  kind : ActivationKind
  nextTag : Option Byte
deriving DecidableEq, Repr

/-- The leg modes of a step (R31). -/
inductive LegMode where
  | float | low | high | pwm
deriving DecidableEq, Repr

/-- One leg of a step: its mode and its two edges (R31). -/
structure LegPlan where
  mode : LegMode
  rise : Nat
  fall : Nat
deriving DecidableEq, Repr

/-- A sample request of a step (R32). -/
structure SampleRequest where
  input : InputNumber
  purpose : BitVec 4
  target : Nat
  earliest : Nat
  latest : Nat
deriving DecidableEq, Repr

/-- A step of a plan (R31). -/
structure PlanStep where
  leg0 : LegPlan
  leg1 : LegPlan
  leg2 : LegPlan
  requests : List SampleRequest
deriving DecidableEq, Repr

/-! ### Hall tracking (chapter 03) -/

/-- The roles of a leg in the sector map (R52). -/
inductive LegRole where
  | float | low | chop
deriving DecidableEq, Repr

/-- An entry of the sector map (R52). -/
structure SectorEntry where
  leg0 : LegRole
  leg1 : LegRole
  leg2 : LegRole
  successor : HallCode
deriving DecidableEq, Repr

/-- The tracker states (R54). -/
inductive TrackerState where
  | waitFirst | tracking | predicting
deriving DecidableEq, Repr

/-- What set the last edge instant (R51). -/
inductive ReferenceKind where
  | edge | start | entry | prediction
deriving DecidableEq, Repr

/-- A scheduled commutation (R51, R60). -/
structure Commutation where
  due : Instant
  target : HallCode
deriving DecidableEq, Repr

/-- The Hall Tracker of a motor (R51). `overtaken` is the model's own: the last edge instant that an examination or an
expiry of the sector timeout replaced, against which a code change of the same instant is judged (R64, logs 23 and 36). -/
structure Tracker where
  state : TrackerState
  sector : Option HallCode
  lastEdge : Instant
  reference : ReferenceKind
  duration : Option Nat
  measured : Nat
  predictions : Nat
  examination : Option Instant
  scheduled : Option Commutation
  timeout : Option Instant
  overtaken : Option Instant := none
deriving DecidableEq, Repr

/-! ### Settings of a motor (R177, R178) -/

/-- The ring policy (R118). -/
inductive RingPolicy where
  | drop | overwrite
deriving DecidableEq, Repr

/-- The FRAME_DONE modes (R193). -/
inductive FrameDoneMode where
  | written | delay | either | both
deriving DecidableEq, Repr

/-- The settings of a motor (R177, R178). -/
structure MotorSettings where
  carrierPeriod : Nat
  minimumPulse : Nat
  deadTime : Nat
  safeState : SafeState
  frameInterval : Nat
  ringHigh : Nat
  ringLow : Nat
  ringBase : Addr
  ringStride : Nat
  ringDepth : Nat
  ringPolicy : RingPolicy
  frameDoneMode : FrameDoneMode
  frameDoneDelay : Nat
  minimumSector : Nat
  predictionLimit : Nat
  startTimeout : Nat
  commutationDelay : Nat
  staleTimeout : Nat
  /-- Entry k stands for Hall code k + 1 (R52). -/
  sectorMap : Vector SectorEntry 6
deriving DecidableEq, Repr

/-! ### Result frames (chapter 06) -/

/-- The two staging halves (R115). -/
inductive HalfName where
  | half0 | half1
deriving DecidableEq, Repr

/-- The close flag of a frame (R112, R114). -/
inductive CloseFlag where
  | none | switched | stopped | tripped
deriving DecidableEq, Repr

/-- The open-frame record (R112). -/
structure OpenFrame where
  sequence : Short
  tag : Byte
  countAtOpen : Word
  periodsCovered : Nat
  storage : Option HalfName
  ringSlot : Option Nat
  closeFlag : CloseFlag
  full : Bool
  fullLogged : Bool
deriving DecidableEq, Repr

/-- The status of a result entry (R122, 11.2). -/
inductive EntryStatus where
  | ok | limit | missed | failed
deriving DecidableEq, Repr

/-- The resolution of a position (R122). -/
structure Resolution where
  status : EntryStatus
  value : BitVec 12
deriving DecidableEq, Repr

/-- A position record (R122). -/
structure PositionRecord where
  input : InputNumber
  purpose : BitVec 4
  stepIndex : Nat
  period : Nat
  slid : Bool
  resolution : Option Resolution
deriving DecidableEq, Repr

/-- The states of a half (R115). -/
inductive HalfState where
  | free | opened | closing | closed
deriving DecidableEq, Repr

/-- The request a half presents (R126, R127). -/
inductive FlushRequest where
  | none | partialRun | finalFlush
deriving DecidableEq, Repr

/-- A staging half (R115). The positions assigned are the length of `positions`. -/
structure Half where
  state : HalfState
  sequence : Short
  tag : Byte
  countAtOpen : Word
  ringSlot : Nat
  closeFlag : CloseFlag
  full : Bool
  positions : List PositionRecord
  flushed : Nat
  stampWritten : Bool
  request : FlushRequest
  burst : Bool
deriving DecidableEq, Repr

/-- The Frame Assembler of a motor (R112, R115, R120, R132). -/
structure FrameAssembler where
  openFrame : Option OpenFrame
  half0 : Half
  half1 : Half
  nextSequence : Short
  assigned : Word
  produced : Word
  consumed : Word
  dropRun : Bool
deriving DecidableEq, Repr

/-- The Frame Assembler's answer to a request for a position (R121). -/
inductive PositionAnswer where
  | absent
  | overCapacity
  | position (k : Nat)
deriving DecidableEq, Repr

/-! ### Sample Calendar and Converter Port (chapter 04) -/

/-- The states of a reservation (R69). -/
inductive ReservationState where
  | placed | waiting | converting
deriving DecidableEq, Repr

/-- A reservation (R69). -/
structure Reservation where
  motor : Motor
  input : InputNumber
  start : Instant
  target : Instant
  latest : Instant
  slid : Bool
  position : Option Nat
  sequence : Short
  stepIndex : Nat
  period : Nat
  purpose : BitVec 4
  state : ReservationState
  tag : Option ConverterTag
  orphaned : Bool
deriving DecidableEq, Repr

/-- The Sample Calendar (R68, R72). -/
structure Calendar where
  reservations : List Reservation
  highWater : Nat
deriving DecidableEq, Repr

/-- The Calendar's counts for one motor (R75). -/
structure CalendarMarks where
  unplaced : Short
  unplacedLogged : Bool
  fullLogged : Bool
deriving DecidableEq, Repr

/-- The converter states (R85). -/
inductive ConverterState where
  | ready | lost
deriving DecidableEq, Repr

/-- The Converter Port (R79, R85). -/
structure Converter where
  state : ConverterState
  requestTag : ConverterTag
  failures : Nat
  resultTimer : Option Instant
  /-- The request record last sent on the converter link (R201); an observation of the model's, log 25. -/
  requestSent : Option Byte
deriving DecidableEq, Repr

/-! ### Limit Monitor (chapter 05) -/

/-- The owner of a converter input (R95). -/
inductive InputOwner where
  | motor (m : Motor)
  | shared
  | unused
deriving DecidableEq, Repr

/-- The record of a converter input (R95). -/
structure InputRecord where
  owner : InputOwner
  lowLimit : BitVec 12
  highLimit : BitVec 12
  tripCount : Nat
  consecutive : Nat
deriving DecidableEq, Repr

/-! ### Attention of a motor (chapter 10) -/

/-- A frame-done record (R193). -/
structure FrameDoneRecord where
  sequence : Short
  mode : FrameDoneMode
  due : Instant
  delayOver : Bool
  written : Bool
deriving DecidableEq, Repr

/-- The Attention Unit's items of one motor (R191, R193, R195, R196). -/
structure MotorAttention where
  frameDone : Bool
  ringStale : Bool
  tripped : Bool
  ringHigh : Bool
  staleTimer : Option Instant
  records : List FrameDoneRecord
deriving DecidableEq, Repr

/-- Everything the part holds for one motor. -/
structure MotorUnit where
  settings : MotorSettings
  channel : Channel
  slotA : PlanSlot
  slotB : PlanSlot
  /-- The value of the motor's three Hall inputs (R66). -/
  hallCode : HallCode
  tracker : Tracker
  marks : CalendarMarks
  frames : FrameAssembler
  attention : MotorAttention
deriving DecidableEq, Repr

/-! ### Fault Log (chapter 10) -/

/-- The log codes (10.3). -/
inductive LogCode where
  | startRefused | restartRefused | commitRefused | settingRefused | consumeRefused
  | planCheck | planShape | planEdge | planSample | hallMap | planGuardedWrite
  | hallReverse | hallSkip | hallInvalid | hallStall
  | sampleUnplaced | calendarFull | converterMismatch | converterTimeout | converterLost
  | limitTrip | driverFault
  | frameLost | ringFullDrop | ringOverwrite | frameFull
  | resultWriteRefused | sleepRefused | mapInvalid | linkViolation
deriving DecidableEq, Repr

/-- The motor field of a log entry (R186). -/
inductive LogSource where
  | motor (m : Motor)
  | device
deriving DecidableEq, Repr

/-- A log entry (R186). -/
structure LogEntry where
  code : LogCode
  source : LogSource
  info : Short
  stamp : Word
deriving DecidableEq, Repr

/-- The Fault Log, oldest entry first (R186). -/
structure FaultLog where
  entries : List LogEntry
  overflow : Bool
  discarded : Nat
deriving DecidableEq, Repr

/-- The named info values (11.4). -/
inductive InfoName where
  | state | noPending | converter | memory | faultActive | ring | plan | hallMap | flushPending | slotPending
  | otherPending | timeout | mismatch
deriving DecidableEq, Repr

/-! ### Memory path and Link Arbiter (chapters 07 and 08) -/

/-- The kinds of a row (R161). -/
inductive RowKind where
  | pass | plan | result
deriving DecidableEq, Repr

/-- An entry of a window map (R161). -/
structure MapEntry where
  bound : Nat
  kind : RowKind
  motor : Motor
deriving DecidableEq, Repr

/-- The Window Map (R160, R161). -/
structure WindowMap where
  /-- The strap-selected position, 0 to 3 in the order of R160. -/
  position : BitVec 2
  active : Vector MapEntry 8
  staging : Vector MapEntry 8
deriving DecidableEq, Repr

/-- The two kinds of read that repeat mode remembers (R157). -/
inductive ReadKind where
  | read | readWrap
deriving DecidableEq, Repr

/-- The phases of the Decoder record (8.2). -/
inductive DecoderPhase where
  | idle | command | address | mode | turnaround | data
deriving DecidableEq, Repr

/-- The Decoder's view of a transaction's kind (8.2). -/
inductive TransactionKind where
  | known (c : LinkCommand)
  | unknown
  | repeated (k : ReadKind)
deriving DecidableEq, Repr

/-- The class of a transaction: `forwarded` and `withheld` for those that are no WRITE (R159, R166), the others for a WRITE
(R164). -/
inductive TransactionClass where
  | forwarded
  | withheld
  | partWindow
  | capture (m : Motor) (slot : SlotName)
  | guardedPlan (m : Motor) (slot : SlotName)
  | guardedResult (m : Motor)
  | pass
deriving DecidableEq, Repr

/-- The Decoder record (8.2). `first`, `count`, `addressBytes`, `offset` and `ramAnswers` are the model's own: they say how far the
transaction has come (log 26). -/
structure Decoder where
  phase : DecoderPhase
  refused : Bool
  command : Option TransactionKind
  repeatPrefixDue : Bool
  address : Option Addr
  decision : Option TransactionClass
  /-- The part window's read view, as its words in address order (R163). -/
  snapshot : Option (List Word)
  /-- The bytes of a part-window write by offset in the row, the last written first (R164). -/
  writeWords : List (Nat × Byte)
  /-- The first byte that has counted of a refused transaction (R170). -/
  first : Option Byte
  /-- The bytes that have counted. -/
  count : Nat
  /-- The bytes of the address that have counted. -/
  addressBytes : List Byte
  /-- The bytes that have counted after the address of a WRITE, the mode byte of a read, or another command's byte. -/
  offset : Nat
  /-- The RAM takes the read in flight (log 11). -/
  ramAnswers : Bool
deriving DecidableEq, Repr

/-- The Upstream Port (R149, R157, R158). -/
structure Upstream where
  selectLow : Bool
  repeatState : Option ReadKind
  wrap : WrapSetting
  /-- The data bytes driven upstream in the last read; an observation of the model's, log 25. -/
  readData : List Byte
deriving DecidableEq, Repr

/-- The memory states (R167). -/
inductive MemoryState where
  | awake | asleep | waking
deriving DecidableEq, Repr

/-- The Memory Port (R149, R151, R167). -/
structure MemoryPort where
  repeatSet : Bool
  state : MemoryState
  wakeTimer : Option Instant
  /-- The completion of the power-on LINK-CLEAR in flight (R171). -/
  linkClearDue : Option Instant
  /-- The transactions issued by the last command that used the port; an observation of the model's, log 25. -/
  issued : List (List Byte)
deriving DecidableEq, Repr

/-- The serial RAM on the memory port, as R156 requires it to act (log 11). -/
structure Ram where
  cells : Memory
  asleep : Bool
  wrap : WrapSetting
  repeatMode : Bool
deriving DecidableEq, Repr

/-- The arbiter states (R139). -/
inductive ArbiterState where
  | openLink | controller | flush | held
deriving DecidableEq, Repr

/-- The flush in flight: its motor and half, and what its burst carries (R128, R146). -/
structure Flush where
  motor : Motor
  half : HalfName
  /-- The burst is a final flush. -/
  final : Bool
  /-- The burst carries the opening stamp. -/
  opensFrame : Bool
  /-- The number of entries the burst carries. -/
  entries : Nat
  address : Addr
  content : List Byte
  /-- The instant at which the WRITE's select falls. -/
  writeStart : Instant
  /-- The instant at which the burst completes. -/
  due : Instant
deriving DecidableEq, Repr

/-- The Link Arbiter (R139, R144, R145, R146). -/
structure Arbiter where
  state : ArbiterState
  pointer : Motor
  /-- The expiry of the controller-window timer; none once it has expired. -/
  windowTimer : Option Instant
  flight : Option Flush
deriving DecidableEq, Repr

/-- The device settings of chapter 09 that stand in no other block. -/
structure DeviceSettings where
  tConv : Nat
  controllerWindow : Nat
  wakeTime : Nat
deriving DecidableEq, Repr

/-- The state of the part, the RAM it is wired to, and the commands that wait. -/
structure State where
  /-- The reset pin is asserted. -/
  inReset : Bool
  timebase : Instant
  /-- The motor of highest number that has placed a step's requests for the instant that the timebase shows, none where none has; the
  model's own (R76, log 27). -/
  placed : Option Motor
  device : DeviceSettings
  inputs : Vector InputRecord 16
  m0 : MotorUnit
  m1 : MotorUnit
  m2 : MotorUnit
  calendar : Calendar
  converter : Converter
  decoder : Decoder
  upstream : Upstream
  port : MemoryPort
  ram : Ram
  window : WindowMap
  arbiter : Arbiter
  log : FaultLog
  /-- The attention enables, in the bit order of 11.3. -/
  enables : BitVec 14
  /-- A SOFT_RESTART waits for a flush burst in flight (R182). -/
  restartWaiting : Bool
  /-- How many free values have been used; the model's own, log 24. -/
  freeCount : Nat
  /-- The commands that wait, the next one first. -/
  pending : List Instr
deriving DecidableEq, Repr

/-! ### Reset values -/

/-- A leg after power-on (R24). -/
def Leg.reset : Leg :=
  { command := .off, drive := .hold .off, nextEdge := none, turnOn := none, highOn := false, lowOn := false,
    highOff := 0, lowOff := 0 }

/-- A channel after power-on, with the level its driver-fault pin shows (R24, R104, R109). The chop edges hold OFF, which R24 does not
give; RESTART and SOFT_RESTART leave the old ones (DESIGN CHOICE, log 35). -/
def Channel.reset (faultActive : Bool) : Channel :=
  { state := .stopped, periodStart := none, periodCount := 0, stepIndex := 0, narrowCount := 0, tripCause := .none,
    tripInfo := 0, faultActive := faultActive, chop := .hold .off, driveSector := none, leg0 := Leg.reset,
    leg1 := Leg.reset, leg2 := Leg.reset }

/-- A plan slot after power-on (R49). -/
def PlanSlot.reset : PlanSlot :=
  { copy := [], state := .empty, tag := 0, kind := .next, nextTag := none }

/-- The reset values of a Hall Tracker (R67); the last edge instant is the model's choice (log 9). -/
def Tracker.reset : Tracker :=
  { state := .waitFirst, sector := none, lastEdge := 0, reference := .entry, duration := none, measured := 0,
    predictions := 0, examination := none, scheduled := none, timeout := none }

/-- A sector-map entry after power-on (R53). -/
def SectorEntry.reset : SectorEntry :=
  { leg0 := .float, leg1 := .float, leg2 := .float, successor := 0 }

/-- The settings of a motor after power-on (R177, R178). -/
def MotorSettings.reset : MotorSettings :=
  { carrierPeriod := 5000, minimumPulse := 80, deadTime := 80, safeState := .allOff, frameInterval := 1, ringHigh := 8,
    ringLow := 4, ringBase := 0, ringStride := 128, ringDepth := 16, ringPolicy := .drop, frameDoneMode := .written,
    frameDoneDelay := 0, minimumSector := 400, predictionLimit := 1, startTimeout := 7813, commutationDelay := 0,
    staleTimeout := 2000, sectorMap := Vector.replicate 6 SectorEntry.reset }

/-- A FREE half (R115). After power-on, SOFT_RESTART and a final flush the spec says only that the half is FREE and holds no
frame (R129, R135, R136): the 0 and `none` of its other fields, which no word shows, are the model's choice (DESIGN CHOICE, log 38). -/
def Half.reset : Half :=
  { state := .free, sequence := 0, tag := 0, countAtOpen := 0, ringSlot := 0, closeFlag := .none, full := false,
    positions := [], flushed := 0, stampWritten := false, request := .none, burst := false }

/-- A Frame Assembler after power-on (R136). -/
def FrameAssembler.reset : FrameAssembler :=
  { openFrame := none, half0 := Half.reset, half1 := Half.reset, nextSequence := 0, assigned := 0, produced := 0,
    consumed := 0, dropRun := false }

/-- The Calendar's counts of a motor after power-on (R91). -/
def CalendarMarks.reset : CalendarMarks :=
  { unplaced := 0, unplacedLogged := false, fullLogged := false }

/-- The attention items of a motor after power-on (R197). -/
def MotorAttention.reset : MotorAttention :=
  { frameDone := false, ringStale := false, tripped := false, ringHigh := false, staleTimer := none, records := [] }

/-- A motor's blocks after power-on, with the levels its pins show. -/
def MotorUnit.reset (faultActive : Bool) (hallCode : HallCode) : MotorUnit :=
  { settings := MotorSettings.reset, channel := Channel.reset faultActive, slotA := PlanSlot.reset,
    slotB := PlanSlot.reset, hallCode := hallCode, tracker := Tracker.reset, marks := CalendarMarks.reset,
    frames := FrameAssembler.reset, attention := MotorAttention.reset }

/-- A converter input after power-on (R109). -/
def InputRecord.reset : InputRecord :=
  { owner := .unused, lowLimit := 0, highLimit := 4095, tripCount := 0, consecutive := 0 }

/-- The device settings after power-on (R178). -/
def DeviceSettings.reset : DeviceSettings :=
  { tConv := 160, controllerWindow := 32, wakeTime := 8 }

/-- The Sample Calendar after power-on (R91). -/
def Calendar.reset : Calendar := { reservations := [], highWater := 0 }

/-- The Converter Port after power-on (R91). -/
def Converter.reset : Converter :=
  { state := .ready, requestTag := 0, failures := 0, resultTimer := none, requestSent := none }

/-- The IDLE Decoder record (R171, R172). -/
def Decoder.idle : Decoder :=
  { phase := .idle, refused := false, command := none, repeatPrefixDue := false, address := none, decision := none,
    snapshot := none, writeWords := [], first := none, count := 0, addressBytes := [], offset := 0, ramAnswers := false }

/-- The Upstream Port after power-on (R171, R172). -/
def Upstream.reset : Upstream :=
  { selectLow := false, repeatState := none, wrap := .off, readData := [] }

/-- The LINK-CLEAR byte takes 4 ticks (R147, R171). -/
def linkClearTicks : Nat := 4

/-- The Memory Port after the release of reset: its LINK-CLEAR is in flight until `due` (R171, R172). -/
def MemoryPort.reset (due : Option Instant) : MemoryPort :=
  { repeatSet := false, state := .awake, wakeTimer := none, linkClearDue := due,
    issued := if due.isSome then [[LinkCommand.code .linkClear]] else [] }

/-- A map entry after power-on (R161). -/
def MapEntry.reset : MapEntry := { bound := 0, kind := .pass, motor := .m0 }

/-- The Window Map after power-on, at the position the straps give (R160, R161). -/
def WindowMap.reset (position : BitVec 2) : WindowMap :=
  { position := position, active := Vector.replicate 8 MapEntry.reset, staging := Vector.replicate 8 MapEntry.reset }

/-- The Link Arbiter at the release of reset (R153). -/
def Arbiter.reset : Arbiter :=
  { state := .held, pointer := .m0, windowTimer := none, flight := none }

/-- The Fault Log after power-on (R190). -/
def FaultLog.reset : FaultLog := { entries := [], overflow := false, discarded := 0 }

/-- A RAM whose every byte reads as an unlisted one, awake, with the wrap setting OFF and out of repeat mode: the spec gives the RAM no
power-on values (DESIGN CHOICE, logs 10 and 11). -/
def Ram.reset : Ram := { cells := [], asleep := false, wrap := .off, repeatMode := false }

/-- The machine right after the release of reset (R171): every block at its power-on value, the arbiter HELD with READY
low, and the power-on LINK-CLEAR in flight. The straps select position 0, and the pins show inactive driver faults and
Hall code 0 (DESIGN CHOICE, log 8). -/
def State.reset : State :=
  { inReset := false, timebase := 0, placed := none, device := DeviceSettings.reset,
    inputs := Vector.replicate 16 InputRecord.reset,
    m0 := MotorUnit.reset false 0, m1 := MotorUnit.reset false 0, m2 := MotorUnit.reset false 0,
    calendar := Calendar.reset, converter := Converter.reset, decoder := Decoder.idle, upstream := Upstream.reset,
    port := MemoryPort.reset (some (BitVec.ofNat 32 linkClearTicks)), ram := Ram.reset, window := WindowMap.reset 0,
    arbiter := Arbiter.reset, log := FaultLog.reset, enables := 0, restartWaiting := false, freeCount := 0,
    pending := [] }

/-- Why the machine can stop. The spec gives the block no stop: every error is a log entry, a refusal by the part or a
trip, and the machine goes on (10, 01). No constructor, so no step ends in a fault. -/
inductive Fault where
deriving DecidableEq, Repr

/-- Why the model can decline a command. -/
inductive Refusal where
  /-- A command whose meaning is not written yet; raised by `exec` alone, safe. No arm of `exec` raises it now. -/
  | notModelled (mnemonic : String)
deriving DecidableEq, Repr

end Sys2Proof.Machine
end

