-- ==== Sys2Proof/Machine/Ops.lean ====
section
/-! DEFINITION. The shared operations: instants, memory, access to the blocks of a motor, the Fault Log, and the RAM on
the memory port. -/
namespace Sys2Proof

/-! ### Names -/

/-- The number of a motor (11.2). -/
def Motor.number : Motor → Nat
  | .m0 => 0
  | .m1 => 1
  | .m2 => 2

/-- The motor after this one, counted modulo 3 (R144). -/
def Motor.following : Motor → Motor
  | .m0 => .m1
  | .m1 => .m2
  | .m2 => .m0

/-- The other motors, in motor-number order. -/
def Motor.others : Motor → List Motor
  | .m0 => [.m1, .m2]
  | .m1 => [.m0, .m2]
  | .m2 => [.m0, .m1]

/-- The other plan slot of a motor. -/
def SlotName.other : SlotName → SlotName
  | .a => .b
  | .b => .a

end Sys2Proof

namespace Sys2Proof.Machine

/-! ### Instants (00 "Timebase and instants", log 18) -/

/-- `due` is not after `now`, by the wrapping difference read as a signed number. -/
def reached (due now : Instant) : Bool := !(now - due).msb

/-- An armed timer whose instant has arrived. -/
def timerDue (timer : Option Instant) (now : Instant) : Bool :=
  match timer with
  | none => false
  | some due => reached due now

/-- The instant `n` ticks after `t`. -/
def after (t : Instant) (n : Nat) : Instant := t + BitVec.ofNat 32 n

/-- The ticks from `a` to `b`, read as an unsigned difference. -/
def elapsed (a b : Instant) : Nat := (b - a).toNat

/-- The signed distance from `a` to `b`. -/
def offsetFrom (a b : Instant) : Int := (b - a).toInt

/-- A 16-bit count that stops at 65535 (R16, R75). -/
def satInc (c : Short) : Short := if c = 65535 then c else c + 1

/-! ### Memory (logs 10 and 11) -/

/-- The byte at an address; an unlisted one reads 0. -/
def Memory.read : Memory → Nat → Byte
  | [], _ => 0
  | (a, b) :: rest, x => if x = a then b else Memory.read rest x

/-- Stores a byte and keeps the canonical form: a stored 0 leaves no entry. -/
def Memory.write : Memory → Nat → Byte → Memory
  | [], x, v => if v = 0 then [] else [(x, v)]
  | (a, b) :: rest, x, v =>
    if x < a then
      if v = 0 then (a, b) :: rest else (x, v) :: (a, b) :: rest
    else if x = a then
      if v = 0 then rest else (a, v) :: rest
    else (a, b) :: Memory.write rest x v

/-- Every listed address is above `low`. -/
def Memory.above (low : Nat) : Memory → Bool
  | [] => true
  | (a, _) :: _ => decide (low < a)

/-- The canonical form: addresses strictly rising, no entry equal to an unlisted one's 0. -/
def Memory.wf : Memory → Bool
  | [] => true
  | (a, b) :: rest => decide (b ≠ 0) && Memory.above a rest && Memory.wf rest

/-- Stores bytes at successive offsets of a row, continuing at offset 0 after offset 255 (R27, R156). -/
def Memory.writeRow (row off : Nat) : List Byte → Memory → Memory
  | [], m => m
  | b :: rest, m => Memory.writeRow row (off + 1) rest (Memory.write m (row * 256 + off % 256) b)

/-! ### Access to the blocks of a motor -/

/-- The blocks of a motor. -/
def State.motor (s : State) : Motor → MotorUnit
  | .m0 => s.m0
  | .m1 => s.m1
  | .m2 => s.m2

/-- Replaces the blocks of a motor. -/
def State.setMotor (s : State) (m : Motor) (u : MotorUnit) : State :=
  match m with
  | .m0 => { s with m0 := u }
  | .m1 => { s with m1 := u }
  | .m2 => { s with m2 := u }

/-- Changes the blocks of a motor. -/
def State.onMotor (s : State) (m : Motor) (f : MotorUnit → MotorUnit) : State :=
  s.setMotor m (f (s.motor m))

/-- Changes the blocks of every motor. -/
def State.onMotors (s : State) (f : MotorUnit → MotorUnit) : State :=
  { s with m0 := f s.m0, m1 := f s.m1, m2 := f s.m2 }

/-- A slot of a motor. -/
def MotorUnit.slot (u : MotorUnit) : SlotName → PlanSlot
  | .a => u.slotA
  | .b => u.slotB

/-- Replaces a slot of a motor. -/
def MotorUnit.setSlot (u : MotorUnit) (n : SlotName) (p : PlanSlot) : MotorUnit :=
  match n with
  | .a => { u with slotA := p }
  | .b => { u with slotB := p }

/-- Changes a slot of a motor. -/
def MotorUnit.onSlot (u : MotorUnit) (n : SlotName) (f : PlanSlot → PlanSlot) : MotorUnit :=
  u.setSlot n (f (u.slot n))

/-- The slot of a motor in a given state; a motor has at most one PENDING and one ACTIVE slot (R26). -/
def MotorUnit.slotIn (u : MotorUnit) (st : SlotState) : Option SlotName :=
  if u.slotA.state = st then some .a else if u.slotB.state = st then some .b else none

/-- The ACTIVE slot of a motor. -/
def MotorUnit.activeSlot (u : MotorUnit) : Option SlotName := u.slotIn .active

/-- The PENDING slot of a motor. -/
def MotorUnit.pendingSlot (u : MotorUnit) : Option SlotName := u.slotIn .pending

/-- A leg of a channel. -/
def Channel.leg (c : Channel) : LegName → Leg
  | .leg0 => c.leg0
  | .leg1 => c.leg1
  | .leg2 => c.leg2

/-- Replaces a leg of a channel. -/
def Channel.setLeg (c : Channel) (n : LegName) (l : Leg) : Channel :=
  match n with
  | .leg0 => { c with leg0 := l }
  | .leg1 => { c with leg1 := l }
  | .leg2 => { c with leg2 := l }

/-- Changes every leg of a channel. -/
def Channel.onLegs (c : Channel) (f : Leg → Leg) : Channel :=
  { c with leg0 := f c.leg0, leg1 := f c.leg1, leg2 := f c.leg2 }

/-- A half of a Frame Assembler. -/
def FrameAssembler.half (a : FrameAssembler) : HalfName → Half
  | .half0 => a.half0
  | .half1 => a.half1

/-- Replaces a half of a Frame Assembler. -/
def FrameAssembler.setHalf (a : FrameAssembler) (n : HalfName) (h : Half) : FrameAssembler :=
  match n with
  | .half0 => { a with half0 := h }
  | .half1 => { a with half1 := h }

/-- Changes a half of a Frame Assembler. -/
def FrameAssembler.onHalf (a : FrameAssembler) (n : HalfName) (f : Half → Half) : FrameAssembler :=
  a.setHalf n (f (a.half n))

/-- Changes the Frame Assembler of a motor. -/
def MotorUnit.onFrames (u : MotorUnit) (f : FrameAssembler → FrameAssembler) : MotorUnit :=
  { u with frames := f u.frames }

/-- The record of a converter input. -/
def State.inputRecord (s : State) (i : InputNumber) : InputRecord := s.inputs.get i.toFin

/-- Replaces the record of a converter input. -/
def State.setInput (s : State) (i : InputNumber) (r : InputRecord) : State :=
  { s with inputs := s.inputs.set i.toNat r i.isLt }

/-- Every motor is STOPPED: the device guard (00 "Setting classes", R176). -/
def State.allStopped (s : State) : Bool :=
  s.m0.channel.state = .stopped && s.m1.channel.state = .stopped && s.m2.channel.state = .stopped

/-! ### When a command is taken -/

/-- Time moves to an instant, at which, where it is another, no motor has placed yet (R76, log 27). -/
def State.moveTo (s : State) (i : Instant) : State :=
  { s with timebase := i, placed := if i = s.timebase then s.placed else none }

/-- Time moves on to the instant at which a command is taken; it never runs back (log 1). -/
def State.atInstant (s : State) (t : Instant) : State := if reached s.timebase t then s.moveTo t else s

/-- Takes a command at the instant `t`. While the reset pin is asserted the part acts on none (R171). -/
def State.act (t : Instant) (f : State → State) (s : State) : Host.Outcome State Fault Refusal :=
  .next (if s.inReset then s else f (s.atInstant t))

/-! ### The Fault Log (R186, R187) -/

/-- The trip class (R187). -/
def LogCode.tripClass : LogCode → Bool
  | .converterLost | .limitTrip | .driverFault | .hallInvalid | .hallStall => true
  | _ => false

/-- The number of a log code (11.4). -/
def LogCode.number : LogCode → Nat
  | .startRefused => 0x01
  | .restartRefused => 0x02
  | .commitRefused => 0x03
  | .settingRefused => 0x04
  | .consumeRefused => 0x05
  | .planCheck => 0x10
  | .planShape => 0x11
  | .planEdge => 0x12
  | .planSample => 0x13
  | .hallMap => 0x14
  | .planGuardedWrite => 0x15
  | .hallReverse => 0x20
  | .hallSkip => 0x21
  | .hallInvalid => 0x22
  | .hallStall => 0x23
  | .sampleUnplaced => 0x30
  | .calendarFull => 0x31
  | .converterMismatch => 0x32
  | .converterTimeout => 0x33
  | .converterLost => 0x34
  | .limitTrip => 0x35
  | .driverFault => 0x36
  | .frameLost => 0x40
  | .ringFullDrop => 0x41
  | .ringOverwrite => 0x42
  | .frameFull => 0x43
  | .resultWriteRefused => 0x50
  | .sleepRefused => 0x51
  | .mapInvalid => 0x52
  | .linkViolation => 0x53

/-- The list without its newest non-trip entry, none where every entry is of trip class (R187). -/
def dropNewestNonTrip : List LogEntry → Option (List LogEntry)
  | [] => none
  | e :: rest =>
    match dropNewestNonTrip rest with
    | some rest' => some (e :: rest')
    | none => if e.code.tripClass then none else some rest

/-- The capacity of the Fault Log (R186). -/
def logCapacity : Nat := 16

/-- Counts a discard: the overflow flag is set, and the count stops at 255 (R187). -/
def FaultLog.discard (l : FaultLog) : FaultLog :=
  { l with overflow := true, discarded := min 255 (l.discarded + 1) }

/-- Adds an entry (R187). -/
def FaultLog.add (l : FaultLog) (e : LogEntry) : FaultLog :=
  if !l.overflow && decide (l.entries.length < logCapacity) then
    { l with entries := l.entries ++ [e] }
  else if e.code.tripClass then
    match dropNewestNonTrip l.entries with
    | some kept => { l.discard with entries := kept ++ [e] }
    | none => l.discard
  else l.discard

/-- Adds an entry for a motor, stamped with its period count (R186). -/
def State.logMotor (s : State) (m : Motor) (code : LogCode) (info : Short) : State :=
  { s with log := s.log.add ⟨code, .motor m, info, (s.motor m).channel.periodCount⟩ }

/-- Adds an entry for DEVICE, stamped with the timebase (R186). -/
def State.logDevice (s : State) (code : LogCode) (info : Short) : State :=
  { s with log := s.log.add ⟨code, .device, info, s.timebase⟩ }

/-- An info field of an upper and a lower byte (11.4). -/
def infoPair (upper lower : Nat) : Short := BitVec.ofNat 16 (upper * 256 + lower)

/-- The number of a named info value (11.4). -/
def InfoName.info : InfoName → Short
  | .state => 1
  | .noPending => 2
  | .converter => 3
  | .memory => 4
  | .faultActive => 5
  | .ring => 6
  | .plan => 7
  | .hallMap => 8
  | .flushPending => 9
  | .slotPending => 10
  | .otherPending => 11
  | .timeout => 12
  | .mismatch => 13

/-! ### The RAM on the memory port (R156, log 11) -/

/-- The RAM acts on what it is sent: it is awake, and not in a repeat mode that would take the bytes for an address. -/
def Ram.listens (r : Ram) : Bool := !r.asleep && !r.repeatMode

/-- A WRITE reaches the RAM: whole bytes at successive addresses of the row of the address (R156). -/
def Ram.store (r : Ram) (a : Addr) (data : List Byte) : Ram :=
  if r.listens then { r with cells := Memory.writeRow (a.toNat / 256) (a.toNat % 256) data r.cells } else r

/-- A LINK-CLEAR reaches the RAM (R156). -/
def Ram.clearRepeat (r : Ram) : Ram := if r.asleep then r else { r with repeatMode := false }

/-- A SLEEP reaches the RAM (R156). -/
def Ram.sleep (r : Ram) : Ram := if r.listens then { r with asleep := true } else r

/-- The RAM as the end of a transaction on the memory port leaves it, by the record of the transaction (R155, R156): it takes a SLEEP that
was forwarded, and a LINK-CLEAR that is the one byte of its transaction. Every other transaction has had its effect at its bytes, or at
the end of the wake time. -/
def Decoder.endsOn (d : Decoder) (r : Ram) : Ram :=
  match d.command with
  | some (.known .sleep) => if d.decision = some .forwarded then r.sleep else r
  | some (.known .linkClear) => if d.offset = 0 then r.clearRepeat else r
  | some (.repeated _) => if d.addressBytes = [LinkCommand.code .linkClear] ∧ d.repeatPrefixDue = false then r.clearRepeat else r
  | _ => r

end Sys2Proof.Machine
end

