-- ==== Sys2Proof/Machine/Operands.lean ====
section
/-! DEFINITION. The fields of the records and words: the plan record (11.1, R198), the sector map (R52), and the words of
the part window (11.3, R200). -/
namespace Sys2Proof.Machine

/-! ### The plan record, read from a captured copy (R198) -/

/-- The byte of a record at an offset. -/
def planByte (c : Memory) (o : Nat) : Nat := (Memory.read c o).toNat

/-- The little-endian 16-bit field of a record at an offset. -/
def planShort (c : Memory) (o : Nat) : Nat := planByte c o + 256 * planByte c (o + 1)

/-- The record length (R30). -/
def planLength (c : Memory) : Nat := planByte c 0

/-- The step count (R30). -/
def planSteps (c : Memory) : Nat := planByte c 1

/-- The drive mode byte: 0 PLAN, 1 HALL (11.1). -/
def planModeByte (c : Memory) : Nat := planByte c 2

/-- The end action byte: 0 REPEAT_LAST, 1 LOOP, 2 END_STOP (11.1). -/
def planEndByte (c : Memory) : Nat := planByte c 3

/-- The plan's drive mode is HALL (R30). -/
def planIsHall (c : Memory) : Bool := planModeByte c == 1

/-- The sample count of the step at an offset (R31). -/
def stepSamples (c : Memory) (o : Nat) : Nat := planByte c (o + 3)

/-- The offset after the step at an offset: 16 bytes and 8 for each request (R36). -/
def stepEnd (c : Memory) (o : Nat) : Nat := o + 16 + 8 * stepSamples c o

/-- The offset of a step, walking from offset 4 (R46). -/
def stepOffset (c : Memory) : Nat → Nat
  | 0 => 4
  | k + 1 => stepEnd c (stepOffset c k)

/-- A leg-mode byte by its two lowest bits (R198). -/
def legModeOf (b : Nat) : LegMode :=
  match b % 4 with
  | 0 => .float
  | 1 => .low
  | 2 => .high
  | _ => .pwm

/-- Leg `i` of the step at an offset (11.1). -/
def legPlanAt (c : Memory) (o i : Nat) : LegPlan :=
  { mode := legModeOf (planByte c (o + i)), rise := planShort c (o + 4 + 4 * i), fall := planShort c (o + 6 + 4 * i) }

/-- The sample request at an offset; input and purpose by their four lowest bits (R198). -/
def requestAt (c : Memory) (o : Nat) : SampleRequest :=
  { input := BitVec.ofNat 4 (planByte c o), purpose := BitVec.ofNat 4 (planByte c (o + 1)),
    target := planShort c (o + 2), earliest := planShort c (o + 4), latest := planShort c (o + 6) }

/-- The step at an offset (11.1). -/
def stepAt (c : Memory) (o : Nat) : PlanStep :=
  { leg0 := legPlanAt c o 0, leg1 := legPlanAt c o 1, leg2 := legPlanAt c o 2,
    requests := (List.range (stepSamples c o)).map fun i => requestAt c (o + 16 + 8 * i) }

/-- The step of an index (R46). -/
def planStep (c : Memory) (k : Nat) : PlanStep := stepAt c (stepOffset c k)

/-- The steps of a plan, in order. -/
def planStepList (c : Memory) : List PlanStep := (List.range (planSteps c)).map (planStep c)

/-! ### The sector map (R52) -/

/-- The valid Hall codes 1 to 6 (R52). -/
def validCode (c : HallCode) : Bool := c != 0 && c != 7

/-- The entry of a Hall code; codes 0 and 7 have none (R52). -/
def MotorSettings.sectorEntry (st : MotorSettings) (c : HallCode) : Option SectorEntry :=
  if validCode c then st.sectorMap[c.toNat - 1]? else none

/-- The forward successor of a code (R52). -/
def MotorSettings.successor (st : MotorSettings) (c : HallCode) : HallCode :=
  match st.sectorEntry c with
  | some e => e.successor
  | none => 0

/-- The role of a leg in an entry. -/
def SectorEntry.role (e : SectorEntry) : LegName → LegRole
  | .leg0 => e.leg0
  | .leg1 => e.leg1
  | .leg2 => e.leg2

/-- The roles of an entry, in leg order. -/
def SectorEntry.roles (e : SectorEntry) : List LegRole := [e.leg0, e.leg1, e.leg2]

/-- One leg in each role (R52, item 1). -/
def SectorEntry.oneEach (e : SectorEntry) : Bool :=
  e.roles.count .chop == 1 && e.roles.count .low == 1 && e.roles.count .float == 1

/-- The codes met by following the successor from a code, `n` times (R52, item 2). -/
def MotorSettings.successorPath (st : MotorSettings) : Nat → HallCode → List HallCode
  | 0, _ => []
  | n + 1, c => st.successor c :: st.successorPath n (st.successor c)

/-- The sector map is valid (R52): one leg in each role in every entry, and the successors form one cycle from code 1
through all six codes. -/
def MotorSettings.mapValid (st : MotorSettings) : Bool :=
  st.sectorMap.toList.all SectorEntry.oneEach &&
    (([1, 2, 3, 4, 5, 6] : List HallCode).all fun c => (st.successorPath 6 1).contains c) &&
    (st.successorPath 6 1).getLast? == some 1

/-! ### Numbers of named values, as the words of 11.3 show them -/

/-- The number of a channel state. -/
def ChannelState.number : ChannelState → Nat
  | .stopped => 0
  | .running => 1
  | .stopping => 2
  | .tripped => 3

/-- A trip cause as a log code number, 0 for NONE. -/
def TripCause.number : TripCause → Nat
  | .none => 0
  | .converterLost => LogCode.number .converterLost
  | .limitTrip => LogCode.number .limitTrip
  | .driverFault => LogCode.number .driverFault
  | .hallInvalid => LogCode.number .hallInvalid
  | .hallStall => LogCode.number .hallStall

/-- The number of a slot state. -/
def SlotState.number : SlotState → Nat
  | .empty => 0
  | .inactive => 1
  | .pending => 2
  | .active => 3

/-- A slot as an active or pending slot field: 1 A, 2 B. -/
def SlotName.fieldNumber : Option SlotName → Nat
  | none => 0
  | some .a => 1
  | some .b => 2

/-- A slot in an info field: 0 A, 1 B (11.4). -/
def SlotName.infoNumber : SlotName → Nat
  | .a => 0
  | .b => 1

/-- The number of a tracker state. -/
def TrackerState.number : TrackerState → Nat
  | .waitFirst => 0
  | .tracking => 1
  | .predicting => 2

/-- A sector or 0 where there is none. -/
def sectorNumber (c : Option HallCode) : Nat :=
  match c with
  | none => 0
  | some c => c.toNat

/-- The number of a half state. -/
def HalfState.number : HalfState → Nat
  | .free => 0
  | .opened => 1
  | .closing => 2
  | .closed => 3

/-- The number of a memory state. -/
def MemoryState.number : MemoryState → Nat
  | .awake => 0
  | .asleep => 1
  | .waking => 2

/-- The number of an entry status (11.2). -/
def EntryStatus.number : EntryStatus → Nat
  | .ok => 0
  | .limit => 1
  | .missed => 2
  | .failed => 3

/-- The number of an input owner. -/
def InputOwner.number : InputOwner → Nat
  | .motor m => m.number
  | .shared => 3
  | .unused => 4

/-- The motor field of a log entry: 3 DEVICE. -/
def LogSource.number : LogSource → Nat
  | .motor m => m.number
  | .device => 3

/-- The number of a row kind. -/
def RowKind.number : RowKind → Nat
  | .pass => 0
  | .plan => 1
  | .result => 2

/-- The number of a leg role. -/
def LegRole.number : LegRole → Nat
  | .float => 0
  | .low => 1
  | .chop => 2

/-- The number of a FRAME_DONE mode. -/
def FrameDoneMode.number : FrameDoneMode → Nat
  | .written => 0
  | .delay => 1
  | .either => 2
  | .both => 3

/-! ### Fields of written words (11.3, R200) -/

/-- The field of `len` bits at bit `lo` of a word. -/
def field (v : Word) (lo len : Nat) : Nat := (v.extractLsb' lo len).toNat

/-- A motor code of two bits; 3 names none. -/
def motorOf (n : Nat) : Option Motor :=
  match n with
  | 0 => some .m0
  | 1 => some .m1
  | 2 => some .m2
  | _ => none

/-- An owner code; 5 to 7 name none. -/
def ownerOf (n : Nat) : Option InputOwner :=
  match n with
  | 0 => some (.motor .m0)
  | 1 => some (.motor .m1)
  | 2 => some (.motor .m2)
  | 3 => some .shared
  | 4 => some .unused
  | _ => none

/-- A row kind code; 3 names none. -/
def rowKindOf (n : Nat) : Option RowKind :=
  match n with
  | 0 => some .pass
  | 1 => some .plan
  | 2 => some .result
  | _ => none

/-- A leg role code; 3 names none. -/
def roleOf (n : Nat) : Option LegRole :=
  match n with
  | 0 => some .float
  | 1 => some .low
  | 2 => some .chop
  | _ => none

/-- A FRAME_DONE mode code of two bits. -/
def frameDoneModeOf (n : Nat) : FrameDoneMode :=
  match n with
  | 0 => .written
  | 1 => .delay
  | 2 => .either
  | _ => .both

/-- An input setting word, with the range checks of R96; the consecutive count becomes 0. -/
def inputWordOf (v : Word) : Option InputRecord :=
  match ownerOf (field v 24 3) with
  | none => none
  | some owner =>
    if field v 27 3 ≤ 4 ∧ field v 0 12 ≤ field v 12 12 then
      some { owner := owner, lowLimit := v.extractLsb' 0 12, highLimit := v.extractLsb' 12 12,
             tripCount := field v 27 3, consecutive := 0 }
    else none

/-- A staging word, with the range checks of R161. -/
def stagingWordOf (v : Word) : Option MapEntry :=
  match rowKindOf (field v 20 2), motorOf (field v 24 2) with
  | some kind, some motor => if field v 0 17 ≤ 65536 then some { bound := field v 0 17, kind := kind, motor := motor } else none
  | _, _ => none

/-- A sector-map word (R53): the roles are names, the successor any code. -/
def sectorWordOf (v : Word) : Option SectorEntry :=
  match roleOf (field v 0 2), roleOf (field v 2 2), roleOf (field v 4 2) with
  | some r0, some r1, some r2 => some { leg0 := r0, leg1 := r1, leg2 := r2, successor := v.extractLsb' 8 3 }
  | _, _, _ => none

end Sys2Proof.Machine
end

