-- ==== Sys2Proof/Machine/Flags.lean ====
section
/-! DEFINITION. The attention flags (chapter 10): frame-done records, ring-high state, stale timer, the pending causes and
the attention output; and the outputs that are functions of the state. -/
namespace Sys2Proof.Machine

/-! ### FRAME_DONE (R193) -/

/-- A record's mode is met (R193). -/
def FrameDoneRecord.met (r : FrameDoneRecord) : Bool :=
  match r.mode with
  | .written => r.written
  | .delay => r.delayOver
  | .either => r.written || r.delayOver
  | .both => r.written && r.delayOver

/-- Latches FRAME_DONE for every record whose mode is met, and removes it (R193). -/
def MotorAttention.settleRecords (a : MotorAttention) : MotorAttention :=
  { a with frameDone := a.frameDone || a.records.any FrameDoneRecord.met,
           records := a.records.filter fun r => !r.met }

/-- The most frame-done records of a motor (R193). -/
def recordCapacity : Nat := 8

/-- Makes room for a record: with 8 in the list the oldest is removed and latches FRAME_DONE (R193). -/
def MotorAttention.makeRoom (a : MotorAttention) : MotorAttention :=
  if a.records.length < recordCapacity then a else { a with frameDone := true, records := a.records.drop 1 }

/-- The frame-closed event of a frame: its record joins the list (R193). -/
def MotorUnit.frameClosedEvent (now : Instant) (seq : Short) (u : MotorUnit) : MotorUnit :=
  let r : FrameDoneRecord :=
    { sequence := seq, mode := u.settings.frameDoneMode, due := after now u.settings.frameDoneDelay,
      delayOver := u.settings.frameDoneDelay == 0, written := false }
  let a := u.attention.makeRoom
  { u with attention := MotorAttention.settleRecords { a with records := a.records ++ [r] } }

/-- The frame-written event of a frame (R193). -/
def MotorAttention.frameWrittenEvent (seq : Short) (a : MotorAttention) : MotorAttention :=
  MotorAttention.settleRecords
    { a with records := a.records.map fun (r : FrameDoneRecord) => if r.sequence = seq then { r with written := true } else r }

/-- A record whose due instant has arrived and whose delay is not yet over. -/
def FrameDoneRecord.fallsDue (now : Instant) (r : FrameDoneRecord) : Bool := !r.delayOver && reached r.due now

/-- Ends the delay of the oldest record whose due instant has arrived (R193, log 19). -/
def endFirstDelay (now : Instant) : List FrameDoneRecord → List FrameDoneRecord
  | [] => []
  | r :: rest => if r.fallsDue now then { r with delayOver := true } :: rest else r :: endFirstDelay now rest

/-! ### RING_HIGH and RING_STALE (R195, R196) -/

/-- The motor's fill, produced − consumed (R132). -/
def FrameAssembler.fill (a : FrameAssembler) : Nat := (a.produced - a.consumed).toNat

/-- Units of 1024 ticks (00 "Tick"). -/
def longUnit : Nat := 1024

/-- The ring-high state after an evaluation (R195). -/
def MotorUnit.ringHighAfter (u : MotorUnit) : Bool :=
  if u.settings.ringHigh ≤ u.frames.fill then true
  else if u.frames.fill ≤ u.settings.ringLow then false
  else u.attention.ringHigh

/-- Fill is above 0 and below the ring high level (R196). -/
def MotorUnit.staleRange (u : MotorUnit) : Bool :=
  decide (0 < u.frames.fill) && decide (u.frames.fill < u.settings.ringHigh)

/-- A fresh start of the stale timer (R196). -/
def MotorUnit.freshStale (now : Instant) (u : MotorUnit) : Option Instant :=
  some (after now (longUnit * u.settings.staleTimeout))

/-- The evaluation at a change of produced or consumed, or at a setting of the counters to 0 (R195, R196). -/
def MotorUnit.countersChanged (now : Instant) (u : MotorUnit) : MotorUnit :=
  { u with attention :=
      { u.attention with ringHigh := u.ringHighAfter,
                         staleTimer := if u.staleRange then u.freshStale now else none } }

/-- The evaluation at an accepted write of the ring-levels word: a running timer keeps its expiry (R195, R196). -/
def MotorUnit.levelsChanged (now : Instant) (u : MotorUnit) : MotorUnit :=
  { u with attention :=
      { u.attention with ringHigh := u.ringHighAfter,
                         staleTimer :=
                           if u.staleRange then
                             (if u.attention.staleTimer.isSome then u.attention.staleTimer else u.freshStale now)
                           else none } }

/-! ### The causes and the output (R191, 11.3) -/

/-- The four causes of a motor as a number: FRAME_DONE, RING_HIGH, RING_STALE, TRIPPED from bit 0 up. -/
def MotorAttention.causes (a : MotorAttention) : Nat :=
  a.frameDone.toNat + 2 * a.ringHigh.toNat + 4 * a.ringStale.toNat + 8 * a.tripped.toNat

/-- The fourteen causes pending, in the bit order of the attention-pending word (R191, 11.3). -/
def State.pendingCauses (s : State) : BitVec 14 :=
  BitVec.ofNat 14 (s.m0.attention.causes + 16 * s.m1.attention.causes + 256 * s.m2.attention.causes
    + 4096 * (!s.log.entries.isEmpty).toNat + 8192 * s.log.overflow.toNat)

/-- The attention output is active: a cause is both pending and enabled (R191); it stays inactive through reset (R197). -/
def State.attentionOutput (s : State) : Bool := !s.inReset && (s.pendingCauses &&& s.enables) != 0

/-- Clears the latched causes of a motor whose bits are written as one; RING_HIGH's bit is ignored (R192). -/
def MotorAttention.clearLatched (bits : Nat) (a : MotorAttention) : MotorAttention :=
  { a with frameDone := a.frameDone && !bits.testBit 0, ringStale := a.ringStale && !bits.testBit 2,
           tripped := a.tripped && !bits.testBit 3 }

/-! ### READY (R139, R169, R171) -/

/-- READY: high while the arbiter is OPEN or CONTROLLER, low in FLUSH, in HELD and in reset. -/
def State.ready (s : State) : Bool :=
  !s.inReset && (s.arbiter.state = .openLink || s.arbiter.state = .controller)

/-! ### LOG_POP, LOG_CLEAR_OVERFLOW and ATTENTION_PENDING_WRITE -/

/-- Removes the oldest entry; an empty log is left as it is (R188). -/
def State.popLog (s : State) : State := { s with log := { s.log with entries := s.log.entries.drop 1 } }

/-- Clears the overflow flag and the discarded count (R189). -/
def State.clearLogOverflow (s : State) : State :=
  { s with log := { s.log with overflow := false, discarded := 0 } }

/-- A write of the attention-pending word (R192). -/
def State.clearCauses (v : Word) (s : State) : State :=
  { s with
    m0 := { s.m0 with attention := s.m0.attention.clearLatched (field v 0 4) }
    m1 := { s.m1 with attention := s.m1.attention.clearLatched (field v 4 4) }
    m2 := { s.m2 with attention := s.m2.attention.clearLatched (field v 8 4) } }

/-- LOG_POP (R188). -/
def execLogPop (t : Instant) (s : State) : Host.Outcome State Fault Refusal := State.act t State.popLog s

/-- LOG_CLEAR_OVERFLOW (R189). -/
def execLogClearOverflow (t : Instant) (s : State) : Host.Outcome State Fault Refusal :=
  State.act t State.clearLogOverflow s

/-- ATTENTION_PENDING_WRITE (R192). -/
def execAttentionPendingWrite (v : Word) (t : Instant) (s : State) : Host.Outcome State Fault Refusal :=
  State.act t (State.clearCauses v) s

/-- The due instant of a frame-done record of a motor (R193). -/
def MotorUnit.recordDue (now : Instant) (u : MotorUnit) : MotorUnit :=
  if u.attention.records.any (FrameDoneRecord.fallsDue now) then
    { u with attention :=
        MotorAttention.settleRecords { u.attention with records := endFirstDelay now u.attention.records } }
  else u

/-- FRAME_DONE_DUE (R193): where no record falls due, nothing changes (log 2). -/
def execFrameDoneDue (m : Motor) (t : Instant) (s : State) : Host.Outcome State Fault Refusal :=
  State.act t (fun s => s.onMotor m (MotorUnit.recordDue s.timebase)) s

/-- The stale timer of a motor expires (R196). -/
def MotorUnit.staleExpires (u : MotorUnit) : MotorUnit :=
  { u with attention := { u.attention with ringStale := true, staleTimer := none } }

/-- STALE_TIMER_EXPIRY (R196): an expiry takes place only where the timer's instant has arrived (log 2). -/
def execStaleTimerExpiry (m : Motor) (t : Instant) (s : State) : Host.Outcome State Fault Refusal :=
  State.act t (fun s =>
    if timerDue (s.motor m).attention.staleTimer s.timebase then s.onMotor m MotorUnit.staleExpires else s) s

end Sys2Proof.Machine
end

