-- ==== Sys2Proof/Machine/Gates.lean ====
section
/-! DEFINITION. Legs, dead time and narrow pulses (1.6), and the commands GATE_EDGE and DEAD_TIME_TURN_ON. -/
namespace Sys2Proof.Machine

/-! ### One leg -/

/-- The high side turns off, at once, if it is on (R14). -/
def Leg.cutHigh (now : Instant) (l : Leg) : Leg :=
  if l.highOn then { l with highOn := false, highOff := now } else l

/-- The low side turns off, at once, if it is on (R14). -/
def Leg.cutLow (now : Instant) (l : Leg) : Leg :=
  if l.lowOn then { l with lowOn := false, lowOff := now } else l

/-- The last turn-off of the side that is not commanded (R14). -/
def Leg.otherOff (l : Leg) : Instant :=
  match l.command with
  | .highSide => l.lowOff
  | .lowSide => l.highOff
  | .off => l.highOff

/-- The commanded side turns on. -/
def Leg.turnOnNow (l : Leg) : Leg :=
  match l.command with
  | .highSide => { l with highOn := true, turnOn := none }
  | .lowSide => { l with lowOn := true, turnOn := none }
  | .off => { l with turnOn := none }

/-- The commanded side turns on at the later of now and the other side's last turn-off plus the dead time (R14); the
time since that turn-off is an unsigned difference (log 18). -/
def Leg.turnOnLater (dead : Nat) (now : Instant) (l : Leg) : Leg :=
  if dead ≤ elapsed l.otherOff now then l.turnOnNow else { l with turnOn := some (after l.otherOff dead) }

/-- A leg's command becomes `c` (R14). A turn-on still waiting for the old command does not take place. -/
def Leg.setCommand (dead : Nat) (now : Instant) (c : LegCommand) (l : Leg) : Leg :=
  if c = l.command then l
  else
    match c with
    | .off => { (l.cutHigh now).cutLow now with command := .off, turnOn := none }
    | .highSide => Leg.turnOnLater dead now { (l.cutHigh now).cutLow now with command := .highSide, turnOn := none }
    | .lowSide => Leg.turnOnLater dead now { (l.cutHigh now).cutLow now with command := .lowSide, turnOn := none }

/-- The command at offset `p` of the period (R13). -/
def LegDrive.commandAt (d : LegDrive) (p : Nat) : LegCommand :=
  match d with
  | .hold c => c
  | .pulse rise fall => if rise ≤ p ∧ p < fall then .highSide else .lowSide

/-- The edge after offset `p` of the period that starts at `b`: the fall is an edge where it lies before the period's
end (R13). -/
def LegDrive.edgeAfter (d : LegDrive) (b : Instant) (period p : Nat) : Option LegEdge :=
  match d with
  | .hold _ => none
  | .pulse rise fall =>
    if p < rise then some { due := after b rise, command := .highSide }
    else if p < fall ∧ fall < period then some { due := after b fall, command := .lowSide }
    else none

/-- A leg takes a drive at the instant `now` of the period that starts at `b` (R13). -/
def Leg.follow (dead : Nat) (now b : Instant) (period : Nat) (d : LegDrive) (l : Leg) : Leg :=
  { Leg.setCommand dead now (d.commandAt (elapsed b now)) l with
    drive := d, nextEdge := d.edgeAfter b period (elapsed b now) }

/-- A leg takes a command and follows no edge. -/
def Leg.park (dead : Nat) (now : Instant) (c : LegCommand) (l : Leg) : Leg :=
  { Leg.setCommand dead now c l with drive := .hold c, nextEdge := none }

/-- The leg's next edge is taken: its command, and the fall edge after a rise (R13). -/
def Leg.takeEdge (dead : Nat) (now b : Instant) (period : Nat) (e : LegEdge) (l : Leg) : Leg :=
  let l' := Leg.setCommand dead now e.command l
  match e.command, l.drive with
  | .highSide, .pulse _ fall =>
    { l' with nextEdge := if fall < period then some { due := after b fall, command := .lowSide } else none }
  | _, _ => { l' with nextEdge := none }

/-! ### Narrow pulses (R15) -/

/-- The drive of a pulse after narrow-pulse substitution, and whether a substitution was made (R15). -/
def narrowPulse (period minimum rise fall : Nat) : LegDrive × Bool :=
  if fall - rise < minimum then (.hold .lowSide, true)
  else if period - (fall - rise) < minimum then (.hold .highSide, true)
  else (.pulse rise fall, false)

/-- The drive of a leg of a PLAN-mode step (R13, R15). -/
def LegPlan.drive (period minimum : Nat) (l : LegPlan) : LegDrive × Bool :=
  match l.mode with
  | .float => (.hold .off, false)
  | .low => (.hold .lowSide, false)
  | .high => (.hold .highSide, false)
  | .pwm => narrowPulse period minimum l.rise l.fall

/-- The drive of a role: CHOP follows the chop edges (R12, R13). -/
def LegRole.drive (chop : LegDrive) : LegRole → LegDrive
  | .float => .hold .off
  | .low => .hold .lowSide
  | .chop => chop

/-- Raises the narrow-pulse count where a substitution was made (R16). -/
def countNarrow (substituted : Bool) (c : Short) : Short := if substituted then satInc c else c

/-! ### The legs of a channel -/

/-- The channel's active plan, as its captured copy. -/
def MotorUnit.activePlan (u : MotorUnit) : Option Memory := u.activeSlot.map fun n => (u.slot n).copy

/-- The drive mode of the active plan is HALL: the tracker's HALL mode (R51). -/
def MotorUnit.hallMode (u : MotorUnit) : Bool :=
  match u.activePlan with
  | some c => planIsHall c
  | none => false

/-- The role of a leg in HALL mode: FLOAT while there is no drive sector (R12). -/
def MotorUnit.roleOfLeg (u : MotorUnit) (n : LegName) : LegRole :=
  match u.channel.driveSector.bind u.settings.sectorEntry with
  | some e => e.role n
  | none => .float

/-- The three legs take the drives given, in the period that starts at `b`. -/
def MotorUnit.driveLegs (now b : Instant) (d0 d1 d2 : LegDrive) (u : MotorUnit) : MotorUnit :=
  let follow := Leg.follow u.settings.deadTime now b u.settings.carrierPeriod
  { u with channel :=
      { u.channel with leg0 := follow d0 u.channel.leg0, leg1 := follow d1 u.channel.leg1,
                       leg2 := follow d2 u.channel.leg2 } }

/-- The legs take the roles of the drive sector with the chop edges of the period (R12, R60). -/
def MotorUnit.driveRoles (now b : Instant) (u : MotorUnit) : MotorUnit :=
  u.driveLegs now b ((u.roleOfLeg .leg0).drive u.channel.chop) ((u.roleOfLeg .leg1).drive u.channel.chop)
    ((u.roleOfLeg .leg2).drive u.channel.chop)

/-- Sets the narrow-pulse count. -/
def MotorUnit.setNarrow (c : Short) (u : MotorUnit) : MotorUnit :=
  { u with channel := { u.channel with narrowCount := c } }

/-- The legs are set for a step of a PLAN plan (R12, R13, R15, R16). -/
def MotorUnit.setPlanLegs (now b : Instant) (st : PlanStep) (u : MotorUnit) : MotorUnit :=
  let d0 := st.leg0.drive u.settings.carrierPeriod u.settings.minimumPulse
  let d1 := st.leg1.drive u.settings.carrierPeriod u.settings.minimumPulse
  let d2 := st.leg2.drive u.settings.carrierPeriod u.settings.minimumPulse
  (u.driveLegs now b d0.1 d1.1 d2.1).setNarrow
    (countNarrow d2.2 (countNarrow d1.2 (countNarrow d0.2 u.channel.narrowCount)))

/-- The legs are set for a step of a HALL plan: the substitution is decided once, for the chop edges (R12, R15, R16). -/
def MotorUnit.setHallLegs (now b : Instant) (st : PlanStep) (u : MotorUnit) : MotorUnit :=
  let d := narrowPulse u.settings.carrierPeriod u.settings.minimumPulse st.leg0.rise st.leg0.fall
  let u1 := { u with channel := { u.channel with chop := d.1 } }
  (u1.driveRoles now b).setNarrow (countNarrow d.2 u.channel.narrowCount)

/-- The legs are set for the step now selected, in the drive mode of the active plan (R10, claim 4). -/
def MotorUnit.setLegs (now b : Instant) (u : MotorUnit) : MotorUnit :=
  match u.activePlan with
  | none => u
  | some c =>
    if planIsHall c then u.setHallLegs now b (planStep c u.channel.stepIndex)
    else u.setPlanLegs now b (planStep c u.channel.stepIndex)

/-- All six outputs turn off (R1, ALL_OFF). -/
def MotorUnit.allOff (now : Instant) (u : MotorUnit) : MotorUnit :=
  { u with channel := u.channel.onLegs (Leg.park u.settings.deadTime now .off) }

/-- The outputs go to the safe state (R20). -/
def MotorUnit.toSafeState (now : Instant) (u : MotorUnit) : MotorUnit :=
  match u.settings.safeState with
  | .allOff => u.allOff now
  | .lowBrake => { u with channel := u.channel.onLegs (Leg.park u.settings.deadTime now .lowSide) }

/-! ### GATE_EDGE and DEAD_TIME_TURN_ON -/

/-- The next edge of a leg, where its instant has arrived and the carrier runs (R13). -/
def MotorUnit.gateEdge (now : Instant) (n : LegName) (u : MotorUnit) : MotorUnit :=
  match (u.channel.leg n).nextEdge, u.channel.periodStart with
  | some e, some b =>
    if reached e.due now then
      { u with channel :=
          u.channel.setLeg n (Leg.takeEdge u.settings.deadTime now b u.settings.carrierPeriod e (u.channel.leg n)) }
    else u
  | _, _ => u

/-- GATE_EDGE (R13): where no edge of the leg is due, nothing changes (log 2). -/
def execGateEdge (m : Motor) (leg : LegName) (t : Instant) (s : State) : Host.Outcome State Fault Refusal :=
  State.act t (fun s => s.onMotor m (MotorUnit.gateEdge s.timebase leg)) s

/-- The delayed turn-on of a leg, where its instant has arrived (R14). -/
def MotorUnit.deadTimeEnds (now : Instant) (n : LegName) (u : MotorUnit) : MotorUnit :=
  if timerDue (u.channel.leg n).turnOn now then
    { u with channel := u.channel.setLeg n (u.channel.leg n).turnOnNow }
  else u

/-- DEAD_TIME_TURN_ON (R14): where no delayed turn-on of the leg is due, nothing changes (log 2). -/
def execDeadTimeTurnOn (m : Motor) (leg : LegName) (t : Instant) (s : State) : Host.Outcome State Fault Refusal :=
  State.act t (fun s => s.onMotor m (MotorUnit.deadTimeEnds s.timebase leg)) s

end Sys2Proof.Machine
end

