-- ==== Sys2Proof/Machine/Frames.lean ====
section
/-! DEFINITION. Result frames and the result ring (chapter 06): opening and closing, positions and entries, flush
requests, stamps and burst contents, the ring counters, and the command CONSUMED_WRITE. -/
namespace Sys2Proof.Machine

/-! ### Positions of a half (R115, R122) -/

/-- A position is resolved (R122). -/
def PositionRecord.resolved (p : PositionRecord) : Bool := p.resolution.isSome

/-- Every position of the half is resolved. -/
def Half.allResolved (h : Half) : Bool := h.positions.all PositionRecord.resolved

/-- The run of resolved positions counted from the flushed point (R126). -/
def Half.run (h : Half) : List PositionRecord := (h.positions.drop h.flushed).takeWhile PositionRecord.resolved

/-- The shortest run that raises a PARTIAL request (R126). -/
def partialRunLength : Nat := 8

/-- Raises the request that the half's state calls for; none is raised while a burst is in flight (R126, R127). -/
def Half.raiseRequest (h : Half) : Half :=
  if h.burst then h
  else
    match h.state with
    | .free => h
    | .closed => { h with request := .finalFlush }
    | .opened | .closing =>
      if h.request = .none ∧ partialRunLength ≤ h.run.length then { h with request := .partialRun } else h

/-- A CLOSING half with every position resolved becomes CLOSED (R116, R123). -/
def Half.settleClosing (h : Half) : Half :=
  if h.state = .closing ∧ h.allResolved = true then { h with state := .closed } else h

/-- Resolves a position; each position is resolved at most once (R122). -/
def PositionRecord.resolve (r : Resolution) (p : PositionRecord) : PositionRecord :=
  if p.resolved then p else { p with resolution := some r }

/-- An entry arrives for a position of the half (R122, R123, R126, R127). -/
def Half.resolvePosition (k : Nat) (r : Resolution) (h : Half) : Half :=
  ({ h with positions := h.positions.modify k (PositionRecord.resolve r) }.settleClosing).raiseRequest

/-- Every unresolved position is marked MISSED, with value 0 (R124). -/
def Half.missAll (h : Half) : Half :=
  { h with positions := h.positions.map (PositionRecord.resolve { status := .missed, value := 0 }) }

/-- The half that holds the frame of a sequence (R122). -/
def FrameAssembler.halfOf (a : FrameAssembler) (seq : Short) : Option HalfName :=
  if a.half0.state ≠ .free ∧ a.half0.sequence = seq then some .half0
  else if a.half1.state ≠ .free ∧ a.half1.sequence = seq then some .half1
  else none

/-- An entry goes to its frame: stored in the half that holds the frame, or nowhere where its position is absent
(R81, R122). -/
def FrameAssembler.storeEntry (seq : Short) (position : Option Nat) (r : Resolution) (a : FrameAssembler) : FrameAssembler :=
  match position, a.halfOf seq with
  | some k, some n => a.onHalf n (Half.resolvePosition k r)
  | _, _ => a

/-- An entry of a motor's reservation arrives at the motor's Frame Assembler (R122). -/
def State.storeEntry (s : State) (m : Motor) (seq : Short) (position : Option Nat) (r : Resolution) : State :=
  s.onMotor m (MotorUnit.onFrames (f := FrameAssembler.storeEntry seq position r))

/-- The MISSED resolution, value 0 (R73). -/
def missed : Resolution := { status := .missed, value := 0 }

/-- The FAILED resolution, value 0 (R82, R83). -/
def failed : Resolution := { status := .failed, value := 0 }

/-- The entry capacity of a frame: min(28, (stride − 16) / 4) (R121). -/
def MotorSettings.entryCapacity (st : MotorSettings) : Nat := min 28 ((st.ringStride - 16) / 4)

/-- The position record given at assignment (R122). -/
def SampleRequest.positionRecord (r : SampleRequest) (step period : Nat) : PositionRecord :=
  { input := r.input, purpose := r.purpose, stepIndex := step, period := period, slid := false, resolution := none }

/-- The Frame Assembler's answer to a request for a position (R121). -/
def MotorUnit.positionAnswer (u : MotorUnit) : PositionAnswer :=
  match u.frames.openFrame.bind OpenFrame.storage with
  | none => .absent
  | some n =>
    if u.settings.entryCapacity ≤ (u.frames.half n).positions.length then .overCapacity
    else .position (u.frames.half n).positions.length

/-- The period within frame given with each answer (R113). -/
def MotorUnit.periodWithinFrame (u : MotorUnit) : Nat :=
  match u.frames.openFrame with
  | some f => f.periodsCovered - 1
  | none => 0

/-- The frame sequence given with each answer (R121). -/
def MotorUnit.openSequence (u : MotorUnit) : Short :=
  match u.frames.openFrame with
  | some f => f.sequence
  | none => 0

/-- A position is given out: the open frame's half takes the request's record (R121, R122). -/
def MotorUnit.givePosition (step : Nat) (r : SampleRequest) (u : MotorUnit) : MotorUnit :=
  match u.frames.openFrame.bind OpenFrame.storage with
  | none => u
  | some n =>
    u.onFrames fun a =>
      a.onHalf n fun h => { h with positions := h.positions ++ [r.positionRecord step u.periodWithinFrame] }

/-- Changes the open-frame record. -/
def FrameAssembler.onOpenFrame (f : OpenFrame → OpenFrame) (a : FrameAssembler) : FrameAssembler :=
  { a with openFrame := a.openFrame.map f }

/-- FRAME_FULL has been logged for the open frame. -/
def MotorUnit.fullLogged (u : MotorUnit) : Bool :=
  match u.frames.openFrame with
  | some f => f.fullLogged
  | none => true

/-- A request over the frame's capacity: FULL, and one FRAME_FULL entry for the frame (R121). -/
def State.overCapacity (s : State) (m : Motor) (step index : Nat) : State :=
  let s1 := if (s.motor m).fullLogged then s else s.logMotor m .frameFull (infoPair step index)
  s1.onMotor m (MotorUnit.onFrames (f := FrameAssembler.onOpenFrame fun f => { f with full := true, fullLogged := true }))

/-- The slid flag that the Calendar sets when it makes a reservation (R122). -/
def MotorUnit.markSlid (seq : Short) (position : Option Nat) (slid : Bool) (u : MotorUnit) : MotorUnit :=
  match position, u.frames.halfOf seq with
  | some k, some n =>
    u.onFrames fun a => a.onHalf n fun h => { h with positions := h.positions.modify k fun p => { p with slid := slid } }
  | _, _ => u

/-! ### Opening a frame (R117 to R120) -/

/-- The ring has room: assigned − consumed is below the depth (R118). -/
def MotorUnit.ringHasRoom (u : MotorUnit) : Bool :=
  decide ((u.frames.assigned - u.frames.consumed).toNat < u.settings.ringDepth)

/-- The FREE half a frame takes: half 0 when both are FREE (R117). -/
def FrameAssembler.freeHalf (a : FrameAssembler) : Option HalfName :=
  if a.half0.state = .free then some .half0 else if a.half1.state = .free then some .half1 else none

/-- A next tag of the active slot becomes its tag (R41, R117 item 2). -/
def PlanSlot.takeNextTag (p : PlanSlot) : PlanSlot :=
  match p.nextTag with
  | some t => { p with tag := t, nextTag := none }
  | none => p

/-- The tag of the active slot (R112). -/
def MotorUnit.activeTag (u : MotorUnit) : Byte :=
  match u.activeSlot with
  | some n => (u.slot n).tag
  | none => 0

/-- The open-frame record of a new frame, without storage as yet (R112, R117 items 1 to 4). -/
def MotorUnit.newFrame (u : MotorUnit) : OpenFrame :=
  { sequence := u.frames.nextSequence, tag := u.activeTag, countAtOpen := u.channel.periodCount, periodsCovered := 1,
    storage := none, ringSlot := none, closeFlag := .none, full := false, fullLogged := false }

/-- Items 1 to 4 of a frame opening: the sequence, the tag, the record, the Calendar's log-once marks (R117). -/
def MotorUnit.beginFrame (u : MotorUnit) : MotorUnit :=
  let u1 := match u.activeSlot with
    | some n => u.onSlot n PlanSlot.takeNextTag
    | none => u
  { u1 with
    frames := { u1.frames with openFrame := some u1.newFrame, nextSequence := u1.frames.nextSequence + 1 }
    marks := { u1.marks with unplacedLogged := false, fullLogged := false } }

/-- The half of a new frame (R115, R117 item 7). -/
def OpenFrame.newHalf (f : OpenFrame) (slot : Nat) : Half :=
  { Half.reset with state := .opened, sequence := f.sequence, tag := f.tag, countAtOpen := f.countAtOpen, ringSlot := slot }

/-- The frame takes a FREE half and the next ring slot; the drop-run mark is cleared (R117 item 7, R120). -/
def MotorUnit.takeHalf (n : HalfName) (u : MotorUnit) : MotorUnit :=
  let slot := u.frames.assigned.toNat % u.settings.ringDepth
  match u.frames.openFrame with
  | none => u
  | some f =>
    { u with frames :=
        { (u.frames.setHalf n (f.newHalf slot)) with
          openFrame := some { f with storage := some n, ringSlot := some slot }
          assigned := u.frames.assigned + 1
          dropRun := false } }

/-- A frame without room under DROP: one RING_FULL_DROP for a run of drops (R118, R120). -/
def State.dropFrame (s : State) (m : Motor) (seq : Short) : State :=
  let s1 := if (s.motor m).frames.dropRun then s else s.logMotor m .ringFullDrop seq
  s1.onMotor m (MotorUnit.onFrames (f := fun a => { a with dropRun := true }))

/-- The oldest unconsumed frame is given up (R119). -/
def MotorUnit.overwriteOldest (now : Instant) (u : MotorUnit) : MotorUnit :=
  (u.onFrames fun a => { a with consumed := a.consumed + 1 }).countersChanged now

/-- Under OVERWRITE the oldest unconsumed frame is given up, with its entry (R119). -/
def State.overwriteOldest (s : State) (m : Motor) (seq : Short) : State :=
  (s.onMotor m (MotorUnit.overwriteOldest s.timebase)).logMotor m .ringOverwrite seq

/-- A frame of a motor opens (R117). -/
def State.openFrame (s : State) (m : Motor) : State :=
  let s1 := s.onMotor m MotorUnit.beginFrame
  let u := s1.motor m
  match u.frames.freeHalf with
  | none => s1.logMotor m .frameLost u.openSequence
  | some n =>
    if u.ringHasRoom then s1.onMotor m (MotorUnit.takeHalf n)
    else
      match u.settings.ringPolicy with
      | .drop => s1.dropFrame m u.openSequence
      | .overwrite => (s1.overwriteOldest m u.openSequence).onMotor m (MotorUnit.takeHalf n)

/-! ### Closing a frame (R114, R123) -/

/-- The half of the open frame leaves OPEN: CLOSED with every position resolved, CLOSING otherwise (R116, R123). -/
def Half.close (flag : CloseFlag) (full : Bool) (h : Half) : Half :=
  Half.raiseRequest
    { h with state := if h.allResolved then .closed else .closing, closeFlag := flag, full := full }

/-- The open frame closes (R114): its half leaves OPEN and the Attention Unit is told; a frame without storage changes
no half and hands no event. -/
def MotorUnit.closeFrame (now : Instant) (flag : CloseFlag) (u : MotorUnit) : MotorUnit :=
  match u.frames.openFrame with
  | none => u
  | some f =>
    let u1 := u.onFrames fun a => { a with openFrame := none }
    match f.storage with
    | none => u1
    | some n => (u1.onFrames fun a => a.onHalf n (Half.close flag f.full)).frameClosedEvent now f.sequence

/-- The open frame has no storage, or there is none (R6). -/
def MotorUnit.frameWithoutStorage (u : MotorUnit) : Bool := (u.frames.openFrame.bind OpenFrame.storage).isNone

/-- A half of the tripped motor: its unresolved positions are MISSED, and a CLOSING half becomes CLOSED (R124). -/
def Half.tripMissed (h : Half) : Half :=
  match h.state with
  | .free => h
  | .opened => h.missAll
  | .closing => (h.missAll.settleClosing).raiseRequest
  | .closed => h

/-- The motor's frames at trip entry: unresolved positions MISSED, then the open frame closes with TRIPPED (R19 items 4
and 5, R124). -/
def MotorUnit.tripFrames (now : Instant) (u : MotorUnit) : MotorUnit :=
  (u.onFrames fun a => { a with half0 := a.half0.tripMissed, half1 := a.half1.tripMissed }).closeFrame now .tripped

/-! ### Stamps, entries and burst contents (R125, R128, R199, 11.2) -/

/-- A 32-bit word as four little-endian bytes (00 "Byte order"). -/
def wordBytes (w : Word) : List Byte :=
  [w.extractLsb' 0 8, w.extractLsb' 8 8, w.extractLsb' 16 8, w.extractLsb' 24 8]

/-- One flag as a bit of a word. -/
def flagBit (b : Bool) (i : Nat) : Nat := if b then 2 ^ i else 0

/-- The first word of an opening stamp: its flags are clear (R125, 11.2). -/
def Half.openingWord (m : Motor) (h : Half) : Word :=
  BitVec.ofNat 32 (h.sequence.toNat + 65536 * h.tag.toNat + 2 ^ 24 * m.number + flagBit true 31)

/-- The first word of a closing stamp (R125, 11.2). -/
def Half.closingWord (m : Motor) (h : Half) : Word :=
  BitVec.ofNat 32 (h.sequence.toNat + 65536 * h.tag.toNat + 2 ^ 24 * m.number + flagBit true 26
    + flagBit (h.closeFlag = .stopped) 27 + flagBit (h.closeFlag = .tripped) 28 + flagBit (h.closeFlag = .switched) 29
    + flagBit h.full 30 + flagBit true 31)

/-- The opening stamp (11.2). -/
def Half.openingStamp (m : Motor) (h : Half) : List Byte := wordBytes (h.openingWord m) ++ wordBytes h.countAtOpen

/-- The closing stamp (11.2). -/
def Half.closingStamp (m : Motor) (h : Half) : List Byte := wordBytes (h.closingWord m) ++ wordBytes h.countAtOpen

/-- The word of a resolved entry (11.2, R199). -/
def PositionRecord.entryWord (p : PositionRecord) (r : Resolution) : Word :=
  BitVec.ofNat 32 (r.value.toNat + 2 ^ 12 * p.input.toNat + 2 ^ 16 * r.status.number + 2 ^ 18 * p.purpose.toNat
    + 2 ^ 22 * (p.stepIndex % 8) + flagBit p.slid 25 + 2 ^ 26 * (p.period % 8))

/-- The bytes of an entry; an unresolved position is never in a burst (R127, R128). -/
def PositionRecord.entryBytes (p : PositionRecord) : List Byte :=
  match p.resolution with
  | some r => wordBytes (p.entryWord r)
  | none => []

/-- The entries a burst of the half carries (R128): the run for a PARTIAL request, the rest of the frame for a FINAL one. -/
def Half.burstEntries (h : Half) : List PositionRecord :=
  match h.request with
  | .finalFlush => h.positions.drop h.flushed
  | _ => h.run

/-- The content of the half's burst, in address order (R128). -/
def Half.burstContent (m : Motor) (h : Half) : List Byte :=
  (if h.stampWritten then [] else h.openingStamp m) ++ h.burstEntries.flatMap PositionRecord.entryBytes
    ++ (if h.request = .finalFlush then h.closingStamp m else [])

/-- The offset in the slot at which the burst begins (R128). -/
def Half.burstOffset (h : Half) : Nat := if h.stampWritten then 8 + 4 * h.flushed else 0

/-- The burst's start address, base + slot·stride + offset (R128). -/
def MotorUnit.burstAddress (u : MotorUnit) (h : Half) : Addr :=
  BitVec.ofNat 24 (u.settings.ringBase.toNat + h.ringSlot * u.settings.ringStride + h.burstOffset)

/-- One frame is older than another: the lower sequence by wrapping difference (R128). -/
def Half.olderThan (h k : Half) : Bool := (h.sequence - k.sequence).msb

/-- The half whose request the motor presents: of two, the one that holds the older frame (R128). -/
def FrameAssembler.presented (a : FrameAssembler) : Option HalfName :=
  match decide (a.half0.request = .none), decide (a.half1.request = .none) with
  | true, true => none
  | false, true => some .half0
  | true, false => some .half1
  | false, false => if a.half1.olderThan a.half0 then some .half1 else some .half0

/-- The motor is urgent: a CLOSED half whose other half is not FREE (R142). -/
def FrameAssembler.urgent (a : FrameAssembler) : Bool :=
  (a.half0.state = .closed && a.half1.state ≠ .free) || (a.half1.state = .closed && a.half0.state ≠ .free)

/-- A burst of the half starts: its request is taken and the burst is in flight (R128, R146). -/
def Half.startBurst (h : Half) : Half := { h with request := .none, burst := true }

/-- A burst of the half completes (R129 item 1). -/
def Half.endBurst (opens : Bool) (entries : Nat) (h : Half) : Half :=
  { h with burst := false, stampWritten := h.stampWritten || opens, flushed := h.flushed + entries }

/-! ### CONSUMED_WRITE (R133) -/

/-- The value is not beyond produced, by wrapping difference (R133). -/
def FrameAssembler.mayConsume (a : FrameAssembler) (v : Word) : Bool :=
  decide ((v - a.consumed).toNat ≤ (a.produced - a.consumed).toNat)

/-- A write of the consumed word (R133). -/
def State.writeConsumed (m : Motor) (v : Word) (s : State) : State :=
  let a := (s.motor m).frames
  if a.mayConsume v then
    if v = a.consumed then s
    else
      (s.onMotor m (MotorUnit.onFrames (f := fun a => { a with consumed := v }))).onMotor m (MotorUnit.countersChanged s.timebase)
  else s.logMotor m .consumeRefused (v.extractLsb' 0 16)

/-- CONSUMED_WRITE (R133). -/
def execConsumedWrite (m : Motor) (v : Word) (t : Instant) (s : State) : Host.Outcome State Fault Refusal :=
  State.act t (State.writeConsumed m v) s

end Sys2Proof.Machine
end

