-- ==== Sys2Proof/Machine/Calendar.lean ====
section
/-! DEFINITION. The Sample Calendar and the sending side of the Converter Port (chapter 04): placement, conversion starts,
and the commands RESERVATION_START, WAITING_RESERVATION_START, LATEST_INSTANT, CLEAR_COUNTS and CLEAR_COUNTS_DEVICE. -/
namespace Sys2Proof.Machine

/-! ### The search for a start instant (R71) -/

/-- An interval of `width` ticks from `p` overlaps none of the intervals that start at the offsets `busy` (R71). -/
def freeAt (width : Nat) (busy : List Int) (p : Int) : Bool :=
  busy.all fun o => decide (p + width ≤ o) || decide (o + width ≤ p)

/-- A candidate clipped to the window (R71). -/
def clipTo (lo hi p : Int) : Int := max lo (min hi p)

/-- The three kinds of candidates: the target, the end of a blocking interval, one interval before a blocking start (R71). -/
def startCandidates (width : Nat) (busy : List Int) (lo hi target : Int) : List Int :=
  (target :: (busy.map (fun o => o + (width : Int)) ++ busy.map (fun o => o - (width : Int)))).map (clipTo lo hi)

/-- The better of two starts: the nearer to the target, the later of two equally near (R71). -/
def betterStart (target p q : Int) : Int :=
  if (p - target).natAbs < (q - target).natAbs then p
  else if (q - target).natAbs < (p - target).natAbs then q
  else max p q

/-- The best of a list of starts. -/
def bestStart (target : Int) : List Int → Option Int
  | [] => none
  | p :: rest =>
    match bestStart target rest with
    | none => some p
    | some q => some (betterStart target p q)

/-- The free start in the window that is nearest to the target, ties to the later; offsets from the boundary (R71). -/
def findStart (width : Nat) (busy : List Int) (lo hi target : Int) : Option Int :=
  bestStart target ((startCandidates width busy lo hi target).filter (freeAt width busy))

/-! ### The reservation list (R68, R69) -/

/-- The most reservations the calendar holds (R68). -/
def calendarCapacity : Nat := 10

/-- `a` lies before `b`, by the wrapping difference read as a signed number. -/
def instantBefore (a b : Instant) : Bool := (a - b).msb

/-- A reservation takes its place in the list by start instant (R68, R72). -/
def insertReservation (r : Reservation) : List Reservation → List Reservation
  | [] => [r]
  | q :: rest => if instantBefore r.start q.start then r :: q :: rest else q :: insertReservation r rest

/-- Changes the first reservation that a test selects. -/
def changeFirst (test : Reservation → Bool) (f : Reservation → Reservation) : List Reservation → List Reservation
  | [] => []
  | q :: rest => if test q then f q :: rest else q :: changeFirst test f rest

/-- Removes the first reservation that a test selects. -/
def removeFirst (test : Reservation → Bool) : List Reservation → List Reservation
  | [] => []
  | q :: rest => if test q then rest else q :: removeFirst test rest

/-- Replaces the reservation list. -/
def State.setReservations (s : State) (l : List Reservation) : State :=
  { s with calendar := { s.calendar with reservations := l } }

/-- The reservation is CONVERTING. -/
def Reservation.isConverting (r : Reservation) : Bool := r.state = .converting

/-- The reservation is PLACED. -/
def Reservation.isPlaced (r : Reservation) : Bool := r.state = .placed

/-- The reservation is WAITING. -/
def Reservation.isWaiting (r : Reservation) : Bool := r.state = .waiting

/-- The CONVERTING reservation, at most one (R68). -/
def State.converting (s : State) : Option Reservation := s.calendar.reservations.find? Reservation.isConverting

/-- A request may be sent: the converter is READY and idle (R77, R79). -/
def State.converterFree (s : State) : Bool := s.converter.state = .ready && s.converting.isNone

/-- The entry of a reservation resolves (R73, R81 to R83): it goes to the Frame Assembler of the reservation's motor. -/
def State.resolve (s : State) (r : Reservation) (res : Resolution) : State :=
  s.storeEntry r.motor r.sequence r.position res

/-! ### Placement (R70 to R75) -/

/-- What the Frame Assembler hands with a request, and where the request stands. -/
structure PlacementContext where
  motor : Motor
  boundary : Instant
  step : Nat
  index : Nat
  position : Option Nat
  sequence : Short
  period : Nat
deriving DecidableEq, Repr

/-- The conversion intervals of the calendar, as start offsets from a boundary. -/
def State.busyOffsets (s : State) (b : Instant) : List Int :=
  s.calendar.reservations.map fun r => offsetFrom b r.start

/-- The reservation of a placed request (R72). -/
def PlacementContext.reservation (c : PlacementContext) (r : SampleRequest) (offset : Nat) : Reservation :=
  { motor := c.motor, input := r.input, start := after c.boundary offset, target := after c.boundary r.target,
    latest := after c.boundary r.latest, slid := decide (offset ≠ r.target), position := c.position,
    sequence := c.sequence, stepIndex := c.step, period := c.period, purpose := r.purpose, state := .placed, tag := none,
    orphaned := false }

/-- A reservation is made: it joins the list, the high-water mark follows, and its position takes the slid flag (R72, R122). -/
def State.reserve (s : State) (c : PlacementContext) (r : Reservation) : State :=
  let l := insertReservation r s.calendar.reservations
  { s with calendar := { reservations := l, highWater := max s.calendar.highWater l.length } }.onMotor c.motor
    (MotorUnit.markSlid c.sequence c.position r.slid)

/-- The log-once mark of a code for the frame now open (R75). -/
def CalendarMarks.logged (k : CalendarMarks) (full : Bool) : Bool := if full then k.fullLogged else k.unplacedLogged

/-- Counts a missed request and sets the log-once mark (R75). -/
def CalendarMarks.miss (full : Bool) (k : CalendarMarks) : CalendarMarks :=
  { unplaced := satInc k.unplaced, unplacedLogged := k.unplacedLogged || !full, fullLogged := k.fullLogged || full }

/-- A request is unplaced (R73), or missed for a full calendar (R74): its position, where it has one, resolves MISSED, it
counts, and the code is logged once for the frame. -/
def State.missRequest (s : State) (c : PlacementContext) (full : Bool) : State :=
  let s1 := s.storeEntry c.motor c.sequence c.position missed
  let s2 :=
    if (s1.motor c.motor).marks.logged full then s1
    else s1.logMotor c.motor (if full then .calendarFull else .sampleUnplaced) (infoPair c.step c.index)
  s2.onMotor c.motor fun u => { u with marks := u.marks.miss full }

/-- A request with its position goes to the calendar (R70 items 2 and 3). The flag says that the calendar was full for
this step. -/
def State.placeAt (s : State) (c : PlacementContext) (r : SampleRequest) (full : Bool) : State × Bool :=
  if full || decide (calendarCapacity ≤ s.calendar.reservations.length) then (s.missRequest c true, true)
  else
    match findStart s.device.tConv (s.busyOffsets c.boundary) r.earliest r.latest r.target with
    | some o => (s.reserve c (c.reservation r o.toNat), false)
    | none => (s.missRequest c false, false)

/-- One request is placed (R70). -/
def State.placeOne (m : Motor) (b : Instant) (step index : Nat) (r : SampleRequest) (sf : State × Bool) : State × Bool :=
  let u := sf.1.motor m
  let context (p : Option Nat) : PlacementContext :=
    { motor := m, boundary := b, step := step, index := index, position := p, sequence := u.openSequence,
      period := u.periodWithinFrame }
  match u.positionAnswer with
  | .overCapacity => (sf.1.overCapacity m step index, sf.2)
  | .absent => sf.1.placeAt (context none) r sf.2
  | .position k => (sf.1.onMotor m (MotorUnit.givePosition step r)).placeAt (context (some k)) r sf.2

/-- The requests from `index` on are placed, in the order in which they stand in the step (R70). -/
def State.placeFrom (m : Motor) (b : Instant) (step : Nat) : Nat → List SampleRequest → State × Bool → State × Bool
  | _, [], sf => sf
  | index, r :: rest, sf => State.placeFrom m b step (index + 1) rest (State.placeOne m b step index r sf)

/-- A motor of higher number than `m` has placed its requests for this instant (R76). -/
def State.placedAbove (s : State) (m : Motor) : Bool := s.placed.any fun k => decide (m.number < k.number)

/-- A motor places the requests of a boundary at `b`: the record of who has placed for this instant takes it, unless the boundary is
overdue or a motor of higher number stands there (R76, log 27). -/
def State.notePlacement (s : State) (m : Motor) (b : Instant) : State :=
  if b = s.timebase ∧ s.placedAbove m = false then { s with placed := some m } else s

/-- The sample requests of the step now selected are placed at the boundary `b` (R10 claim 5, R3 item 7). -/
def State.placeStep (s : State) (m : Motor) (b : Instant) : State :=
  match (s.motor m).activePlan with
  | none => s
  | some c =>
    let k := (s.motor m).channel.stepIndex
    (State.placeFrom m b k 0 (planStep c k).requests (s.notePlacement m b, false)).1

/-! ### Starting a conversion (R77 to R79) -/

/-- A request record on the converter link (R79, R201). -/
def requestRecord (input : InputNumber) (tag : ConverterTag) : Byte :=
  BitVec.ofNat 8 (input.toNat * 16 + tag.toNat * 2)

/-- A reservation becomes CONVERTING with the tag of its request. -/
def Reservation.convert (tag : ConverterTag) (r : Reservation) : Reservation :=
  { r with state := .converting, tag := some tag }

/-- The Converter Port sends the request of a reservation: the tag advances and the result timer is armed (R79). -/
def Converter.send (tConv : Nat) (now : Instant) (r : Reservation) (c : Converter) : Converter :=
  { c with requestTag := c.requestTag + 1, resultTimer := some (after now (2 * tConv)),
           requestSent := some (requestRecord r.input c.requestTag) }

/-- The first reservation that a test selects starts converting (R77). -/
def State.sendFirst (s : State) (test : Reservation → Bool) : State :=
  match s.calendar.reservations.find? test with
  | none => s
  | some r =>
    { s with
      calendar := { s.calendar with
        reservations := changeFirst test (Reservation.convert s.converter.requestTag) s.calendar.reservations }
      converter := s.converter.send s.device.tConv s.timebase r }

/-- The WAITING reservation with the earliest start instant starts at a free converter (R78). -/
def State.startWaiting (s : State) : State := if s.converterFree then s.sendFirst Reservation.isWaiting else s

/-- The start instant of the first PLACED reservation (R77). One whose start instant is its latest misses while the converter is
busy, also where the converter frees at that very instant and none is WAITING, though R78 gives the start and the freeing one outcome
in either order: the model follows R77's third bullet, its own choice (DESIGN CHOICE, log 37). -/
def State.reservationStarts (s : State) : State :=
  match s.calendar.reservations.find? Reservation.isPlaced with
  | none => s
  | some r =>
    if reached r.start s.timebase then
      if s.converterFree then s.sendFirst Reservation.isPlaced
      else if r.start = r.latest then
        (s.setReservations (removeFirst Reservation.isPlaced s.calendar.reservations)).resolve r missed
      else
        s.setReservations
          (changeFirst Reservation.isPlaced (fun q => { q with state := .waiting }) s.calendar.reservations)
    else s

/-- RESERVATION_START (R77): where no PLACED reservation's start instant has arrived, nothing changes (log 2). -/
def execReservationStart (t : Instant) (s : State) : Host.Outcome State Fault Refusal :=
  State.act t State.reservationStarts s

/-- WAITING_RESERVATION_START (R78): where the converter is busy or none is WAITING, nothing changes (logs 2 and 6). -/
def execWaitingReservationStart (t : Instant) (s : State) : Host.Outcome State Fault Refusal :=
  State.act t State.startWaiting s

/-- A WAITING reservation whose latest instant has arrived (R78). -/
def Reservation.late (now : Instant) (r : Reservation) : Bool := r.isWaiting && reached r.latest now

/-- The first WAITING reservation whose latest instant has arrived is given up (R78, log 19). -/
def State.latestArrives (s : State) : State :=
  match s.calendar.reservations.find? (Reservation.late s.timebase) with
  | none => s
  | some r => (s.setReservations (removeFirst (Reservation.late s.timebase) s.calendar.reservations)).resolve r missed

/-- LATEST_INSTANT (R78): where no WAITING reservation's latest instant has arrived, nothing changes (log 2). -/
def execLatestInstant (t : Instant) (s : State) : Host.Outcome State Fault Refusal :=
  State.act t State.latestArrives s

/-! ### CLEAR_COUNTS and CLEAR_COUNTS_DEVICE (R16, R93, R179) -/

/-- The narrow-pulse count and the unplaced count of a motor become 0 (R93, R179). -/
def MotorUnit.clearCounts (u : MotorUnit) : MotorUnit :=
  { u.setNarrow 0 with marks := { u.marks with unplaced := 0 } }

/-- CLEAR_COUNTS (R179). -/
def execClearCounts (m : Motor) (t : Instant) (s : State) : Host.Outcome State Fault Refusal :=
  State.act t (fun s => s.onMotor m MotorUnit.clearCounts) s

/-- The high-water mark becomes the occupancy (R93). -/
def State.clearDeviceCounts (s : State) : State :=
  { s with calendar := { s.calendar with highWater := s.calendar.reservations.length } }

/-- CLEAR_COUNTS_DEVICE (R93). -/
def execClearCountsDevice (t : Instant) (s : State) : Host.Outcome State Fault Refusal :=
  State.act t State.clearDeviceCounts s

end Sys2Proof.Machine
end

