-- ==== Sys2Proof/Machine/Trips.lean ====
section
/-! DEFINITION. Trip entry (1.7), the Limit Monitor and the driver-fault inputs (chapter 05), results and the loss of the
converter (4.5, 4.6), and the commands RESULT_RECORD, CONVERTER_TIMEOUT, DRIVER_FAULT_ACTIVATION and DRIVER_FAULT_RELEASE. -/
namespace Sys2Proof.Machine

/-! ### Trip entry (R17 to R21) -/

/-- Removes the reservations a test selects and resolves their entries MISSED (R85, R87). -/
def State.removeMissed (s : State) (test : Reservation → Bool) : State :=
  (s.calendar.reservations.filter test).foldl (fun s r => s.resolve r missed)
    (s.setReservations (s.calendar.reservations.filter fun r => !test r))

/-- A PLACED or WAITING reservation of a motor. -/
def Reservation.ahead (m : Motor) (r : Reservation) : Bool := r.motor = m && !r.isConverting

/-- A CONVERTING reservation of the motor is orphaned (R87). -/
def Reservation.orphan (m : Motor) (r : Reservation) : Reservation :=
  if r.motor = m && r.isConverting then { r with orphaned := true } else r

/-- The carrier stops (R8). -/
def MotorUnit.stopCarrier (u : MotorUnit) : MotorUnit := { u with channel := { u.channel with periodStart := none } }

/-- The tracker leaves HALL mode: a scheduled commutation is cancelled, and PREDICTING becomes TRACKING with prediction
count 0 (R19 item 2, R65). -/
def Tracker.leaveHall (k : Tracker) : Tracker :=
  { k with scheduled := none, state := if k.state = .predicting then .tracking else k.state,
           predictions := if k.state = .predicting then 0 else k.predictions }

/-- Changes the tracker of a motor. -/
def MotorUnit.onTracker (u : MotorUnit) (f : Tracker → Tracker) : MotorUnit := { u with tracker := f u.tracker }

/-- An ACTIVE or PENDING slot becomes INACTIVE; its copy and tag are kept, a next tag is dropped (R5, R19, R41, R47). -/
def PlanSlot.release (p : PlanSlot) : PlanSlot :=
  match p.state with
  | .active | .pending => { p with state := .inactive, nextTag := none }
  | .empty | .inactive => p

/-- Both slots of a motor are released (R5 item 6, R19 item 6). -/
def MotorUnit.releaseSlots (u : MotorUnit) : MotorUnit := { u with slotA := u.slotA.release, slotB := u.slotB.release }

/-- Items 6 to 8 of trip entry: the slots, the state with its cause and info, the latched TRIPPED cause (R19, R107). -/
def MotorUnit.enterTripped (cause : TripCause) (info : Short) (u : MotorUnit) : MotorUnit :=
  let u1 := u.releaseSlots
  { u1 with
    channel := { u1.channel with state := .tripped, tripCause := cause, tripInfo := info }
    attention := { u1.attention with tripped := true } }

/-- Trip entry in the motor's own blocks: outputs, carrier, tracker, frames, slots, state (R19 items 1, 2, 4 to 8). -/
def MotorUnit.trip (now : Instant) (cause : TripCause) (info : Short) (u : MotorUnit) : MotorUnit :=
  ((((u.toSafeState now).stopCarrier).onTracker Tracker.leaveHall).tripFrames now).enterTripped cause info

/-- Trip entry of a motor: its reservations (R19 item 3, R87), and its own blocks (R19). -/
def State.tripEntry (s : State) (m : Motor) (cause : TripCause) (info : Short) : State :=
  let s1 := s.removeMissed (Reservation.ahead m)
  let s2 := s1.setReservations (s1.calendar.reservations.map (Reservation.orphan m))
  s2.onMotor m (MotorUnit.trip s.timebase cause info)

/-- A trip cause reaches a motor: trip entry if it is RUNNING or STOPPING, nothing otherwise (R17, R18). -/
def State.trip (s : State) (m : Motor) (cause : TripCause) (info : Short) : State :=
  match (s.motor m).channel.state with
  | .running | .stopping => s.tripEntry m cause info
  | .stopped | .tripped => s

/-- A trip cause reaches every motor (R18, R100). -/
def State.tripAll (s : State) (cause : TripCause) (info : Short) : State :=
  ((s.trip .m0 cause info).trip .m1 cause info).trip .m2 cause info

/-! ### The Limit Monitor (R98 to R100) -/

/-- What a check gives: the record after it, the status of the entry, and whether the input raises a limit trip. -/
structure LimitVerdict where
  record : InputRecord
  status : EntryStatus
  trips : Bool
deriving DecidableEq, Repr

/-- The check of a value on an input (R98, R99). -/
def InputRecord.check (v : BitVec 12) (r : InputRecord) : LimitVerdict :=
  if r.owner = .unused ∨ r.tripCount = 0 then ⟨{ r with consecutive := 0 }, .ok, false⟩
  else if v.toNat < r.lowLimit.toNat ∨ r.highLimit.toNat < v.toNat then
    if r.consecutive + 1 = r.tripCount then ⟨{ r with consecutive := 0 }, .limit, true⟩
    else ⟨{ r with consecutive := r.consecutive + 1 }, .limit, false⟩
  else ⟨{ r with consecutive := 0 }, .ok, false⟩

/-- The info of a LIMIT_TRIP entry: the input in the upper 4 bits, the value in the lower 12 (R99). -/
def limitInfo (input : InputNumber) (v : BitVec 12) : Short := BitVec.ofNat 16 (input.toNat * 4096 + v.toNat)

/-- The LIMIT_TRIP entry of an input's owner (R99). -/
def State.logLimit (s : State) (owner : InputOwner) (info : Short) : State :=
  match owner with
  | .motor m => s.logMotor m .limitTrip info
  | .shared => s.logDevice .limitTrip info
  | .unused => s

/-- The motors that a limit trip reaches (R100). -/
def State.limitTrip (s : State) (owner : InputOwner) (info : Short) : State :=
  match owner with
  | .motor m => s.trip m .limitTrip info
  | .shared => s.tripAll .limitTrip info
  | .unused => s

/-! ### Results (R80 to R86) -/

/-- The CONVERTING reservation leaves the list. -/
def State.dropConverting (s : State) : State :=
  s.setReservations (removeFirst Reservation.isConverting s.calendar.reservations)

/-- Items 4 and 5 of an accepted result, and the trip that its value raises (R81, R98 to R100). -/
def State.takeValue (s : State) (r : Reservation) (v : BitVec 12) : State :=
  let c := (s.inputRecord r.input).check v
  let info := limitInfo r.input v
  let s1 := s.setInput r.input c.record
  let s2 := if c.trips then s1.logLimit c.record.owner info else s1
  let s3 := s2.resolve r { status := c.status, value := v }
  if c.trips then s3.limitTrip c.record.owner info else s3

/-- An accepted result (R81). -/
def State.acceptResult (s : State) (r : Reservation) (v : BitVec 12) : State :=
  let s1 := { s with converter := { s.converter with failures := 0, resultTimer := none } }
  let s2 := s1.dropConverting.startWaiting
  if r.orphaned then s2 else s2.takeValue r v

/-- The converter becomes LOST (R85). -/
def State.loseConverter (s : State) (kind : InfoName) : State :=
  let s1 := { s with converter := { s.converter with state := .lost } }
  let s2 := (s1.logDevice .converterLost kind.info).removeMissed fun _ => true
  s2.tripAll .converterLost kind.info

/-- The failure count that makes the converter LOST (R85). -/
def failureLimit : Nat := 3

/-- A conversion has failed: the count rises, the timer is disarmed, the reservation leaves, its entry resolves FAILED
unless it is orphaned, and the count is tested (R82, R83, R85). The next WAITING reservation starts where the converter
is not lost (R78, log 7). -/
def State.failConversion (s : State) (r : Reservation) (kind : InfoName) : State :=
  let s1 := { s with converter := { s.converter with failures := s.converter.failures + 1, resultTimer := none } }.dropConverting
  let s2 := if r.orphaned then s1 else s1.resolve r failed
  if failureLimit ≤ s2.converter.failures then s2.loseConverter kind else s2.startWaiting

/-- A result record is taken against the CONVERTING reservation (R80). -/
def State.takeResult (s : State) (input : InputNumber) (tag : ConverterTag) (v : BitVec 12) : State :=
  if s.converter.state = .lost then s
  else
    match s.converting with
    | none => s
    | some r =>
      if r.tag = some tag then
        if r.input = input then s.acceptResult r v
        else
          (s.logMotor r.motor .converterMismatch (infoPair r.input.toNat input.toNat)).failConversion r .mismatch
      else s

/-- A result record as the converter puts it on the result-data line: the start marker, then the input, the tag and the
value, most significant bit first (R201). -/
def resultBits (input : InputNumber) (tag : ConverterTag) (value : BitVec 12) : BitVec 20 :=
  (1#1 ++ input) ++ (tag ++ value)

/-- The Converter Port takes the 20 bits it has read at successive link clocks: after the start marker the input, the tag
and the value. A 0 in the marker's place is the line at rest, and no record has come (R201). -/
def State.readResult (bits : BitVec 20) (s : State) : State :=
  if bits.getLsbD 19 then
    s.takeResult (bits.extractLsb' 15 4) (bits.extractLsb' 12 3) (bits.extractLsb' 0 12)
  else s

/-- RESULT_RECORD (R80, R201). -/
def execResultRecord (input : InputNumber) (tag : ConverterTag) (value : BitVec 12) (t : Instant) (s : State) :
    Host.Outcome State Fault Refusal :=
  State.act t (State.readResult (resultBits input tag value)) s

/-- The number of a converter tag, where there is one. -/
def tagNumber (tag : Option ConverterTag) : Nat :=
  match tag with
  | some t => t.toNat
  | none => 0

/-- The result timer falls on the CONVERTING reservation (R83). -/
def State.resultTimerFalls (s : State) : State :=
  if timerDue s.converter.resultTimer s.timebase then
    match s.converting with
    | none => s
    | some r => (s.logMotor r.motor .converterTimeout (infoPair r.input.toNat (tagNumber r.tag))).failConversion r .timeout
  else s

/-- CONVERTER_TIMEOUT (R83): where the timer's instant has not arrived, nothing changes (log 2). -/
def execConverterTimeout (t : Instant) (s : State) : Host.Outcome State Fault Refusal :=
  State.act t State.resultTimerFalls s

/-! ### Driver-fault inputs (R104, R105) -/

/-- The level of a motor's driver-fault input. -/
def MotorUnit.setFault (active : Bool) (u : MotorUnit) : MotorUnit :=
  { u with channel := { u.channel with faultActive := active } }

/-- A motor's driver-fault input becomes active (R105); an input already active has no change to make (log 2). -/
def State.faultActivates (m : Motor) (s : State) : State :=
  if (s.motor m).channel.faultActive then s
  else
    let info := BitVec.ofNat 16 (s.motor m).channel.state.number
    ((s.onMotor m (MotorUnit.setFault true)).logMotor m .driverFault info).trip m .driverFault info

/-- DRIVER_FAULT_ACTIVATION (R105). While the reset pin is asserted only the level at the pin changes (R104, log 20). -/
def execDriverFaultActivation (m : Motor) (t : Instant) (s : State) : Host.Outcome State Fault Refusal :=
  .next (if s.inReset then s.onMotor m (MotorUnit.setFault true) else (s.atInstant t).faultActivates m)

/-- DRIVER_FAULT_RELEASE (R104): it only updates the level. -/
def execDriverFaultRelease (m : Motor) (t : Instant) (s : State) : Host.Outcome State Fault Refusal :=
  .next (if s.inReset then s.onMotor m (MotorUnit.setFault false) else (s.atInstant t).onMotor m (MotorUnit.setFault false))

end Sys2Proof.Machine
end

