-- ==== Sys2Proof/Machine/Hall.lean ====
section
/-! DEFINITION. The Hall Tracker (chapter 03), and the commands HALL_CODE_CHANGE, HALL_EXAMINATION, COMMUTATION and
SECTOR_TIMEOUT. -/
namespace Sys2Proof.Machine

/-! ### The sector timeout (R61) -/

/-- The span of the sector timeout (R61). -/
def MotorUnit.timeoutSpan (u : MotorUnit) : Nat :=
  match decide (u.tracker.measured = 2), u.tracker.duration with
  | true, some d => 2 * d
  | _, _ => longUnit * u.settings.startTimeout

/-- The sector timeout is armed (R61). -/
def MotorUnit.armTimeout (now : Instant) (u : MotorUnit) : MotorUnit :=
  u.onTracker fun k => { k with timeout := some (after now u.timeoutSpan) }

/-! ### Commutation (R60) -/

/-- A commutation to a target is scheduled, one commutation delay from now (R57, R59, R62). -/
def MotorUnit.scheduleCommutation (now : Instant) (c : HallCode) (u : MotorUnit) : MotorUnit :=
  u.onTracker fun k => { k with scheduled := some { due := after now u.settings.commutationDelay, target := c } }

/-- The legs take the roles of the drive sector, where the carrier runs in HALL mode (R60). -/
def MotorUnit.refreshRoles (now : Instant) (u : MotorUnit) : MotorUnit :=
  match u.hallMode, u.channel.periodStart with
  | true, some b => u.driveRoles now b
  | _, _ => u

/-- The scheduled commutation executes (R60): a target equal to the drive sector changes no role. -/
def MotorUnit.commutate (now : Instant) (u : MotorUnit) : MotorUnit :=
  match u.tracker.scheduled with
  | none => u
  | some c =>
    let u1 := u.onTracker fun k => { k with scheduled := none }
    if u1.channel.driveSector = some c.target then u1
    else MotorUnit.refreshRoles now { u1 with channel := { u1.channel with driveSector := some c.target } }

/-- In HALL mode a commutation still scheduled executes, and one to `c` is scheduled (R57 item 4, R62). -/
def MotorUnit.nextCommutation (now : Instant) (c : HallCode) (u : MotorUnit) : MotorUnit :=
  if u.hallMode then (u.commutate now).scheduleCommutation now c else u

/-! ### Acceptance (R57) -/

/-- The code that an accepted edge to `c` logs (R57 item 1). -/
def MotorSettings.edgeCode (st : MotorSettings) (current c : HallCode) : Option LogCode :=
  if st.mapValid then
    if st.successor current = c then none
    else if st.successor c = current then some .hallReverse
    else some .hallSkip
  else none

/-- Item 1 of an acceptance: the direction (R57). -/
def State.judgeDirection (s : State) (m : Motor) (c : HallCode) : State :=
  match (s.motor m).tracker.sector with
  | none => s
  | some k =>
    match (s.motor m).settings.edgeCode k c with
    | none => s
    | some code => s.logMotor m code (infoPair k.toNat c.toNat)

/-- The longest duration a tracker records (R57 item 2). -/
def longestDuration : Nat := 65535

/-- Item 2 of an acceptance: the duration (R57). Two edges of one instant record 0, the difference R57 gives, which lies
outside R51's range and, where the second follows an examination under R64, below the minimum sector (DESIGN CHOICE, log
32). -/
def Tracker.recordDuration (now : Instant) (k : Tracker) : Tracker :=
  if k.reference = .edge then
    { k with duration := some (min longestDuration (elapsed k.lastEdge now)), measured := min 2 (k.measured + 1) }
  else k

/-- Item 3 of an acceptance: the sector (R57). -/
def Tracker.acceptSector (now : Instant) (c : HallCode) (k : Tracker) : Tracker :=
  { k with sector := some c, lastEdge := now, reference := .edge, predictions := 0, state := .tracking,
           overtaken := none }

/-- Items 2 to 5 of an acceptance (R57). -/
def MotorUnit.acceptEdge (now : Instant) (c : HallCode) (u : MotorUnit) : MotorUnit :=
  ((u.onTracker fun k => (k.recordDuration now).acceptSector now c).nextCommutation now c).armTimeout now

/-- An edge to `c` is accepted (R57). -/
def State.acceptEdge (s : State) (m : Motor) (c : HallCode) : State :=
  (s.judgeDirection m c).onMotor m (MotorUnit.acceptEdge s.timebase c)

/-! ### Invalid codes and WAIT_FIRST (R58, R59) -/

/-- The tracker enters WAIT_FIRST (R58). -/
def Tracker.waitFirst (now : Instant) (k : Tracker) : Tracker :=
  { k with state := .waitFirst, sector := none, lastEdge := now, reference := .entry, measured := 0, duration := none,
           predictions := 0, overtaken := none }

/-- The tracker of a motor enters WAIT_FIRST, and its timeout is armed (R58). -/
def MotorUnit.enterWaitFirst (now : Instant) (u : MotorUnit) : MotorUnit :=
  (u.onTracker (Tracker.waitFirst now)).armTimeout now

/-- An examination finds code 0 or 7 (R58). -/
def State.invalidCode (s : State) (m : Motor) (c : HallCode) : State :=
  let u := s.motor m
  let info := infoPair (sectorNumber u.tracker.sector) c.toNat
  let s1 := if u.hallMode then (s.logMotor m .hallInvalid info).trip m .hallInvalid info else s
  s1.onMotor m (MotorUnit.enterWaitFirst s.timebase)

/-- The code now at the inputs is examined (R56). -/
def State.examine (s : State) (m : Motor) : State :=
  let u := s.motor m
  if u.tracker.sector = some u.hallCode then s
  else if validCode u.hallCode then s.acceptEdge m u.hallCode
  else s.invalidCode m u.hallCode

/-- The exit from WAIT_FIRST at a valid code (R59). -/
def MotorUnit.exitWaitFirst (now : Instant) (c : HallCode) (u : MotorUnit) : MotorUnit :=
  let u1 := u.onTracker fun k =>
    { k with state := .tracking, sector := some c, lastEdge := now, reference := .entry, predictions := 0,
             overtaken := none }
  (if u1.hallMode then u1.scheduleCommutation now c else u1).armTimeout now

/-! ### HALL_CODE_CHANGE and HALL_EXAMINATION (R55, R56) -/

/-- The value of a motor's three Hall inputs. -/
def MotorUnit.setHallCode (c : HallCode) (u : MotorUnit) : MotorUnit := { u with hallCode := c }

/-- An examination is scheduled at the last edge instant plus the minimum sector (R55). -/
def MotorUnit.scheduleExamination (u : MotorUnit) : MotorUnit :=
  u.onTracker fun k => { k with examination := some (after k.lastEdge u.settings.minimumSector) }

/-- The edge instant against which a change of the code is judged: the last one, or the one that an examination or an
expiry at this very instant has replaced (R55, R64, log 23), the later of the two where both have (DESIGN CHOICE, log 36).
So a change that follows an examination's acceptance at one instant is accepted too, against the last sentence of R57,
whatever the minimum sector (DESIGN CHOICE, log 32). An expiry at an earlier instant stays the last edge: where the
examination it has left standing finds the old code, a change of the same instant waits for a further examination by R55,
though the second row of R64 has it examined at once (DESIGN CHOICE, log 40). -/
def Tracker.judgedFrom (now : Instant) (k : Tracker) : Instant :=
  match decide (k.lastEdge = now), k.overtaken with
  | true, some e => e
  | _, _ => k.lastEdge

/-- A change of the code reaches a tracker in TRACKING or PREDICTING (R55). While an examination is scheduled no change is
acted on (R55, R64, log 23). -/
def State.edgeArrives (s : State) (m : Motor) : State :=
  let u := s.motor m
  if u.tracker.examination.isSome then s
  else if u.settings.minimumSector ≤ elapsed (u.tracker.judgedFrom s.timebase) s.timebase then s.examine m
  else s.onMotor m MotorUnit.scheduleExamination

/-- A motor's Hall inputs change (R51, R55, R59). -/
def State.hallChanges (m : Motor) (c : HallCode) (s : State) : State :=
  if (s.motor m).hallCode = c then s
  else
    let s1 := s.onMotor m (MotorUnit.setHallCode c)
    if (s.motor m).channel.state = .stopped then s1
    else
      match (s.motor m).tracker.state with
      | .waitFirst => if validCode c then s1.onMotor m (MotorUnit.exitWaitFirst s.timebase c) else s1
      | .tracking | .predicting => s1.edgeArrives m

/-- HALL_CODE_CHANGE (R55, R59). While the reset pin is asserted only the inputs change (log 20). -/
def execHallCodeChange (m : Motor) (code : HallCode) (t : Instant) (s : State) : Host.Outcome State Fault Refusal :=
  .next (if s.inReset then s.onMotor m (MotorUnit.setHallCode code) else (s.atInstant t).hallChanges m code)

/-- The last edge instant that an examination or an expiry replaces is kept for the instant's code changes (R64, log 23). Of more than
one at one instant, the last one's stands (DESIGN CHOICE, log 36). -/
def MotorUnit.overtakeEdge (old : Instant) (u : MotorUnit) : MotorUnit :=
  u.onTracker fun k => { k with overtaken := some old }

/-- The scheduled examination takes place (R55, R56, R64). It keeps the last edge instant that it finds: after an expiry of the same
instant that is the expiry's, so that a code change which follows as a third event waits for the minimum sector. R64 gives pairs of
events only, and the choice is the model's (DESIGN CHOICE, log 36). -/
def State.examinationDue (m : Motor) (s : State) : State :=
  if timerDue (s.motor m).tracker.examination s.timebase then
    ((s.onMotor m (MotorUnit.onTracker (f := fun k => { k with examination := none }))).examine m).onMotor m
      (MotorUnit.overtakeEdge (s.motor m).tracker.lastEdge)
  else s

/-- HALL_EXAMINATION (R56): where no examination is due, nothing changes (log 2). -/
def execHallExamination (m : Motor) (t : Instant) (s : State) : Host.Outcome State Fault Refusal :=
  State.act t (State.examinationDue m) s

/-! ### COMMUTATION (R60) -/

/-- The instant of the scheduled commutation, none where none is scheduled. -/
def Tracker.commutationDue (k : Tracker) : Option Instant := k.scheduled.map Commutation.due

/-- The scheduled commutation's instant arrives (R60). -/
def MotorUnit.commutationArrives (now : Instant) (u : MotorUnit) : MotorUnit :=
  if timerDue u.tracker.commutationDue now then u.commutate now else u

/-- COMMUTATION (R60): where no commutation is due, nothing changes (log 2). -/
def execCommutation (m : Motor) (t : Instant) (s : State) : Host.Outcome State Fault Refusal :=
  State.act t (fun s => s.onMotor m (MotorUnit.commutationArrives s.timebase)) s

/-! ### SECTOR_TIMEOUT (R62, R63) -/

/-- The tracker drops its measurements (R63). -/
def MotorUnit.dropMeasurements (now : Instant) (u : MotorUnit) : MotorUnit :=
  (u.onTracker fun k =>
    { k with measured := 0, duration := none, lastEdge := now, reference := .entry,
             overtaken := some k.lastEdge }).armTimeout now

/-- The tracker commutates to the forward successor without an edge (R62). -/
def MotorUnit.predict (now : Instant) (c : HallCode) (u : MotorUnit) : MotorUnit :=
  ((u.onTracker fun k =>
      { k with sector := some c, lastEdge := now, reference := .prediction, predictions := k.predictions + 1,
               state := .predicting, overtaken := some k.lastEdge }).nextCommutation now c).armTimeout now

/-- The sector to which a prediction goes, none where no prediction is allowed (R62). -/
def MotorUnit.predictedSector (u : MotorUnit) : Option HallCode :=
  if u.tracker.measured = 2 ∧ u.tracker.predictions < u.settings.predictionLimit then
    u.tracker.sector.map u.settings.successor
  else none

/-- A stall (R62): the entry, the trip, and then the expiry as in PLAN mode (R63). -/
def State.stall (s : State) (m : Motor) : State :=
  let u := s.motor m
  let info := infoPair u.tracker.state.number (sectorNumber u.tracker.sector)
  ((s.logMotor m .hallStall info).trip m .hallStall info).onMotor m (MotorUnit.dropMeasurements s.timebase)

/-- The sector timeout expires (R62, R63). -/
def State.sectorTimeoutExpires (m : Motor) (s : State) : State :=
  let u := s.motor m
  if timerDue u.tracker.timeout s.timebase then
    if u.hallMode then
      match u.predictedSector with
      | some c => s.onMotor m (MotorUnit.predict s.timebase c)
      | none => s.stall m
    else s.onMotor m (MotorUnit.dropMeasurements s.timebase)
  else s

/-- SECTOR_TIMEOUT (R62, R63): where the timeout's instant has not arrived, nothing changes (log 2). -/
def execSectorTimeout (m : Motor) (t : Instant) (s : State) : Host.Outcome State Fault Refusal :=
  State.act t (State.sectorTimeoutExpires m) s

/-! ### START and the switches between modes (R54, R65, R67) -/

/-- The tracker at the START instant (R54). -/
def Tracker.begin (now : Instant) (code : HallCode) (k : Tracker) : Tracker :=
  { k with
    state := if validCode code then .tracking else .waitFirst
    sector := if validCode code then some code else none
    reference := if validCode code then .start else .entry
    lastEdge := now, duration := none, measured := 0, predictions := 0, examination := none, scheduled := none,
    overtaken := none }

/-- The drive sector becomes the current sector (R54, R65). -/
def MotorUnit.driveCurrent (u : MotorUnit) : MotorUnit :=
  { u with channel := { u.channel with driveSector := u.tracker.sector } }

/-- Item 3 of START: the tracker reads the Hall code, and a HALL plan takes the current sector as its drive sector (R3, R54). -/
def MotorUnit.beginTracker (now : Instant) (u : MotorUnit) : MotorUnit :=
  let u1 := (u.onTracker (Tracker.begin now u.hallCode)).armTimeout now
  if u1.hallMode then u1.driveCurrent else u1

/-- The tracker's part in an activation (R65), told whether the motor was in HALL mode before it. -/
def MotorUnit.switchMode (now : Instant) (wasHall : Bool) (u : MotorUnit) : MotorUnit :=
  match wasHall, u.hallMode with
  | false, true => u.driveCurrent.armTimeout now
  | true, false => u.onTracker Tracker.leaveHall
  | _, _ => u

/-- The tracker becomes inactive and takes its reset values (R67); the last edge instant has none and stands (log 9). -/
def Tracker.deactivate (k : Tracker) : Tracker := { Tracker.reset with lastEdge := k.lastEdge }

end Sys2Proof.Machine
end

