-- ==== Sys2Proof/Machine/Plans.lean ====
section
/-! DEFINITION. The Plan Store (chapter 02): validation, activation, and the commands COMMIT and CANCEL. -/
namespace Sys2Proof.Machine

/-! ### The five tests (R34 to R39) -/

/-- A record length that validation accepts: a multiple of 4 from 28 to 252 (R30). -/
def lengthOk (l : Nat) : Bool := decide (28 ≤ l) && decide (l ≤ 252) && l % 4 == 0

/-- The sum of the words of a record from offset 0 to its check value, modulo 65536 (R33, R35). -/
def planSum (c : Memory) : Nat :=
  ((List.range ((planLength c - 2) / 2)).map fun i => planShort c (2 * i)).sum % 65536

/-- PLAN_CHECK (R35): the info of the failure, none where the test passes or is not made. -/
def checkTest (c : Memory) : Option Short :=
  if lengthOk (planLength c) && (planSum c != 0 || planShort c (planLength c - 2) != planLength c) then
    some (BitVec.ofNat 16 (planSum c))
  else none

/-- The walk through `n` steps from offset `o` up to the check field at `last` (R36 cases 4 and 5): the offset at fault.
A step that starts too late is found before its sample count is read (log 17). -/
def walkFault (c : Memory) (last : Nat) : Nat → Nat → Option Nat
  | 0, o => if o = last then none else some last
  | n + 1, o =>
    if last ≤ o then some last
    else if 4 < stepSamples c o then some o
    else if last < stepEnd c o then some last
    else walkFault c last n (stepEnd c o)

/-- The offset at fault of PLAN_SHAPE, none where the test passes (R36). Where neither the drive mode nor the end action
names a value, the drive mode's offset is given, the model's choice (log 31). -/
def shapeFault (c : Memory) : Option Nat :=
  if !lengthOk (planLength c) then some 0
  else if planSteps c = 0 ∨ 8 < planSteps c then some 1
  else if 1 < planModeByte c then some 2
  else if 2 < planEndByte c then some 3
  else walkFault c (planLength c - 4) (planSteps c) 4

/-- PLAN_SHAPE (R36). -/
def shapeTest (c : Memory) : Option Short := (shapeFault c).map (BitVec.ofNat 16)

/-- A leg's edges lie in order within a period: 0 ≤ rise < fall ≤ P (R37). -/
def LegPlan.edgesOk (period : Nat) (l : LegPlan) : Bool := decide (l.rise < l.fall) && decide (l.fall ≤ period)

/-- A leg of a PLAN-mode step fails the edge test (R37). -/
def LegPlan.edgeFault (period : Nat) (l : LegPlan) : Bool := l.mode = .pwm && !l.edgesOk period

/-- The first leg of a step that fails the edge test (R37). -/
def PlanStep.edgeFault (hall : Bool) (period : Nat) (st : PlanStep) : Option Nat :=
  if hall then (if st.leg0.mode = .pwm && st.leg0.edgesOk period then none else some 0)
  else if st.leg0.edgeFault period then some 0
  else if st.leg1.edgeFault period then some 1
  else if st.leg2.edgeFault period then some 2
  else none

/-- PLAN_EDGE (R37): step index and leg of the first failure. -/
def edgeTest (period : Nat) (c : Memory) : Option Short :=
  (List.range (planSteps c)).findSome? fun k =>
    ((planStep c k).edgeFault (planIsHall c) period).map fun leg => infoPair k leg

/-- A plan of the motor may sample an input of this owner (R38, R95). -/
def InputOwner.admits (m : Motor) (o : InputOwner) : Bool := o = .motor m || o = .shared

/-- A sample request passes (R38). -/
def SampleRequest.ok (m : Motor) (period : Nat) (owner : InputNumber → InputOwner) (r : SampleRequest) : Bool :=
  decide (r.earliest ≤ r.target) && decide (r.target ≤ r.latest) && decide (r.latest + 1 ≤ period)
    && (owner r.input).admits m

/-- PLAN_SAMPLE (R38): step index and request index of the first failure. -/
def sampleTest (m : Motor) (period : Nat) (owner : InputNumber → InputOwner) (c : Memory) : Option Short :=
  (List.range (planSteps c)).findSome? fun k =>
    ((planStep c k).requests.findIdx? fun r => !r.ok m period owner).map fun i => infoPair k i

/-- HALL_MAP (R39). -/
def hallMapTest (st : MotorSettings) (c : Memory) : Option Short :=
  if planIsHall c && !st.mapValid then some 0 else none

/-- A failed test: its code and its info. -/
structure PlanFault where
  code : LogCode
  info : Short
deriving DecidableEq, Repr

/-- The first test that a captured copy fails, none where it passes all five (R34). -/
def validate (m : Motor) (st : MotorSettings) (owner : InputNumber → InputOwner) (c : Memory) : Option PlanFault :=
  match checkTest c with
  | some i => some ⟨.planCheck, i⟩
  | none =>
    match shapeTest c with
    | some i => some ⟨.planShape, i⟩
    | none =>
      match edgeTest st.carrierPeriod c with
      | some i => some ⟨.planEdge, i⟩
      | none =>
        match sampleTest m st.carrierPeriod owner c with
        | some i => some ⟨.planSample, i⟩
        | none => (hallMapTest st c).map fun i => ⟨.hallMap, i⟩

/-- The validation of a slot against the settings current now (R34). -/
def State.validateSlot (s : State) (m : Motor) (n : SlotName) : Option PlanFault :=
  validate m (s.motor m).settings (fun i => (s.inputRecord i).owner) ((s.motor m).slot n).copy

/-! ### COMMIT and retag (R40, R41) -/

/-- The slot becomes PENDING (R40). -/
def PlanSlot.pend (tag : Byte) (kind : ActivationKind) (p : PlanSlot) : PlanSlot :=
  { p with state := .pending, tag := tag, kind := kind }

/-- The ACTIVE slot takes a next tag (R41). -/
def PlanSlot.retag (tag : Byte) (p : PlanSlot) : PlanSlot := { p with nextTag := some tag }

/-- A COMMIT of an uncommitted slot while the other is not PENDING (R34, R40). -/
def State.commitFresh (s : State) (m : Motor) (n : SlotName) (tag : Byte) (kind : ActivationKind) : State :=
  match s.validateSlot m n with
  | some f => s.logMotor m f.code f.info
  | none => s.onMotor m fun u => u.onSlot n (PlanSlot.pend tag kind)

/-- COMMIT acts (R40). -/
def State.commit (m : Motor) (n : SlotName) (tag : Byte) (kind : ActivationKind) (s : State) : State :=
  match ((s.motor m).slot n).state with
  | .active => s.onMotor m fun u => u.onSlot n (PlanSlot.retag tag)
  | .pending => s.logMotor m .commitRefused InfoName.slotPending.info
  | .empty | .inactive =>
    if ((s.motor m).slot n.other).state = .pending then s.logMotor m .commitRefused InfoName.otherPending.info
    else s.commitFresh m n tag kind

/-- COMMIT (R40). -/
def execCommit (m : Motor) (slot : SlotName) (tag : Byte) (kind : ActivationKind) (t : Instant) (s : State) :
    Host.Outcome State Fault Refusal :=
  State.act t (State.commit m slot tag kind) s

/-! ### CANCEL (R42) -/

/-- A PENDING slot becomes INACTIVE; another slot is left as it is (R42). -/
def PlanSlot.cancel (p : PlanSlot) : PlanSlot := if p.state = .pending then { p with state := .inactive } else p

/-- CANCEL acts (R42). -/
def State.cancel (m : Motor) (n : SlotName) (s : State) : State := s.onMotor m fun u => u.onSlot n PlanSlot.cancel

/-- CANCEL (R42). -/
def execCancel (m : Motor) (slot : SlotName) (t : Instant) (s : State) : Host.Outcome State Fault Refusal :=
  State.act t (State.cancel m slot) s

/-! ### Activation (R44) -/

/-- A PENDING slot becomes ACTIVE (R3 item 2, R44 item 1). -/
def PlanSlot.activate (p : PlanSlot) : PlanSlot := { p with state := .active }

/-- An ACTIVE slot becomes INACTIVE and drops its next tag; another slot stays as it was (R44 item 2). -/
def PlanSlot.retire (p : PlanSlot) : PlanSlot :=
  if p.state = .active then { p with state := .inactive, nextTag := none } else p

/-- The slot becomes ACTIVE and the other, where it was ACTIVE, INACTIVE (R44 items 1 and 2). -/
def MotorUnit.activateSlot (n : SlotName) (u : MotorUnit) : MotorUnit :=
  (u.onSlot n PlanSlot.activate).onSlot n.other PlanSlot.retire

/-- The period now ending executed the last step of the active plan (R10, R44). -/
def MotorUnit.atLastStep (u : MotorUnit) : Bool :=
  match u.activePlan with
  | some c => u.channel.stepIndex + 1 == planSteps c
  | none => false

/-- The slot that activates at this boundary (R44). -/
def MotorUnit.activating (u : MotorUnit) : Option SlotName :=
  match u.pendingSlot with
  | none => none
  | some n =>
    match (u.slot n).kind with
    | .next => some n
    | .atEnd => if u.atLastStep then some n else none

/-- The end actions (R30). -/
inductive EndAction where
  | repeatLast | loop | endStop
deriving DecidableEq, Repr

/-- The end action of a plan, by its byte (11.1). -/
def planEndAction (c : Memory) : EndAction :=
  match planEndByte c with
  | 1 => .loop
  | 2 => .endStop
  | _ => .repeatLast

end Sys2Proof.Machine
end

