-- ==== Sys2Proof/Machine/Rows.lean ====
section
/-! DEFINITION. The part-window position, the window map and the ring check (R2, R25, R160 to R162), and the command
MAP_COMMIT. -/
namespace Sys2Proof.Machine

/-- The rows of the link address space (00 "Addresses and rows"). -/
def rowCount : Nat := 65536

/-- The first row of the part window at a position (R160). -/
def windowFirstRow (position : BitVec 2) : Nat := 16368 + 16384 * position.toNat

/-- A row of the part window (R160). -/
def inPartWindow (position : BitVec 2) (row : Nat) : Bool :=
  decide (windowFirstRow position ≤ row) && decide (row < windowFirstRow position + 16)

/-- The entry that covers a row and the entry's first row, from the bound `low` on; none where no entry covers it (R161). -/
def coverFrom (row : Nat) : Nat → List MapEntry → Option (Nat × MapEntry)
  | _, [] => none
  | low, e :: rest => if low ≤ row ∧ row < e.bound then some (low, e) else coverFrom row e.bound rest

/-- The entry of the active map that covers a row, with its first row (R161). -/
def WindowMap.cover (w : WindowMap) (row : Nat) : Option (Nat × MapEntry) := coverFrom row 0 w.active.toList

/-- What the active map makes of a row (R25, R161). -/
inductive RowUse where
  | pass
  | plan (m : Motor) (slot : SlotName)
  | result (m : Motor)
deriving DecidableEq, Repr

/-- The use of a row: the first row of a PLAN window binds slot A, the second slot B (R25, R161). -/
def WindowMap.rowUse (w : WindowMap) (row : Nat) : RowUse :=
  match w.cover row with
  | none => .pass
  | some (first, e) =>
    match e.kind with
    | .pass => .pass
    | .plan => .plan e.motor (if row = first then .a else .b)
    | .result => .result e.motor

/-- The ring's last byte (R2). -/
def MotorSettings.ringLast (st : MotorSettings) : Nat := st.ringBase.toNat + st.ringDepth * st.ringStride - 1

/-- A row may hold a part of the motor's ring (R2). -/
def WindowMap.ringRowOk (w : WindowMap) (m : Motor) (row : Nat) : Bool :=
  decide (row < rowCount) && decide (w.rowUse row = .result m) && !inPartWindow w.position row

/-- The ring condition of START (R2, condition 6). -/
def WindowMap.ringOk (w : WindowMap) (m : Motor) (st : MotorSettings) : Bool :=
  (List.range (st.ringLast / 256 + 1 - st.ringBase.toNat / 256)).all fun i =>
    w.ringRowOk m (st.ringBase.toNat / 256 + i)

/-! ### MAP_COMMIT (R162) -/

/-- An entry fails a check, told the bound before it and the windows of the entries before it (R162). -/
def MapEntry.fails (e : MapEntry) (low : Nat) (seen : List (RowKind × Motor)) : Bool :=
  decide (e.bound < low) ||
    (decide (e.bound ≠ low) &&
      match e.kind with
      | .pass => false
      | .plan => decide (e.bound ≠ low + 2) || seen.contains (.plan, e.motor)
      | .result => seen.contains (.result, e.motor))

/-- The windows seen after an entry. -/
def MapEntry.addWindow (e : MapEntry) (low : Nat) (seen : List (RowKind × Motor)) : List (RowKind × Motor) :=
  if e.bound = low then seen else (e.kind, e.motor) :: seen

/-- The index of the first entry that fails (R162). -/
def failingEntry : Nat → Nat → List (RowKind × Motor) → List MapEntry → Option Nat
  | _, _, _, [] => none
  | i, low, seen, e :: rest =>
    if e.fails low seen then some i else failingEntry (i + 1) e.bound (e.addWindow low seen) rest

/-- The info of a MAP_COMMIT refused because a motor is not STOPPED (11.4). -/
def notStoppedInfo : Short := 0x00FF

/-- MAP_COMMIT acts (R162). -/
def State.mapCommit (s : State) : State :=
  if s.allStopped then
    match failingEntry 0 0 [] s.window.staging.toList with
    | some i => s.logDevice .mapInvalid (BitVec.ofNat 16 i)
    | none => { s with window := { s.window with active := s.window.staging } }
  else s.logDevice .mapInvalid notStoppedInfo

/-- MAP_COMMIT (R162). -/
def execMapCommit (t : Instant) (s : State) : Host.Outcome State Fault Refusal := State.act t State.mapCommit s

end Sys2Proof.Machine
end

