-- ==== Sys2Proof/Machine/Channel.lean ====
section
/-! DEFINITION. The motor channel (chapter 01): the commands STOP, RESTART, PERIOD_BOUNDARY, STOPPING_COMPLETE and START. -/
namespace Sys2Proof.Machine

/-- Sets the channel state. -/
def MotorUnit.setState (c : ChannelState) (u : MotorUnit) : MotorUnit := { u with channel := { u.channel with state := c } }

/-- Sets the step index. -/
def MotorUnit.setStep (k : Nat) (u : MotorUnit) : MotorUnit := { u with channel := { u.channel with stepIndex := k } }

/-- A carrier period starts at an instant (R3, R8). -/
def MotorUnit.startPeriod (b : Instant) (u : MotorUnit) : MotorUnit :=
  { u with channel := { u.channel with periodStart := some b } }

/-- The period count rises by one (R9). -/
def MotorUnit.countPeriod (u : MotorUnit) : MotorUnit :=
  { u with channel := { u.channel with periodCount := u.channel.periodCount + 1 } }

/-- The entry to STOPPED: trip cause NONE, trip info 0, no drive sector, the tracker inactive (R6, R7, R67, R107). -/
def MotorUnit.enterStopped (u : MotorUnit) : MotorUnit :=
  { u with
    channel := { u.channel with state := .stopped, tripCause := .none, tripInfo := 0, driveSector := none }
    tracker := u.tracker.deactivate }

/-! ### STOP (R4) -/

/-- STOP makes a RUNNING channel STOPPING and is ignored in the other states (R4). -/
def MotorUnit.stop (u : MotorUnit) : MotorUnit :=
  match u.channel.state with
  | .running => u.setState .stopping
  | .stopped | .stopping | .tripped => u

/-- STOP (R4). -/
def execStop (m : Motor) (t : Instant) (s : State) : Host.Outcome State Fault Refusal :=
  State.act t (fun s => s.onMotor m MotorUnit.stop) s

/-! ### RESTART (R7) -/

/-- Both staging halves are FREE (R7, R130). -/
def FrameAssembler.bothFree (a : FrameAssembler) : Bool := a.half0.state = .free && a.half1.state = .free

/-- The first condition of RESTART that fails (R7). -/
def MotorUnit.restartRefusal (u : MotorUnit) : Option InfoName :=
  if u.channel.state ≠ .tripped then some .state
  else if u.channel.faultActive then some .faultActive
  else if !u.frames.bothFree then some .flushPending
  else none

/-- RESTART acts (R7). -/
def State.restart (m : Motor) (s : State) : State :=
  match (s.motor m).restartRefusal with
  | some i => s.logMotor m .restartRefused i.info
  | none => s.onMotor m fun u => (u.allOff s.timebase).enterStopped

/-- RESTART (R7). -/
def execRestart (m : Motor) (t : Instant) (s : State) : Host.Outcome State Fault Refusal :=
  State.act t (State.restart m) s

/-! ### The stopping boundary (R5, R6) -/

/-- Items 3 to 7 of a stopping boundary, but for the frame's storage (R5, R65). -/
def MotorUnit.stopRun (now : Instant) (u : MotorUnit) : MotorUnit :=
  ((((u.closeFrame now .stopped).allOff now).releaseSlots).onTracker Tracker.leaveHall).stopCarrier

/-- A stopping boundary, after the period count has risen (R5): a frame without storage makes the channel STOPPED there
(R6). -/
def MotorUnit.stoppingBoundary (now : Instant) (u : MotorUnit) : MotorUnit :=
  let u1 := (u.setState .stopping).stopRun now
  if u.frameWithoutStorage then u1.enterStopped else u1

/-- A half holds the stopping frame, which waits for its final flush (R6). -/
def Half.waitsStopped (h : Half) : Bool := h.state ≠ .free && h.closeFlag = .stopped

/-- A STOPPING channel past its stopping boundary whose stopping frame waits for no flush (R6). -/
def MotorUnit.stoppingDone (u : MotorUnit) : Bool :=
  u.channel.state = .stopping && u.channel.periodStart.isNone && !u.frames.half0.waitsStopped
    && !u.frames.half1.waitsStopped

/-- The channel becomes STOPPED where its last frame has been written (R6). -/
def MotorUnit.completeStop (u : MotorUnit) : MotorUnit := if u.stoppingDone then u.enterStopped else u

/-- STOPPING_COMPLETE (R6): where the stopping frame still waits, nothing changes (logs 2 and 6). -/
def execStoppingComplete (m : Motor) (t : Instant) (s : State) : Host.Outcome State Fault Refusal :=
  State.act t (fun s => s.onMotor m MotorUnit.completeStop) s

/-! ### The period boundary of a RUNNING channel (R10) -/

/-- Claim 1 where a slot activates (R10, R44, R65). -/
def MotorUnit.activateAt (b : Instant) (n : SlotName) (u : MotorUnit) : MotorUnit :=
  ((u.activateSlot n).setStep 0).switchMode b u.hallMode

/-- Claim 3 where the frame closes: another opens at the same instant (R10, R113). -/
def State.renewFrame (s : State) (m : Motor) (flag : CloseFlag) : State :=
  (s.onMotor m (MotorUnit.closeFrame s.timebase flag)).openFrame m

/-- The open frame has covered the frame interval (R113 item 2). -/
def MotorUnit.frameCovered (u : MotorUnit) : Bool :=
  match u.frames.openFrame with
  | some f => decide (u.settings.frameInterval ≤ f.periodsCovered)
  | none => false

/-- Claim 3 without an activation (R113 items 2 to 4). -/
def State.countFrame (s : State) (m : Motor) : State :=
  if (s.motor m).frameCovered then s.renewFrame m .none
  else
    s.onMotor m (MotorUnit.onFrames
      (f := FrameAssembler.onOpenFrame fun f => { f with periodsCovered := f.periodsCovered + 1 }))

/-- Claims 4 and 5 (R10). -/
def State.setStepAt (s : State) (m : Motor) (b : Instant) : State :=
  (s.onMotor m (MotorUnit.setLegs s.timebase b)).placeStep m b

/-- Claim 2: the step of the next period, none where END_STOP makes this a stopping boundary (R10, R45). -/
def MotorUnit.nextStep (u : MotorUnit) : Option Nat :=
  match u.activePlan with
  | none => some u.channel.stepIndex
  | some c =>
    if u.atLastStep then
      match planEndAction c with
      | .repeatLast => some u.channel.stepIndex
      | .loop => some 0
      | .endStop => none
    else some (u.channel.stepIndex + 1)

/-- The claims of a boundary at `b`, after the period count has risen (R10). -/
def State.runningBoundary (s : State) (m : Motor) (b : Instant) : State :=
  match (s.motor m).activating with
  | some n => ((s.onMotor m (MotorUnit.activateAt b n)).renewFrame m .switched).setStepAt m b
  | none =>
    match (s.motor m).nextStep with
    | some k => ((s.onMotor m (MotorUnit.setStep k)).countFrame m).setStepAt m b
    | none => s.onMotor m (MotorUnit.stoppingBoundary s.timebase)

/-- The instant of the next period boundary, none while the carrier does not run (R8). -/
def MotorUnit.nextBoundary (u : MotorUnit) : Option Instant :=
  u.channel.periodStart.map fun b => after b u.settings.carrierPeriod

/-- A period boundary of the motor is due (R8). -/
def MotorUnit.boundaryDue (now : Instant) (u : MotorUnit) : Bool :=
  (u.channel.state = .running || u.channel.state = .stopping) && timerDue u.nextBoundary now

/-- The period boundary of one motor (R5, R9, R10); an overdue one keeps its place in the run of equal periods (R8, log 28). -/
def State.ownBoundary (m : Motor) (s : State) : State :=
  match (s.motor m).nextBoundary with
  | none => s
  | some b =>
    if reached b s.timebase then
      let s1 := s.onMotor m fun u => (u.startPeriod b).countPeriod
      match (s.motor m).channel.state with
      | .running => s1.runningBoundary m b
      | .stopping => s1.onMotor m (MotorUnit.stoppingBoundary s.timebase)
      | .stopped | .tripped => s
    else s

/-- The next boundary of motor `k` comes before one of motor `m` at `b`: at an earlier instant, or at the same one with the
lower number (R76). -/
def State.boundaryBefore (s : State) (m : Motor) (b : Instant) (k : Motor) : Bool :=
  match (s.motor k).nextBoundary with
  | none => false
  | some d => reached d b && (decide (k.number < m.number) || d != b)

/-- The other motors, one whose next boundary comes after another's behind it (R76). -/
def State.inTurn (s : State) (m : Motor) : List Motor :=
  let behind (k : Motor) : Bool :=
    match (s.motor k).nextBoundary with
    | none => false
    | some d => m.others.any fun j => decide (j ≠ k) && s.boundaryBefore k d j
  m.others.filter (fun k => !behind k) ++ m.others.filter behind

/-- The boundaries of other motors that come before one of `m` at `b` take place in their order, one of each motor, so that the
Calendar places their requests first (R76, log 27). -/
def State.boundariesBefore (m : Motor) (b : Instant) (s : State) : State :=
  (s.inTurn m).foldl (fun s k => if s.boundaryBefore m b k then s.ownBoundary k else s) s

/-- The period boundary of a motor, where it is due, after those that come before it (R5, R10, R76). -/
def State.periodBoundary (m : Motor) (s : State) : State :=
  match (s.motor m).nextBoundary with
  | none => s
  | some b => if (s.motor m).boundaryDue s.timebase then (s.boundariesBefore m b).ownBoundary m else s

/-- PERIOD_BOUNDARY (R5, R10): where no boundary is due, nothing changes (log 2). -/
def execPeriodBoundary (m : Motor) (t : Instant) (s : State) : Host.Outcome State Fault Refusal :=
  State.act t (State.periodBoundary m) s

/-! ### START (R2, R3) -/

/-- The info of a START whose slot fails revalidation (R2 condition 7). -/
def PlanFault.startInfo (f : PlanFault) : InfoName := if f.code = .hallMap then .hallMap else .plan

/-- The first condition of START that fails (R2). -/
def State.startRefusal (s : State) (m : Motor) : Option InfoName :=
  let u := s.motor m
  if u.channel.state ≠ .stopped then some .state
  else
    match u.pendingSlot with
    | none => some .noPending
    | some n =>
      if s.converter.state = .lost then some .converter
      else if s.port.state ≠ .awake then some .memory
      else if u.channel.faultActive then some .faultActive
      else if !s.window.ringOk m u.settings then some .ring
      else (s.validateSlot m n).map PlanFault.startInfo

/-- Items 1 to 4 of START, for the PENDING slot `n` (R3). -/
def MotorUnit.beginRun (now : Instant) (n : SlotName) (u : MotorUnit) : MotorUnit :=
  ((((u.setState .running).startPeriod now).activateSlot n).beginTracker now).setStep 0

/-- Item 6 of START: the legs are set for step 0, and the narrow-pulse count stands (R3, R16, log 30). -/
def MotorUnit.startLegs (now : Instant) (u : MotorUnit) : MotorUnit := (u.setLegs now now).setNarrow u.channel.narrowCount

/-- START is taken (R3). -/
def State.takeStart (s : State) (m : Motor) (n : SlotName) : State :=
  let s1 := (s.onMotor m (MotorUnit.beginRun s.timebase n)).openFrame m
  (s1.onMotor m (MotorUnit.startLegs s.timebase)).placeStep m s.timebase

/-- START acts (R2); taken, it comes after the boundaries that come before the START instant, which counts as one (R76). -/
def State.start (m : Motor) (s : State) : State :=
  match s.startRefusal m with
  | some i => s.logMotor m .startRefused i.info
  | none =>
    match (s.motor m).pendingSlot with
    | some n => (s.boundariesBefore m s.timebase).takeStart m n
    | none => s

/-- A run begins between two states at an instant for which a motor of higher number has placed, whatever has become of that motor
since: the Calendar would place behind that one, against R76. -/
def State.startsBehind (s s1 : State) : Bool :=
  [Motor.m0, .m1, .m2].any fun m =>
    (s.motor m).channel.state = .stopped && (s1.motor m).channel.state = .running && s.placedAbove m

/-- Takes a command that may give START at the instant `t`. Where its START would come behind the boundary of a
higher-numbered motor at that instant, the command is taken one tick later, at which none has placed (R76; the model's choice,
log 27). -/
def State.actStart (t : Instant) (f : State → State) (s : State) : Host.Outcome State Fault Refusal :=
  .next (
    if s.inReset then s
    else
      let s0 := s.atInstant t
      let s1 := f s0
      if s0.startsBehind s1 then f (s0.moveTo (s0.timebase + 1)) else s1)

/-- START (R2, R3). -/
def execStart (m : Motor) (t : Instant) (s : State) : Host.Outcome State Fault Refusal := State.actStart t (State.start m) s

end Sys2Proof.Machine
end

