-- ==== Sys2Proof/Machine/Restart.lean ====
section
/-! DEFINITION. SOFT_RESTART and its effect (R24, R49, R67, R90, R109, R135, R152, R172, R182, R190, R197), the reset pin
(R24, R171), and the commands SOFT_RESTART, SOFT_RESTART_EFFECT, RESET_ASSERT and RESET_RELEASE. -/
namespace Sys2Proof.Machine

/-! ### The restart values (R182) -/

/-- A channel after SOFT_RESTART: the outputs off at once, the carrier not running, the counts of R24 (R24). -/
def MotorUnit.restartChannel (now : Instant) (u : MotorUnit) : MotorUnit :=
  let u1 := ((u.allOff now).stopCarrier).enterStopped
  { u1 with channel := { u1.channel with periodCount := 0, stepIndex := 0 } }

/-- A slot after SOFT_RESTART (R49). -/
def PlanSlot.restart (p : PlanSlot) : PlanSlot := { p with state := .inactive, nextTag := none }

/-- The blocks of a motor after SOFT_RESTART (R24, R49, R67, R90, R135, R197): the settings, the pins, the narrow-pulse
and the unplaced count are kept. -/
def MotorUnit.softRestart (now : Instant) (u : MotorUnit) : MotorUnit :=
  let u1 := u.restartChannel now
  { u1 with
    slotA := u1.slotA.restart, slotB := u1.slotB.restart
    marks := { u1.marks with unplacedLogged := false, fullLogged := false }
    frames := FrameAssembler.reset
    attention := MotorAttention.reset }

/-- The Converter Port after SOFT_RESTART: the request tag is kept (R90). -/
def Converter.softRestart (c : Converter) : Converter :=
  { c with state := .ready, failures := 0, resultTimer := none }

/-- The Decoder record after SOFT_RESTART: IDLE (R172), but that of a transaction that still has select low stands: its
classification and its refusal hold to its select rise (R29, R159, R170, log 29). -/
def State.restartDecoder (s : State) : Decoder := if s.upstream.selectLow then s.decoder else Decoder.idle

/-- Every block takes its restart values together (R152, R182). -/
def State.softRestartNow (s : State) : State :=
  { s.onMotors (MotorUnit.softRestart s.timebase) with
    inputs := s.inputs.map fun r => { r with consecutive := 0 }
    calendar := { s.calendar with reservations := [] }
    converter := s.converter.softRestart
    decoder := s.restartDecoder
    log := FaultLog.reset
    restartWaiting := false }

/-- SOFT_RESTART is taken: at once, or at the completion of the flush in flight (R152, R182). -/
def State.softRestart (s : State) : State :=
  if s.arbiter.flight.isSome then { s with restartWaiting := true } else s.softRestartNow

/-- SOFT_RESTART (R182). -/
def execSoftRestart (t : Instant) (s : State) : Host.Outcome State Fault Refusal := State.act t State.softRestart s

/-- A waiting restart takes effect where no flush is in flight (R152). -/
def State.restartTakesEffect (s : State) : State :=
  if s.restartWaiting && s.arbiter.flight.isNone then s.softRestartNow else s

/-- SOFT_RESTART_EFFECT (R152): where no restart waits, or a flush is in flight, nothing changes (logs 2 and 6). -/
def execSoftRestartEffect (t : Instant) (s : State) : Host.Outcome State Fault Refusal :=
  State.act t State.restartTakesEffect s

/-! ### The reset pin (R24, R171) -/

/-- The whole bytes of a flush that had been clocked out by an instant, after the command and the address (R147, log 14). -/
def Flush.clocked (f : Flush) (now : Instant) : List Byte :=
  if reached f.writeStart now then f.content.take (elapsed f.writeStart now / 4 - 4) else []

/-- The RAM when the reset pin ends the part's work on the memory port, whose select goes high (R171): a WRITE is cut short (R155, log
14); a transaction that was forwarded, and is complete by the bytes that have counted, ends as at its select rise (R155, R156); and a RAM
that has taken WAKE leaves sleep, though the part's wake timer runs no more (R156, log 11). -/
def State.ramAtReset (s : State) : Ram :=
  match s.arbiter.flight with
  | some f => s.ram.store f.address (f.clocked s.timebase)
  | none =>
    let r := s.decoder.endsOn s.ram
    if s.port.state = .waking ∨ s.decoder.command = some (.known .wake) then { r with asleep := false } else r

/-- Every block at its power-on value, with what the part does not own: the pins, the RAM and the queue (R171). -/
def State.powerOn (s : State) (straps : BitVec 2) : State :=
  { State.reset with
    m0 := MotorUnit.reset s.m0.channel.faultActive s.m0.hallCode
    m1 := MotorUnit.reset s.m1.channel.faultActive s.m1.hallCode
    m2 := MotorUnit.reset s.m2.channel.faultActive s.m2.hallCode
    ram := s.ramAtReset
    window := WindowMap.reset straps
    freeCount := s.freeCount
    pending := s.pending }

/-- The reset pin is asserted: the outputs are ALL_OFF, READY is low, and no transaction is taken (R24, R171, log 20). -/
def State.assertReset (s : State) : State :=
  { s.powerOn s.window.position with
    inReset := true, timebase := s.timebase, port := MemoryPort.reset none }

/-- RESET_ASSERT (R24). -/
def execResetAssert (t : Instant) (s : State) : Host.Outcome State Fault Refusal := State.act t State.assertReset s

/-- RESET_RELEASE (R171): the straps are sampled, every block has its power-on value, the timebase counts from 0, the
arbiter is HELD and the Memory Port issues its LINK-CLEAR. -/
def execResetRelease (straps : BitVec 2) (s : State) : Host.Outcome State Fault Refusal :=
  .next { s.powerOn straps with inReset := false }

end Sys2Proof.Machine
end

