-- ==== Sys2Proof/Machine/Window.lean ====
section
/-! DEFINITION. The Part Window (chapter 09, 11.3): its words, the read view, the words of a write, and the commands
SETTING_WORD_WRITE and STAGING_WORD_WRITE. -/
namespace Sys2Proof.Machine

/-! ### The words (R173, 11.3) -/

/-- The words of a motor block (11.3). -/
inductive MotorWord where
  | carrierPeriod | minimumPulse | deadTime | safeState | frameInterval | ringLevels | ringBase | ringStride | ringDepth
  | ringPolicy | frameDone | minimumSector | predictionLimit | startTimeout | commutationDelay | staleTimeout
  | sectorMap (k : Fin 6)
  | consumed | command | channelStatus | tripInfo | periodCount | counts | planStatus | trackerStatus | frameStatus
  | assigned | produced | consumedStatus | fill | unassigned
deriving DecidableEq, Repr

/-- The words of the part window (11.3). -/
inductive WindowWord where
  | tConv | controllerWindow | wakeTime
  | input (i : Fin 16)
  | staging (k : Fin 8)
  | attentionEnable | attentionPending | logTop | logStamp | logState | logPop | logClearOverflow | deviceStatus
  | deviceCommand
  | motorBlock (m : Motor) (w : MotorWord)
  | unassigned
deriving DecidableEq, Repr

/-- The word of a motor block at a byte offset within it (11.3). -/
def motorWordAt (off : Nat) : MotorWord :=
  match off with
  | 0x00 => .carrierPeriod
  | 0x04 => .minimumPulse
  | 0x08 => .deadTime
  | 0x0C => .safeState
  | 0x10 => .frameInterval
  | 0x14 => .ringLevels
  | 0x18 => .ringBase
  | 0x1C => .ringStride
  | 0x20 => .ringDepth
  | 0x24 => .ringPolicy
  | 0x28 => .frameDone
  | 0x2C => .minimumSector
  | 0x30 => .predictionLimit
  | 0x34 => .startTimeout
  | 0x38 => .commutationDelay
  | 0x3C => .staleTimeout
  | 0x40 => .sectorMap 0
  | 0x44 => .sectorMap 1
  | 0x48 => .sectorMap 2
  | 0x4C => .sectorMap 3
  | 0x50 => .sectorMap 4
  | 0x54 => .sectorMap 5
  | 0x58 => .consumed
  | 0x5C => .command
  | 0x60 => .channelStatus
  | 0x64 => .tripInfo
  | 0x68 => .periodCount
  | 0x6C => .counts
  | 0x70 => .planStatus
  | 0x74 => .trackerStatus
  | 0x78 => .frameStatus
  | 0x7C => .assigned
  | 0x80 => .produced
  | 0x84 => .consumedStatus
  | 0x88 => .fill
  | _ => .unassigned

/-- The word of the device area at a byte offset within it (11.3). -/
def deviceWordAt (off : Nat) : WindowWord :=
  match off with
  | 0x000 => .tConv
  | 0x004 => .controllerWindow
  | 0x008 => .wakeTime
  | 0x0A0 => .attentionEnable
  | 0x0A4 => .attentionPending
  | 0x0B0 => .logTop
  | 0x0B4 => .logStamp
  | 0x0B8 => .logState
  | 0x0BC => .logPop
  | 0x0C0 => .logClearOverflow
  | 0x0D0 => .deviceStatus
  | 0x0FC => .deviceCommand
  | o =>
    if h : o % 4 = 0 ∧ 0x40 ≤ o ∧ o < 0x80 then .input ⟨(o - 0x40) / 4, by omega⟩
    else if h : o % 4 = 0 ∧ 0x80 ≤ o ∧ o < 0xA0 then .staging ⟨(o - 0x80) / 4, by omega⟩
    else .unassigned

/-- The word at a byte offset of the part window: row 0 is the device area, rows 1 to 3 the motor blocks (11.3). -/
def wordAt (off : Nat) : WindowWord :=
  match off / 256 with
  | 0 => deviceWordAt (off % 256)
  | 1 => .motorBlock .m0 (motorWordAt (off % 256))
  | 2 => .motorBlock .m1 (motorWordAt (off % 256))
  | 3 => .motorBlock .m2 (motorWordAt (off % 256))
  | _ => .unassigned

/-! ### The read view (R183, R184, R188, R200) -/

/-- The number of a safe state (11.3). -/
def SafeState.number : SafeState → Nat
  | .allOff => 0
  | .lowBrake => 1

/-- The number of a ring policy (11.3). -/
def RingPolicy.number : RingPolicy → Nat
  | .drop => 0
  | .overwrite => 1

/-- The sector-map word of an entry (11.3). -/
def SectorEntry.number (e : SectorEntry) : Nat :=
  e.leg0.number + 4 * e.leg1.number + 16 * e.leg2.number + 256 * e.successor.toNat

/-- The plan status word (R48, 11.3). -/
def MotorUnit.planStatus (u : MotorUnit) : Nat :=
  let active := u.activeSlot.map u.slot
  let pending := u.pendingSlot.map u.slot
  let next := active.bind PlanSlot.nextTag
  u.slotA.state.number + 4 * u.slotB.state.number + 16 * SlotName.fieldNumber u.activeSlot
    + 64 * SlotName.fieldNumber u.pendingSlot + flagBit (pending.map PlanSlot.kind = some .atEnd) 8 + flagBit next.isSome 9
    + 2 ^ 16 * (match active with | some p => p.tag.toNat | none => 0)
    + 2 ^ 24 * (match next with | some t => t.toNat | none => 0)

/-- The tracker status word (R66, 11.3). -/
def MotorUnit.trackerStatus (u : MotorUnit) : Nat :=
  u.tracker.state.number + 16 * sectorNumber u.tracker.sector + 2 ^ 8 * u.hallCode.toNat + 2 ^ 12 * u.tracker.predictions
    + 2 ^ 16 * (match u.tracker.duration with | some d => d | none => 0)

/-- The channel status word (R23, R104, 11.3). -/
def Channel.status (c : Channel) : Nat :=
  c.state.number + 2 ^ 8 * c.tripCause.number + flagBit c.faultActive 16 + 2 ^ 20 * (c.stepIndex % 8)

/-- The frame status word (R137, 11.3). -/
def FrameAssembler.status (a : FrameAssembler) : Nat :=
  a.nextSequence.toNat + 2 ^ 16 * a.half0.state.number + 2 ^ 18 * a.half1.state.number

/-- A word of a motor block as a read shows it (R173, R183). -/
def MotorUnit.wordValue (u : MotorUnit) (w : MotorWord) : Nat :=
  match w with
  | .carrierPeriod => u.settings.carrierPeriod
  | .minimumPulse => u.settings.minimumPulse
  | .deadTime => u.settings.deadTime
  | .safeState => u.settings.safeState.number
  | .frameInterval => u.settings.frameInterval
  | .ringLevels => u.settings.ringHigh + 2 ^ 16 * u.settings.ringLow
  | .ringBase => u.settings.ringBase.toNat
  | .ringStride => u.settings.ringStride
  | .ringDepth => u.settings.ringDepth
  | .ringPolicy => u.settings.ringPolicy.number
  | .frameDone => u.settings.frameDoneMode.number + 2 ^ 16 * u.settings.frameDoneDelay
  | .minimumSector => u.settings.minimumSector
  | .predictionLimit => u.settings.predictionLimit
  | .startTimeout => u.settings.startTimeout
  | .commutationDelay => u.settings.commutationDelay
  | .staleTimeout => u.settings.staleTimeout
  | .sectorMap k => (u.settings.sectorMap.get k).number
  | .consumed => u.frames.consumed.toNat
  | .command => 0
  | .channelStatus => u.channel.status
  | .tripInfo => u.channel.tripInfo.toNat
  | .periodCount => u.channel.periodCount.toNat
  | .counts => u.channel.narrowCount.toNat + 2 ^ 16 * u.marks.unplaced.toNat
  | .planStatus => u.planStatus
  | .trackerStatus => u.trackerStatus
  | .frameStatus => u.frames.status
  | .assigned => u.frames.assigned.toNat
  | .produced => u.frames.produced.toNat
  | .consumedStatus => u.frames.consumed.toNat
  | .fill => u.frames.fill
  | .unassigned => 0

/-- The input setting word, with the consecutive count (R110, 11.3). -/
def InputRecord.number (r : InputRecord) : Nat :=
  r.lowLimit.toNat + 2 ^ 12 * r.highLimit.toNat + 2 ^ 24 * r.owner.number + 2 ^ 27 * r.tripCount + 2 ^ 30 * r.consecutive

/-- The staging word (11.3). -/
def MapEntry.number (e : MapEntry) : Nat := e.bound + 2 ^ 20 * e.kind.number + 2 ^ 24 * e.motor.number

/-- The first word of the log top (11.3). -/
def LogEntry.number (e : LogEntry) : Nat := e.code.number + 2 ^ 8 * e.source.number + 2 ^ 16 * e.info.toNat

/-- The log state word (R188, 11.3). -/
def FaultLog.status (l : FaultLog) : Nat := l.entries.length + flagBit l.overflow 8 + 2 ^ 16 * l.discarded

/-- The device status word (R93, R167, R183, 11.3). -/
def State.deviceStatus (s : State) : Nat :=
  flagBit (s.converter.state = .lost) 0 + 2 ^ 4 * s.converter.failures + 2 ^ 8 * s.calendar.reservations.length
    + 2 ^ 12 * s.calendar.highWater + 2 ^ 16 * s.port.state.number + 2 ^ 20 * s.window.position.toNat

/-- A word of the part window as a read shows it (R173, R183, R188). -/
def State.wordValue (s : State) (w : WindowWord) : Nat :=
  match w with
  | .tConv => s.device.tConv
  | .controllerWindow => s.device.controllerWindow
  | .wakeTime => s.device.wakeTime
  | .input i => (s.inputs.get i).number
  | .staging k => (s.window.staging.get k).number
  | .attentionEnable => s.enables.toNat
  | .attentionPending => s.pendingCauses.toNat
  | .logTop => match s.log.entries.head? with | some e => e.number | none => 0
  | .logStamp => match s.log.entries.head? with | some e => e.stamp.toNat | none => 0
  | .logState => s.log.status
  | .logPop => 0
  | .logClearOverflow => 0
  | .deviceStatus => s.deviceStatus
  | .deviceCommand => 0
  | .motorBlock m w => (s.motor m).wordValue w
  | .unassigned => 0

/-- The word at a byte offset of the part window, in the read view of a state (R184). -/
def State.readWord (s : State) (off : Nat) : Word := BitVec.ofNat 32 (s.wordValue (wordAt off))

/-- The byte at an offset of the part window: words are little-endian (00 "Byte order"). -/
def State.readByte (s : State) (off : Nat) : Byte :=
  (s.readWord (off - off % 4)).extractLsb' (8 * (off % 4)) 8

/-! ### Setting words (R176 to R178) -/

/-- A word of a motor block holds free settings (R178). -/
def MotorWord.isFree (w : MotorWord) : Bool :=
  match w with
  | .commutationDelay | .ringLevels | .staleTimeout => true
  | _ => false

/-- The settings after a write of a setting word whose fields lie in range and whose cross-checks hold; none for a write
that fails, and for a word that is no setting word (R176 items 2 and 3, R177, R178). -/
def MotorUnit.newSettings (u : MotorUnit) (w : MotorWord) (v : Word) : Option MotorSettings :=
  let st := u.settings
  let n := v.toNat
  match w with
  | .carrierPeriod => if 1000 ≤ n ∧ n ≤ 40000 then some { st with carrierPeriod := n } else none
  | .minimumPulse => if st.deadTime ≤ n ∧ n ≤ 4000 then some { st with minimumPulse := n } else none
  | .deadTime => if n ≤ 1000 ∧ n ≤ st.minimumPulse then some { st with deadTime := n } else none
  | .safeState =>
    if n = 0 then some { st with safeState := .allOff }
    else if n = 1 then some { st with safeState := .lowBrake }
    else none
  | .frameInterval => if 1 ≤ n ∧ n ≤ 8 then some { st with frameInterval := n } else none
  | .ringLevels =>
    if 1 ≤ field v 0 9 ∧ field v 0 9 ≤ 256 ∧ field v 16 8 < field v 0 9 ∧ field v 0 9 ≤ st.ringDepth then
      some { st with ringHigh := field v 0 9, ringLow := field v 16 8 }
    else none
  | .ringBase =>
    if n < 2 ^ 24 ∧ n % 256 = 0 ∧ u.frames.bothFree = true then some { st with ringBase := BitVec.ofNat 24 n } else none
  | .ringStride =>
    if n ∈ [16, 32, 64, 128, 256] ∧ u.frames.bothFree = true then some { st with ringStride := n } else none
  | .ringDepth =>
    if 2 ≤ n ∧ n ≤ 256 ∧ st.ringHigh ≤ n ∧ u.frames.bothFree = true then some { st with ringDepth := n } else none
  | .ringPolicy =>
    if n = 0 then some { st with ringPolicy := .drop }
    else if n = 1 then some { st with ringPolicy := .overwrite }
    else none
  | .frameDone => some { st with frameDoneMode := frameDoneModeOf (field v 0 2), frameDoneDelay := field v 16 16 }
  | .minimumSector => if n ≤ 65535 then some { st with minimumSector := n } else none
  | .predictionLimit => if n ≤ 3 then some { st with predictionLimit := n } else none
  | .startTimeout => if 1 ≤ n ∧ n ≤ 65535 then some { st with startTimeout := n } else none
  | .commutationDelay => if n ≤ 65535 then some { st with commutationDelay := n } else none
  | .staleTimeout => if 1 ≤ n ∧ n ≤ 65535 then some { st with staleTimeout := n } else none
  | .sectorMap k => (sectorWordOf v).map fun e => { st with sectorMap := st.sectorMap.set k e k.isLt }
  | _ => none

/-- The motor's settings are replaced. -/
def MotorUnit.setSettings (st : MotorSettings) (u : MotorUnit) : MotorUnit := { u with settings := st }

/-- The three ring counters become 0 (R130). -/
def MotorUnit.zeroCounters (u : MotorUnit) : MotorUnit :=
  u.onFrames fun a => { a with assigned := 0, produced := 0, consumed := 0 }

/-- What an accepted setting word does beside the setting (R130, R195, R196). -/
def MotorUnit.afterSetting (now : Instant) (w : MotorWord) (u : MotorUnit) : MotorUnit :=
  match w with
  | .ringBase | .ringStride | .ringDepth => u.zeroCounters.countersChanged now
  | .ringLevels => u.levelsChanged now
  | _ => u

/-- The guard of a word of a motor block (R176 item 1). -/
def MotorUnit.settingAllowed (u : MotorUnit) (w : MotorWord) : Bool := w.isFree || u.channel.state = .stopped

/-- A setting word of a motor is taken (R176). -/
def State.takeMotorSetting (s : State) (m : Motor) (w : MotorWord) (off : Nat) (v : Word) : State :=
  let u := s.motor m
  match (if u.settingAllowed w then u.newSettings w v else none) with
  | some st => s.onMotor m fun u => (u.setSettings st).afterSetting s.timebase w
  | none => s.logMotor m .settingRefused (BitVec.ofNat 16 off)

/-- A refused word of the device area (R176). -/
def State.refuseDeviceWord (s : State) (off : Nat) : State := s.logDevice .settingRefused (BitVec.ofNat 16 off)

/-- The T_conv word (R92). -/
def State.takeTConv (s : State) (off : Nat) (v : Word) : State :=
  if s.allStopped = true ∧ 40 ≤ v.toNat ∧ v.toNat ≤ 320 then { s with device := { s.device with tConv := v.toNat } }
  else s.refuseDeviceWord off

/-- The controller window word (R145). -/
def State.takeControllerWindow (s : State) (off : Nat) (v : Word) : State :=
  if v.toNat ≤ 255 then { s with device := { s.device with controllerWindow := v.toNat } } else s.refuseDeviceWord off

/-- The wake time word (R167). -/
def State.takeWakeTime (s : State) (off : Nat) (v : Word) : State :=
  if 1 ≤ v.toNat ∧ v.toNat ≤ 255 then { s with device := { s.device with wakeTime := v.toNat } } else s.refuseDeviceWord off

/-- An input setting word (R96). -/
def State.takeInput (s : State) (i : Fin 16) (off : Nat) (v : Word) : State :=
  match (if s.allStopped then inputWordOf v else none) with
  | some r => s.setInput (BitVec.ofFin i) r
  | none => s.refuseDeviceWord off

/-- A staging word (R161). -/
def State.takeStaging (s : State) (k : Fin 8) (off : Nat) (v : Word) : State :=
  match stagingWordOf v with
  | some e => { s with window := { s.window with staging := s.window.staging.set k e k.isLt } }
  | none => s.refuseDeviceWord off

/-! ### Command words (R179, R181) -/

/-- A motor command word is taken (R179). -/
def State.takeMotorCommand (s : State) (m : Motor) (off : Nat) (v : Word) : State :=
  match motorCommandOf v with
  | some .start => s.start m
  | some .stop => s.onMotor m MotorUnit.stop
  | some .restart => s.restart m
  | some (.commit slot tag kind) => s.commit m slot tag kind
  | some (.cancel slot) => s.cancel m slot
  | some .clearCounts => s.onMotor m MotorUnit.clearCounts
  | none => s.logMotor m .settingRefused (BitVec.ofNat 16 off)

/-- A device command word is taken (R181). -/
def State.takeDeviceCommand (s : State) (off : Nat) (v : Word) : State :=
  match deviceCommandOf v with
  | some .softRestart => s.softRestart
  | some .clearCountsDevice => s.clearDeviceCounts
  | some .mapCommit => s.mapCommit
  | none => s.refuseDeviceWord off

/-! ### The words of a write (R174, R175, R182) -/

/-- A word of a motor block is taken (R173). -/
def State.takeMotorWord (s : State) (m : Motor) (w : MotorWord) (off : Nat) (v : Word) : State :=
  match w with
  | .consumed => s.writeConsumed m v
  | .command => s.takeMotorCommand m off v
  | .channelStatus | .tripInfo | .periodCount | .counts | .planStatus | .trackerStatus | .frameStatus | .assigned
  | .produced | .consumedStatus | .fill | .unassigned => s
  | _ => s.takeMotorSetting m w off v

/-- The word at a byte offset is taken, whole (R173, R174): status words and unassigned words ignore it (R175). -/
def State.takeWord (s : State) (off : Nat) (v : Word) : State :=
  match wordAt off with
  | .tConv => s.takeTConv off v
  | .controllerWindow => s.takeControllerWindow off v
  | .wakeTime => s.takeWakeTime off v
  | .input i => s.takeInput i off v
  | .staging k => s.takeStaging k off v
  | .attentionEnable => { s with enables := v.extractLsb' 0 14 }
  | .attentionPending => s.clearCauses v
  | .logPop => s.popLog
  | .logClearOverflow => s.clearLogOverflow
  | .deviceCommand => s.takeDeviceCommand off v
  | .motorBlock m w => s.takeMotorWord m w off v
  | .logTop | .logStamp | .logState | .deviceStatus | .unassigned => s

/-- The word gives SOFT_RESTART: the words after it in the same write are discarded (R182). -/
def restartWord (off : Nat) (v : Word) : Bool :=
  decide (wordAt off = .deviceCommand) && decide (deviceCommandOf v = some .softRestart)

/-- The words of one write are taken one after another, up to a SOFT_RESTART (R174, R182), with no other event of the instant
between two of them. R174 lets a boundary, a result, a flush completion, a Hall edge or a trip come there too; those orders are runs
in which the words are given as commands of their own (DESIGN CHOICE, log 39). -/
def State.takeWords (s : State) : List (Nat × Word) → State
  | [] => s
  | (off, v) :: rest => if restartWord off v then s.takeWord off v else (s.takeWord off v).takeWords rest

/-- SETTING_WORD_WRITE (R175, R176): the whole word at an aligned offset; an offset that is no word's hands on nothing. -/
def execSettingWordWrite (off : BitVec 12) (v : Word) (t : Instant) (s : State) : Host.Outcome State Fault Refusal :=
  State.actStart t (fun s => if off.toNat % 4 = 0 then s.takeWord off.toNat v else s) s

/-- STAGING_WORD_WRITE (R161). -/
def execStagingWordWrite (entry : Fin 8) (v : Word) (t : Instant) (s : State) : Host.Outcome State Fault Refusal :=
  State.act t (fun s => s.takeStaging entry (0x80 + 4 * entry.val) v) s

end Sys2Proof.Machine
end

