-- ==== Sys2Proof/Machine/Arbiter.lean ====
section
/-! DEFINITION. The Link Arbiter (chapter 07): the choice of a flush, the flush, its completion, and the commands
FLUSH_START, FLUSH_COMPLETION, CONTROLLER_WINDOW_EXPIRY, WAKE_TIMER_EXPIRY and POWER_ON_LINK_CLEAR_COMPLETION. -/
namespace Sys2Proof.Machine

/-! ### The choice (R142 to R144) -/

/-- The first motor in the order pointer, pointer + 1, pointer + 2 that a test selects (R144). -/
def firstFrom (p : Motor) (test : Motor → Bool) : Option Motor :=
  if test p then some p
  else if test p.following then some p.following
  else if test p.following.following then some p.following.following
  else none

/-- The motor presents a request (R142). -/
def State.presents (s : State) (m : Motor) : Bool := (s.motor m).frames.presented.isSome

/-- The motor is urgent, and presents its request (R142). -/
def State.pressing (s : State) (m : Motor) : Bool := (s.motor m).frames.urgent && s.presents m

/-- The motor whose flush the arbiter chooses now (R143, R144, R151). -/
def State.candidate (s : State) : Option Motor :=
  if s.arbiter.state = .openLink ∧ s.port.state = .awake then
    match firstFrom s.arbiter.pointer s.pressing with
    | some m => some m
    | none => if s.arbiter.windowTimer.isNone then firstFrom s.arbiter.pointer s.presents else none
  else none

/-! ### The flush (R146, R147) -/

/-- A byte of the part's own transactions takes 4 ticks (R147). -/
def byteTicks : Nat := 4

/-- A LINK-CLEAR and the gap after it (R147). -/
def clearTicks : Nat := 6

/-- The bytes of a WRITE (R155). -/
def writeBytes (a : Addr) (content : List Byte) : List Byte := LinkCommand.code .write :: (addrBytes a ++ content)

/-- The flush of a half, from the instant of its choice (R128, R146, R147). -/
def MotorUnit.flushOf (u : MotorUnit) (m : Motor) (n : HalfName) (clear : Bool) (now : Instant) : Flush :=
  let h := u.frames.half n
  let content := h.burstContent m
  let start := if clear then after now clearTicks else now
  { motor := m, half := n, final := decide (h.request = .finalFlush), opensFrame := !h.stampWritten,
    entries := h.burstEntries.length, address := u.burstAddress h, content := content, writeStart := start,
    due := after start (byteTicks * (4 + content.length)) }

/-- The transactions of a flush on the memory port (R146 items 3 and 4). -/
def Flush.transactions (f : Flush) (clear : Bool) : List (List Byte) :=
  (if clear then [[LinkCommand.code .linkClear]] else []) ++ [writeBytes f.address f.content]

/-- The flush of a motor's half starts (R146). -/
def State.startFlush (s : State) (m : Motor) (n : HalfName) : State :=
  let clear := s.port.repeatSet
  let f := (s.motor m).flushOf m n clear s.timebase
  let s1 := s.onMotor m (MotorUnit.onFrames (f := fun a => a.onHalf n Half.startBurst))
  { s1 with
    arbiter := { s1.arbiter with state := .flush, pointer := m.following, flight := some f }
    port := { s1.port with repeatSet := false, issued := f.transactions clear }
    ram := if clear then s1.ram.clearRepeat else s1.ram }

/-- The flush that the arbiter chooses starts (R143, R146). -/
def State.chooseFlush (s : State) : State :=
  match s.candidate with
  | none => s
  | some m =>
    match (s.motor m).frames.presented with
    | some n => s.startFlush m n
    | none => s

/-- FLUSH_START (R146): where the arbiter chooses no flush, nothing changes (logs 2 and 5). -/
def execFlushStart (t : Instant) (s : State) : Host.Outcome State Fault Refusal := State.act t State.chooseFlush s

/-! ### Completion (R129, R148) -/

/-- The arbiter state when the link becomes free: CONTROLLER while a refused transaction has select low (R148, R151). -/
def State.freeLink (s : State) : ArbiterState := if s.upstream.selectLow then .controller else .openLink

/-- The controller-window timer from its start: expired at once with a setting of 0 (R145). -/
def DeviceSettings.windowExpiry (d : DeviceSettings) (now : Instant) : Option Instant :=
  if d.controllerWindow = 0 then none else some (after now (16 * d.controllerWindow))

/-- The final flush of a half has completed: the half is FREE, produced rises, and the events go to the Attention Unit and
the channel (R6, R129 item 2). -/
def MotorUnit.finalFlushed (now : Instant) (n : HalfName) (u : MotorUnit) : MotorUnit :=
  let seq := (u.frames.half n).sequence
  let u1 := u.onFrames fun a => { a.setHalf n Half.reset with produced := a.produced + 1 }
  (MotorUnit.countersChanged now { u1 with attention := u1.attention.frameWrittenEvent seq }).completeStop

/-- A flush burst of a motor has completed (R129). -/
def MotorUnit.flushed (now : Instant) (f : Flush) (u : MotorUnit) : MotorUnit :=
  let u1 := u.onFrames fun a => a.onHalf f.half (Half.endBurst f.opensFrame f.entries)
  if f.final then u1.finalFlushed now f.half else u1.onFrames fun a => a.onHalf f.half Half.raiseRequest

/-- Items 1 to 4 of a completion (R148); the bytes of the burst stand in the RAM (R156, log 14). -/
def State.endFlush (s : State) (f : Flush) : State :=
  { s with
    arbiter := { s.arbiter with
      state := s.freeLink, flight := none, windowTimer := s.device.windowExpiry s.timebase }
    ram := s.ram.store f.address f.content }.onMotor f.motor (MotorUnit.flushed s.timebase f)

/-- The flush burst in flight completes (R148), and a waiting SOFT_RESTART takes effect (R152). -/
def State.flushCompletes (s : State) : State :=
  match s.arbiter.flight with
  | none => s
  | some f => if reached f.due s.timebase then (s.endFlush f).restartTakesEffect else s

/-- FLUSH_COMPLETION (R148): where no flush is due, nothing changes (log 2). -/
def execFlushCompletion (t : Instant) (s : State) : Host.Outcome State Fault Refusal :=
  State.act t State.flushCompletes s

/-! ### The timers of the link (R145, R151, R167, R171) -/

/-- The controller-window timer expires (R145). -/
def State.windowExpires (s : State) : State :=
  if timerDue s.arbiter.windowTimer s.timebase then { s with arbiter := { s.arbiter with windowTimer := none } } else s

/-- CONTROLLER_WINDOW_EXPIRY (R145): where the timer's instant has not arrived, nothing changes (log 2). -/
def execControllerWindowExpiry (t : Instant) (s : State) : Host.Outcome State Fault Refusal :=
  State.act t State.windowExpires s

/-- The wake timer expires: the memory state is AWAKE, the RAM has left sleep, and the arbiter leaves HELD (R151, R156, R167). -/
def State.wakeExpires (s : State) : State :=
  if timerDue s.port.wakeTimer s.timebase then
    { s with
      port := { s.port with state := .awake, wakeTimer := none }
      ram := { s.ram with asleep := false }
      arbiter := { s.arbiter with state := s.freeLink } }
  else s

/-- WAKE_TIMER_EXPIRY (R167): where the timer's instant has not arrived, nothing changes (log 2). -/
def execWakeTimerExpiry (t : Instant) (s : State) : Host.Outcome State Fault Refusal :=
  State.act t State.wakeExpires s

/-- The power-on LINK-CLEAR completes: the downstream repeat state is clear, READY rises (R151, R171 item 6). -/
def State.linkCleared (s : State) : State :=
  if timerDue s.port.linkClearDue s.timebase then
    { s with
      port := { s.port with repeatSet := false, linkClearDue := none }
      ram := s.ram.clearRepeat
      arbiter := { s.arbiter with state := s.freeLink } }
  else s

/-- POWER_ON_LINK_CLEAR_COMPLETION (R171): where the LINK-CLEAR is not over, nothing changes (log 2). -/
def execPowerOnLinkClearCompletion (t : Instant) (s : State) : Host.Outcome State Fault Refusal :=
  State.act t State.linkCleared s

end Sys2Proof.Machine
end

