-- ==== Sys2Proof/Machine/Link.lean ====
section
/-! DEFINITION. The memory path (chapter 08): select, the Decoder byte by byte, refused transactions, and the commands that are
transactions of the upstream link. A command of a transaction's row stands for its bytes up to its select rise; those that
UPSTREAM_SELECT_FALL has brought count before it, with whatever comes between (log 13). -/
namespace Sys2Proof.Machine

/-! ### Select (R139, R140, R159) -/

/-- Select falls upstream (R140, R159): with READY high the transaction begins, with READY low it is refused. -/
def State.selectFalls (s : State) : State :=
  if s.upstream.selectLow then s
  else
    { s with
      upstream := { s.upstream with selectLow := true }
      arbiter := if s.ready then { s.arbiter with state := .controller } else s.arbiter
      decoder := { Decoder.idle with
        phase := if s.upstream.repeatState.isSome then .address else .command
        refused := !s.ready
        repeatPrefixDue := s.upstream.repeatState.isSome && !s.port.repeatSet } }

/-- Select rises upstream: the record is IDLE, and CONTROLLER becomes OPEN (R140). -/
def State.selectRises (s : State) : State :=
  { s with
    upstream := { s.upstream with selectLow := false }
    decoder := Decoder.idle
    arbiter := if s.arbiter.state = .controller then { s.arbiter with state := .openLink } else s.arbiter }

/-- The bytes a transaction drives and the transactions it causes downstream are taken down afresh (log 25). -/
def State.clearTraces (s : State) : State :=
  { s with upstream := { s.upstream with readData := [] }, port := { s.port with issued := [] } }

/-- A transaction begins with its select fall, where select is high; one that is not refused takes the traces down (log 25). -/
def State.opens (s : State) : State :=
  if s.upstream.selectLow then s
  else if s.selectFalls.decoder.refused then s.selectFalls
  else s.selectFalls.clearTraces

/-- The transaction on the memory port goes on with these bytes (R159). -/
def State.issue (s : State) (bytes : List Byte) : State :=
  { s with port := { s.port with issued := [s.port.issued.flatten ++ bytes] } }

/-- The Decoder record changes. -/
def State.onDecoder (s : State) (f : Decoder → Decoder) : State := { s with decoder := f s.decoder }

/-! ### Refused transactions (R170) -/

/-- The info of a LINK_VIOLATION entry (R170, 11.4). -/
def violationInfo (repeatMode : Bool) (first : Option Byte) : Short :=
  match first with
  | none => infoPair 0 0
  | some b => infoPair (if repeatMode then 2 else 1) b.toNat

/-- The first byte of a refused transaction: the first that has counted already, or else the first of those given now (R170). -/
def Decoder.firstByte (d : Decoder) (given : Option Byte) : Option Byte := d.first.or given

/-- A refused transaction ends: all ones for its data bytes, and its entry (R170). -/
def State.violate (first : Option Byte) (n : Nat) (s : State) : State :=
  let s1 := s.logDevice .linkViolation (violationInfo s.upstream.repeatState.isSome first)
  { s1 with upstream := { s1.upstream with readData := List.replicate n 0xFF } }

/-! ### Addresses of the bytes of a read (R156, R158, R163) -/

/-- The length of a block, none for OFF (R156). -/
def wrapLength : WrapSetting → Option Nat
  | .off => none
  | .wrap16 => some 16
  | .wrap32 => some 32
  | .wrap64 => some 64
  | .wrap128 => some 128

/-- The address of byte `i` of a read: linear over the whole space, or within the aligned block of the wrap setting (R156). -/
def readAddress (k : ReadKind) (w : WrapSetting) (a : Addr) (i : Nat) : Nat :=
  match k, wrapLength w with
  | .readWrap, some l => a.toNat - a.toNat % l + (a.toNat % l + i) % l
  | _, _ => (a.toNat + i) % 2 ^ 24

/-- The RAM takes a transaction: it is awake, and its repeat mode agrees with how the transaction begins (R156, log 11). -/
def Ram.takes (r : Ram) (addressFirst : Bool) : Bool := !r.asleep && r.repeatMode == addressFirst

/-- The RAM's byte of a read (R156, R163): all ones while the memory state is ASLEEP, its contents where it takes the
transaction, an undriven byte otherwise (log 11). -/
def State.ramByte (s : State) (taken : Bool) (x : Nat) : Byte :=
  if s.port.state = .asleep then 0xFF else if taken then Memory.read s.ram.cells x else Config.undrivenByte x

/-- The part window's read view: its 1024 words in address order (R163, R184). -/
def State.partView (s : State) : List Word := (List.range 1024).map fun i => s.readWord (4 * i)

/-- The byte at an offset of a read view. -/
def viewByte (view : List Word) (off : Nat) : Byte := ((view[off / 4]?).getD 0).extractLsb' (8 * (off % 4)) 8

/-- Byte `i` of a read from `a`: substituted from the read view where its address lies in the part window, the RAM's otherwise
(R163). -/
def State.readDataByte (s : State) (taken : Bool) (view : List Word) (k : ReadKind) (a : Addr) (i : Nat) : Byte :=
  let x := readAddress k s.upstream.wrap a i
  if inPartWindow s.window.position (x / 256) then viewByte view (x - 256 * windowFirstRow s.window.position)
  else s.ramByte taken (readAddress k s.ram.wrap a i)

/-! ### Reads (R149, R150, R157, R163) -/

/-- The command byte of a kind of read. -/
def ReadKind.code : ReadKind → Byte
  | .read => LinkCommand.code .read
  | .readWrap => LinkCommand.code .readWrap

/-- The repeat states after a mode byte (R149, R157), and the RAM's where it takes the read (R156). -/
def State.setRepeat (s : State) (taken : Bool) (k : ReadKind) (mode : Byte) : State :=
  let on := decide (mode = repeatMarker)
  { s with
    upstream := { s.upstream with repeatState := if on then some k else none }
    port := { s.port with repeatSet := on }
    ram := if taken then { s.ram with repeatMode := on } else s.ram }

/-- The kind of read that the transaction in flight is, none for another. -/
def Decoder.readKind (d : Decoder) : Option ReadKind :=
  match d.command with
  | some (.known .read) => some .read
  | some (.known .readWrap) => some .readWrap
  | some (.repeated k) => some k
  | _ => none

/-- The read in flight goes to the RAM without a command byte: a repeat-mode read without the prefix of R150. -/
def Decoder.addressFirst (d : Decoder) : Bool :=
  match d.command with
  | some (.repeated _) => !d.repeatPrefixDue
  | _ => false

/-- The turnaround of a read, in byte times (11.4). -/
def turnaroundBytes : Nat := 4

/-- A read whose address completes is forwarded so far, with the command byte before it but where the RAM is to take it in repeat
mode (R150, R159). -/
def State.forwardRead (s : State) (k : ReadKind) (a : Addr) : State :=
  (s.issue ((if s.decoder.addressFirst then [] else [k.code]) ++ addrBytes a)).onDecoder fun d =>
    { d with phase := .mode, decision := some .forwarded }

/-- The mode byte of a read: the repeat states follow it (R149, R157), and it goes on to the RAM. -/
def State.takeModeByte (b : Byte) (s : State) : State :=
  match s.decoder.readKind with
  | none => s
  | some k =>
    let answers := s.ram.takes s.decoder.addressFirst
    ((s.setRepeat answers k b).issue [b]).onDecoder fun d =>
      { d with phase := .turnaround, offset := 0, ramAnswers := answers }

/-- The data phase of a read begins: the read view is taken, and kept for the rest of the transaction (R163). -/
def State.takeView (s : State) : State :=
  s.onDecoder fun d => { d with phase := .data, snapshot := some (d.snapshot.getD s.partView) }

/-- Data bytes `i` to `i + n - 1` of the read in flight (R163). -/
def State.dataBytes (s : State) (i n : Nat) : List Byte :=
  match s.decoder.readKind, s.decoder.address, s.decoder.snapshot with
  | some k, some a, some view => (List.range' i n).map (s.readDataByte s.decoder.ramAnswers view k a)
  | _, _, _ => []

/-- `n` more byte times of a read: first the turnaround, and then the data bytes (R155, R163). -/
def State.readOn (n : Nat) (s : State) : State :=
  let first := s.decoder.offset - turnaroundBytes
  if s.decoder.offset + n < turnaroundBytes then s
  else
    let s1 := s.takeView
    let data := s1.dataBytes first (s.decoder.offset + n - turnaroundBytes - first)
    { s1 with upstream := { s1.upstream with readData := s1.upstream.readData ++ data } }

/-! ### Writes (R164, R165, R174) -/

/-- The classification of a WRITE (R164). -/
def State.classify (s : State) (row : Nat) : TransactionClass :=
  if inPartWindow s.window.position row then .partWindow
  else
    match s.window.rowUse row with
    | .pass => .pass
    | .plan m slot =>
      match ((s.motor m).slot slot).state with
      | .empty | .inactive => .capture m slot
      | .pending | .active => .guardedPlan m slot
    | .result m => if (s.motor m).channel.state = .stopped then .pass else .guardedResult m

/-- The bytes of a part-window write by offset in the row, the last written first (R164). -/
def collectBytes : Nat → List Byte → List (Nat × Byte) → List (Nat × Byte)
  | _, [], acc => acc
  | off, b :: rest, acc => collectBytes (off + 1) rest ((off % 256, b) :: acc)

/-- A word of a row, where all its four bytes were written (R164). -/
def wholeWord (bytes : List (Nat × Byte)) (off : Nat) : Option Word :=
  match bytes.lookup off, bytes.lookup (off + 1), bytes.lookup (off + 2), bytes.lookup (off + 3) with
  | some b0, some b1, some b2, some b3 => some (b3 ++ b2 ++ b1 ++ b0)
  | _, _, _, _ => none

/-- The whole words of a row that a write to it has collected, in ascending address order, by offset in the part window (R164,
R174). -/
def wholeWords (rowIndex : Nat) (bytes : List (Nat × Byte)) : List (Nat × Word) :=
  (List.range 64).filterMap fun k => (wholeWord bytes (4 * k)).map fun v => (256 * rowIndex + 4 * k, v)

/-- The captured copy takes the bytes of a write; an EMPTY slot becomes INACTIVE with its first byte (R27). -/
def PlanSlot.capture (start : Nat) (data : List Byte) (p : PlanSlot) : PlanSlot :=
  match data with
  | [] => p
  | _ :: _ =>
    { p with copy := Memory.writeRow 0 start data p.copy,
             state := if p.state = .empty then .inactive else p.state }

/-- A WRITE whose address completes is classified, and the class stands to its select rise: forwarded so far, collected, or
withheld with its entry (R27, R28, R29, R159, R164, R165). -/
def State.classifyWrite (s : State) (a : Addr) : State :=
  let row := a.toNat / 256
  let c := s.classify row
  let s1 := s.onDecoder fun d => { d with phase := .data, decision := some c }
  match c with
  | .guardedPlan m slot => s1.logMotor m .planGuardedWrite (infoPair (SlotName.infoNumber slot) (a.toNat % 256))
  | .guardedResult m => s1.logMotor m .resultWriteRefused (BitVec.ofNat 16 row)
  | .capture _ _ | .pass => s1.issue (LinkCommand.code .write :: addrBytes a)
  | .partWindow | .forwarded | .withheld => s1

/-- The address of byte `i` of a WRITE from `a`, which runs round within the row (R156). -/
def rowStep (a : Addr) (i : Nat) : Addr := BitVec.ofNat 24 (a.toNat / 256 * 256 + (a.toNat % 256 + i) % 256)

/-- Data bytes of a WRITE are forwarded to the RAM as they pass (R27, R159, R164). -/
def State.passData (s : State) (a : Addr) (data : List Byte) : State :=
  let s1 := s.issue data
  { s1 with ram := s1.ram.store a data }

/-- Data bytes of a WRITE, by its class (R27, R28, R164). No write captures into a slot that is PENDING or ACTIVE (R28), which one
of class CAPTURE never meets on the part (R29). -/
def State.writeOn (data : List Byte) (s : State) : State :=
  match s.decoder.address, s.decoder.decision with
  | some a, some .pass => s.passData (rowStep a s.decoder.offset) data
  | some a, some (.capture m slot) =>
    let x := rowStep a s.decoder.offset
    match ((s.motor m).slot slot).state with
    | .empty | .inactive => (s.passData x data).onMotor m fun u => u.onSlot slot (PlanSlot.capture (x.toNat % 256) data)
    | .pending | .active => s
  | some a, some .partWindow =>
    s.onDecoder fun d => { d with writeWords := collectBytes (a.toNat % 256 + d.offset) data d.writeWords }
  | _, _ => s

/-- The words that a part-window write has whole, to be handed on at its select rise (R164, R174). -/
def State.handed (s : State) : List (Nat × Word) :=
  match s.decoder.address, s.decoder.decision with
  | some a, some .partWindow => wholeWords (a.toNat / 256 - windowFirstRow s.window.position) s.decoder.writeWords
  | _, _ => []

/-! ### Transactions without an address (R157, R158, R166, R167) -/

/-- A command without an address goes on to the RAM (R159). -/
def State.forwardCommand (b : Byte) (s : State) : State :=
  (s.issue [b]).onDecoder fun d => { d with phase := .data, decision := some .forwarded }

/-- The motors that are not STOPPED, bit m for motor m (R166, 11.4). -/
def State.motorsNotStopped (s : State) : Short :=
  BitVec.ofNat 16 (flagBit (s.m0.channel.state ≠ .stopped) 0 + flagBit (s.m1.channel.state ≠ .stopped) 1
    + flagBit (s.m2.channel.state ≠ .stopped) 2)

/-- A SLEEP is decided at its command byte: forwarded, or withheld with its entry (R159, R166). -/
def State.decideSleep (b : Byte) (s : State) : State :=
  if s.allStopped then s.forwardCommand b
  else (s.logDevice .sleepRefused s.motorsNotStopped).onDecoder fun d => { d with phase := .data, decision := some .withheld }

/-- Bytes that follow a forwarded command are forwarded too (R159). -/
def State.passOn (bytes : List Byte) (s : State) : State :=
  if s.decoder.decision = some .forwarded then s.issue bytes else s

/-- The bytes that follow a WRAP-SET are forwarded (R159); the first of them is recorded where it names a setting (R158). -/
def State.takeWrapBytes (bytes : List Byte) (s : State) : State :=
  let s1 := s.issue bytes
  match (if s.decoder.offset = 0 then bytes.head? else none).bind wrapSettingOf with
  | none => s1
  | some w =>
    { s1 with upstream := { s1.upstream with wrap := w },
              ram := if s1.ram.listens then { s1.ram with wrap := w } else s1.ram }

/-- A forwarded SLEEP ends: the memory state is ASLEEP (R166, R167). -/
def State.sleeps (s : State) : State := { s with port := { s.port with state := .asleep } }

/-- A WAKE ends: the memory state is WAKING and the link is HELD for the wake time (R151, R167). -/
def State.wakes (s : State) : State :=
  { s with
    port := { s.port with state := .waking, wakeTimer := some (after s.timebase (longUnit * s.device.wakeTime)) }
    arbiter := { s.arbiter with state := .held } }

/-- A LINK-CLEAR ends: both repeat states are clear (R149, R157, R166). -/
def State.clearsLink (s : State) : State :=
  { s with upstream := { s.upstream with repeatState := none }, port := { s.port with repeatSet := false } }

/-- A LINK-CLEAR given in repeat mode ends (R150, R157): with the prefix due, the RAM gets the prefix and one byte. -/
def State.clearsRepeat (k : ReadKind) (prefixDue : Bool) (s : State) : State :=
  if prefixDue then
    let s1 := s.issue [k.code, LinkCommand.code .linkClear]
    { s1 with upstream := { s1.upstream with repeatState := none } }
  else (s.issue [LinkCommand.code .linkClear]).clearsLink

/-! ### The Decoder (R155, R157, R159) -/

/-- The address of the first three bytes, where there are three. -/
def addrOf : List Byte → Option Addr
  | b0 :: b1 :: b2 :: _ => some (joinAddr b0 b1 b2)
  | _ => none

/-- The command byte fixes the kind (R159). -/
def State.takeCommandByte (b : Byte) (s : State) : State :=
  match linkCommandOf b with
  | none => (s.onDecoder fun d => { d with command := some .unknown }).forwardCommand b
  | some c =>
    let s1 := s.onDecoder fun d => { d with command := some (.known c) }
    match c with
    | .read | .readWrap | .write => s1.onDecoder fun d => { d with phase := .address }
    | .sleep => s1.decideSleep b
    | .wrapSet | .wake | .linkClear => s1.forwardCommand b

/-- An address byte; the first byte in repeat mode fixes the kind (R157, R159). The third completes the address: a read is
forwarded, a WRITE classified (R159). -/
def State.takeAddressByte (b : Byte) (s : State) : State :=
  let s1 := s.onDecoder fun d =>
    { d with
      command := d.command.or (s.upstream.repeatState.map .repeated)
      addressBytes := d.addressBytes ++ [b]
      address := addrOf (d.addressBytes ++ [b]) }
  match s1.decoder.address, s1.decoder.readKind with
  | none, _ => s1
  | some a, some k => s1.forwardRead k a
  | some a, none => s1.classifyWrite a

/-- A byte before the data of a transaction. -/
def State.takeByte (b : Byte) (s : State) : State :=
  let s1 := s.onDecoder fun d => { d with count := d.count + 1 }
  match s.decoder.phase with
  | .command => s1.takeCommandByte b
  | .address => s1.takeAddressByte b
  | .mode => s1.takeModeByte b
  | .turnaround | .data | .idle => s1

/-- Bytes count after the address of a WRITE, the mode byte of a read, or another command's byte. -/
def Decoder.counted (n : Nat) (d : Decoder) : Decoder := { d with count := d.count + n, offset := d.offset + n }

/-- The bytes after the address of a WRITE, the mode byte of a read, or another command's byte. -/
def State.takeData (bytes : List Byte) (s : State) : State :=
  let s1 :=
    match s.decoder.command with
    | some (.known .write) => s.writeOn bytes
    | some (.known .wrapSet) => s.takeWrapBytes bytes
    | some (.known .read) | some (.known .readWrap) | some (.repeated _) => s.readOn bytes.length
    | some (.known .sleep) | some (.known .wake) | some (.known .linkClear) | some .unknown => s.passOn bytes
    | none => s
  s1.onDecoder (Decoder.counted bytes.length)

/-- Bytes of the transaction in flight count, one after another, each decided as it comes (R155, R159). -/
def State.takeBytes : List Byte → State → State
  | [], s => s
  | b :: rest, s =>
    match s.decoder.phase with
    | .command | .address | .mode => State.takeBytes rest (s.takeByte b)
    | .turnaround | .data | .idle => s.takeData (b :: rest)

/-- What a transaction does at its select rise (R164, R166, R167): one that is incomplete does nothing (R155). -/
def State.completes (s : State) : State :=
  let s1 := { s with decoder := Decoder.idle, ram := s.decoder.endsOn s.ram }
  match s.decoder.command with
  | some (.known .write) => s1.takeWords s.handed
  | some (.known .sleep) => if s.decoder.decision = some .forwarded then s1.sleeps else s1
  | some (.known .wake) => s1.wakes
  | some (.known .linkClear) => s1.clearsLink
  | some (.repeated k) =>
    if s.decoder.addressBytes = [LinkCommand.code .linkClear] then s1.clearsRepeat k s.decoder.repeatPrefixDue else s1
  | _ => s1

/-- A transaction to its select rise, by its bytes, of which those that have counted already are not taken again: refused where its
select fell with READY low (R140, R159, R170). -/
def State.transact (bytes : List Byte) (n : Nat) (s : State) : State :=
  let s1 := s.opens
  (if s1.decoder.refused then s1.violate (s1.decoder.firstByte bytes.head?) n
   else (s1.takeBytes (bytes.drop s1.decoder.count)).completes).selectRises

/-! ### The bytes of a row's operands -/

/-- What the lines carry in the byte times after the controller's last byte (log 16). -/
def undrivenBytes (clocks : Nat) : List Byte := (List.range clocks).map Config.undrivenByte

/-- The bytes of a WRITE after its command byte: the address and the data, none where its address is not complete. -/
def writeTail (addr : Option Addr) (data : List Byte) : List Byte :=
  match addr with
  | none => []
  | some a => addrBytes a ++ data

/-- The bytes of a read after its command byte, none where its address is not complete; with a mode byte, the turnaround and the
data follow undriven. -/
def readTail (addr : Option Addr) (mode : Option Byte) (n : Nat) : List Byte :=
  match addr, mode with
  | none, _ => []
  | some a, none => addrBytes a
  | some a, some b => addrBytes a ++ b :: undrivenBytes (turnaroundBytes + n)

/-! ### The transaction commands -/

/-- Select falls, and bytes of the transaction count (R140, R159). Of a refused one the first byte is kept for its entry (R170). -/
def State.begins (bytes : List Byte) (s : State) : State :=
  let s1 := s.opens
  if s1.decoder.refused then s1.onDecoder fun d => { d with first := d.firstByte bytes.head? } else s1.takeBytes bytes

/-- UPSTREAM_SELECT_FALL (R140, R159): without a byte, where select is low already, nothing changes (log 2). -/
def execUpstreamSelectFall (opening : Opening) (s : State) : Host.Outcome State Fault Refusal :=
  State.act opening.t (State.begins opening.bytes) s

/-- A transaction given by its bytes. The bytes decide what it is, and so whether one of its words gives START (R174, log 16). -/
def execTransaction (bytes : List Byte) (n : Nat) (t : Instant) (s : State) : Host.Outcome State Fault Refusal :=
  State.actStart t (State.transact bytes n) s

/-- READ (R163). -/
def execRead (addr : Option Addr) (mode : Option Byte) (n : Nat) (t : Instant) (s : State) :
    Host.Outcome State Fault Refusal :=
  execTransaction (LinkCommand.code .read :: readTail addr mode n) n t s

/-- READ_WRAP (R163). -/
def execReadWrap (addr : Option Addr) (mode : Option Byte) (n : Nat) (t : Instant) (s : State) :
    Host.Outcome State Fault Refusal :=
  execTransaction (LinkCommand.code .readWrap :: readTail addr mode n) n t s

/-- REPEAT_MODE_READ (R150, R157): outside repeat mode its bytes are decoded from a command byte on (log 16). Refused with an
incomplete address, and with no byte that UPSTREAM_SELECT_FALL has brought, it names no first byte, the model's choice (log 34). -/
def execRepeatModeRead (addr : Option Addr) (mode : Option Byte) (n : Nat) (t : Instant) (s : State) :
    Host.Outcome State Fault Refusal :=
  execTransaction (readTail addr mode n) n t s

/-- WRITE (R164): incomplete where its address is (R155). -/
def execWrite (addr : Option Addr) (data : List Byte) (t : Instant) (s : State) : Host.Outcome State Fault Refusal :=
  execTransaction (LinkCommand.code .write :: writeTail addr data) 0 t s

/-- WRAP_SET (R158, R166): without its byte it is incomplete (R155), and forwarded as far as it went (R159). -/
def execWrapSet (byte : Option Byte) (t : Instant) (s : State) : Host.Outcome State Fault Refusal :=
  execTransaction (LinkCommand.code .wrapSet :: byte.toList) 0 t s

/-- SLEEP (R166). -/
def execSleep (t : Instant) (s : State) : Host.Outcome State Fault Refusal :=
  execTransaction [LinkCommand.code .sleep] 0 t s

/-- WAKE (R167). -/
def execWake (t : Instant) (s : State) : Host.Outcome State Fault Refusal :=
  execTransaction [LinkCommand.code .wake] 0 t s

/-- LINK_CLEAR (R157). -/
def execLinkClear (t : Instant) (s : State) : Host.Outcome State Fault Refusal :=
  execTransaction [LinkCommand.code .linkClear] 0 t s

/-- UNKNOWN_COMMAND (R155, R157), taken by its bytes (log 16). -/
def execUnknownCommand (bytes : List Byte) (t : Instant) (s : State) : Host.Outcome State Fault Refusal :=
  execTransaction bytes 0 t s

/-- LINK_VIOLATION (R170): where READY was high at the select fall, nothing changes (log 2). -/
def execLinkViolation (first : Option Byte) (n : Nat) (t : Instant) (s : State) : Host.Outcome State Fault Refusal :=
  State.act t (fun s =>
    let s1 := s.opens
    if s1.decoder.refused then (s1.violate (s1.decoder.firstByte first) n).selectRises else s) s

end Sys2Proof.Machine
end

