-- ==== Sys2Proof/Machine/Clock.lean ====
section
/-! DEFINITION. The clock: which events the part itself raises at an instant, which of them comes next, and what a step does
where no command waits (logs 3 to 5). -/
namespace Sys2Proof.Machine

/-- An event, where its condition holds. -/
def raiseWhen (b : Bool) (i : Instr) : List Instr := if b then [i] else []

/-- The next edge of a leg is due while the carrier runs (R13). -/
def MotorUnit.edgeDue (now : Instant) (n : LegName) (u : MotorUnit) : Bool :=
  u.channel.periodStart.isSome && timerDue ((u.channel.leg n).nextEdge.map LegEdge.due) now

/-- The events of a leg that are due (R13, R14). -/
def MotorUnit.legEvents (now : Instant) (m : Motor) (n : LegName) (u : MotorUnit) : List Instr :=
  raiseWhen (u.edgeDue now n) (.gateEdge m n now) ++ raiseWhen (timerDue (u.channel.leg n).turnOn now) (.deadTimeTurnOn m n now)

/-- The events of a motor that are due, but for its period boundary. -/
def MotorUnit.events (now : Instant) (m : Motor) (u : MotorUnit) : List Instr :=
  u.legEvents now m .leg0 ++ u.legEvents now m .leg1 ++ u.legEvents now m .leg2
    ++ raiseWhen u.stoppingDone (.stoppingComplete m now)
    ++ raiseWhen (timerDue u.tracker.examination now) (.hallExamination m now)
    ++ raiseWhen (timerDue u.tracker.commutationDue now) (.commutation m now)
    ++ raiseWhen (timerDue u.tracker.timeout now) (.sectorTimeout m now)
    ++ raiseWhen (u.attention.records.any (FrameDoneRecord.fallsDue now)) (.frameDoneDue m now)
    ++ raiseWhen (timerDue u.attention.staleTimer now) (.staleTimerExpiry m now)

/-- A PLACED reservation's start instant has arrived (R77). -/
def State.startDue (s : State) : Bool :=
  match s.calendar.reservations.find? Reservation.isPlaced with
  | some r => reached r.start s.timebase
  | none => false

/-- The flush in flight is over (R148). -/
def State.flushDue (s : State) : Bool := timerDue (s.arbiter.flight.map Flush.due) s.timebase

/-- The shared blocks' events that are due, but for the choice of a flush. -/
def State.sharedEvents (s : State) : List Instr :=
  let now := s.timebase
  raiseWhen (timerDue s.port.linkClearDue now) (.powerOnLinkClearCompletion now)
    ++ raiseWhen s.startDue (.reservationStart now)
    ++ raiseWhen (s.converterFree && s.calendar.reservations.any Reservation.isWaiting) (.waitingReservationStart now)
    ++ raiseWhen (s.calendar.reservations.any (Reservation.late now)) (.latestInstant now)
    ++ raiseWhen (timerDue s.converter.resultTimer now && s.converting.isSome) (.converterTimeout now)
    ++ raiseWhen s.flushDue (.flushCompletion now)
    ++ raiseWhen (timerDue s.arbiter.windowTimer now) (.controllerWindowExpiry now)
    ++ raiseWhen (timerDue s.port.wakeTimer now) (.wakeTimerExpiry now)
    ++ raiseWhen (s.restartWaiting && s.arbiter.flight.isNone) (.softRestartEffect now)

/-- The period boundaries that are due, in motor order (R76). -/
def State.dueBoundaries (s : State) : List Instr :=
  let boundary (m : Motor) := raiseWhen ((s.motor m).boundaryDue s.timebase) (.periodBoundary m s.timebase)
  boundary .m0 ++ boundary .m1 ++ boundary .m2

/-- The events that are due, but for the period boundaries and the choice of a flush. -/
def State.otherEvents (s : State) : List Instr :=
  s.m0.events s.timebase .m0 ++ s.m1.events s.timebase .m1 ++ s.m2.events s.timebase .m2 ++ s.sharedEvents

/-- The events that are due, but for the choice of a flush. -/
def State.dueEvents (s : State) : List Instr := s.dueBoundaries ++ s.otherEvents

/-- The due events of which one comes next: of the period boundaries, the first in motor order alone (R76). -/
def State.nextEvents (s : State) : List Instr := s.dueBoundaries.take 1 ++ s.otherEvents

/-- One of these events joins the empty queue, which of several being a free value (log 4); where there is none, one tick passes
(log 3). -/
def State.raiseOne (s : State) (events : List Instr) : State :=
  match events with
  | [] => s.moveTo (s.timebase + 1)
  | [i] => { s with pending := [i] }
  | i :: rest =>
    { s with
      pending := [((i :: rest)[Config.eventOrder s.freeCount % (rest.length + 1)]?).getD i]
      freeCount := s.freeCount + 1 }

/-- What the block does where no command waits: in reset, nothing; where the arbiter chooses a flush, the flush starts before any
other event that is due, so that the choice sees the state of the event that has made it possible (R143, R148 item 5, R154); where it
chooses none, one event that is due comes, or one tick passes (logs 3 to 5). -/
def State.idle (s : State) : State :=
  if s.inReset then s
  else if s.candidate.isSome then { s with pending := [.flushStart s.timebase] }
  else s.raiseOne s.nextEvents

end Sys2Proof.Machine
end

