-- ==== Sys2Proof/Machine/Dispatch.lean ====
section
/-! DEFINITION. `exec`: one arm per command, each one call of its meaning. -/
namespace Sys2Proof.Machine

/-- The effect of a command on everything but the queue. -/
def exec (i : Instr) (s : State) : Host.Outcome State Fault Refusal :=
  match i with
  | .resetAssert t => Sys2Proof.Machine.execResetAssert t s
  | .resetRelease straps => Sys2Proof.Machine.execResetRelease straps s
  | .powerOnLinkClearCompletion t => Sys2Proof.Machine.execPowerOnLinkClearCompletion t s
  | .upstreamSelectFall opening => Sys2Proof.Machine.execUpstreamSelectFall opening s
  | .read addr mode n t => Sys2Proof.Machine.execRead addr mode n t s
  | .readWrap addr mode n t => Sys2Proof.Machine.execReadWrap addr mode n t s
  | .repeatModeRead addr mode n t => Sys2Proof.Machine.execRepeatModeRead addr mode n t s
  | .write addr data t => Sys2Proof.Machine.execWrite addr data t s
  | .wrapSet byte t => Sys2Proof.Machine.execWrapSet byte t s
  | .sleep t => Sys2Proof.Machine.execSleep t s
  | .wake t => Sys2Proof.Machine.execWake t s
  | .linkClear t => Sys2Proof.Machine.execLinkClear t s
  | .unknownCommand bytes t => Sys2Proof.Machine.execUnknownCommand bytes t s
  | .linkViolation first n t => Sys2Proof.Machine.execLinkViolation first n t s
  | .start m t => Sys2Proof.Machine.execStart m t s
  | .stop m t => Sys2Proof.Machine.execStop m t s
  | .restart m t => Sys2Proof.Machine.execRestart m t s
  | .commit m slot tag kind t => Sys2Proof.Machine.execCommit m slot tag kind t s
  | .cancel m slot t => Sys2Proof.Machine.execCancel m slot t s
  | .clearCounts m t => Sys2Proof.Machine.execClearCounts m t s
  | .softRestart t => Sys2Proof.Machine.execSoftRestart t s
  | .softRestartEffect t => Sys2Proof.Machine.execSoftRestartEffect t s
  | .clearCountsDevice t => Sys2Proof.Machine.execClearCountsDevice t s
  | .mapCommit t => Sys2Proof.Machine.execMapCommit t s
  | .logPop t => Sys2Proof.Machine.execLogPop t s
  | .logClearOverflow t => Sys2Proof.Machine.execLogClearOverflow t s
  | .consumedWrite m v t => Sys2Proof.Machine.execConsumedWrite m v t s
  | .stagingWordWrite entry v t => Sys2Proof.Machine.execStagingWordWrite entry v t s
  | .attentionPendingWrite v t => Sys2Proof.Machine.execAttentionPendingWrite v t s
  | .settingWordWrite off v t => Sys2Proof.Machine.execSettingWordWrite off v t s
  | .periodBoundary m t => Sys2Proof.Machine.execPeriodBoundary m t s
  | .gateEdge m leg t => Sys2Proof.Machine.execGateEdge m leg t s
  | .deadTimeTurnOn m leg t => Sys2Proof.Machine.execDeadTimeTurnOn m leg t s
  | .stoppingComplete m t => Sys2Proof.Machine.execStoppingComplete m t s
  | .driverFaultActivation m t => Sys2Proof.Machine.execDriverFaultActivation m t s
  | .driverFaultRelease m t => Sys2Proof.Machine.execDriverFaultRelease m t s
  | .hallCodeChange m code t => Sys2Proof.Machine.execHallCodeChange m code t s
  | .hallExamination m t => Sys2Proof.Machine.execHallExamination m t s
  | .commutation m t => Sys2Proof.Machine.execCommutation m t s
  | .sectorTimeout m t => Sys2Proof.Machine.execSectorTimeout m t s
  | .reservationStart t => Sys2Proof.Machine.execReservationStart t s
  | .waitingReservationStart t => Sys2Proof.Machine.execWaitingReservationStart t s
  | .latestInstant t => Sys2Proof.Machine.execLatestInstant t s
  | .resultRecord input tag value t => Sys2Proof.Machine.execResultRecord input tag value t s
  | .converterTimeout t => Sys2Proof.Machine.execConverterTimeout t s
  | .flushStart t => Sys2Proof.Machine.execFlushStart t s
  | .flushCompletion t => Sys2Proof.Machine.execFlushCompletion t s
  | .controllerWindowExpiry t => Sys2Proof.Machine.execControllerWindowExpiry t s
  | .wakeTimerExpiry t => Sys2Proof.Machine.execWakeTimerExpiry t s
  | .frameDoneDue m t => Sys2Proof.Machine.execFrameDoneDue m t s
  | .staleTimerExpiry m t => Sys2Proof.Machine.execStaleTimerExpiry m t s

end Sys2Proof.Machine
end

