-- ==== Sys2Proof/Safety.lean ====
section
/-! DEFINITION. What it means for a state to be safe: the properties that the spec says hold at every moment, and that every
step keeps. -/
namespace Sys2Proof.Machine

/-- A side of a leg is on only while the leg's command names it, so no leg has both sides on (R14). -/
def Leg.safe (l : Leg) : Prop := (l.highOn = true → l.command = .highSide) ∧ (l.lowOn = true → l.command = .lowSide)

/-- The three legs of a motor are safe (R14). -/
def Channel.safe (c : Channel) : Prop := c.leg0.safe ∧ c.leg1.safe ∧ c.leg2.safe

/-- No leg of any motor has both sides on (R14). -/
def State.gatesSafe (s : State) : Prop := ∀ m, (s.motor m).channel.safe

/-- The Fault Log holds at most 16 entries, and its discarded count is at most 255 and nonzero exactly when its overflow
flag is set (R186). -/
def FaultLog.bounded (l : FaultLog) : Prop :=
  l.entries.length ≤ logCapacity ∧ l.discarded ≤ 255 ∧ (l.discarded ≠ 0 ↔ l.overflow = true)

/-- The RAM and every captured copy keep the canonical form (log 10). -/
def State.memoryCanonical (s : State) : Prop :=
  Memory.wf s.ram.cells = true ∧ ∀ m n, Memory.wf ((s.motor m).slot n).copy = true

/-- The calendar holds at most 10 reservations, at most one of them CONVERTING, and its high-water mark is not below the
occupancy nor above 10 (R68, R93). -/
def Calendar.bounded (c : Calendar) : Prop :=
  c.reservations.length ≤ c.highWater ∧ c.highWater ≤ calendarCapacity
    ∧ (c.reservations.filter Reservation.isConverting).length ≤ 1

/-- The settings of a motor lie in their ranges and meet their cross-checks (R177, R178). -/
def MotorSettings.inRange (st : MotorSettings) : Prop :=
  (1000 ≤ st.carrierPeriod ∧ st.carrierPeriod ≤ 40000) ∧ st.deadTime ≤ 1000 ∧ st.deadTime ≤ st.minimumPulse
    ∧ st.minimumPulse ≤ 4000 ∧ (1 ≤ st.frameInterval ∧ st.frameInterval ≤ 8) ∧ st.ringBase.toNat % 256 = 0
    ∧ st.ringStride ∈ [16, 32, 64, 128, 256] ∧ (2 ≤ st.ringDepth ∧ st.ringDepth ≤ 256)
    ∧ st.ringLow < st.ringHigh ∧ st.ringHigh ≤ st.ringDepth ∧ st.frameDoneDelay ≤ 65535 ∧ st.minimumSector ≤ 65535
    ∧ st.predictionLimit ≤ 3 ∧ (1 ≤ st.startTimeout ∧ st.startTimeout ≤ 65535) ∧ st.commutationDelay ≤ 65535
    ∧ (1 ≤ st.staleTimeout ∧ st.staleTimeout ≤ 65535)

/-- Every setting of the part lies in its range (R92, R96, R145, R167, R177, R178). -/
def State.settingsInRange (s : State) : Prop :=
  (∀ m, (s.motor m).settings.inRange) ∧ (40 ≤ s.device.tConv ∧ s.device.tConv ≤ 320) ∧ s.device.controllerWindow ≤ 255
    ∧ (1 ≤ s.device.wakeTime ∧ s.device.wakeTime ≤ 255)
    ∧ ∀ r ∈ s.inputs.toList, r.tripCount ≤ 4 ∧ r.lowLimit.toNat ≤ r.highLimit.toNat

/-- A motor's list of frame-done records holds at most 8, and none whose mode is met: such a record has latched FRAME_DONE and left the
list (R193). -/
def MotorAttention.recordsSound (a : MotorAttention) : Prop :=
  a.records.length ≤ recordCapacity ∧ ∀ r ∈ a.records, r.met = false

/-- Every motor's list of frame-done records is sound (R193). -/
def State.recordsSound (s : State) : Prop := ∀ m, (s.motor m).attention.recordsSound

/-! ### The calendar's intervals (R68, R71) -/

/-- The conversion intervals of two reservations do not overlap: each starts at least `width` ticks after the other, counting
forward from the other's start (R68, R71). -/
def Reservation.apart (width : Nat) (q r : Reservation) : Prop :=
  width ≤ elapsed q.start r.start ∧ width ≤ elapsed r.start q.start

/-- No two conversion intervals of the calendar overlap (R68). -/
def Calendar.apart (width : Nat) (c : Calendar) : Prop := c.reservations.Pairwise (Reservation.apart width)

/-- The list is ordered by start instant (R68). -/
def Calendar.ordered (c : Calendar) : Prop :=
  c.reservations.Pairwise fun q r => instantBefore q.start r.start = true

/-- Every start instant of the calendar lies within 2^30 ticks of an instant, so that the order of any two is the one that
00 "Timebase and instants" gives to instants less than 2^31 apart. -/
def Calendar.near (c : Calendar) (now : Instant) : Prop :=
  ∀ r ∈ c.reservations, (offsetFrom now r.start).natAbs < 2 ^ 30

/-! ### The channels (R1, R8, R26) -/

/-- A leg shows ALL_OFF: no side commanded, no edge to come, both outputs off (R1). -/
def Leg.allOff (l : Leg) : Prop := l.command = .off ∧ l.nextEdge = none ∧ l.highOn = false ∧ l.lowOn = false

/-- All six gate outputs of a motor are off (R1). -/
def Channel.outputsOff (c : Channel) : Prop := ∀ n, (c.leg n).allOff

/-- The channel stands past its run: STOPPED, or STOPPING after its stopping boundary (R1). -/
def Channel.atRest (c : Channel) : Prop := c.state = .stopped ∨ (c.state = .stopping ∧ c.periodStart = none)

/-- A motor has at most one ACTIVE and at most one PENDING slot; it has an ACTIVE slot exactly while its carrier runs; the
carrier runs while the channel is RUNNING, and only while it is RUNNING or STOPPING; a channel at rest commands no side of
any leg and has no edge to come (R1, R8, R26). -/
def MotorUnit.channelSound (u : MotorUnit) : Prop :=
  ¬(u.slotA.state = .active ∧ u.slotB.state = .active) ∧ ¬(u.slotA.state = .pending ∧ u.slotB.state = .pending)
    ∧ ((u.slotA.state = .active ∨ u.slotB.state = .active) ↔ u.channel.periodStart.isSome = true)
    ∧ (u.channel.state = .running → u.channel.periodStart.isSome = true)
    ∧ (u.channel.periodStart.isSome = true → u.channel.state = .running ∨ u.channel.state = .stopping)
    ∧ (u.channel.atRest → ∀ n, (u.channel.leg n).command = .off ∧ (u.channel.leg n).nextEdge = none)

/-- Every motor's channel and slots stand together as R1, R8 and R26 say. -/
def State.channelsSound (s : State) : Prop := ∀ m, (s.motor m).channelSound

/-! ### Dead time (R14) -/

/-- A turn-on that waits belongs to a commanded side, and stands one dead time after the other side's last turn-off (R14). -/
def Leg.turnOnSound (dead : Nat) (l : Leg) : Prop :=
  ∀ due, l.turnOn = some due → l.command ≠ .off ∧ due = after l.otherOff dead

/-- Every turn-on that waits stands one dead time after the other side's turn-off, with dead times in range and channels
sound (R14, R22). -/
def State.turnOnsSound (s : State) : Prop :=
  s.channelsSound ∧ ∀ m, (s.motor m).settings.inRange ∧ ∀ n, ((s.motor m).channel.leg n).turnOnSound (s.motor m).settings.deadTime

/-- Between two states, no side of a leg has turned on less than the dead time after the other side's last turn-off (R14). -/
def State.deadTimeKept (s s' : State) : Prop :=
  ∀ m n,
    (((s.motor m).channel.leg n).highOn = false → ((s'.motor m).channel.leg n).highOn = true →
        (s'.motor m).settings.deadTime ≤ elapsed ((s'.motor m).channel.leg n).lowOff s'.timebase)
      ∧ (((s.motor m).channel.leg n).lowOn = false → ((s'.motor m).channel.leg n).lowOn = true →
        (s'.motor m).settings.deadTime ≤ elapsed ((s'.motor m).channel.leg n).highOff s'.timebase)

/-- A leg's last turn-off instants after a step that ends at `now` (R14, R24): a side that was on and is off took `now`, and no
instant is another than it was but `now`. -/
def Leg.turnOffsKept (now : Instant) (l l' : Leg) : Prop :=
  (l.highOn = true → l'.highOn = false → l'.highOff = now) ∧ (l.lowOn = true → l'.lowOn = false → l'.lowOff = now)
    ∧ (l'.highOff = l.highOff ∨ l'.highOff = now) ∧ (l'.lowOff = l.lowOff ∨ l'.lowOff = now)

/-- Between two states, every side of a leg has kept its last turn-off instant or taken the later state's (R14, R24). -/
def State.turnOffsKept (s s' : State) : Prop :=
  ∀ m n, Leg.turnOffsKept s'.timebase ((s.motor m).channel.leg n) ((s'.motor m).channel.leg n)

/-! ### The link (R139, R140, R148, R151) -/

/-- A flush is in flight exactly in FLUSH; the wake timer and the power-on LINK-CLEAR run only in HELD, and not together;
a transaction that was not refused and has select low has the arbiter in CONTROLLER, and CONTROLLER means select low. -/
def State.linkSound (s : State) : Prop :=
  (s.arbiter.flight.isSome = true ↔ s.arbiter.state = .flush)
    ∧ (s.port.wakeTimer.isSome = true → s.arbiter.state = .held ∧ s.port.linkClearDue = none)
    ∧ (s.port.linkClearDue.isSome = true → s.arbiter.state = .held)
    ∧ (s.upstream.selectLow = true → s.decoder.refused = false → s.arbiter.state = .controller)
    ∧ (s.arbiter.state = .controller → s.upstream.selectLow = true)

/-! ### The ring counters (R132) -/

/-- 1 for a half that holds a frame, 0 for a FREE one. -/
def Half.taken (h : Half) : Nat := if h.state = .free then 0 else 1

/-- The number of a motor's halves that are not FREE. -/
def FrameAssembler.taken (a : FrameAssembler) : Nat := a.half0.taken + a.half1.taken

/-- Assigned − produced is the number of halves that are not FREE, and with the fill it is not above the depth (R132); a
half presents a FINAL request only while CLOSED (R127); an open frame's half is OPEN (R115). -/
def MotorUnit.ringSound (u : MotorUnit) : Prop :=
  (2 ≤ u.settings.ringDepth ∧ u.settings.ringDepth ≤ 256)
    ∧ (u.frames.assigned - u.frames.produced).toNat = u.frames.taken
    ∧ u.frames.fill + u.frames.taken ≤ u.settings.ringDepth
    ∧ (∀ n, (u.frames.half n).request = .finalFlush → (u.frames.half n).state = .closed)
    ∧ (∀ f n, u.frames.openFrame = some f → f.storage = some n → (u.frames.half n).state = .opened)

/-- The ring counters of every motor are sound, and a final flush in flight serves a CLOSED half (R127, R132). -/
def State.ringsSound (s : State) : Prop :=
  s.linkSound ∧ (∀ m, (s.motor m).ringSound)
    ∧ ∀ f, s.arbiter.flight = some f → f.final = true → ((s.motor f.motor).frames.half f.half).state = .closed

/-! ### A leg's command (R14) -/

/-- What a leg is after it takes the command `c` at `now` (R14): the same command changes nothing; a new one turns the side it does
not name off at once, and the side it names on at the later of now and the other side's last turn-off plus the dead time. -/
def Leg.commanded (dead : Nat) (now : Instant) (c : LegCommand) (l l' : Leg) : Prop :=
  l'.command = c
    ∧ (c = l.command → l'.highOn = l.highOn ∧ l'.lowOn = l.lowOn ∧ l'.highOff = l.highOff ∧ l'.lowOff = l.lowOff
        ∧ l'.turnOn = l.turnOn)
    ∧ (c ≠ l.command →
        l'.highOff = (if l.highOn then now else l.highOff) ∧ l'.lowOff = (if l.lowOn then now else l.lowOff)
          ∧ (c = .off → l'.highOn = false ∧ l'.lowOn = false ∧ l'.turnOn = none)
          ∧ (c = .highSide → l'.lowOn = false
              ∧ if dead ≤ elapsed l'.lowOff now then l'.highOn = true ∧ l'.turnOn = none
                else l'.highOn = false ∧ l'.turnOn = some (after l'.lowOff dead))
          ∧ (c = .lowSide → l'.highOn = false
              ∧ if dead ≤ elapsed l'.highOff now then l'.lowOn = true ∧ l'.turnOn = none
                else l'.lowOn = false ∧ l'.turnOn = some (after l'.highOff dead)))

/-- A leg of a step. -/
def PlanStep.legOf (st : PlanStep) : LegName → LegPlan
  | .leg0 => st.leg0
  | .leg1 => st.leg1
  | .leg2 => st.leg2

/-! ### The legs of a step (R10, R12 to R16) -/

/-- A leg of a motor takes a drive at `now`, in the period that starts at `b`: the command at that offset under dead time, and the
edges that follow it (R13, R14). -/
def MotorUnit.legDriven (u u' : MotorUnit) (n : LegName) (d : LegDrive) (now b : Instant) : Prop :=
  (u.channel.leg n).commanded u.settings.deadTime now (d.commandAt (elapsed b now)) (u'.channel.leg n)
    ∧ (u'.channel.leg n).drive = d
    ∧ (u'.channel.leg n).nextEdge = d.edgeAfter b u.settings.carrierPeriod (elapsed b now)

/-- The legs of a motor as claim 4 of a boundary at `b`, or item 6 of START, sets them for a step, in PLAN or HALL mode (R3, R10, R12,
R13, R15): the narrow-pulse count rises by the substitutions where it `counts`, and stands otherwise (R16). -/
def MotorUnit.legsSet (u u' : MotorUnit) (st : PlanStep) (hall counts : Bool) (now b : Instant) : Prop :=
  let period := u.settings.carrierPeriod
  let minimum := u.settings.minimumPulse
  let width := st.leg0.fall - st.leg0.rise
  let role (r : LegRole) : LegDrive :=
    match r with
    | .float => .hold .off
    | .low => .hold .lowSide
    | .chop => u'.channel.chop
  let counted (substitutions : Nat) : Prop :=
    u'.channel.narrowCount.toNat =
      if counts then min 65535 (u.channel.narrowCount.toNat + substitutions) else u.channel.narrowCount.toNat
  (hall = false →
      (∀ n, u.legDriven u' n ((st.legOf n).drive period minimum).1 now b)
        ∧ counted (([LegName.leg0, .leg1, .leg2].filter fun n => ((st.legOf n).drive period minimum).2).length))
    ∧ (hall = true →
        u'.channel.chop = (if width < minimum then .hold .lowSide
            else if period - width < minimum then .hold .highSide else .pulse st.leg0.rise st.leg0.fall)
          ∧ counted (if width < minimum ∨ period - width < minimum then 1 else 0)
          ∧ (∀ e n, u'.channel.driveSector.bind u.settings.sectorEntry = some e → u.legDriven u' n (role (e.role n)) now b)
          ∧ ∀ n, u'.channel.driveSector.bind u.settings.sectorEntry = none → u.legDriven u' n (.hold .off) now b)

/-- The legs of a motor that goes to the safe state at `now` (R14, R19 item 1, R20): every leg commanded OFF or LOW_SIDE, under dead
time, with no edge to come. -/
def MotorUnit.inSafeState (u u' : MotorUnit) (now : Instant) : Prop :=
  let c : LegCommand := match u.settings.safeState with | .allOff => .off | .lowBrake => .lowSide
  ∀ n, (u.channel.leg n).commanded u.settings.deadTime now c (u'.channel.leg n) ∧ (u'.channel.leg n).nextEdge = none

/-- The legs of a motor whose outputs go to ALL_OFF at `now` (R1, R14): every leg commanded OFF, the sides that were on taking `now` as
their turn-off instant, all outputs off and no edge to come. -/
def MotorUnit.legsOff (u u' : MotorUnit) (now : Instant) : Prop :=
  u'.channel.outputsOff ∧ ∀ n, (u.channel.leg n).commanded u.settings.deadTime now .off (u'.channel.leg n)

/-- A motor's channel after a commutation to `target` has executed at `now` (R12, R13, R60): the drive sector is the target; where that
is no change, or the channel has no HALL plan active or no period running, nothing else changes; otherwise each leg takes the
role of the target's map entry, FLOAT where it has none, with its command at the present offset and the edges that remain of the
period. -/
def MotorUnit.commutated (u u' : MotorUnit) (target : HallCode) (now : Instant) : Prop :=
  let moved : Channel := { u.channel with driveSector := some target }
  let drive (n : LegName) : LegDrive :=
    match u.settings.sectorEntry target with
    | none => .hold .off
    | some e =>
      match e.role n with
      | .float => .hold .off
      | .low => .hold .lowSide
      | .chop => u.channel.chop
  (u.channel.driveSector = some target ∨ u.hallMode = false ∨ u.channel.periodStart = none → u'.channel = moved)
    ∧ ∀ b, u.channel.driveSector ≠ some target → u.hallMode = true → u.channel.periodStart = some b →
      u'.channel = { moved with leg0 := u'.channel.leg0, leg1 := u'.channel.leg1, leg2 := u'.channel.leg2 }
        ∧ ∀ n, u.legDriven u' n (drive n) now b

/-! ### The tracker between modes and runs (R65, R67) -/

/-- A tracker that has left HALL mode (R19 item 2, R65): no commutation is scheduled, PREDICTING has become TRACKING with prediction
count 0, and the rest stands. -/
def Tracker.outOfHall (k : Tracker) : Tracker :=
  { k with
    scheduled := none
    state := match k.state with | .predicting => .tracking | st => st
    predictions := match k.state with | .predicting => 0 | _ => k.predictions }

/-- A tracker at its reset values (R51, R67): the last edge instant has none (log 9). -/
def Tracker.atReset (k : Tracker) : Prop :=
  ∃ e, k =
    { state := .waitFirst, sector := none, lastEdge := e, reference := .entry, duration := none, measured := 0,
      predictions := 0, examination := none, scheduled := none, timeout := none }

/-! ### The ring-high state and the stale timer (R195, R196) -/

/-- A motor's attention causes after produced or consumed has changed at `now`, with the fill given (R195, R196): the ring-high state
is set from the high level on, cleared down to the low level, and kept between them; the stale timer starts afresh while the fill is
above 0 and below the high level, and stops otherwise. -/
def MotorUnit.ringEvaluated (u : MotorUnit) (fill : Nat) (now : Instant) : MotorAttention :=
  { u.attention with
    ringHigh :=
      if u.settings.ringHigh ≤ fill then true else if fill ≤ u.settings.ringLow then false else u.attention.ringHigh
    staleTimer :=
      if 0 < fill ∧ fill < u.settings.ringHigh then some (now + BitVec.ofNat 32 (1024 * u.settings.staleTimeout)) else none }

/-! ### The close of a frame (R114, R193) -/

/-- The frame-done records of a motor after its open frame `f` has closed at `now` (R114, R193). With storage a record joins the list: the
frame's sequence, the mode at the close, the delay's end, not written, and the delay over exactly where it is 0, in which case DELAY and
EITHER latch FRAME_DONE and drop it at once; before that, of 8 records the oldest leaves the list and latches FRAME_DONE. Without
storage the records stand. -/
def MotorUnit.closeRecorded (u u' : MotorUnit) (f : OpenFrame) (now : Instant) : Prop :=
  let st := u.settings
  let full := decide (8 ≤ u.attention.records.length)
  let kept := if full then u.attention.records.drop 1 else u.attention.records
  let atOnce := decide (st.frameDoneDelay = 0) && (decide (st.frameDoneMode = .delay) || decide (st.frameDoneMode = .either))
  let r : FrameDoneRecord :=
    { sequence := f.sequence, mode := st.frameDoneMode, due := after now st.frameDoneDelay,
      delayOver := decide (st.frameDoneDelay = 0), written := false }
  (∀ h, f.storage = some h → u.attention.recordsSound →
      u'.attention.frameDone = (u.attention.frameDone || full || atOnce)
        ∧ u'.attention.records = if atOnce then kept else kept ++ [r])
    ∧ (f.storage = none → u'.attention.frameDone = u.attention.frameDone ∧ u'.attention.records = u.attention.records)

/-- The frame-done records of a motor after the frame-written event of a sequence (R193): a record of that sequence is written, and where
that meets its mode, WRITTEN and EITHER at once and BOTH with the delay over, it latches FRAME_DONE and leaves the list; in BOTH before
its delay, and in DELAY, it stays with written set; every other record stands, and so does FRAME_DONE where none latches. -/
def MotorAttention.writtenRecorded (a a' : MotorAttention) (sequence : Short) : Prop :=
  let latches (r : FrameDoneRecord) : Bool :=
    match r.mode with
    | .written | .either => true
    | .both => r.delayOver
    | .delay => false
  a'.frameDone = (a.frameDone || a.records.any fun r => decide (r.sequence = sequence) && latches r)
    ∧ a'.records = (a.records.filter fun r => !(decide (r.sequence = sequence) && latches r)).map fun r =>
        if r.sequence = sequence then { r with written := true } else r

/-! ### The end of a run (R5, R6, R19, R47) -/

/-- A slot after a release: ACTIVE and PENDING become INACTIVE without a next tag, copy and tag kept (R47). -/
def PlanSlot.released (p p' : PlanSlot) : Prop :=
  p'.copy = p.copy ∧ p'.tag = p.tag
    ∧ (p.state = .active ∨ p.state = .pending → p'.state = .inactive ∧ p'.nextTag = none)
    ∧ (p.state = .empty ∨ p.state = .inactive → p' = p)

/-- A motor after its stopping boundary at `now` (R5, R6, R14, R65, R67): the period counted, the carrier stopped, all outputs off at
once, both slots released, no frame open; with storage the frame's half carries the STOPPED flag, its frame-done record joins the list,
the channel is STOPPING and the tracker out of HALL mode; without it the channel is STOPPED, without a drive sector, and the tracker at its reset values. -/
def MotorUnit.runEnded (u u' : MotorUnit) (now : Instant) : Prop :=
  u'.channel.periodCount = u.channel.periodCount + 1 ∧ u'.channel.periodStart = none ∧ u.legsOff u' now
    ∧ (∀ n, (u.slot n).released (u'.slot n)) ∧ u'.frames.openFrame = none
    ∧ u'.settings = u.settings ∧ u'.channel.narrowCount = u.channel.narrowCount ∧ u'.marks = u.marks
    ∧ u'.frames.nextSequence = u.frames.nextSequence ∧ u'.frames.assigned = u.frames.assigned
    ∧ u'.frames.produced = u.frames.produced ∧ u'.frames.consumed = u.frames.consumed
    ∧ (∀ f h, u.frames.openFrame = some f → f.storage = some h →
        u'.channel.state = .stopping ∧ u'.tracker = u.tracker.outOfHall ∧ (u'.frames.half h).closeFlag = .stopped
          ∧ ((u'.frames.half h).state = .closed ∨ (u'.frames.half h).state = .closing) ∧ u.closeRecorded u' f now)
    ∧ (u.frameWithoutStorage = true → u'.channel.state = .stopped ∧ u'.channel.tripCause = .none ∧ u'.channel.tripInfo = 0
        ∧ u'.channel.driveSector = none ∧ u'.tracker.atReset
        ∧ u'.frames.half0 = u.frames.half0 ∧ u'.frames.half1 = u.frames.half1 ∧ u'.attention = u.attention)

/-! ### Trip entry (R19, R20, R87, R107, R124) -/

/-- A half of a motor after trip entry (R19 items 4 and 5, R124): in an OPEN or CLOSING one every unresolved position is MISSED with value
0, and a CLOSING one is CLOSED; a CLOSED one with every position resolved keeps its state and its positions. -/
def Half.tripped (h h' : Half) : Prop :=
  (h.state = .opened ∨ h.state = .closing → h'.positions = h.positions.map fun p =>
      if p.resolution = none then { p with resolution := some { status := .missed, value := 0 } } else p)
    ∧ (h.state = .closing → h'.state = .closed)
    ∧ (h.state = .closed → h.allResolved = true → h'.state = .closed ∧ h'.positions = h.positions)

/-- A motor's own blocks after trip entry at `now`, whatever the cause (R19): outputs in the safe state, carrier stopped, the scheduled
commutation cancelled, the open frame CLOSED with TRIPPED and its record in the frame-done list, the halves `tripped`, both slots
released, TRIPPED with its cause and info, the TRIPPED cause latched; the step index, the counts, the ring counters and the settings
stand. -/
def MotorUnit.tripEntered (u u' : MotorUnit) (cause : TripCause) (info : Short) (now : Instant) : Prop :=
  u'.channel.state = .tripped ∧ u'.channel.tripCause = cause ∧ u'.channel.tripInfo = info ∧ u'.channel.periodStart = none
    ∧ u'.channel.periodCount = u.channel.periodCount ∧ u'.channel.stepIndex = u.channel.stepIndex
    ∧ u'.channel.narrowCount = u.channel.narrowCount ∧ u'.settings = u.settings ∧ u'.marks = u.marks
    ∧ u.inSafeState u' now ∧ (u.channel.safe → u.settings.safeState = .allOff → u'.channel.outputsOff)
    ∧ u'.tracker.scheduled = none ∧ (∀ n, (u.slot n).released (u'.slot n))
    ∧ u'.frames.openFrame = none ∧ u'.frames.nextSequence = u.frames.nextSequence ∧ u'.frames.assigned = u.frames.assigned
    ∧ u'.frames.produced = u.frames.produced ∧ u'.frames.consumed = u.frames.consumed
    ∧ (∀ n, (u.frames.half n).tripped (u'.frames.half n))
    ∧ (∀ f n, u.frames.openFrame = some f → f.storage = some n → (u.frames.half n).state = .opened →
        (u'.frames.half n).state = .closed ∧ (u'.frames.half n).closeFlag = .tripped)
    ∧ (∀ f, u.frames.openFrame = some f → u.closeRecorded u' f now)
    ∧ u'.attention =
        { u.attention with tripped := true, frameDone := u'.attention.frameDone, records := u'.attention.records }
    ∧ (u.frames.openFrame = none → u'.attention = { u.attention with tripped := true })

/-- A list of reservations after the trip entry of the motors reached (R19 item 3, R87): their PLACED and WAITING ones are gone, and a
CONVERTING one stays, orphaned. -/
def tripsLeave (reached : Motor → Bool) (l : List Reservation) : List Reservation :=
  (l.filter fun r => !reached r.motor || decide (r.state = .converting)).map fun r =>
    if reached r.motor then { r with orphaned := true } else r

/-! ### The reset pin and SOFT_RESTART (R24, R152, R155, R156, R182) -/

/-- What the reset pin leaves of the RAM when it ends the part's work at `now` (R155, R156, R171). With no flush in flight the bytes and the
wrap setting stand; one that has taken WAKE leaves sleep (log 11), a forwarded SLEEP whose command byte has counted puts it to sleep, and a
LINK-CLEAR that has counted, the one byte of its transaction, ends repeat mode. Of a flush in flight the whole data bytes stand that were
clocked out, one each 4 ticks after the command and the address (R147, log 14). -/
def State.ramKept (s : State) (now : Instant) (ram : Ram) : Prop :=
  let d := s.decoder
  let wakes := decide (s.port.state = .waking) || decide (d.command = some (.known .wake))
  let sleeps := decide (d.command = some (.known .sleep)) && decide (d.decision = some .forwarded) && !s.ram.repeatMode
  let repeats := decide (d.command = some (.repeated .read)) || decide (d.command = some (.repeated .readWrap))
  let clears := decide (d.command = some (.known .linkClear)) && decide (d.offset = 0)
    || repeats && decide (d.addressBytes = [0x7E]) && !d.repeatPrefixDue
  (s.arbiter.flight = none → ram =
      { s.ram with
        asleep := if wakes then false else s.ram.asleep || sleeps
        repeatMode := if clears && !s.ram.asleep then false else s.ram.repeatMode })
    ∧ ∀ f, s.arbiter.flight = some f →
      (reached f.writeStart now = true → ram = s.ram.store f.address (f.content.take (elapsed f.writeStart now / 4 - 4)))
        ∧ (reached f.writeStart now = false → ram = s.ram)

/-- The blocks of a motor after SOFT_RESTART at `now` (R14, R24, R49, R67, R90, R109, R135, R197). -/
def MotorUnit.restarted (u u' : MotorUnit) (now : Instant) : Prop :=
  u'.channel.state = .stopped ∧ u.legsOff u' now ∧ u'.channel.periodStart = none
    ∧ u'.channel.periodCount = 0 ∧ u'.channel.stepIndex = 0 ∧ u'.channel.tripCause = .none
    ∧ u'.channel.tripInfo = 0 ∧ u'.channel.driveSector = none ∧ u'.channel.narrowCount = u.channel.narrowCount
    ∧ u'.channel.faultActive = u.channel.faultActive
    ∧ (∀ n, (u'.slot n) = { u.slot n with state := .inactive, nextTag := none })
    ∧ u'.tracker.atReset
    ∧ u'.marks = { unplaced := u.marks.unplaced, unplacedLogged := false, fullLogged := false }
    ∧ u'.frames.openFrame = none ∧ (∀ h, (u'.frames.half h).state = .free ∧ (u'.frames.half h).request = .none)
    ∧ u'.frames.nextSequence = 0 ∧ u'.frames.assigned = 0 ∧ u'.frames.produced = 0 ∧ u'.frames.consumed = 0
    ∧ u'.frames.dropRun = false
    ∧ u'.attention =
        { frameDone := false, ringStale := false, tripped := false, ringHigh := false, staleTimer := none,
          records := [] }
    ∧ u'.settings = u.settings ∧ u'.hallCode = u.hallCode

/-- Every block after SOFT_RESTART has taken effect on a state: the restart values together, the Decoder record IDLE, but that of a
transaction that still has select low standing (R29, log 29), and everything else as it was (R24, R90, R109, R172, R182, R190). -/
def State.restarted (s s' : State) : Prop :=
  (∀ m, (s.motor m).restarted (s'.motor m) s.timebase)
    ∧ (∀ i, s'.inputRecord i = { s.inputRecord i with consecutive := 0 })
    ∧ s'.calendar = { reservations := [], highWater := s.calendar.highWater }
    ∧ s'.converter = { s.converter with state := .ready, failures := 0, resultTimer := none }
    ∧ s'.log = { entries := [], overflow := false, discarded := 0 } ∧ s'.restartWaiting = false
    ∧ s'.decoder = (if s.upstream.selectLow = true then s.decoder else Decoder.idle)
    ∧ ∃ i, s' = { s with
        m0 := s'.m0, m1 := s'.m1, m2 := s'.m2, inputs := i, calendar := s'.calendar, converter := s'.converter,
        decoder := s'.decoder, log := s'.log, restartWaiting := false }

/-! ### The plan and tracker status words (R48, R66, 11.3) -/

/-- A word shows the plan status (R48, 11.3): the slots' states; the active and the pending slot, 0 for none, 1 for A, 2 for B, where
no state stands at both; the pending kind; the next tag with its presence; the active tag. An absent value reads 0. -/
def MotorUnit.showsPlans (u : MotorUnit) (word : Nat) : Prop :=
  let place (n : SlotName) : Nat := match n with | .a => 1 | .b => 2
  let kind (p : PlanSlot) : Nat := match p.kind with | .next => 0 | .atEnd => 1
  let alone (n : SlotName) (st : SlotState) : Prop := (u.slot n).state = st ∧ (u.slot n.other).state ≠ st
  let absent (st : SlotState) : Prop := u.slotA.state ≠ st ∧ u.slotB.state ≠ st
  word % 4 = u.slotA.state.number ∧ word / 4 % 4 = u.slotB.state.number
    ∧ (∀ n, alone n .active → word / 2 ^ 4 % 4 = place n ∧ word / 2 ^ 16 % 2 ^ 8 = (u.slot n).tag.toNat
        ∧ word / 2 ^ 9 % 2 = (u.slot n).nextTag.isSome.toNat
        ∧ word / 2 ^ 24 = ((u.slot n).nextTag.getD 0).toNat)
    ∧ (absent .active → word / 2 ^ 4 % 4 = 0 ∧ word / 2 ^ 9 % 2 = 0 ∧ word / 2 ^ 16 = 0)
    ∧ (∀ n, alone n .pending → word / 2 ^ 6 % 4 = place n ∧ word / 2 ^ 8 % 2 = kind (u.slot n))
    ∧ (absent .pending → word / 2 ^ 6 % 4 = 0 ∧ word / 2 ^ 8 % 2 = 0)

/-- A word shows the tracker status (R66, 11.3): the state, the sector and the Hall code, the count of predictions and the last
duration, in the ranges that R51 gives the last two. An absent value reads 0. -/
def MotorUnit.showsTracker (u : MotorUnit) (word : Nat) : Prop :=
  u.tracker.predictions ≤ 3 → (∀ d, u.tracker.duration = some d → d ≤ 65535) →
    word % 4 = u.tracker.state.number ∧ (∀ c, u.tracker.sector = some c → word / 2 ^ 4 % 8 = c.toNat)
      ∧ (u.tracker.sector = none → word / 2 ^ 4 % 8 = 0) ∧ word / 2 ^ 8 % 8 = u.hallCode.toNat
      ∧ word / 2 ^ 12 % 4 = u.tracker.predictions ∧ word / 2 ^ 16 = u.tracker.duration.getD 0

/-! ### Boundaries and Hall faults (R8, R19, R58, R76) -/

/-- A boundary of motor `k` has come before one of `m` at `b`: at an earlier instant, or at the same one with the lower number
(R8, R76). -/
def State.dueBefore (s : State) (m : Motor) (b : Instant) (k : Motor) : Prop :=
  k ≠ m ∧ ∃ a, (s.motor k).channel.periodStart = some a
    ∧ reached (after a (s.motor k).settings.carrierPeriod) b = true
    ∧ (k.number < m.number ∨ after a (s.motor k).settings.carrierPeriod ≠ b)

/-- Of the boundaries of other motors that have come before one of `m` at `b`, motor `k`'s is the first (R76). -/
def State.firstBefore (s : State) (m : Motor) (b : Instant) (k : Motor) : Prop :=
  s.dueBefore m b k
    ∧ ∀ a, (s.motor k).channel.periodStart = some a → ∀ j, ¬s.dueBefore k (after a (s.motor k).settings.carrierPeriod) j

/-- No motor of number higher than `m` has placed for a boundary at the instant of a command given at `t`, whatever has become of it
since (R76, log 27). -/
def State.startClear (s : State) (m : Motor) (t : Instant) : Prop := ∀ k, (s.atInstant t).placed = some k → k.number ≤ m.number

/-- The instant at which a START of `m` given at `t` is taken: its own, where that is clear, and otherwise the next tick (R76, log 27). -/
def State.startsAt (s : State) (m : Motor) (t now : Instant) : Prop :=
  s.startClear m t ∧ now = (s.atInstant t).timebase ∨ ¬s.startClear m t ∧ now = (s.atInstant t).timebase + 1

/-- Motor `m` has placed for a boundary at `b`: the record of who has placed for this instant takes it, where `b` is this instant and
no motor of higher number stands there, and stands otherwise (R76, log 27). -/
def State.placementNoted (s s' : State) (m : Motor) (b : Instant) : Prop :=
  let noted : Prop := b = s.timebase ∧ ∀ k, s.placed = some k → k.number ≤ m.number
  (noted → s'.placed = some m) ∧ (¬noted → s'.placed = s.placed)

/-- A tracker that an invalid code has taken to WAIT_FIRST (R58, R61): no sector, no measurement, the timeout armed with the start
timeout. -/
def Tracker.lost (k : Tracker) (now : Instant) (st : MotorSettings) : Tracker :=
  { k with
    state := .waitFirst, sector := none, lastEdge := now, reference := .entry, measured := 0, duration := none,
    predictions := 0, overtaken := none, timeout := some (after now (1024 * st.startTimeout)) }

/-- A Hall fault has been logged for a motor and has tripped it, with its cause and info: trip entry, its reservations gone or orphaned;
the other motors stand, and nothing else changes (R19, R87, R107). -/
def State.hallTripped (s s' : State) (m : Motor) (cause : TripCause) (info : Short) : Prop :=
  (s.motor m).tripEntered (s'.motor m) cause info s.timebase
    ∧ s'.calendar = { s.calendar with reservations := tripsLeave (fun k => decide (k = m)) s.calendar.reservations }
    ∧ s'.log = s.log.add ⟨if cause = .hallStall then .hallStall else .hallInvalid, .motor m, info,
        (s.motor m).channel.periodCount⟩
    ∧ (∀ m', m' ≠ m → s'.motor m' = s.motor m')
    ∧ s' = { s with m0 := s'.m0, m1 := s'.m1, m2 := s'.m2, calendar := s'.calendar, log := s'.log }

/-! ### The requests of a step (R10 claim 5, R70) -/

/-- From the calendar of `s`, the requests of the step that the motor selects have been placed at a boundary, in their order in
the step, on a state that has the motor's new channel, slots and open frame already (R10, R70). -/
def State.placesStep (s s' : State) (m : Motor) (b : Instant) : Prop :=
  ∃ s1 n, ((s'.motor m).slot n).state = .active
    ∧ s' = (State.placeFrom m b (s'.motor m).channel.stepIndex 0
        (planStep ((s'.motor m).slot n).copy (s'.motor m).channel.stepIndex).requests (s1, false)).1
    ∧ s1.calendar = s.calendar ∧ s1.device = s.device ∧ s1.timebase = s.timebase
    ∧ (s1.motor m).channel = (s'.motor m).channel ∧ (s1.motor m).settings = (s.motor m).settings
    ∧ (s1.motor m).slotA = (s'.motor m).slotA ∧ (s1.motor m).slotB = (s'.motor m).slotB
    ∧ (s1.motor m).frames.openFrame.map OpenFrame.sequence = (s'.motor m).frames.openFrame.map OpenFrame.sequence
    ∧ (s1.motor m).frames.openFrame.map OpenFrame.storage = (s'.motor m).frames.openFrame.map OpenFrame.storage
    ∧ ∀ k, k ≠ m → s1.motor k = s'.motor k

/-! ### The loss of the converter (R85, R86) -/

/-- The converter has become LOST by a third failure of the CONVERTING reservation `r`, named by the info (R82, R83, R85, R86): the count
is 3 and the timer disarmed, the request tag stands, the calendar is empty. The position of `r`, unless it is orphaned, takes the entry
FAILED; then each RUNNING or STOPPING motor goes through trip entry with that cause and info, and of another the frames alone change;
a position that only PLACED or WAITING reservations name, unresolved in the half that holds its frame, is MISSED. -/
def State.converterLost (s s' : State) (r : Reservation) (info : Short) : Prop :=
  let failed (m : Motor) : MotorUnit :=
    let u := s.motor m
    if m = r.motor ∧ r.orphaned = false then
      { u with frames := u.frames.storeEntry r.sequence r.position { status := .failed, value := 0 } }
    else u
  s'.converter = { s.converter with state := .lost, failures := 3, resultTimer := none } ∧ s'.calendar.reservations = []
    ∧ (∀ m, ((s.motor m).channel.state = .running ∨ (s.motor m).channel.state = .stopping →
          (failed m).tripEntered (s'.motor m) .converterLost info s.timebase)
        ∧ ((s.motor m).channel.state = .stopped ∨ (s.motor m).channel.state = .tripped →
          s'.motor m = { s.motor m with frames := (s'.motor m).frames }))
    ∧ (∀ k n p, r.position = some k → r.orphaned = false → (s.motor r.motor).frames.halfOf r.sequence = some n →
        ((s.motor r.motor).frames.half n).positions[k]? = some p → p.resolution = none →
        ((s'.motor r.motor).frames.half n).positions[k]? =
          some { p with resolution := some { status := .failed, value := 0 } })
    ∧ ∀ q ∈ s.calendar.reservations, ∀ k n p, q.position = some k → q.state ≠ .converting →
        (∀ r ∈ s.calendar.reservations, r.state = .converting → r.motor ≠ q.motor ∨ r.sequence ≠ q.sequence
          ∨ r.position ≠ q.position) →
        (s.motor q.motor).frames.halfOf q.sequence = some n →
        ((s.motor q.motor).frames.half n).positions[k]? = some p → p.resolution = none →
        ((s'.motor q.motor).frames.half n).positions[k]? =
          some { p with resolution := some { status := .missed, value := 0 } }

/-- The CONVERTING reservation has left the list, with the failure count given, and of the rest the WAITING one `w`, which stands
behind `first`, starts at once: it is CONVERTING with the next tag, its request is sent, and the timer is armed (R77 to R79). -/
def State.freedAndStarted (s : State) (first : List Reservation) (w : Reservation) (rest : List Reservation) (failures : Nat) :
    State :=
  { s with
    calendar := { s.calendar with
      reservations := first ++ { w with state := .converting, tag := some s.converter.requestTag } :: rest }
    converter := { s.converter with
      failures := failures
      requestTag := s.converter.requestTag + 1
      resultTimer := some (after s.timebase (2 * s.device.tConv))
      requestSent := some (BitVec.ofNat 8 (w.input.toNat * 16 + s.converter.requestTag.toNat * 2)) } }

/-! ### The words of a part-window write (R174, R182) -/

/-- The words of one write, by offset, are taken one after another, each as SETTING_WORD_WRITE takes it; the words after one that
gives SOFT_RESTART are discarded (R174, R182). -/
def State.wordsTaken (s : State) (words : List (BitVec 12 × Word)) (s' : State) : Prop :=
  match words with
  | [] => s' = s
  | (off, v) :: rest =>
    ∃ s1, exec (.settingWordWrite off v s.timebase) s = .next s1
      ∧ if off = 0x0FC ∧ v.toNat % 16 = 1 then s' = s1 else s1.wordsTaken rest s'

/-- The byte at offset `j` of a row that a write of bytes from offset `start` leaves there, running round within the row: the last
one written at that offset, none where there is none (R156, R164). -/
def rowByte (start : Nat) (data : List Byte) (j : Nat) : Option Byte :=
  let first := (j + 256 - start % 256) % 256
  data[first + 256 * ((data.length - 1 - first) / 256)]?

/-- The words of a row of the part window whose four bytes a write has all written, in ascending order, by offset in the part
window (R164, R174). -/
def rowWords (row start : Nat) (data : List Byte) : List (BitVec 12 × Word) :=
  (List.range 64).filterMap fun k =>
    match rowByte start data (4 * k), rowByte start data (4 * k + 1), rowByte start data (4 * k + 2),
      rowByte start data (4 * k + 3) with
    | some b0, some b1, some b2, some b3 => some (BitVec.ofNat 12 (256 * row + 4 * k), b3 ++ b2 ++ b1 ++ b0)
    | _, _, _, _ => none

/-! ### The instant of a command, and what gives START (R11, R174, R179, logs 1 and 27) -/

/-- The instant that a command carries: every one but RESET_RELEASE carries one (log 1). -/
def instantOf (c : Instr) : Option Instant :=
  match c with
  | .resetRelease _ => none
  | .upstreamSelectFall opening => some opening.t
  | .resetAssert t | .powerOnLinkClearCompletion t | .read _ _ _ t | .readWrap _ _ _ t
  | .repeatModeRead _ _ _ t | .write _ _ t | .wrapSet _ t | .sleep t | .wake t | .linkClear t | .unknownCommand _ t
  | .linkViolation _ _ t | .start _ t | .stop _ t | .restart _ t | .commit _ _ _ _ t | .cancel _ _ t | .clearCounts _ t
  | .softRestart t | .softRestartEffect t | .clearCountsDevice t | .mapCommit t | .logPop t | .logClearOverflow t
  | .consumedWrite _ _ t | .stagingWordWrite _ _ t | .attentionPendingWrite _ t | .settingWordWrite _ _ t
  | .periodBoundary _ t | .gateEdge _ _ t | .deadTimeTurnOn _ _ t | .stoppingComplete _ t | .driverFaultActivation _ t
  | .driverFaultRelease _ t | .hallCodeChange _ _ t | .hallExamination _ t | .commutation _ t | .sectorTimeout _ t
  | .reservationStart t | .waitingReservationStart t | .latestInstant t | .resultRecord _ _ _ t | .converterTimeout t
  | .flushStart t | .flushCompletion t | .controllerWindowExpiry t | .wakeTimerExpiry t | .frameDoneDue _ t
  | .staleTimerExpiry _ t => some t

/-- A word of the part window is a motor's START command (R179, 11.3). -/
def startWord (off : BitVec 12) (v : Word) : Prop :=
  ∃ m : Motor, off = BitVec.ofNat 12 (256 * (m.number + 1) + 0x5C) ∧ v.toNat % 16 = 1

/-- The bytes of a transaction given by the command of its row, none for another command (R155, R157). -/
def transactionBytes (c : Instr) : Option (List Byte) :=
  match c with
  | .read addr mode n _ => some (0x1A :: readTail addr mode n)
  | .readWrap addr mode n _ => some (0x1E :: readTail addr mode n)
  | .repeatModeRead addr mode n _ => some (readTail addr mode n)
  | .write addr data _ => some (0x2A :: writeTail addr data)
  | .wrapSet byte _ => some (0x4D :: byte.toList)
  | .sleep _ => some [0x5C]
  | .wake _ => some [0x5E]
  | .linkClear _ => some [0x7E]
  | .unknownCommand bytes _ => some bytes
  | _ => none

/-- Bytes given from select high are those of a WRITE to a row of the part window that has a START word whole, outside repeat mode
(R164, R174). -/
def State.bytesGiveStart (s : State) (bytes : List Byte) : Prop :=
  ∃ (a : Addr) (data : List Byte), s.upstream.repeatState = none ∧ bytes = 0x2A :: (addrBytes a ++ data)
    ∧ inPartWindow s.window.position (a.toNat / 256) = true
    ∧ ∃ w ∈ rowWords (a.toNat / 256 - windowFirstRow s.window.position) (a.toNat % 256) data, startWord w.1 w.2

/-- A transaction in flight, taken to its select rise with these bytes, has a START word whole in the Decoder's record (R164, R174). -/
def State.recordGivesStart (s : State) (bytes : List Byte) : Prop :=
  ∃ w ∈ (s.takeBytes (bytes.drop s.decoder.count)).handed, startWord (BitVec.ofNat 12 w.1) w.2

/-- A command gives START: it is START, or the word that carries it, or a transaction whose bytes do, with those that have counted
before it where its select has fallen. -/
def State.givesStart (s : State) (c : Instr) : Prop :=
  match c with
  | .start _ _ => True
  | .settingWordWrite off v _ => startWord off v
  | _ =>
    ∃ bytes t, transactionBytes c = some bytes ∧ instantOf c = some t
      ∧ (s.upstream.selectLow = false ∧ s.bytesGiveStart bytes
          ∨ s.upstream.selectLow = true ∧ s.decoder.refused = false ∧ (s.atInstant t).recordGivesStart bytes)

/-! ### A transaction in more than one step (R140, R159, log 13) -/

/-- A transaction of which UPSTREAM_SELECT_FALL has brought the first bytes, with READY high, is the one that its row's command gives
at once: with none at any instant before it, and with some at the command's own instant (R140, R159). -/
def State.goesOn (s : State) (c : Instr) : Prop :=
  s.inReset = false → s.ready = true → s.upstream.selectLow = false →
    (∀ t s1, exec (.upstreamSelectFall ⟨[], t⟩) s = .next s1 → exec c s1 = exec c (s.atInstant t))
      ∧ ∀ first rest t s1, transactionBytes c = some (first ++ rest) → instantOf c = some t →
          exec (.upstreamSelectFall ⟨first, t⟩) s = .next s1 → exec c s1 = exec c s

/-- A transaction that was not refused has select low: the link is the controller's (R140). -/
def State.inFlight (s : State) : Prop :=
  s.inReset = false ∧ s.upstream.selectLow = true ∧ s.decoder.refused = false ∧ s.arbiter.state = .controller

/-- The state with select high and the link open, and with it the Decoder record IDLE (R140, 8.2). -/
def State.selectUp (s : State) : State :=
  { s with
    upstream := { s.upstream with selectLow := false }
    decoder := Decoder.idle
    arbiter := { s.arbiter with state := .openLink } }

/-- The record holds a read of kind `k` from `a` in its data phase, with its read view and `i` of its data bytes driven (R159, R163). -/
def Decoder.holdsRead (d : Decoder) (k : ReadKind) (a : Addr) (view : List Word) (i : Nat) : Prop :=
  d.phase = .data ∧ d.readKind = some k ∧ d.addressBytes = addrBytes a ∧ d.address = some a ∧ d.decision = some .forwarded
    ∧ d.snapshot = some view ∧ d.offset = 4 + i

/-- The record holds a WRITE from `a`, classified at its address completion, `n` of its data bytes counted (R159, R164). -/
def Decoder.holdsWrite (d : Decoder) (a : Addr) (c : TransactionClass) (n : Nat) : Prop :=
  d.phase = .data ∧ d.command = some (.known .write) ∧ d.address = some a ∧ d.decision = some c ∧ d.count = 4 + n
    ∧ d.offset = n

/-! ### What START asks for (R2) -/

/-- The ring condition of START: every row from the ring base's to that of the ring's last byte exists, is a RESULT row of
the motor and no row of the part window (R2). -/
def State.ringInPlace (s : State) (m : Motor) : Prop :=
  ∀ row, (s.motor m).settings.ringBase.toNat / 256 ≤ row → row ≤ (s.motor m).settings.ringLast / 256 →
    row < 65536 ∧ s.window.rowUse row = .result m ∧ inPartWindow s.window.position row = false

/-- Every condition of START before revalidation (R2, conditions 1 to 6). -/
def State.startReady (s : State) (m : Motor) : Prop :=
  (s.motor m).channel.state = .stopped ∧ ((s.motor m).slotA.state = .pending ∨ (s.motor m).slotB.state = .pending)
    ∧ s.converter.state = .ready ∧ s.port.state = .awake ∧ (s.motor m).channel.faultActive = false ∧ s.ringInPlace m

/-! ### The checks of MAP_COMMIT (R162) -/

/-- The staging map passes the checks of MAP_COMMIT up to entry `i`: its bound is not below the one before it, and where it is
a window it is a PLAN window of exactly two rows or of another kind, and no earlier window of its motor has its kind (R162). -/
def MapEntry.passes (entries : Fin 8 → MapEntry) (i : Fin 8) : Prop :=
  let low (j : Fin 8) : Nat := if h : 0 < j.val then (entries ⟨j.val - 1, by omega⟩).bound else 0
  low i ≤ (entries i).bound
    ∧ ((entries i).bound ≠ low i → (entries i).kind = .plan → (entries i).bound = low i + 2)
    ∧ ((entries i).bound ≠ low i → (entries i).kind ≠ .pass →
        ∀ j < i, (entries j).bound ≠ low j → (entries j).kind = (entries i).kind → (entries j).motor ≠ (entries i).motor)

/-! ### Bytes of a row (R27, R156) -/

/-- The address of byte `i` of a write that begins at an address: it stays within the row (R156). -/
def rowAddress (a : Addr) (i : Nat) : Nat := a.toNat / 256 * 256 + (a.toNat % 256 + i) % 256

/-- A memory after a write of bytes from an address, by its reads: each byte that no later one replaces stands at its
address, and every other address reads as before (R27, R156). -/
def Memory.wrote (before after : Memory) (a : Addr) (data : List Byte) : Prop :=
  (∀ i b, data[i]? = some b → data.length ≤ i + 256 → Memory.read after (rowAddress a i) = b)
    ∧ ∀ x, (∀ i, i < data.length → x ≠ rowAddress a i) → Memory.read after x = Memory.read before x

end Sys2Proof.Machine
end

