-- ==== Sys2Proof/Certificates/Slice0/Obligations.lean ====
section
/-! DEFINITION. The statements: what the block does at a step, the invariants that every step keeps, and what each command
does, as the numbered rules of spec/ give it. -/

section
open Sys2Proof Sys2Proof.Machine

/-! ### A step (logs 1 to 4, R11, R76, R171) -/

/-- A step takes the command at the front of the queue: it is `exec` of that command on the state with the queue's rest. -/
def Obligations.StepTakesTheFrontCommand : Prop :=
  ∀ (c : Instr) (rest : List Instr) (s : State),
    s.pending = c :: rest → step s = exec c { s with pending := rest }

/-- On an empty queue the block is still in reset. Otherwise, where the arbiter chooses a flush, FLUSH_START joins the queue before any
other event (R143); where it chooses none and no event is due, one tick passes; and where some are, one of them joins the queue, a
period boundary only where no motor of lower number has one due (R76).

That an idle step is a tick, that which of several events comes is a free value, and that a choice comes before the other events of
its instant, are the model's choices (logs 3, 4 and 5). -/
def Obligations.EmptyQueueTicksOrRaisesDueEvents : Prop :=
  ∀ s : State, s.pending = [] →
    (s.inReset = true → step s = .next s)
      ∧ (s.inReset = false → s.candidate ≠ none → step s = .next { s with pending := [.flushStart s.timebase] })
      ∧ (s.inReset = false → s.candidate = none → s.dueEvents = [] → step s = .next { s with timebase := s.timebase + 1, placed := none })
      ∧ (s.inReset = false → s.candidate = none → s.dueEvents ≠ [] →
          ∃ e count, e ∈ s.dueEvents ∧ step s = .next { s with pending := [e], freeCount := count }
            ∧ ∀ m, e = .periodBoundary m s.timebase →
                ∀ k : Motor, k.number < m.number → (s.motor k).boundaryDue s.timebase = false)

/-- Every command answers a next state, in every state, and leaves the queue and the count of free values as they
were: no command faults, and the model refuses none.

Every command but RESET_RELEASE carries an instant, and outside reset it is taken at it: the timebase moves to an
instant that is not behind it, and stands otherwise, so that no command takes it back (the model's choice, log 1).
Only a command that gives START, as the command, its word, a write of that word or the end of one in flight, may be
taken later: where it makes a motor RUNNING at an instant for which a motor of higher number has placed its requests,
even one that has tripped since, it is taken one tick later (the model's choice, log 27). In reset time stands.
RESET_RELEASE sets the timebase to 0, from which it counts (R171, 00 "Timebase and instants"). -/
def Obligations.EveryCommandAnswersAndTimeNeverRunsBack : Prop :=
  (∀ (c : Instr) (s : State), ∃ s', exec c s = .next s' ∧ s'.pending = s.pending ∧ s'.freeCount = s.freeCount)
    ∧ (∀ (s : State) (t : Instant),
         (reached s.timebase t = true → s.atInstant t = { s with timebase := t, placed := if t = s.timebase then s.placed else none })
           ∧ (reached s.timebase t = false → s.atInstant t = s))
    ∧ (∀ c : Instr, instantOf c = none ↔ ∃ straps, c = .resetRelease straps)
    ∧ (∀ (c : Instr) (s s' : State) (t : Instant), instantOf c = some t → exec c s = .next s' →
         let now := (s.atInstant t).timebase
         (s.inReset = true → s'.timebase = s.timebase)
           ∧ (s.inReset = false → ¬s.givesStart c → s'.timebase = now)
           ∧ (s.inReset = false →
               s'.timebase = now
                 ∨ s'.timebase = now + 1 ∧ ∃ m, (s.motor m).channel.state = .stopped ∧ ¬s.startClear m t)
           ∧ (s.inReset = false → ∀ m, (s.motor m).channel.state = .stopped → (s'.motor m).channel.state = .running →
               s'.timebase = now → s.startClear m t))
    ∧ ∀ (straps : BitVec 2) (s s' : State), exec (.resetRelease straps) s = .next s' → s'.timebase = 0

/-- While the reset pin is asserted READY is low, the attention output is inactive, and no command has an effect but
RESET_RELEASE and the changes of level at the Hall and driver-fault pins (R171, R197, R104; that the pins are followed
through reset is the model's choice, log 20). -/
def Obligations.AssertedResetTakesNoCommand : Prop :=
  ∀ s : State, s.inReset = true →
    s.ready = false ∧ s.attentionOutput = false
      ∧ (∀ c, (∀ straps, c ≠ .resetRelease straps) → (∀ m t, c ≠ .driverFaultActivation m t) →
          (∀ m t, c ≠ .driverFaultRelease m t) → (∀ m code t, c ≠ .hallCodeChange m code t) → exec c s = .next s)
      ∧ (∀ m t, exec (.driverFaultActivation m t) s =
          .next (s.setMotor m { s.motor m with channel := { (s.motor m).channel with faultActive := true } }))
      ∧ (∀ m t, exec (.driverFaultRelease m t) s =
          .next (s.setMotor m { s.motor m with channel := { (s.motor m).channel with faultActive := false } }))
      ∧ ∀ m code t, exec (.hallCodeChange m code t) s = .next (s.setMotor m { s.motor m with hallCode := code })

/-! ### Invariants that every step keeps -/

/-- At no moment are both outputs of a leg on: each output that is on is the one its leg's command names (R14). -/
def Obligations.EveryStepKeepsGatesSafe : Prop :=
  ∀ s s' : State, s.gatesSafe → step s = .next s' → s'.gatesSafe

/-- A turn-on never comes less than the motor's dead time after the other side's last turn-off, whatever the step
does; and the premise is kept: a turn-on that waits stands one dead time after that turn-off (R14).

Outside the reset pin, which sets the instants to the power-on instant (R24), a side that turns off takes the instant
of the step as its last turn-off instant, at a trip, a stopping boundary, RESTART and SOFT_RESTART as at any command,
and no instant changes to another than that (R14, R24). -/
def Obligations.EveryStepKeepsDeadTime : Prop :=
  (∀ s s' : State, s.turnOnsSound → step s = .next s' → s'.turnOnsSound ∧ s.deadTimeKept s')
    ∧ ∀ s s' : State, (∀ t, s.pending.head? ≠ some (.resetAssert t)) → (∀ straps, s.pending.head? ≠ some (.resetRelease straps)) →
      step s = .next s' → s.turnOffsKept s'

/-- Channel states, carriers, slots and resting legs stay as R1, R8 and R26 say. -/
def Obligations.EveryStepKeepsChannelsSound : Prop :=
  ∀ s s' : State, s.channelsSound → step s = .next s' → s'.channelsSound

/-- The arbiter's state, the flush in flight, the wake timer, the power-on LINK-CLEAR and select stay together (R139, R140,
R148, R151). -/
def Obligations.EveryStepKeepsLinkSound : Prop :=
  ∀ s s' : State, s.linkSound → step s = .next s' → s'.linkSound

/-- Consumed, produced and assigned stay in order, and assigned − consumed stays within the depth (R132). -/
def Obligations.EveryStepKeepsRingCounters : Prop :=
  ∀ s s' : State, s.ringsSound → step s = .next s' → s'.ringsSound

/-- The Fault Log never holds more than 16 entries, its discarded count never exceeds 255, and is nonzero exactly when its
overflow flag is set (R186).

The calendar never holds more than 10 reservations nor more than one CONVERTING, and the high-water mark is never below
the occupancy (R68, R72, R93).

The conversion intervals of the calendar never overlap (R68, R71). The premise is for a write of T_CONV: it is accepted only with
every motor STOPPED (R92), when at most a CONVERTING reservation remains (R88); a larger conversion time asks for no more than one.

The list stays ordered by start instant (R68), where the starts lie within 2^30 ticks of the timebase, so that the order of two
of them is defined (00 "Timebase and instants").

No motor's list of frame-done records grows beyond 8, and none holds a record whose mode is met (R193). -/
def Obligations.EveryStepKeepsListsBounded : Prop :=
  (∀ s s' : State, s.log.bounded → step s = .next s' → s'.log.bounded)
    ∧ (∀ s s' : State, s.calendar.bounded → step s = .next s' → s'.calendar.bounded)
    ∧ (∀ s s' : State, s.settingsInRange → s.calendar.apart s.device.tConv →
        s'.device.tConv ≤ s.device.tConv ∨ s.calendar.reservations.length ≤ 1 →
        step s = .next s' → s'.calendar.apart s'.device.tConv)
    ∧ (∀ s s' : State, s.settingsInRange → s.calendar.ordered → s'.calendar.near s'.timebase →
        step s = .next s' → s'.calendar.ordered)
    ∧ (∀ s s' : State, s.recordsSound → step s = .next s' → s'.recordsSound)

/-- Every setting stays in its range, and its cross-checks hold (R22, R92, R96, R130, R177, R178).

The RAM and every captured copy keep the model's canonical form (log 10). -/
def Obligations.EveryStepKeepsSettingsAndMemory : Prop :=
  (∀ s s' : State, s.settingsInRange → step s = .next s' → s'.settingsInRange)
    ∧ (∀ s s' : State, s.memoryCanonical → step s = .next s' → s'.memoryCanonical)

/-- The state after reset meets every invariant. -/
def Obligations.ResetMeetsEveryInvariant : Prop :=
  State.reset.gatesSafe ∧ State.reset.turnOnsSound ∧ State.reset.channelsSound ∧ State.reset.linkSound
    ∧ State.reset.ringsSound ∧ State.reset.log.bounded ∧ State.reset.calendar.bounded
    ∧ State.reset.calendar.apart State.reset.device.tConv ∧ State.reset.calendar.ordered ∧ State.reset.settingsInRange
    ∧ State.reset.recordsSound ∧ State.reset.memoryCanonical

/-- While a plan slot is PENDING or ACTIVE no command but a reset by the pin changes its captured copy (R28). -/
def Obligations.GuardedSlotKeepsItsCopy : Prop :=
  ∀ (c : Instr) (s s' : State) (m : Motor) (n : SlotName),
    ((s.motor m).slot n).state = .pending ∨ ((s.motor m).slot n).state = .active →
    (∀ t, c ≠ .resetAssert t) → (∀ straps, c ≠ .resetRelease straps) →
    exec c s = .next s' → ((s'.motor m).slot n).copy = ((s.motor m).slot n).copy

/-! ### Reset (R24, R49, R67, R91, R109, R136, R153, R171, R172, R190, R197) -/

/-- RESET_RELEASE sets every block to its power-on value: channels STOPPED with no period counted, slots EMPTY with
zero copies, trackers at their reset values, the calendar and the Fault Log empty, inputs UNUSED, settings at their
defaults, frame counters 0, enables off, the arbiter HELD with its pointer at M0, READY low, the timebase 0, and the
power-on LINK-CLEAR on the memory port for 4 ticks. That it does so without an assertion before it, with select high
after it, and that the Hall and driver-fault levels stand, is the model's choice (logs 20 and 8).

RESET_ASSERT puts all gate outputs off at once and takes READY low (R24, R171). That the channels are STOPPED, and
every run, timer, reservation and transaction ends, already at the assertion is the model's choice (log 20). The RAM
is not the part's: it keeps its bytes but for those that a flush in flight had clocked out, which stand (the model's
reading, log 14). The memory-port select goes high (R171), so a forwarded SLEEP, WAKE or LINK-CLEAR whose command byte
has counted is complete and the RAM acts on it, and one that had taken WAKE before leaves sleep (R155, R156; the RAM
is the model's, log 11). -/
def Obligations.ResetPinSetsPowerOnValues : Prop :=
  (∀ (straps : BitVec 2) (s : State), ∃ s', exec (.resetRelease straps) s = .next s'
     ∧ s'.inReset = false ∧ s'.timebase = 0 ∧ s'.ready = false ∧ s'.attentionOutput = false
     ∧ (∀ m, (s'.motor m).channel.state = .stopped ∧ (s'.motor m).channel.outputsOff
         ∧ (s'.motor m).channel.periodStart = none ∧ (s'.motor m).channel.periodCount = 0
         ∧ (s'.motor m).channel.stepIndex = 0 ∧ (s'.motor m).channel.narrowCount = 0
         ∧ (s'.motor m).channel.tripCause = .none ∧ (s'.motor m).channel.tripInfo = 0
         ∧ (s'.motor m).channel.driveSector = none
         ∧ (s'.motor m).channel.faultActive = (s.motor m).channel.faultActive ∧ (s'.motor m).hallCode = (s.motor m).hallCode
         ∧ (∀ l, ((s'.motor m).channel.leg l).highOff = 0 ∧ ((s'.motor m).channel.leg l).lowOff = 0)
         ∧ (∀ n, ((s'.motor m).slot n).state = .empty ∧ (∀ x, Memory.read ((s'.motor m).slot n).copy x = 0)
             ∧ ((s'.motor m).slot n).tag = 0 ∧ ((s'.motor m).slot n).kind = .next ∧ ((s'.motor m).slot n).nextTag = none)
         ∧ (∃ e, (s'.motor m).tracker =
             { state := .waitFirst, sector := none, lastEdge := e, reference := .entry, duration := none, measured := 0,
               predictions := 0, examination := none, scheduled := none, timeout := none })
         ∧ (s'.motor m).marks = { unplaced := 0, unplacedLogged := false, fullLogged := false }
         ∧ (s'.motor m).frames.openFrame = none ∧ (∀ h, ((s'.motor m).frames.half h).state = .free)
         ∧ (s'.motor m).frames.nextSequence = 0 ∧ (s'.motor m).frames.assigned = 0 ∧ (s'.motor m).frames.produced = 0
         ∧ (s'.motor m).frames.consumed = 0 ∧ (s'.motor m).frames.dropRun = false
         ∧ (s'.motor m).attention =
             { frameDone := false, ringStale := false, tripped := false, ringHigh := false, staleTimer := none,
               records := [] }
         ∧ (s'.motor m).settings =
             { carrierPeriod := 5000, minimumPulse := 80, deadTime := 80, safeState := .allOff, frameInterval := 1,
               ringHigh := 8, ringLow := 4, ringBase := 0, ringStride := 128, ringDepth := 16, ringPolicy := .drop,
               frameDoneMode := .written, frameDoneDelay := 0, minimumSector := 400, predictionLimit := 1,
               startTimeout := 7813, commutationDelay := 0, staleTimeout := 2000,
               sectorMap := Vector.replicate 6 { leg0 := .float, leg1 := .float, leg2 := .float, successor := 0 } })
     ∧ s'.device = { tConv := 160, controllerWindow := 32, wakeTime := 8 }
     ∧ (∀ i, s'.inputRecord i =
         { owner := .unused, lowLimit := 0, highLimit := 4095, tripCount := 0, consecutive := 0 })
     ∧ s'.calendar = { reservations := [], highWater := 0 }
     ∧ s'.converter.state = .ready ∧ s'.converter.requestTag = 0 ∧ s'.converter.failures = 0
     ∧ s'.converter.resultTimer = none
     ∧ s'.decoder = Decoder.idle ∧ s'.upstream.selectLow = false ∧ s'.upstream.repeatState = none
     ∧ s'.upstream.wrap = .off
     ∧ s'.port.state = .awake ∧ s'.port.wakeTimer = none ∧ s'.port.linkClearDue = some 4 ∧ s'.port.issued = [[0x7E]]
     ∧ s'.window.position = straps
     ∧ s'.window.active = Vector.replicate 8 { bound := 0, kind := .pass, motor := .m0 }
     ∧ s'.window.staging = Vector.replicate 8 { bound := 0, kind := .pass, motor := .m0 }
     ∧ s'.arbiter = { state := .held, pointer := .m0, windowTimer := none, flight := none }
     ∧ s'.log = { entries := [], overflow := false, discarded := 0 } ∧ s'.enables = 0 ∧ s'.restartWaiting = false
     ∧ s.ramKept s.timebase s'.ram)
    ∧ (∀ (s : State) (t : Instant), s.inReset = false →
         ∃ s', exec (.resetAssert t) s = .next s' ∧ s'.inReset = true ∧ s'.ready = false
           ∧ (∀ m, (s'.motor m).channel.outputsOff ∧ (s'.motor m).channel.state = .stopped
               ∧ (s'.motor m).channel.periodStart = none ∧ (s'.motor m).hallCode = (s.motor m).hallCode
               ∧ (s'.motor m).channel.faultActive = (s.motor m).channel.faultActive)
           ∧ s'.calendar.reservations = [] ∧ s'.converter.resultTimer = none ∧ s'.port.linkClearDue = none
           ∧ s'.port.wakeTimer = none ∧ s'.arbiter.flight = none ∧ s'.upstream.selectLow = false
           ∧ s.ramKept (s.atInstant t).timebase s'.ram)

/-- SOFT_RESTART with no flush in flight takes effect at once: every block takes its restart values together, and what
they keep is kept (R24, R49, R67, R90, R109, R135, R152, R172, R182, R190, R197). Each side that was on takes that
instant as its last turn-off, and the others keep theirs (R14, R24). The Decoder record is IDLE where select is high;
where it is low the record stands, the classification of a WRITE and the refusal of a transaction among it (R49,
R170), and that it does so for every transaction is the model's reading (log 29).

SOFT_RESTART with a flush in flight waits, changing nothing else. FLUSH_COMPLETION at its instant then first completes
the flush as it does with no restart waiting, and the restart takes effect on what that leaves, exactly as at once
(R152, R182; that it is a part of the completion is the model's reading, log 6). SOFT_RESTART_EFFECT does the same
where a restart waits and no flush is in flight, which no run reaches (log 6), and otherwise nothing (log 2). -/
def Obligations.SoftRestartResetsTheBlocksTogether : Prop :=
  (∀ (s : State) (t : Instant), s.inReset = false → s.gatesSafe → s.arbiter.flight = none →
     ∃ s', exec (.softRestart t) s = .next s' ∧ (s.atInstant t).restarted s')
    ∧ (∀ (s : State) (t : Instant) (f : Flush), s.inReset = false → s.gatesSafe → s.arbiter.flight = some f →
         reached f.due (s.atInstant t).timebase = true → s.restartWaiting = true →
         ∃ s1 s', exec (.flushCompletion t) { s with restartWaiting := false } = .next s1
           ∧ exec (.flushCompletion t) s = .next s' ∧ s1.restarted s')
    ∧ (∀ (s : State) (t : Instant), s.inReset = false →
         (s.arbiter.flight ≠ none → exec (.softRestart t) s = .next { s.atInstant t with restartWaiting := true })
           ∧ (s.restartWaiting = true → s.arbiter.flight = none →
               exec (.softRestartEffect t) s = exec (.softRestart t) s)
           ∧ ((s.restartWaiting = false ∨ s.arbiter.flight ≠ none) →
               exec (.softRestartEffect t) s = .next (s.atInstant t)))

/-! ### The Fault Log and the attention causes (chapter 10) -/

/-- How the Fault Log takes an entry (R187): with the overflow flag clear and room it is appended; otherwise a non-trip entry
is discarded, a trip-class entry takes the place of the newest non-trip entry and is appended as the newest, and where every
entry is of trip class it is discarded. Each discard sets the flag and raises the count up to 255. -/
def Obligations.LogTakesAnEntryByItsClass : Prop :=
  (∀ code : LogCode, code.tripClass = true ↔
      code ∈ [LogCode.converterLost, .limitTrip, .driverFault, .hallInvalid, .hallStall])
    ∧ ∀ (l : FaultLog) (e : LogEntry),
      (l.overflow = false → l.entries.length < 16 → l.add e = { l with entries := l.entries ++ [e] })
        ∧ (l.overflow = true ∨ 16 ≤ l.entries.length →
            (e.code.tripClass = false →
                l.add e = { l with overflow := true, discarded := min 255 (l.discarded + 1) })
              ∧ (∀ older x newer, e.code.tripClass = true → l.entries = older ++ x :: newer → x.code.tripClass = false →
                  (∀ y ∈ newer, y.code.tripClass = true) →
                  l.add e = { entries := older ++ newer ++ [e], overflow := true,
                              discarded := min 255 (l.discarded + 1) })
              ∧ (e.code.tripClass = true → (∀ y ∈ l.entries, y.code.tripClass = true) →
                  l.add e = { l with overflow := true, discarded := min 255 (l.discarded + 1) }))

/-- LOG_POP removes the oldest entry and nothing else; on an empty log it changes nothing (R188).

CLEAR_COUNTS sets the motor's narrow-pulse count and unplaced count to 0, CLEAR_COUNTS_DEVICE sets the high-water mark to
the occupancy, and neither changes anything else (R16, R93, R179). -/
def Obligations.LogPopAndClearCountsDoTheirPartAlone : Prop :=
  (∀ (s : State) (t : Instant), s.inReset = false →
     (∀ e rest, s.log.entries = e :: rest →
         exec (.logPop t) s = .next { s.atInstant t with log := { s.log with entries := rest } })
       ∧ (s.log.entries = [] → exec (.logPop t) s = .next (s.atInstant t)))
    ∧ (∀ (s : State) (m : Motor) (t : Instant), s.inReset = false →
         exec (.clearCounts m t) s =
             .next ((s.atInstant t).setMotor m
               { s.motor m with
                 channel := { (s.motor m).channel with narrowCount := 0 }
                 marks := { (s.motor m).marks with unplaced := 0 } })
           ∧ exec (.clearCountsDevice t) s =
             .next { s.atInstant t with calendar := { s.calendar with highWater := s.calendar.reservations.length } })

/-- LOG_CLEAR_OVERFLOW clears the flag and the count and leaves the list; after it an addition is appended while there is
room, and with 16 entries it meets a full list, which sets the flag again with a count of 1 (R189). -/
def Obligations.ClearOverflowClearsFlagAndCount : Prop :=
  ∀ (s : State) (t : Instant), s.inReset = false →
    let cleared : FaultLog := { s.log with overflow := false, discarded := 0 }
    exec (.logClearOverflow t) s = .next { s.atInstant t with log := cleared }
      ∧ ∀ e : LogEntry,
        (s.log.entries.length < 16 → cleared.add e = { cleared with entries := s.log.entries ++ [e] })
          ∧ (s.log.entries.length = 16 → (cleared.add e).overflow = true ∧ (cleared.add e).discarded = 1)

/-- Power-on sets the Fault Log empty with the flag clear and the count 0, and so does SOFT_RESTART when it takes effect; a
RESTART of a motor that is taken does not touch it (R190).

SOFT_RESTART takes effect at once with no flush in flight, and otherwise at the flush's completion (R152, R182). That the
completion is the step FLUSH_COMPLETION, and that SOFT_RESTART_EFFECT then finds nothing left to do, so that its clause here
speaks of states that no run reaches, is the model's reading (log 6). -/
def Obligations.ResetsEmptyTheFaultLog : Prop :=
  let empty : FaultLog := { entries := [], overflow := false, discarded := 0 }
  (∀ straps s, ∃ s', exec (.resetRelease straps) s = .next s' ∧ s'.log = empty)
    ∧ (∀ s t, s.inReset = false → s.arbiter.flight = none → ∃ s', exec (.softRestart t) s = .next s' ∧ s'.log = empty)
    ∧ (∀ s t, s.inReset = false → s.restartWaiting = true → s.arbiter.flight = none →
        ∃ s', exec (.softRestartEffect t) s = .next s' ∧ s'.log = empty)
    ∧ (∀ s t f, s.inReset = false → s.restartWaiting = true → s.arbiter.flight = some f →
        reached f.due (s.atInstant t).timebase = true → ∃ s', exec (.flushCompletion t) s = .next s' ∧ s'.log = empty)
    ∧ ∀ s m t, s.inReset = false → (s.motor m).channel.state = .tripped → (s.motor m).channel.faultActive = false →
        (s.motor m).frames.half0.state = .free → (s.motor m).frames.half1.state = .free →
        ∃ s', exec (.restart m t) s = .next s' ∧ s'.log = s.log

/-- ATTENTION_PENDING_WRITE clears exactly the latched causes whose bits are one: FRAME_DONE at bit 4m, RING_STALE at bit
4m + 2, TRIPPED at bit 4m + 3; the bits of level causes are ignored, and nothing else changes (R192).

A frame-done record whose delay ends leaves the list and latches FRAME_DONE where its mode is then met (R193): the mode is
met by the delay alone in DELAY and EITHER, with the written event in BOTH, and never by the delay in WRITTEN. STALE_TIMER_EXPIRY
at its instant latches RING_STALE and stops the timer (R196). Neither changes anything else.

That of several due records FRAME_DONE_DUE takes the first of the list is the model's choice (log 19), and that it and
STALE_TIMER_EXPIRY have no effect before their instants its reading (log 2). -/
def Obligations.LatchedCausesAreClearedAndRaised : Prop :=
  (∀ (s : State) (v : Word) (t : Instant), s.inReset = false →
     let cleared (m : Motor) : MotorUnit :=
       { s.motor m with attention :=
           { (s.motor m).attention with
             frameDone := (s.motor m).attention.frameDone && !v.getLsbD (4 * m.number)
             ringStale := (s.motor m).attention.ringStale && !v.getLsbD (4 * m.number + 2)
             tripped := (s.motor m).attention.tripped && !v.getLsbD (4 * m.number + 3) } }
     exec (.attentionPendingWrite v t) s =
       .next { s.atInstant t with m0 := cleared .m0, m1 := cleared .m1, m2 := cleared .m2 })
    ∧ (∀ (s : State) (m : Motor) (t : Instant), s.inReset = false →
         let s0 := s.atInstant t
         let u := s.motor m
         (∀ before r after, u.attention.records = before ++ r :: after → (∀ q ∈ before, q.fallsDue s0.timebase = false ∧ q.met = false) →
             (∀ q ∈ after, q.met = false) → r.met = false → r.delayOver = false → reached r.due s0.timebase = true →
             exec (.frameDoneDue m t) s =
               .next (s0.setMotor m { u with attention :=
                 if r.mode = .delay ∨ r.mode = .either ∨ (r.mode = .both ∧ r.written = true) then
                   { u.attention with frameDone := true, records := before ++ after }
                 else { u.attention with records := before ++ { r with delayOver := true } :: after } }))
           ∧ ((∀ r ∈ u.attention.records, r.delayOver = true ∨ reached r.due s0.timebase = false) →
               exec (.frameDoneDue m t) s = .next s0)
           ∧ (∀ due, u.attention.staleTimer = some due → reached due s0.timebase = true →
               exec (.staleTimerExpiry m t) s =
                 .next (s0.setMotor m { u with attention := { u.attention with ringStale := true, staleTimer := none } }))
           ∧ ((u.attention.staleTimer = none ∨ ∃ due, u.attention.staleTimer = some due ∧ reached due s0.timebase = false) →
               exec (.staleTimerExpiry m t) s = .next s0))

/-! ### Counts and the consumed word -/

/-- CONSUMED_WRITE (R133): a value not beyond produced becomes consumed, and the new fill governs the ring-high state and the
stale timer (R195, R196); the value already there changes nothing; any other is refused with CONSUME_REFUSED. -/
def Obligations.ConsumedWriteGivesBackSlots : Prop :=
  ∀ (s : State) (m : Motor) (v : Word) (t : Instant), s.inReset = false →
    let s0 := s.atInstant t
    let u := s.motor m
    let fill := (u.frames.produced - v).toNat
    ((v - u.frames.consumed).toNat ≤ (u.frames.produced - u.frames.consumed).toNat → v ≠ u.frames.consumed →
        exec (.consumedWrite m v t) s =
          .next (s0.setMotor m
            { u with
              frames := { u.frames with consumed := v }
              attention := { u.attention with
                ringHigh :=
                  if u.settings.ringHigh ≤ fill then true
                  else if fill ≤ u.settings.ringLow then false else u.attention.ringHigh
                staleTimer :=
                  if 0 < fill ∧ fill < u.settings.ringHigh then
                    some (s0.timebase + BitVec.ofNat 32 (1024 * u.settings.staleTimeout))
                  else none } }))
      ∧ (v = u.frames.consumed → exec (.consumedWrite m v t) s = .next s0)
      ∧ ((u.frames.produced - u.frames.consumed).toNat < (v - u.frames.consumed).toNat →
          exec (.consumedWrite m v t) s =
            .next { s0 with log := s.log.add ⟨.consumeRefused, .motor m, v.extractLsb' 0 16, u.channel.periodCount⟩ })

/-! ### The part window (chapters 08, 09 and 11.3) -/

/-- STAGING_WORD_WRITE (R161, R200): with the bound 0 to 65536, the kind one of the three and the motor one of the three, the
staging entry is replaced whole; otherwise it stands and SETTING_REFUSED is logged for DEVICE with the word's offset.

MAP_COMMIT (R162): with every motor STOPPED and every staging entry passing, the staging map becomes the active map; the first
entry that fails is named in MAP_INVALID; a motor not STOPPED gives MAP_INVALID with NOT_STOPPED. Nothing else changes. -/
def Obligations.StagedMapIsCheckedAtMapCommit : Prop :=
  (∀ (s : State) (k : Fin 8) (v : Word) (t : Instant), s.inReset = false →
     let s0 := s.atInstant t
     let bound := v.toNat % 2 ^ 17
     let kind := v.toNat / 2 ^ 20 % 4
     let motor := v.toNat / 2 ^ 24 % 4
     (∀ kd md, (kind = 0 ∧ kd = RowKind.pass ∨ kind = 1 ∧ kd = .plan ∨ kind = 2 ∧ kd = .result) → motor = Motor.number md →
         bound ≤ 65536 →
         exec (.stagingWordWrite k v t) s =
           .next { s0 with window := { s.window with
             staging := s.window.staging.set k { bound := bound, kind := kd, motor := md } } })
       ∧ (65536 < bound ∨ kind = 3 ∨ motor = 3 →
           exec (.stagingWordWrite k v t) s =
             .next { s0 with log := s.log.add ⟨.settingRefused, .device, BitVec.ofNat 16 (0x80 + 4 * k.val), s0.timebase⟩ }))
    ∧ (∀ (s : State) (t : Instant), s.inReset = false →
         let s0 := s.atInstant t
         let entries : Fin 8 → MapEntry := fun i => s.window.staging.get i
         ((∀ m, (s.motor m).channel.state = .stopped) → (∀ i, MapEntry.passes entries i) →
             exec (.mapCommit t) s = .next { s0 with window := { s.window with active := s.window.staging } })
           ∧ (∀ i : Fin 8, (∀ m, (s.motor m).channel.state = .stopped) → (∀ j < i, MapEntry.passes entries j) →
               ¬ MapEntry.passes entries i →
               exec (.mapCommit t) s = .next { s0 with log := s.log.add ⟨.mapInvalid, .device, BitVec.ofNat 16 i.val, s0.timebase⟩ })
           ∧ ((∃ m, (s.motor m).channel.state ≠ .stopped) →
               exec (.mapCommit t) s = .next { s0 with log := s.log.add ⟨.mapInvalid, .device, 0x00FF, s0.timebase⟩ }))

/-- A setting word of a STOPPED motor (R22, R53, R113, R118, R176, R177, R200): within its range, and with its cross-check met, it
replaces the settings it holds and changes nothing else; otherwise the settings stand, and SETTING_REFUSED is logged for the
motor with the word's offset.

A motor-guarded word of a motor that is not STOPPED is refused whatever its value, with SETTING_REFUSED (R176). -/
def Obligations.GuardedMotorWordsNeedAStoppedMotor : Prop :=
  (∀ (s : State) (m : Motor) (v : Word) (t : Instant), s.inReset = false → (s.motor m).channel.state = .stopped →
     let s0 := s.atInstant t
     let u := s.motor m
     let st := u.settings
     let n := v.toNat
     let off (w : Nat) : Nat := 256 * (m.number + 1) + w
     let put (w : Nat) (new : MotorSettings) : Prop :=
       exec (.settingWordWrite (BitVec.ofNat 12 (off w)) v t) s = .next (s0.setMotor m { u with settings := new })
     let refused (w : Nat) : Prop :=
       exec (.settingWordWrite (BitVec.ofNat 12 (off w)) v t) s =
         .next { s0 with log := s.log.add ⟨.settingRefused, .motor m, BitVec.ofNat 16 (off w), u.channel.periodCount⟩ }
     (if 1000 ≤ n ∧ n ≤ 40000 then put 0x00 { st with carrierPeriod := n } else refused 0x00)
       ∧ (if st.deadTime ≤ n ∧ n ≤ 4000 then put 0x04 { st with minimumPulse := n } else refused 0x04)
       ∧ (if n ≤ 1000 ∧ n ≤ st.minimumPulse then put 0x08 { st with deadTime := n } else refused 0x08)
       ∧ (if n = 0 then put 0x0C { st with safeState := .allOff }
           else if n = 1 then put 0x0C { st with safeState := .lowBrake } else refused 0x0C)
       ∧ (if 1 ≤ n ∧ n ≤ 8 then put 0x10 { st with frameInterval := n } else refused 0x10)
       ∧ (if n = 0 then put 0x24 { st with ringPolicy := .drop }
           else if n = 1 then put 0x24 { st with ringPolicy := .overwrite } else refused 0x24)
       ∧ (∀ mode : FrameDoneMode, mode.number = n % 4 →
           put 0x28 { st with frameDoneMode := mode, frameDoneDelay := n / 2 ^ 16 })
       ∧ (if n ≤ 65535 then put 0x2C { st with minimumSector := n } else refused 0x2C)
       ∧ (if n ≤ 3 then put 0x30 { st with predictionLimit := n } else refused 0x30)
       ∧ (if 1 ≤ n ∧ n ≤ 65535 then put 0x34 { st with startTimeout := n } else refused 0x34)
       ∧ (∀ (k : Fin 6) (r0 r1 r2 : LegRole), r0.number = n % 4 → r1.number = n / 4 % 4 → r2.number = n / 16 % 4 →
           put (0x40 + 4 * k.val)
             { st with
               sectorMap := st.sectorMap.set k ⟨r0, r1, r2, v.extractLsb' 8 3⟩ })
       ∧ (∀ k : Fin 6, n % 4 = 3 ∨ n / 4 % 4 = 3 ∨ n / 16 % 4 = 3 → refused (0x40 + 4 * k.val)))
    ∧ (∀ (s : State) (m : Motor) (w : Nat) (v : Word) (t : Instant), s.inReset = false →
         (s.motor m).channel.state ≠ .stopped →
         w ∈ [0x00, 0x04, 0x08, 0x0C, 0x10, 0x18, 0x1C, 0x20, 0x24, 0x28, 0x2C, 0x30, 0x34, 0x40, 0x44, 0x48, 0x4C, 0x50, 0x54] →
         exec (.settingWordWrite (BitVec.ofNat 12 (256 * (m.number + 1) + w)) v t) s =
           .next { s.atInstant t with
             log := s.log.add ⟨.settingRefused, .motor m, BitVec.ofNat 16 (256 * (m.number + 1) + w),
               (s.motor m).channel.periodCount⟩ })

/-- The three ring words of a STOPPED motor (R130, R177, R195, R196): with both halves FREE and the value in range the setting is
replaced, assigned, produced and consumed become 0, and the fill of 0 clears the ring-high state and stops the stale timer;
otherwise they stand and SETTING_REFUSED is logged. -/
def Obligations.RingWordsNeedFreeHalvesAndClearCounters : Prop :=
  ∀ (s : State) (m : Motor) (v : Word) (t : Instant), s.inReset = false → s.settingsInRange →
    (s.motor m).channel.state = .stopped →
    let s0 := s.atInstant t
    let u := s.motor m
    let st := u.settings
    let n := v.toNat
    let halvesFree : Prop := u.frames.half0.state = .free ∧ u.frames.half1.state = .free
    let off (w : Nat) : Nat := 256 * (m.number + 1) + w
    let put (w : Nat) (new : MotorSettings) : Prop :=
      exec (.settingWordWrite (BitVec.ofNat 12 (off w)) v t) s =
        .next (s0.setMotor m
          { u with settings := new, frames := { u.frames with assigned := 0, produced := 0, consumed := 0 },
                   attention := { u.attention with ringHigh := false, staleTimer := none } })
    let refused (w : Nat) : Prop :=
      exec (.settingWordWrite (BitVec.ofNat 12 (off w)) v t) s =
        .next { s0 with log := s.log.add ⟨.settingRefused, .motor m, BitVec.ofNat 16 (off w), u.channel.periodCount⟩ }
    (halvesFree → n < 2 ^ 24 → n % 256 = 0 → put 0x18 { st with ringBase := BitVec.ofNat 24 n })
      ∧ (halvesFree → n ∈ [16, 32, 64, 128, 256] → put 0x1C { st with ringStride := n })
      ∧ (halvesFree → 2 ≤ n → n ≤ 256 → st.ringHigh ≤ n → put 0x20 { st with ringDepth := n })
      ∧ (¬halvesFree ∨ 2 ^ 24 ≤ n ∨ n % 256 ≠ 0 → refused 0x18)
      ∧ (¬halvesFree ∨ n ∉ [16, 32, 64, 128, 256] → refused 0x1C)
      ∧ (¬halvesFree ∨ n < 2 ∨ 256 < n ∨ n < st.ringHigh → refused 0x20)

/-- The free words of a motor block are taken in every channel state (R60, R176, R178, R195, R196): the commutation delay, the
stale timeout, and the ring levels, whose write evaluates the ring-high state and the stale timer at once; out of range they
are refused with SETTING_REFUSED.

The words of the device area (R92, R96, R145, R167, R176, R178, R191, R200): T_conv and the input words with every motor
STOPPED, the controller window, the wake time and the attention enables always; in range they replace their settings and
change nothing else, an input's consecutive count becoming 0; otherwise SETTING_REFUSED is logged for DEVICE. -/
def Obligations.FreeAndDeviceWordsFollowTheirGuards : Prop :=
  (∀ (s : State) (m : Motor) (v : Word) (t : Instant), s.inReset = false →
     let s0 := s.atInstant t
     let u := s.motor m
     let st := u.settings
     let n := v.toNat
     let high := n % 2 ^ 9
     let low := n / 2 ^ 16 % 2 ^ 8
     let fill := (u.frames.produced - u.frames.consumed).toNat
     let off (w : Nat) : Nat := 256 * (m.number + 1) + w
     let put (w : Nat) (new : MotorUnit) : Prop :=
       exec (.settingWordWrite (BitVec.ofNat 12 (off w)) v t) s = .next (s0.setMotor m new)
     let refused (w : Nat) : Prop :=
       exec (.settingWordWrite (BitVec.ofNat 12 (off w)) v t) s =
         .next { s0 with log := s.log.add ⟨.settingRefused, .motor m, BitVec.ofNat 16 (off w), u.channel.periodCount⟩ }
     (if n ≤ 65535 then put 0x38 { u with settings := { st with commutationDelay := n } } else refused 0x38)
       ∧ (if 1 ≤ n ∧ n ≤ 65535 then put 0x3C { u with settings := { st with staleTimeout := n } } else refused 0x3C)
       ∧ (if 1 ≤ high ∧ high ≤ 256 ∧ low < high ∧ high ≤ st.ringDepth then
           put 0x14
             { u with
               settings := { st with ringHigh := high, ringLow := low }
               attention := { u.attention with
                 ringHigh := if high ≤ fill then true else if fill ≤ low then false else u.attention.ringHigh
                 staleTimer :=
                   if 0 < fill ∧ fill < high then
                     (if u.attention.staleTimer.isSome then u.attention.staleTimer
                       else some (s0.timebase + BitVec.ofNat 32 (1024 * st.staleTimeout)))
                   else none } }
           else refused 0x14))
    ∧ (∀ (s : State) (v : Word) (t : Instant), s.inReset = false →
         let s0 := s.atInstant t
         let n := v.toNat
         let stopped : Prop := ∀ m, (s.motor m).channel.state = .stopped
         let word (off : Nat) : Host.Outcome State Fault Refusal := exec (.settingWordWrite (BitVec.ofNat 12 off) v t) s
         let refused (off : Nat) : Prop :=
           word off = .next { s0 with log := s.log.add ⟨.settingRefused, .device, BitVec.ofNat 16 off, s0.timebase⟩ }
         (stopped → 40 ≤ n → n ≤ 320 → word 0x000 = .next { s0 with device := { s.device with tConv := n } })
           ∧ (¬stopped ∨ n < 40 ∨ 320 < n → refused 0x000)
           ∧ (if n ≤ 255 then word 0x004 = .next { s0 with device := { s.device with controllerWindow := n } } else refused 0x004)
           ∧ (if 1 ≤ n ∧ n ≤ 255 then word 0x008 = .next { s0 with device := { s.device with wakeTime := n } } else refused 0x008)
           ∧ (∀ (i : Fin 16) (owner : InputOwner), stopped → owner.number = n / 2 ^ 24 % 8 → n / 2 ^ 27 % 8 ≤ 4 →
               n % 2 ^ 12 ≤ n / 2 ^ 12 % 2 ^ 12 →
               word (0x040 + 4 * i.val) = .next (s0.setInput (BitVec.ofFin i)
                 { owner := owner, lowLimit := v.extractLsb' 0 12, highLimit := v.extractLsb' 12 12,
                   tripCount := n / 2 ^ 27 % 8, consecutive := 0 }))
           ∧ (∀ i : Fin 16, ¬stopped ∨ 4 < n / 2 ^ 24 % 8 ∨ 4 < n / 2 ^ 27 % 8 ∨ n / 2 ^ 12 % 2 ^ 12 < n % 2 ^ 12 →
               refused (0x040 + 4 * i.val))
           ∧ word 0x0A0 = .next { s0 with enables := v.extractLsb' 0 14 })

/-- A command word carries one command (R173, R179, R181, 11.3): its word written at the word's offset is that command; a code that names none
is refused with SETTING_REFUSED; a status word and an unassigned word are ignored (R175). -/
def Obligations.CommandWordsCarryTheirCommands : Prop :=
  ∀ (s : State) (v : Word) (t : Instant), s.inReset = false →
    let word (off : Nat) : Host.Outcome State Fault Refusal := exec (.settingWordWrite (BitVec.ofNat 12 off) v t) s
    let code := v.toNat % 16
    let slot : SlotName := if v.getLsbD 8 then .b else .a
    let kind : ActivationKind := if v.getLsbD 9 then .atEnd else .next
    (∀ m : Motor, let off := 256 * (m.number + 1)
        (code = 1 → word (off + 0x5C) = exec (.start m t) s)
          ∧ (code = 2 → word (off + 0x5C) = exec (.stop m t) s)
          ∧ (code = 3 → word (off + 0x5C) = exec (.restart m t) s)
          ∧ (code = 4 → word (off + 0x5C) = exec (.commit m slot (v.extractLsb' 16 8) kind t) s)
          ∧ (code = 5 → word (off + 0x5C) = exec (.cancel m slot t) s)
          ∧ (code = 6 → word (off + 0x5C) = exec (.clearCounts m t) s)
          ∧ (code = 0 ∨ 7 ≤ code → word (off + 0x5C) =
              .next { s.atInstant t with
                log := s.log.add ⟨.settingRefused, .motor m, BitVec.ofNat 16 (off + 0x5C), (s.motor m).channel.periodCount⟩ })
          ∧ word (off + 0x58) = exec (.consumedWrite m v t) s
          ∧ ∀ w, w % 4 = 0 → 0x60 ≤ w → w < 256 → word (off + w) = .next (s.atInstant t))
      ∧ (code = 1 → word 0x0FC = exec (.softRestart t) s)
      ∧ (code = 2 → word 0x0FC = exec (.clearCountsDevice t) s)
      ∧ (code = 3 → word 0x0FC = exec (.mapCommit t) s)
      ∧ (code = 0 ∨ 4 ≤ code → word 0x0FC =
          .next { s.atInstant t with
            log := s.log.add ⟨.settingRefused, .device, 0x0FC, (s.atInstant t).timebase⟩ })
      ∧ (∀ k : Fin 8, word (0x080 + 4 * k.val) = exec (.stagingWordWrite k v t) s)
      ∧ word 0x0A4 = exec (.attentionPendingWrite v t) s
      ∧ word 0x0BC = exec (.logPop t) s ∧ word 0x0C0 = exec (.logClearOverflow t) s
      ∧ (∀ off, off % 4 = 0 → 0x00C ≤ off → off < 0x040 ∨ 0x0A8 ≤ off → off < 0x0FC → off ≠ 0x0BC → off ≠ 0x0C0 →
          word off = .next (s.atInstant t))
      ∧ ∀ off, off % 4 = 0 → 0x400 ≤ off → off < 0x1000 → word off = .next (s.atInstant t)

/-- A setting word that is accepted reads back as it was written, the bits that no field occupies as 0 (R173, R176, R200, 11.3): every
single-value word and every multi-field word of a motor block over its whole range, the guarded ones with the motor STOPPED
and, for the ring words, both halves FREE; the words of the device area under their guards; the staging words; the consumed word.

The status words show the fields of 11.3 (R23, R48, R66, R93, R107, R110, R137, R183, R188): channel, plan, tracker and frame status,
trip info, period count and counts, the ring counters, an input's consecutive count, the log's top and state, the device status;
the attention-pending word shows the pending causes (R192); command words read 0, and so do all unassigned ones (R173, R200). The premises are the ranges the fields keep.

The attention output is active exactly while a cause is both pending and enabled, the fourteen causes standing at the bits
of the attention words (R191, 11.3). -/
def Obligations.WordsReadBackAndShowTheState : Prop :=
  (∀ (s : State) (m : Motor) (v : Word) (t : Instant), s.inReset = false →
     let u := s.motor m
     let st := u.settings
     let n := v.toNat
     let high := n % 2 ^ 9
     let low := n / 2 ^ 16 % 2 ^ 8
     let stopped : Prop := u.channel.state = .stopped
     let halvesFree : Prop := u.frames.half0.state = .free ∧ u.frames.half1.state = .free
     let back (w value : Nat) : Prop :=
       ∃ s', exec (.settingWordWrite (BitVec.ofNat 12 (256 * (m.number + 1) + w)) v t) s = .next s'
         ∧ (s'.readWord (256 * (m.number + 1) + w)).toNat = value
     (∀ w least most, stopped →
         (w, least, most) ∈
           [(0x00, 1000, 40000), (0x0C, 0, 1), (0x10, 1, 8), (0x24, 0, 1), (0x2C, 0, 65535), (0x30, 0, 3), (0x34, 1, 65535)] →
         least ≤ n → n ≤ most → back w n)
       ∧ (n ≤ 65535 → back 0x38 n) ∧ (1 ≤ n → n ≤ 65535 → back 0x3C n)
       ∧ (stopped → st.deadTime ≤ n → n ≤ 4000 → back 0x04 n)
       ∧ (stopped → n ≤ 1000 → n ≤ st.minimumPulse → back 0x08 n)
       ∧ (stopped → halvesFree → n < 2 ^ 24 → n % 256 = 0 → back 0x18 n)
       ∧ (stopped → halvesFree → n ∈ [16, 32, 64, 128, 256] → back 0x1C n)
       ∧ (stopped → halvesFree → 2 ≤ n → n ≤ 256 → st.ringHigh ≤ n → back 0x20 n)
       ∧ (1 ≤ high → high ≤ 256 → low < high → high ≤ st.ringDepth → back 0x14 (high + 2 ^ 16 * low))
       ∧ (stopped → back 0x28 (n % 4 + 2 ^ 16 * (n / 2 ^ 16)))
       ∧ (∀ k : Fin 6, stopped → n % 4 ≠ 3 → n / 4 % 4 ≠ 3 → n / 16 % 4 ≠ 3 →
           back (0x40 + 4 * k.val) (n % 2 ^ 6 + 2 ^ 8 * (n / 2 ^ 8 % 2 ^ 3)))
       ∧ ((v - u.frames.consumed).toNat ≤ (u.frames.produced - u.frames.consumed).toNat → back 0x58 n))
    ∧ (∀ (s : State) (v : Word) (t : Instant), s.inReset = false →
         let n := v.toNat
         let stopped : Prop := ∀ m, (s.motor m).channel.state = .stopped
         let back (off value : Nat) : Prop :=
           ∃ s', exec (.settingWordWrite (BitVec.ofNat 12 off) v t) s = .next s' ∧ (s'.readWord off).toNat = value
         (stopped → 40 ≤ n → n ≤ 320 → back 0x000 n) ∧ (n ≤ 255 → back 0x004 n) ∧ (1 ≤ n → n ≤ 255 → back 0x008 n)
           ∧ (∀ i : Fin 16, stopped → n / 2 ^ 24 % 8 ≤ 4 → n / 2 ^ 27 % 8 ≤ 4 → n % 2 ^ 12 ≤ n / 2 ^ 12 % 2 ^ 12 →
               back (0x040 + 4 * i.val) (n % 2 ^ 30))
           ∧ (∀ k : Fin 8, n % 2 ^ 17 ≤ 65536 → n / 2 ^ 20 % 4 ≠ 3 → n / 2 ^ 24 % 4 ≠ 3 →
               back (0x080 + 4 * k.val) (n % 2 ^ 17 + 2 ^ 20 * (n / 2 ^ 20 % 4) + 2 ^ 24 * (n / 2 ^ 24 % 4)))
           ∧ back 0x0A0 (n % 2 ^ 14))
    ∧ (∀ s : State, s.log.bounded → s.calendar.bounded → s.converter.failures ≤ 3 →
         (∀ m : Motor, let u := s.motor m
             let word (w : Nat) : Nat := (s.readWord (256 * (m.number + 1) + w)).toNat
             word 0x60 % 4 = u.channel.state.number ∧ word 0x60 / 2 ^ 8 % 2 ^ 8 = u.channel.tripCause.number
               ∧ word 0x60 / 2 ^ 16 % 2 = u.channel.faultActive.toNat ∧ word 0x60 / 2 ^ 20 = u.channel.stepIndex % 8
               ∧ word 0x64 = u.channel.tripInfo.toNat ∧ word 0x68 = u.channel.periodCount.toNat
               ∧ word 0x6C % 2 ^ 16 = u.channel.narrowCount.toNat ∧ word 0x6C / 2 ^ 16 = u.marks.unplaced.toNat
               ∧ word 0x78 % 2 ^ 16 = u.frames.nextSequence.toNat ∧ word 0x78 / 2 ^ 16 % 4 = u.frames.half0.state.number
               ∧ word 0x78 / 2 ^ 18 = u.frames.half1.state.number
               ∧ word 0x7C = u.frames.assigned.toNat ∧ word 0x80 = u.frames.produced.toNat
               ∧ word 0x84 = u.frames.consumed.toNat ∧ word 0x58 = u.frames.consumed.toNat
               ∧ word 0x88 = (u.frames.produced - u.frames.consumed).toNat
               ∧ u.showsTracker (word 0x74) ∧ u.showsPlans (word 0x70)
               ∧ word 0x5C = 0 ∧ ∀ w, w % 4 = 0 → 0x8C ≤ w → w < 256 → word w = 0)
           ∧ (∀ i : Fin 16, (s.inputs.get i).consecutive ≤ 3 → (s.inputs.get i).tripCount ≤ 4 →
               (s.readWord (0x040 + 4 * i.val)).toNat / 2 ^ 30 = (s.inputs.get i).consecutive)
           ∧ (∀ e rest, s.log.entries = e :: rest →
               s.readWord 0x0B0 = BitVec.ofNat 32 (e.code.number + 2 ^ 8 * e.source.number + 2 ^ 16 * e.info.toNat)
                 ∧ s.readWord 0x0B4 = e.stamp)
           ∧ (s.log.entries = [] → s.readWord 0x0B0 = 0 ∧ s.readWord 0x0B4 = 0)
           ∧ (s.readWord 0x0B8).toNat % 2 ^ 5 = s.log.entries.length
           ∧ (s.readWord 0x0B8).toNat / 2 ^ 8 % 2 = s.log.overflow.toNat
           ∧ (s.readWord 0x0B8).toNat / 2 ^ 16 = s.log.discarded
           ∧ ((s.readWord 0x0D0).toNat % 2 = 1 ↔ s.converter.state = .lost)
           ∧ (s.readWord 0x0D0).toNat / 2 ^ 4 % 4 = s.converter.failures
           ∧ (s.readWord 0x0D0).toNat / 2 ^ 8 % 2 ^ 4 = s.calendar.reservations.length
           ∧ (s.readWord 0x0D0).toNat / 2 ^ 12 % 2 ^ 4 = s.calendar.highWater
           ∧ (s.readWord 0x0D0).toNat / 2 ^ 16 % 4 = s.port.state.number
           ∧ (s.readWord 0x0D0).toNat / 2 ^ 20 = s.window.position.toNat
           ∧ (s.readWord 0x0A4).toNat = s.pendingCauses.toNat
           ∧ (∀ off, off % 4 = 0 → 0x00C ≤ off → off < 0x040 ∨ 0x0A8 ≤ off → off < 0x100 →
               off ∉ [0x0B0, 0x0B4, 0x0B8, 0x0D0] → s.readWord off = 0)
           ∧ ∀ off, off % 4 = 0 → 0x400 ≤ off → off < 0x1000 → s.readWord off = 0)
    ∧ (∀ s : State,
         (∀ m : Motor,
           s.pendingCauses.getLsbD (4 * m.number) = (s.motor m).attention.frameDone
             ∧ s.pendingCauses.getLsbD (4 * m.number + 1) = (s.motor m).attention.ringHigh
             ∧ s.pendingCauses.getLsbD (4 * m.number + 2) = (s.motor m).attention.ringStale
             ∧ s.pendingCauses.getLsbD (4 * m.number + 3) = (s.motor m).attention.tripped)
           ∧ (s.pendingCauses.getLsbD 12 = true ↔ s.log.entries ≠ []) ∧ s.pendingCauses.getLsbD 13 = s.log.overflow
           ∧ (s.inReset = false → (s.attentionOutput = true ↔
               ∃ i, s.pendingCauses.getLsbD i = true ∧ s.enables.getLsbD i = true)))

/-! ### Legs (R12 to R16) -/

/-- Whatever the leg and the command, setting the command does what R14 says.

The command of a leg of a PLAN-mode step at each offset of a period (R13, R15): FLOAT, LOW and HIGH hold theirs; a PWM
pulse of width w = fall − rise is held LOW_SIDE where w < m, otherwise HIGH_SIDE where P − w < m, and otherwise is
HIGH_SIDE from rise up to fall, with the edges still to come of the period at rise and, before the period's end, at
fall; the leg counts as a substitution (R16) exactly in the first two PWM cases.

START and a period boundary after which the channel runs set the legs for the step they select (R3, R10 claim 4, R12
to R16): in PLAN mode by the step's leg modes, in HALL mode by the roles of the drive sector with the step's leg-0
pulse, FLOAT where there is no sector, each under dead time. The narrow-pulse count rises by the substitutions at a
boundary, stopping at 65535, and stands at START. The instant at which START is taken is that of log 27.

GATE_EDGE at the instant of a leg's next edge gives the leg the edge's command, under dead time, and changes nothing
else (R13, R14). DEAD_TIME_TURN_ON at its instant turns the commanded side on and changes nothing else (R14). That
they have no effect before it, or where none is to come, is the model's reading (log 2), and so is the unsigned age of
a turn-off (log 18). -/
def Obligations.LegsFollowTheirStepUnderDeadTime : Prop :=
  (∀ (dead : Nat) (now : Instant) (c : LegCommand) (l : Leg), l.commanded dead now c (Leg.setCommand dead now c l))
    ∧ (∀ (period minimum offset : Nat) (b : Instant) (l : LegPlan),
         let w := l.fall - l.rise
         (l.drive period minimum).1.commandAt offset =
             (match l.mode with
               | .float => .off
               | .low => .lowSide
               | .high => .highSide
               | .pwm =>
                 if w < minimum then .lowSide
                 else if period - w < minimum then .highSide
                 else if l.rise ≤ offset ∧ offset < l.fall then .highSide else .lowSide)
           ∧ (l.drive period minimum).1.edgeAfter b period offset =
             (if l.mode = .pwm ∧ minimum ≤ w ∧ minimum ≤ period - w then
               if offset < l.rise then some { due := after b l.rise, command := .highSide }
               else if offset < l.fall ∧ l.fall < period then some { due := after b l.fall, command := .lowSide }
               else none
             else none)
           ∧ ((l.drive period minimum).2 = true ↔ l.mode = .pwm ∧ (w < minimum ∨ period - w < minimum)))
    ∧ (∀ (s : State) (m : Motor) (n : LegName) (t : Instant), s.inReset = false →
         let s0 := s.atInstant t
         let u := s.motor m
         let l := u.channel.leg n
         let put (l' : Leg) : State := s0.setMotor m { u with channel := u.channel.setLeg n l' }
         (∀ e b, l.nextEdge = some e → u.channel.periodStart = some b → reached e.due s0.timebase = true →
             ∃ l', exec (.gateEdge m n t) s = .next (put l') ∧ l.commanded u.settings.deadTime s0.timebase e.command l'
               ∧ l'.drive = l.drive
               ∧ (∀ rise fall, l.drive = .pulse rise fall → e.command = .highSide → fall < u.settings.carrierPeriod →
                   l'.nextEdge = some { due := after b fall, command := .lowSide })
               ∧ (e.command ≠ .highSide → l'.nextEdge = none))
           ∧ ((l.nextEdge = none ∨ u.channel.periodStart = none
                 ∨ ∃ e, l.nextEdge = some e ∧ reached e.due s0.timebase = false) →
               exec (.gateEdge m n t) s = .next s0)
           ∧ (∀ due, l.turnOn = some due → reached due s0.timebase = true →
               (l.command = .highSide → exec (.deadTimeTurnOn m n t) s = .next (put { l with highOn := true, turnOn := none }))
                 ∧ (l.command = .lowSide → exec (.deadTimeTurnOn m n t) s = .next (put { l with lowOn := true, turnOn := none })))
           ∧ ((l.turnOn = none ∨ ∃ due, l.turnOn = some due ∧ reached due s0.timebase = false) →
               exec (.deadTimeTurnOn m n t) s = .next s0))
    ∧ (∀ (s : State) (m : Motor) (n : SlotName) (t now : Instant), s.inReset = false → s.startReady m →
         ((s.motor m).slot n).state = .pending → ((s.motor m).slot n.other).state ≠ .pending →
         ((s.motor m).slot n.other).state ≠ .active → s.validateSlot m n = none → s.startsAt m t now →
         ∃ s', exec (.start m t) s = .next s'
           ∧ (s.motor m).legsSet (s'.motor m) (planStep ((s.motor m).slot n).copy 0)
               (planIsHall ((s.motor m).slot n).copy) false now now)
    ∧ ∀ (s : State) (m : Motor) (t b : Instant) (n : SlotName), s.inReset = false →
      let now := (s.atInstant t).timebase
      let u := s.motor m
      u.channel.state = .running → u.channel.periodStart = some b →
      reached (after b u.settings.carrierPeriod) now = true →
      ∃ s', exec (.periodBoundary m t) s = .next s'
        ∧ ((s'.motor m).channel.state = .running → ((s'.motor m).slot n).state = .active →
            ((s'.motor m).slot n.other).state ≠ .active →
            u.legsSet (s'.motor m) (planStep ((s'.motor m).slot n).copy (s'.motor m).channel.stepIndex)
              (planIsHall ((s'.motor m).slot n).copy) true now (after b u.settings.carrierPeriod))

/-! ### Plans: validation, COMMIT, CANCEL (R33 to R42) -/

/-- Validation passes exactly the plans that meet all five tests (R35 to R39): length, check sum and repeated length; step count, mode
and end action; steps of at most four requests that fill the record exactly; the edges; the requests, each on an input of the
motor or SHARED; and a valid sector map for a HALL plan.

A plan that fails its check test is named PLAN_CHECK with the sum obtained; one of an unsound length, step count, mode or end
action PLAN_SHAPE with the offset of that field; a step with more than four requests, reached by a sound walk, with its own
offset; a step that starts at or beyond offset L − 4 or extends beyond it, and a walk that does not end there, with L − 4 (R35,
R36). Then the first bad edge is named PLAN_EDGE with its step and leg, the first bad request PLAN_SAMPLE with its step and index,
and a HALL plan without a valid sector map HALL_MAP with 0 (R37 to R39). That offset 2 is given where mode and end action both
name nothing (log 31), and that a step that starts too late is found before its sample count is read (log 17), is the model's. -/
def Obligations.ValidationFindsTheFirstFault : Prop :=
  (∀ (m : Motor) (st : MotorSettings) (owner : InputNumber → InputOwner) (c : Memory),
     let length := planLength c
     let steps := planSteps c
     validate m st owner c = none ↔
       (28 ≤ length ∧ length ≤ 252 ∧ length % 4 = 0 ∧ planSum c = 0 ∧ planShort c (length - 2) = length)
         ∧ (1 ≤ steps ∧ steps ≤ 8 ∧ planModeByte c ≤ 1 ∧ planEndByte c ≤ 2)
         ∧ (∀ k < steps, stepSamples c (stepOffset c k) ≤ 4) ∧ stepOffset c steps = length - 4
         ∧ (∀ k < steps, ∀ n, planModeByte c = 0 → ((planStep c k).legOf n).mode = .pwm →
             ((planStep c k).legOf n).rise < ((planStep c k).legOf n).fall
               ∧ ((planStep c k).legOf n).fall ≤ st.carrierPeriod)
         ∧ (∀ k < steps, planModeByte c = 1 →
             (planStep c k).leg0.mode = .pwm ∧ (planStep c k).leg0.rise < (planStep c k).leg0.fall
               ∧ (planStep c k).leg0.fall ≤ st.carrierPeriod)
         ∧ (∀ k < steps, ∀ r ∈ (planStep c k).requests,
             r.earliest ≤ r.target ∧ r.target ≤ r.latest ∧ r.latest + 1 ≤ st.carrierPeriod
               ∧ (owner r.input = .motor m ∨ owner r.input = .shared))
         ∧ (planModeByte c = 1 → st.mapValid = true))
    ∧ (∀ (m : Motor) (st : MotorSettings) (owner : InputNumber → InputOwner) (c : Memory),
         let length := planLength c
         let lengthSound : Prop := 28 ≤ length ∧ length ≤ 252 ∧ length % 4 = 0
         let checked : Prop := lengthSound ∧ planSum c = 0 ∧ planShort c (length - 2) = length
         let shape (offset : Nat) : Prop := validate m st owner c = some ⟨.planShape, BitVec.ofNat 16 offset⟩
         (lengthSound → planSum c ≠ 0 ∨ planShort c (length - 2) ≠ length →
             validate m st owner c = some ⟨.planCheck, BitVec.ofNat 16 (planSum c)⟩)
           ∧ (¬lengthSound → shape 0)
           ∧ (checked → planSteps c = 0 ∨ 8 < planSteps c → shape 1)
           ∧ (checked → 1 ≤ planSteps c → planSteps c ≤ 8 → 1 < planModeByte c → shape 2)
           ∧ (checked → 1 ≤ planSteps c → planSteps c ≤ 8 → planModeByte c ≤ 1 → 2 < planEndByte c → shape 3)
           ∧ (checked → 1 ≤ planSteps c → planSteps c ≤ 8 → planModeByte c ≤ 1 → planEndByte c ≤ 2 →
               ∀ k < planSteps c, (∀ j < k, stepSamples c (stepOffset c j) ≤ 4) → stepOffset c k < length - 4 →
                 4 < stepSamples c (stepOffset c k) → shape (stepOffset c k))
           ∧ (checked → 1 ≤ planSteps c → planSteps c ≤ 8 → planModeByte c ≤ 1 → planEndByte c ≤ 2 →
               ∀ k ≤ planSteps c, (∀ j < k, stepSamples c (stepOffset c j) ≤ 4) →
                 (length - 4 < stepOffset c k ∨ k < planSteps c ∧ stepOffset c k = length - 4
                   ∨ k = planSteps c ∧ stepOffset c k ≠ length - 4) → shape (length - 4)))
    ∧ (∀ (m : Motor) (st : MotorSettings) (owner : InputNumber → InputOwner) (c : Memory),
         let length := planLength c
         let period := st.carrierPeriod
         let leg (n : LegName) : Nat := match n with | .leg0 => 0 | .leg1 => 1 | .leg2 => 2
         let edges (l : LegPlan) : Prop := l.rise < l.fall ∧ l.fall ≤ period
         let badLeg (k : Nat) (n : LegName) : Prop :=
           planModeByte c = 0 ∧ ((planStep c k).legOf n).mode = .pwm ∧ ¬edges ((planStep c k).legOf n)
             ∨ planModeByte c = 1 ∧ n = .leg0 ∧ ¬((planStep c k).leg0.mode = .pwm ∧ edges (planStep c k).leg0)
         let badRequest (r : SampleRequest) : Prop :=
           ¬(r.earliest ≤ r.target ∧ r.target ≤ r.latest ∧ r.latest + 1 ≤ period
             ∧ (owner r.input = .motor m ∨ owner r.input = .shared))
         let named (code : LogCode) (upper lower : Nat) : Prop :=
           validate m st owner c = some ⟨code, BitVec.ofNat 16 (256 * upper + lower)⟩
         (28 ≤ length ∧ length ≤ 252 ∧ length % 4 = 0 ∧ planSum c = 0 ∧ planShort c (length - 2) = length) →
         (1 ≤ planSteps c ∧ planSteps c ≤ 8 ∧ planModeByte c ≤ 1 ∧ planEndByte c ≤ 2) →
         (∀ k < planSteps c, stepSamples c (stepOffset c k) ≤ 4) → stepOffset c (planSteps c) = length - 4 →
         (∀ k n, k < planSteps c → (∀ j < k, ∀ n', ¬badLeg j n') → (∀ n', leg n' < leg n → ¬badLeg k n') → badLeg k n →
             named .planEdge k (leg n))
           ∧ (∀ k before r after_, k < planSteps c → (∀ j < planSteps c, ∀ n, ¬badLeg j n) →
               (∀ j < k, ∀ q ∈ (planStep c j).requests, ¬badRequest q) →
               (planStep c k).requests = before ++ r :: after_ → (∀ q ∈ before, ¬badRequest q) → badRequest r →
               named .planSample k before.length)
           ∧ ((∀ j < planSteps c, ∀ n, ¬badLeg j n) →
               (∀ j < planSteps c, ∀ q ∈ (planStep c j).requests, ¬badRequest q) →
               planModeByte c = 1 → st.mapValid = false → named .hallMap 0 0))

/-- COMMIT (R40, R41): an ACTIVE slot takes the tag as its next tag; a PENDING one is refused with SLOT_PENDING; an EMPTY or INACTIVE one
is refused with OTHER_PENDING where the other is PENDING, and otherwise becomes PENDING with the tag and the kind where validation
passes, and is logged under the failed test's code where it does not. Nothing else changes. -/
def Obligations.CommitActsByTheSlotStates : Prop :=
  ∀ (s : State) (m : Motor) (n : SlotName) (tag : Byte) (kind : ActivationKind) (t : Instant), s.inReset = false →
    let s0 := s.atInstant t
    let u := s.motor m
    let free : Prop := (u.slot n).state = .empty ∨ (u.slot n).state = .inactive
    let logged (code : LogCode) (info : Short) : State :=
      { s0 with log := s.log.add ⟨code, .motor m, info, u.channel.periodCount⟩ }
    let fault := validate m u.settings (fun i => (s.inputRecord i).owner) (u.slot n).copy
    ((u.slot n).state = .active →
        exec (.commit m n tag kind t) s = .next (s0.setMotor m (u.setSlot n { u.slot n with nextTag := some tag })))
      ∧ ((u.slot n).state = .pending → exec (.commit m n tag kind t) s = .next (logged .commitRefused 10))
      ∧ (free → (u.slot n.other).state = .pending → exec (.commit m n tag kind t) s = .next (logged .commitRefused 11))
      ∧ (free → (u.slot n.other).state ≠ .pending → fault = none →
          exec (.commit m n tag kind t) s =
            .next (s0.setMotor m (u.setSlot n { u.slot n with state := .pending, tag := tag, kind := kind })))
      ∧ (∀ f, free → (u.slot n.other).state ≠ .pending → fault = some f →
          exec (.commit m n tag kind t) s = .next (logged f.code f.info))

/-- CANCEL makes a PENDING slot INACTIVE, its copy and tag kept, and is ignored, without an entry, for any other slot; it is taken in
every channel state (R42). -/
def Obligations.CancelReleasesAPendingSlot : Prop :=
  ∀ (s : State) (m : Motor) (n : SlotName) (t : Instant), s.inReset = false →
    (((s.motor m).slot n).state = .pending →
        exec (.cancel m n t) s =
          .next ((s.atInstant t).setMotor m ((s.motor m).setSlot n { (s.motor m).slot n with state := .inactive })))
      ∧ (((s.motor m).slot n).state ≠ .pending → exec (.cancel m n t) s = .next (s.atInstant t))

/-! ### START, STOP and RESTART (R2 to R4, R7) -/

/-- START names the first of its conditions that fails, in the order of R2, in one START_REFUSED entry, and changes nothing else; with
every condition met, and the PENDING slot passing revalidation, the motor is RUNNING. -/
def Obligations.StartNamesItsFirstFailedCondition : Prop :=
  ∀ (s : State) (m : Motor) (t : Instant), s.inReset = false →
    let u := s.motor m
    let stopped : Prop := u.channel.state = .stopped
    let slotPending : Prop := u.slotA.state = .pending ∨ u.slotB.state = .pending
    let refused (info : Short) : Prop :=
      exec (.start m t) s =
        .next { s.atInstant t with log := s.log.add ⟨.startRefused, .motor m, info, u.channel.periodCount⟩ }
    (¬stopped → refused 1)
      ∧ (stopped → ¬slotPending → refused 2)
      ∧ (stopped → slotPending → s.converter.state = .lost → refused 3)
      ∧ (stopped → slotPending → s.converter.state = .ready → s.port.state ≠ .awake → refused 4)
      ∧ (stopped → slotPending → s.converter.state = .ready → s.port.state = .awake → u.channel.faultActive = true →
          refused 5)
      ∧ (stopped → slotPending → s.converter.state = .ready → s.port.state = .awake → u.channel.faultActive = false →
          ¬s.ringInPlace m → refused 6)
      ∧ (∀ n f, s.startReady m → (u.slot n).state = .pending → (u.slot n.other).state ≠ .pending →
          s.validateSlot m n = some f → refused (if f.code = .hallMap then 8 else 7))
      ∧ (∀ n, s.startReady m → (u.slot n).state = .pending → (u.slot n.other).state ≠ .pending →
          s.validateSlot m n = none →
          ∃ s', exec (.start m t) s = .next s' ∧ (s'.motor m).channel.state = .running)

/-- START taken (R3): the motor is RUNNING with its carrier period beginning now, its PENDING slot ACTIVE, step 0
selected, its tracker begun on the Hall code, its first frame open at the period count as it stands, and, for a PLAN
plan, its legs commanded as step 0 says for offset 0; the period count and the narrow-pulse count stand.

It is taken at its instant; where a motor of higher number has placed its requests for that instant already, even one
that has tripped since, one tick later, so that the Calendar never places it behind that one (R76; the model's choice,
log 27).

With no boundary that comes before, that motor, the calendar, the log and the model's record of who has placed for
this instant (log 27) alone change. With one that has come before, START does what it does after the PERIOD_BOUNDARY
of the first of them, so that the Calendar places in motor order (R76; the model's reading, log 27). -/
def Obligations.StartBeginsTheRun : Prop :=
  ∀ (s : State) (m : Motor) (n : SlotName) (t now : Instant), s.inReset = false → s.startReady m →
    ((s.motor m).slot n).state = .pending → ((s.motor m).slot n).nextTag = none →
    ((s.motor m).slot n.other).state ≠ .pending → ((s.motor m).slot n.other).state ≠ .active →
    s.validateSlot m n = none → s.startsAt m t now →
    let s0 := (s.atInstant t).moveTo now
    let u := s.motor m
    let c := (u.slot n).copy
    let valid : Bool := u.hallCode != 0 && u.hallCode != 7
    ∃ s', exec (.start m t) s = .next s'
      ∧ (let u' := s'.motor m
         u'.channel.state = .running ∧ u'.channel.periodStart = some now ∧ u'.channel.stepIndex = 0
          ∧ u'.channel.periodCount = u.channel.periodCount ∧ u'.channel.tripCause = u.channel.tripCause
          ∧ u'.channel.narrowCount = u.channel.narrowCount
          ∧ u'.slot n = { u.slot n with state := .active } ∧ u'.slot n.other = u.slot n.other
          ∧ u'.tracker =
            { state := if valid then .tracking else .waitFirst, sector := if valid then some u.hallCode else none,
              lastEdge := now, reference := if valid then .start else .entry, duration := none, measured := 0,
              predictions := 0, examination := none, scheduled := none,
              timeout := some (after now (1024 * u.settings.startTimeout)) }
          ∧ (planIsHall c = true → u'.channel.driveSector = u'.tracker.sector)
          ∧ (∃ f, u'.frames.openFrame = some f ∧ f.sequence = u.frames.nextSequence ∧ f.tag = (u.slot n).tag
              ∧ f.countAtOpen = u.channel.periodCount ∧ f.periodsCovered = 1 ∧ f.closeFlag = .none)
          ∧ u'.frames.nextSequence = u.frames.nextSequence + 1 ∧ u'.frames.produced = u.frames.produced
          ∧ u'.settings = u.settings ∧ u'.hallCode = u.hallCode
          ∧ (planIsHall c = false → ∀ l, (u'.channel.leg l).command =
              (((planStep c 0).legOf l).drive u.settings.carrierPeriod u.settings.minimumPulse).1.commandAt 0))
      ∧ ((∀ k, ¬s0.dueBefore m now k) →
          (∀ m', m' ≠ m → s'.motor m' = s.motor m')
            ∧ s0.placementNoted s' m now
            ∧ s' = { s0 with
                m0 := s'.m0, m1 := s'.m1, m2 := s'.m2, calendar := s'.calendar, log := s'.log, placed := s'.placed })
      ∧ ∀ k s1, s0.firstBefore m now k → exec (.periodBoundary k now) s0 = .next s1 → ¬s1.dueBefore m now k →
          exec (.start m now) s1 = .next s'

/-- STOP makes a RUNNING channel STOPPING, its carrier and its outputs going on; in every other state it is ignored, without an entry
(R4). -/
def Obligations.StopActsOnARunningChannel : Prop :=
  ∀ (s : State) (m : Motor) (t : Instant), s.inReset = false →
    ((s.motor m).channel.state = .running →
        exec (.stop m t) s =
          .next ((s.atInstant t).setMotor m
            { s.motor m with channel := { (s.motor m).channel with state := .stopping } }))
      ∧ ((s.motor m).channel.state ≠ .running → exec (.stop m t) s = .next (s.atInstant t))

/-- RESTART (R7): a TRIPPED channel with its driver-fault input inactive and both halves FREE becomes STOPPED, its
trip cause NONE, its outputs ALL_OFF, each side that was on taking that instant as its turn-off (R14), and its tracker
at reset values, all its counts, slots, frames and causes kept; otherwise one RESTART_REFUSED entry names the first
condition that fails. -/
def Obligations.RestartReleasesATrippedMotor : Prop :=
  ∀ (s : State) (m : Motor) (t : Instant), s.inReset = false → s.gatesSafe →
    let s0 := s.atInstant t
    let u := s.motor m
    let tripped : Prop := u.channel.state = .tripped
    let halvesFree : Prop := u.frames.half0.state = .free ∧ u.frames.half1.state = .free
    let refused (info : Short) : Prop :=
      exec (.restart m t) s =
        .next { s0 with log := s.log.add ⟨.restartRefused, .motor m, info, u.channel.periodCount⟩ }
    (tripped → u.channel.faultActive = false → halvesFree →
        ∃ ch e, exec (.restart m t) s =
            .next (s0.setMotor m { u with channel := ch, tracker :=
              { state := .waitFirst, sector := none, lastEdge := e, reference := .entry, duration := none, measured := 0,
                predictions := 0, examination := none, scheduled := none, timeout := none } })
          ∧ ch.state = .stopped ∧ ch.tripCause = .none ∧ ch.tripInfo = 0 ∧ ch.driveSector = none ∧ u.legsOff { u with channel := ch } s0.timebase
          ∧ ch.periodCount = u.channel.periodCount ∧ ch.narrowCount = u.channel.narrowCount
          ∧ ch.stepIndex = u.channel.stepIndex ∧ ch.faultActive = false ∧ ch.periodStart = u.channel.periodStart)
      ∧ (¬tripped → refused 1)
      ∧ (tripped → u.channel.faultActive = true → refused 5)
      ∧ (tripped → u.channel.faultActive = false → ¬halvesFree → refused 9)

/-! ### Period boundaries (R5, R6, R8 to R10, R44, R45, R113) -/

/-- A due boundary of a RUNNING channel at which nothing activates (R8 to R10, R45, R113): the count rises, the next
period starts where the last one ends, the step index moves on as the end action says, the slots stand, and the frame
either covers one more period or, having covered N, closes without a flag, with storage adding its frame-done record
(R114, R193), while another opens, whose tag is the next tag where the ACTIVE slot has one, which becomes the slot's
own tag (R41, R117). With no boundary of another motor that comes before, that motor, the calendar, the log and the
model's record of who has placed for this instant (log 27) alone change.

Where boundaries of other motors have come before one of a RUNNING or STOPPING motor, at an earlier instant or at the
same one with a lower number, it does what it does after the PERIOD_BOUNDARY of the first of them, whichever command
stands first, so that the Calendar places in motor order (R76; that the command takes them with it is the model's
reading, log 27). -/
def Obligations.BoundaryRunsTheNextStep : Prop :=
  (∀ (s : State) (m : Motor) (t b : Instant) (n : SlotName) (k : Nat) (f : OpenFrame), s.inReset = false →
    let s0 := s.atInstant t
    let u := s.motor m
    let c := (u.slot n).copy
    let last : Prop := u.channel.stepIndex + 1 = planSteps c
    u.channel.state = .running → u.channel.periodStart = some b →
    reached (after b u.settings.carrierPeriod) s0.timebase = true →
    (u.slot n).state = .active → (u.slot n.other).state ≠ .active →
    ((u.slot n.other).state = .pending → (u.slot n.other).kind = .atEnd ∧ ¬last) →
    (¬last ∧ k = u.channel.stepIndex + 1 ∨ last ∧ planEndByte c = 1 ∧ k = 0
      ∨ last ∧ planEndByte c = 0 ∧ k = u.channel.stepIndex) →
    u.frames.openFrame = some f →
    ∃ s', exec (.periodBoundary m t) s = .next s'
      ∧ (let u' := s'.motor m
         u'.channel.state = .running ∧ u'.channel.periodStart = some (after b u.settings.carrierPeriod)
          ∧ u'.channel.periodCount = u.channel.periodCount + 1 ∧ u'.channel.stepIndex = k
          ∧ (∀ n', (u'.slot n').state = (u.slot n').state ∧ (u'.slot n').copy = (u.slot n').copy)
          ∧ u'.tracker = u.tracker ∧ u'.settings = u.settings
          ∧ (f.periodsCovered < u.settings.frameInterval →
              (∃ f', u'.frames.openFrame = some f' ∧ f'.sequence = f.sequence ∧ f'.tag = f.tag
                ∧ f'.periodsCovered = f.periodsCovered + 1 ∧ f'.storage = f.storage)
              ∧ u'.frames.nextSequence = u.frames.nextSequence ∧ u'.frames.assigned = u.frames.assigned
              ∧ u'.attention = u.attention
              ∧ ∀ n', u'.slot n' = u.slot n')
          ∧ (u.settings.frameInterval ≤ f.periodsCovered →
              (∃ f', u'.frames.openFrame = some f' ∧ f'.sequence = u.frames.nextSequence
                ∧ f'.tag = (u.slot n).nextTag.getD (u.slot n).tag ∧ f'.countAtOpen = u.channel.periodCount + 1
                ∧ f'.periodsCovered = 1)
              ∧ u'.frames.nextSequence = u.frames.nextSequence + 1
              ∧ (u'.slot n).tag = (u.slot n).nextTag.getD (u.slot n).tag ∧ (u'.slot n).nextTag = none
              ∧ u.closeRecorded u' f s0.timebase
              ∧ ∀ h, f.storage = some h → (u'.frames.half h).closeFlag = .none
                  ∧ ((u'.frames.half h).state = .closed ∨ (u'.frames.half h).state = .closing)))
      ∧ ((∀ j, ¬s0.dueBefore m (after b u.settings.carrierPeriod) j) →
          (∀ m', m' ≠ m → s'.motor m' = s.motor m')
            ∧ s0.placementNoted s' m (after b u.settings.carrierPeriod)
            ∧ s' = { s0 with
                m0 := s'.m0, m1 := s'.m1, m2 := s'.m2, calendar := s'.calendar, log := s'.log, placed := s'.placed }))
    ∧ ∀ (s s1 : State) (m j : Motor) (t b : Instant), s.inReset = false →
      let s0 := s.atInstant t
      let u := s.motor m
      let next := after b u.settings.carrierPeriod
      (u.channel.state = .running ∨ u.channel.state = .stopping) → u.channel.periodStart = some b →
      reached next s0.timebase = true → s0.firstBefore m next j →
      exec (.periodBoundary j t) s = .next s1 → ¬s1.dueBefore m next j →
      exec (.periodBoundary m t) s = exec (.periodBoundary m t) s1

/-- A due boundary of a RUNNING channel at which the PENDING slot activates, of kind NEXT or, after the last step, of
kind AT_END (R10, R44): it is ACTIVE and the other INACTIVE without a next tag, step 0 is selected, the open frame
closes with SWITCHED, with storage adding its frame-done record (R193), and a new one opens with the new slot's tag.

The tracker follows the two plans (R65): at a HALL plan after a PLAN plan the drive sector becomes the current sector
and the timeout is armed from the boundary (R61); at a HALL plan after a HALL plan the drive sector, the scheduled
commutation and the timeout stand; at a PLAN plan after a HALL plan the scheduled commutation is cancelled and
PREDICTING becomes TRACKING with prediction count 0, the sector, the durations and the timeout standing; at a PLAN
plan after a PLAN plan all stands. With no boundary of another motor that comes before (R76, log 27), that motor, the
calendar, the log and the model's record of who has placed for this instant (log 27) alone change. -/
def Obligations.BoundaryActivatesThePendingSlot : Prop :=
  ∀ (s : State) (m : Motor) (t b : Instant) (n : SlotName) (f : OpenFrame), s.inReset = false →
    let s0 := s.atInstant t
    let u := s.motor m
    u.channel.state = .running → u.channel.periodStart = some b →
    reached (after b u.settings.carrierPeriod) s0.timebase = true →
    (u.slot n.other).state = .active → (u.slot n).state = .pending → (u.slot n).nextTag = none →
    ((u.slot n).kind = .next ∨ u.channel.stepIndex + 1 = planSteps (u.slot n.other).copy) →
    u.frames.openFrame = some f →
    ∃ s', exec (.periodBoundary m t) s = .next s'
      ∧ (let u' := s'.motor m
         u'.channel.state = .running ∧ u'.channel.periodStart = some (after b u.settings.carrierPeriod)
          ∧ u'.channel.periodCount = u.channel.periodCount + 1 ∧ u'.channel.stepIndex = 0
          ∧ u'.slot n = { u.slot n with state := .active }
          ∧ u'.slot n.other = { u.slot n.other with state := .inactive, nextTag := none }
          ∧ u'.settings = u.settings
          ∧ (planIsHall (u.slot n).copy = true → planIsHall (u.slot n.other).copy = false →
              u'.channel.driveSector = u.tracker.sector
                ∧ (∀ d, u.tracker.measured = 2 → u.tracker.duration = some d →
                    u'.tracker = { u.tracker with timeout := some (after (after b u.settings.carrierPeriod) (2 * d)) })
                ∧ (u.tracker.measured ≠ 2 → u'.tracker =
                    { u.tracker with
                      timeout := some (after (after b u.settings.carrierPeriod) (1024 * u.settings.startTimeout)) }))
          ∧ (planIsHall (u.slot n).copy = true → planIsHall (u.slot n.other).copy = true →
              u'.tracker = u.tracker ∧ u'.channel.driveSector = u.channel.driveSector)
          ∧ (planIsHall (u.slot n).copy = false → planIsHall (u.slot n.other).copy = true →
              u'.tracker = u.tracker.outOfHall ∧ u'.channel.driveSector = u.channel.driveSector)
          ∧ (planIsHall (u.slot n).copy = false → planIsHall (u.slot n.other).copy = false →
              u'.tracker = u.tracker ∧ u'.channel.driveSector = u.channel.driveSector)
          ∧ (∃ f', u'.frames.openFrame = some f' ∧ f'.sequence = u.frames.nextSequence ∧ f'.tag = (u.slot n).tag
              ∧ f'.countAtOpen = u.channel.periodCount + 1 ∧ f'.periodsCovered = 1)
          ∧ u.closeRecorded u' f s0.timebase
          ∧ ∀ h, f.storage = some h → (u'.frames.half h).closeFlag = .switched
              ∧ ((u'.frames.half h).state = .closed ∨ (u'.frames.half h).state = .closing))
      ∧ ((∀ j, ¬s0.dueBefore m (after b u.settings.carrierPeriod) j) →
          (∀ m', m' ≠ m → s'.motor m' = s.motor m')
            ∧ s0.placementNoted s' m (after b u.settings.carrierPeriod)
            ∧ s' = { s0 with
                m0 := s'.m0, m1 := s'.m1, m2 := s'.m2, calendar := s'.calendar, log := s'.log, placed := s'.placed })

/-- A stopping boundary, of a STOPPING channel or of a RUNNING one whose plan ends with END_STOP and nothing activates
(R5, R6, R45): the run ends as R5 says, a frame with storage adding its frame-done record (R193), each side that was
on taking that instant as its last turn-off (R14), the tracker leaving HALL mode as for a PLAN plan (R65); a frame
without storage makes the channel STOPPED there, with the tracker at its reset values (R6, R67). With no boundary of
another motor that comes before (R76, log 27) nothing is placed, nothing is logged, and nothing but the motor changes.

PERIOD_BOUNDARY before its instant, or while the carrier does not run, changes nothing; STOPPING_COMPLETE makes a
STOPPING channel past its stopping boundary STOPPED once no half waits with its stopping frame, its trip cause NONE
and its tracker at reset values, and before that changes nothing (R6, R8, R67).

That these two have no effect where nothing is due is the model's reading (log 2), and so is that FLUSH_COMPLETION
already makes the channel STOPPED where the stopping frame was the last, so that STOPPING_COMPLETE acts only where it
has not (log 6). -/
def Obligations.StoppingBoundaryEndsTheRun : Prop :=
  (∀ (s : State) (m : Motor) (t b : Instant), s.inReset = false → s.gatesSafe →
     let s0 := s.atInstant t
     let u := s.motor m
     u.channel.periodStart = some b → reached (after b u.settings.carrierPeriod) s0.timebase = true →
     (u.channel.state = .stopping
       ∨ u.channel.state = .running ∧ ∃ n, (u.slot n).state = .active ∧ (u.slot n.other).state ≠ .active
           ∧ (u.slot n.other).state ≠ .pending ∧ u.channel.stepIndex + 1 = planSteps (u.slot n).copy
           ∧ planEndByte (u.slot n).copy = 2) →
     ∃ s', exec (.periodBoundary m t) s = .next s' ∧ u.runEnded (s'.motor m) s0.timebase
       ∧ ((∀ j, ¬s0.dueBefore m (after b u.settings.carrierPeriod) j) → s' = s0.setMotor m (s'.motor m)))
    ∧ (∀ (s : State) (m : Motor) (t : Instant), s.inReset = false →
         let s0 := s.atInstant t
         let u := s.motor m
         let waits (h : Half) : Prop := h.state ≠ .free ∧ h.closeFlag = .stopped
         let done : Prop :=
           u.channel.state = .stopping ∧ u.channel.periodStart = none ∧ ¬waits u.frames.half0 ∧ ¬waits u.frames.half1
         (done → ∃ e, exec (.stoppingComplete m t) s =
             .next (s0.setMotor m { u with
               channel := { u.channel with state := .stopped, tripCause := .none, tripInfo := 0, driveSector := none }
               tracker :=
                 { state := .waitFirst, sector := none, lastEdge := e, reference := .entry, duration := none, measured := 0,
                   predictions := 0, examination := none, scheduled := none, timeout := none } }))
           ∧ (¬done → exec (.stoppingComplete m t) s = .next s0)
           ∧ (u.channel.periodStart = none → exec (.periodBoundary m t) s = .next s0)
           ∧ (∀ b, u.channel.periodStart = some b → reached (after b u.settings.carrierPeriod) s0.timebase = false →
               exec (.periodBoundary m t) s = .next s0))

/-! ### Trips (R17 to R21, R87, R104, R105, R107, R124) -/

/-- An activation of the driver-fault input of a RUNNING or STOPPING motor is logged and starts trip entry (R19, R87,
R105, R107, R124, R193): TRIPPED with its cause and info, outputs in the safe state, each side that turns off taking
that instant (R14, R20), carrier stopped, commutation cancelled and PREDICTING become TRACKING with prediction count 0
(R65), slots released, the open and any CLOSING frame CLOSED with every position resolved and the open one's
frame-done record added, the motor's PLACED and WAITING reservations removed and its CONVERTING one left in the list
with its tag, its start and its input, marked orphaned, TRIPPED latched. Other motors, and their reservations, stand,
and so does the converter with its result timer.

An activation on a STOPPED or TRIPPED motor is logged only, the level apart; one of an input already active changes
nothing; a release only updates the level, and makes no entry (R104, R105).

That an activation of an input already active is no change, and makes no entry, is the model's reading (log 2). -/
def Obligations.DriverFaultTripsARunningMotor : Prop :=
  (∀ (s : State) (m : Motor) (t : Instant), s.inReset = false →
     let s0 := s.atInstant t
     let u := s.motor m
     let info := BitVec.ofNat 16 u.channel.state.number
     (u.channel.state = .running ∨ u.channel.state = .stopping) → u.channel.faultActive = false →
     ∃ s', exec (.driverFaultActivation m t) s = .next s'
       ∧ u.tripEntered (s'.motor m) .driverFault info s0.timebase
       ∧ (s'.motor m).channel.faultActive = true ∧ (s'.motor m).tracker = u.tracker.outOfHall
       ∧ (s'.motor m).channel.driveSector = u.channel.driveSector
       ∧ (∀ m', m' ≠ m → s'.motor m' = s.motor m')
       ∧ s'.calendar = { s.calendar with reservations := tripsLeave (fun k => decide (k = m)) s.calendar.reservations }
       ∧ s'.log = s.log.add ⟨.driverFault, .motor m, info, u.channel.periodCount⟩
       ∧ s' = { s0 with m0 := s'.m0, m1 := s'.m1, m2 := s'.m2, calendar := s'.calendar, log := s'.log })
    ∧ (∀ (s : State) (m : Motor) (t : Instant), s.inReset = false →
         let s0 := s.atInstant t
         let u := s.motor m
         let level (active : Bool) : State := s0.setMotor m { u with channel := { u.channel with faultActive := active } }
         ((u.channel.state = .stopped ∨ u.channel.state = .tripped) → u.channel.faultActive = false →
             exec (.driverFaultActivation m t) s =
               .next { level true with
                 log := s.log.add
                   ⟨.driverFault, .motor m, BitVec.ofNat 16 u.channel.state.number, u.channel.periodCount⟩ })
           ∧ (u.channel.faultActive = true → exec (.driverFaultActivation m t) s = .next s0)
           ∧ exec (.driverFaultRelease m t) s = .next (level false))

/-! ### The Hall Tracker (chapter 03) -/

/-- The tracker of a motor after it accepts an edge to `c` (R57, R61): a duration is recorded, and counted, only where
the last edge instant came from an accepted edge; the sector is `c`, the count of predictions 0; the timeout is twice
the last duration once two have been measured, and the start timeout before that; in HALL mode a commutation still
scheduled executes at once, as COMMUTATION does at its instant, and one to `c` is scheduled (R57 item 4, R60).

A change of the Hall inputs (R51, R55 to R59, R64): a STOPPED motor only shows it; a tracker in TRACKING or PREDICTING
examines it at once where the minimum sector has passed since the last edge, accepting a valid code that is not its
sector, with HALL_REVERSE or HALL_SKIP where a valid map says so, and taking an invalid one to WAIT_FIRST, in HALL
mode with HALL_INVALID and a trip; otherwise it schedules an examination; WAIT_FIRST is left at a valid code. That a
code that stands is no change is the model's reading (log 2), and so are that a change while an examination is
scheduled waits for it, and that at the instant of an examination or an expiry the minimum sector is counted from the
edge before it (log 23). That a change at the instant of an examination that an expiry of an earlier instant has left
standing waits, by R55 and against the second row of R64, is the model's choice (log 40). That an edge accepted at the
last edge instant records a duration of 0, and a timeout of span 0, is the model's choice (log 32). -/
def Obligations.HallEdgesReachTheTracker : Prop :=
  (∀ (now : Instant) (c : HallCode) (u : MotorUnit),
     let k := u.tracker
     let k' := (MotorUnit.acceptEdge now c u).tracker
     let duration := if k.reference = .edge then some (min 65535 (now - k.lastEdge).toNat) else k.duration
     let measured := if k.reference = .edge then min 2 (k.measured + 1) else k.measured
     k'.state = .tracking ∧ k'.sector = some c ∧ k'.lastEdge = now ∧ k'.reference = .edge ∧ k'.duration = duration
       ∧ k'.measured = measured ∧ k'.predictions = 0 ∧ k'.examination = k.examination ∧ k'.overtaken = none
       ∧ (∀ d, measured = 2 → duration = some d → k'.timeout = some (after now (2 * d)))
       ∧ (measured ≠ 2 → k'.timeout = some (after now (1024 * u.settings.startTimeout)))
       ∧ (u.hallMode = true → k'.scheduled = some { due := after now u.settings.commutationDelay, target := c }
           ∧ (k.scheduled = none → MotorUnit.acceptEdge now c u = { u with tracker := k' })
           ∧ ∀ x, k.scheduled = some x → ∃ ch, MotorUnit.acceptEdge now c u = { u with channel := ch, tracker := k' }
               ∧ u.commutated { u with channel := ch } x.target now)
       ∧ (u.hallMode = false → MotorUnit.acceptEdge now c u = { u with tracker := k' } ∧ k'.scheduled = k.scheduled))
    ∧ (∀ (s : State) (m : Motor) (c : HallCode) (t : Instant), s.inReset = false →
         let s0 := s.atInstant t
         let now := s0.timebase
         let u := s.motor m
         let shown : MotorUnit := { u with hallCode := c }
         let tracks : Prop := u.channel.state ≠ .stopped ∧ (u.tracker.state = .tracking ∨ u.tracker.state = .predicting)
         let edge := if u.tracker.lastEdge = now then u.tracker.overtaken.getD now else u.tracker.lastEdge
         let settled : Prop := u.settings.minimumSector ≤ (now - edge).toNat
         let info := BitVec.ofNat 16 (sectorNumber u.tracker.sector * 256 + c.toNat)
         let entered (k : Tracker) : Tracker :=
           { k with
             state := .tracking, sector := some c, lastEdge := now, reference := .entry, predictions := 0, overtaken := none
             timeout := some (after now
               (match decide (k.measured = 2), k.duration with
                 | true, some d => 2 * d
                 | _, _ => 1024 * u.settings.startTimeout)) }
         let accepted (log : FaultLog) : State := { s0.setMotor m (MotorUnit.acceptEdge now c shown) with log := log }
         (u.hallCode = c → exec (.hallCodeChange m c t) s = .next s0)
           ∧ (u.hallCode ≠ c → u.channel.state = .stopped → exec (.hallCodeChange m c t) s = .next (s0.setMotor m shown))
           ∧ (u.hallCode ≠ c → tracks → u.tracker.examination ≠ none →
               exec (.hallCodeChange m c t) s = .next (s0.setMotor m shown))
           ∧ (u.hallCode ≠ c → tracks → u.tracker.examination = none → ¬settled →
               exec (.hallCodeChange m c t) s =
                 .next (s0.setMotor m { shown with tracker :=
                   { u.tracker with examination := some (after u.tracker.lastEdge u.settings.minimumSector) } }))
           ∧ (u.hallCode ≠ c → tracks → u.tracker.examination = none → settled → u.tracker.sector = some c →
               exec (.hallCodeChange m c t) s = .next (s0.setMotor m shown))
           ∧ (∀ k, u.hallCode ≠ c → tracks → u.tracker.examination = none → settled → c ≠ 0 → c ≠ 7 →
               u.tracker.sector = some k → k ≠ c →
               exec (.hallCodeChange m c t) s =
                 .next (accepted
                   (if u.settings.mapValid = true ∧ u.settings.successor k ≠ c then
                     s.log.add ⟨if u.settings.successor c = k then .hallReverse else .hallSkip, .motor m,
                       BitVec.ofNat 16 (k.toNat * 256 + c.toNat), u.channel.periodCount⟩
                   else s.log)))
           ∧ (u.hallCode ≠ c → tracks → u.tracker.examination = none → settled → c = 0 ∨ c = 7 → u.tracker.sector ≠ some c →
               u.hallMode = false →
               exec (.hallCodeChange m c t) s =
                 .next (s0.setMotor m { shown with tracker := u.tracker.lost now u.settings }))
           ∧ (u.hallCode ≠ c → tracks → u.tracker.examination = none → settled → c = 0 ∨ c = 7 → u.tracker.sector ≠ some c →
               u.hallMode = true → (u.channel.state = .running ∨ u.channel.state = .stopping) →
               ∃ s', exec (.hallCodeChange m c t) s = .next s' ∧ s0.hallTripped s' m .hallInvalid info
                 ∧ (s'.motor m).hallCode = c ∧ (s'.motor m).tracker.state = .waitFirst
                 ∧ (s'.motor m).tracker.sector = none)
           ∧ (u.hallCode ≠ c → u.channel.state ≠ .stopped → u.tracker.state = .waitFirst → c ≠ 0 → c ≠ 7 →
               exec (.hallCodeChange m c t) s =
                 .next (s0.setMotor m { shown with tracker :=
                   { entered u.tracker with
                     scheduled :=
                       if u.hallMode then some { due := after now u.settings.commutationDelay, target := c }
                       else u.tracker.scheduled } }))
           ∧ (u.hallCode ≠ c → u.channel.state ≠ .stopped → u.tracker.state = .waitFirst → c = 0 ∨ c = 7 →
               exec (.hallCodeChange m c t) s = .next (s0.setMotor m shown)))

/-- HALL_EXAMINATION at its instant, in every case (R56 to R58, R107): the examination ends; the code now at the
inputs has no effect where it is the sector; where it is valid and not the sector it is accepted as an edge, with
HALL_REVERSE or HALL_SKIP where a valid map says so, and without an entry under a map that is not valid; where it is 0
or 7 it takes the tracker to WAIT_FIRST, in HALL mode with a HALL_INVALID entry that names the sector and the code,
and with a trip of a motor that runs, with that cause and info.

That it has no effect before its instant, or where none is scheduled, is the model's reading (log 2), and so is that
the last edge instant it found is kept for the code changes of its instant (log 23); that it keeps the one an expiry
of the same instant has set is the model's choice (log 36). -/
def Obligations.HallExaminationJudgesTheCodePresent : Prop :=
  ∀ (s : State) (m : Motor) (t : Instant), s.inReset = false →
    let s0 := s.atInstant t
    let now := s0.timebase
    let u := s.motor m
    let k := u.tracker
    let c := u.hallCode
    let due : Prop := ∃ d, k.examination = some d ∧ reached d now = true
    let invalid : Prop := c = 0 ∨ c = 7
    let runs : Prop := u.channel.state = .running ∨ u.channel.state = .stopping
    let ended : MotorUnit := { u with tracker := { k with examination := none } }
    let info := BitVec.ofNat 16 (sectorNumber k.sector * 256 + c.toNat)
    let judged (v : MotorUnit) : MotorUnit := { v with tracker := { v.tracker with overtaken := some k.lastEdge } }
    let lost : MotorUnit := judged { u with tracker := { k with examination := none }.lost now u.settings }
    let accepted : State := s0.setMotor m (judged (MotorUnit.acceptEdge now c ended))
    (due → k.sector = some c → exec (.hallExamination m t) s = .next (s0.setMotor m (judged ended)))
      ∧ (due → k.sector = none → ¬invalid → exec (.hallExamination m t) s = .next accepted)
      ∧ (∀ sector, due → k.sector = some sector → sector ≠ c → ¬invalid →
          exec (.hallExamination m t) s =
            .next { accepted with
              log :=
                if u.settings.mapValid = true ∧ u.settings.successor sector ≠ c then
                  s.log.add ⟨if u.settings.successor c = sector then .hallReverse else .hallSkip, .motor m,
                    BitVec.ofNat 16 (sector.toNat * 256 + c.toNat), u.channel.periodCount⟩
                else s.log })
      ∧ (due → k.sector ≠ some c → invalid → u.hallMode = false →
          exec (.hallExamination m t) s = .next (s0.setMotor m lost))
      ∧ (due → k.sector ≠ some c → invalid → u.hallMode = true → ¬runs →
          exec (.hallExamination m t) s =
            .next { s0.setMotor m lost with log := s.log.add ⟨.hallInvalid, .motor m, info, u.channel.periodCount⟩ })
      ∧ (due → k.sector ≠ some c → invalid → u.hallMode = true → runs →
          ∃ s', exec (.hallExamination m t) s = .next s' ∧ s0.hallTripped s' m .hallInvalid info
            ∧ (s'.motor m).hallCode = c ∧ (s'.motor m).tracker.state = .waitFirst
            ∧ (s'.motor m).tracker.sector = none ∧ (s'.motor m).tracker.examination = none)
      ∧ (¬due → exec (.hallExamination m t) s = .next s0)

/-- COMMUTATION at its instant (R60): the scheduled commutation is none and the drive sector its target. Where that is
another drive sector, with a HALL plan active and a period running, every leg takes at once the role of the target's
map entry, FLOAT where it has none: the command that the role gives at the present offset of the period, under dead
time, and the edges that remain of the period, a CHOP leg those of the chop edges (R12 to R14). Otherwise, and to
everything else, nothing changes.

That COMMUTATION before its instant has no effect is the model's reading (log 2). -/
def Obligations.CommutationMovesTheDriveSector : Prop :=
  ∀ (s : State) (m : Motor) (t : Instant), s.inReset = false →
    let s0 := s.atInstant t
    let now := s0.timebase
    let u := s.motor m
    (∀ k, u.tracker.scheduled = some k → reached k.due now = true →
        ∃ ch, exec (.commutation m t) s =
            .next (s0.setMotor m { u with channel := ch, tracker := { u.tracker with scheduled := none } })
          ∧ u.commutated { u with channel := ch } k.target now)
      ∧ ((u.tracker.scheduled = none ∨ ∃ k, u.tracker.scheduled = some k ∧ reached k.due now = false) →
          exec (.commutation m t) s = .next s0)

/-- SECTOR_TIMEOUT at its instant (R61 to R63): in PLAN mode the measurements are dropped, the last edge instant is
the expiry with the reference ENTRY, and the timeout is armed with the start timeout. In HALL mode, with two sectors
measured and predictions left, a commutation that is still scheduled executes first, as COMMUTATION does at its
instant (R60); then the tracker, PREDICTING, moves to the forward successor and schedules its commutation. Otherwise
HALL_STALL is logged and trips the running motor; the tracker has left HALL mode, PREDICTING become TRACKING with
prediction count 0 (R65), with its measurements dropped as in PLAN mode.

That it has no effect before its instant is the model's reading (log 2), and so is that the last edge instant it
replaces is kept for the code changes of its instant (R64, log 23). -/
def Obligations.SectorTimeoutPredictsOrStalls : Prop :=
  ∀ (s : State) (m : Motor) (t : Instant), s.inReset = false →
    let s0 := s.atInstant t
    let now := s0.timebase
    let u := s.motor m
    let k := u.tracker
    let due : Prop := ∃ d, k.timeout = some d ∧ reached d now = true
    let info := BitVec.ofNat 16 (k.state.number * 256 + sectorNumber k.sector)
    (due → u.hallMode = false →
        exec (.sectorTimeout m t) s = .next (s0.setMotor m { u with tracker :=
          { k with measured := 0, duration := none, lastEdge := now, reference := .entry, overtaken := some k.lastEdge,
                   timeout := some (after now (1024 * u.settings.startTimeout)) } }))
      ∧ (∀ c d, due → u.hallMode = true → k.measured = 2 → k.predictions < u.settings.predictionLimit → k.sector = some c →
          k.duration = some d →
          ∃ ch, exec (.sectorTimeout m t) s = .next (s0.setMotor m { u with channel := ch, tracker :=
              { k with state := .predicting, sector := some (u.settings.successor c), lastEdge := now,
                       reference := .prediction, predictions := k.predictions + 1, overtaken := some k.lastEdge,
                       scheduled := some { due := after now u.settings.commutationDelay, target := u.settings.successor c },
                       timeout := some (after now (2 * d)) } })
            ∧ (k.scheduled = none → ch = u.channel)
            ∧ ∀ x, k.scheduled = some x → u.commutated { u with channel := ch } x.target now)
      ∧ (due → u.hallMode = true → (k.measured ≠ 2 ∨ u.settings.predictionLimit ≤ k.predictions) →
          (u.channel.state = .running ∨ u.channel.state = .stopping) →
          ∃ s', exec (.sectorTimeout m t) s = .next s' ∧ s0.hallTripped s' m .hallStall info
            ∧ (s'.motor m).tracker =
              { k.outOfHall with
                measured := 0, duration := none, lastEdge := now, reference := .entry, overtaken := some k.lastEdge
                timeout := some (after now (1024 * u.settings.startTimeout)) })
      ∧ (¬due → exec (.sectorTimeout m t) s = .next s0)

/-! ### Placement and conversions (R68 to R79) -/

/-- The start that placement chooses, in offsets from the boundary (R71): it lies in the window, its interval overlaps none of the
calendar's, no other free start of the window is nearer to the target, and of two equally near the later is chosen; none is found
exactly where no start of the window is free. -/
def Obligations.PlacementTakesTheNearestFreeStart : Prop :=
  ∀ (width : Nat) (busy : List Int) (low high target : Int), low ≤ high →
    let free (p : Int) : Prop := ∀ o ∈ busy, p + width ≤ o ∨ o + width ≤ p
    (∀ p, findStart width busy low high target = some p →
        low ≤ p ∧ p ≤ high ∧ free p
          ∧ ∀ q, low ≤ q → q ≤ high → free q → (p - target).natAbs < (q - target).natAbs
              ∨ (p - target).natAbs = (q - target).natAbs ∧ q ≤ p)
      ∧ (findStart width busy low high target = none → ∀ q, low ≤ q → q ≤ high → ¬free q)

/-- One request put to the calendar (R70, R72 to R75): with 10 reservations, or after a request of its step met so many, it is missed and
CALENDAR_FULL logged once for the frame; otherwise a start found makes a PLACED reservation, with the high-water mark following the
occupancy, and its position's record takes the slid flag, set exactly where the start is not the target (R72, R81, R122); and a
start not found leaves it unplaced, with SAMPLE_UNPLACED logged once for the frame. A missed request counts, up to
65535, and its position resolves MISSED.

The requests of a step are taken one after another, each on what the one before left (R70): each is given the next position of
the open frame, with its record, and put to the calendar with it; in a frame without storage it is put there without a
position; over the frame's capacity it makes no reservation and is put nowhere: the frame is FULL, and FRAME_FULL is logged
once for it (R121; that it does not count as unplaced is the model's reading, log 21).

START, and a period boundary after which the channel runs, place the requests of the step they select so, at that boundary, on
the calendar as it stood, where no boundary of another motor comes before (R3, R10 claim 5, R70; R76 and log 27 for those
that do). -/
def Obligations.PlacementReservesOrMisses : Prop :=
  (∀ (s : State) (p : PlacementContext) (r : SampleRequest) (full : Bool),
    let u := s.motor p.motor
    let found := findStart s.device.tConv (s.busyOffsets p.boundary) r.earliest r.latest r.target
    let missedState (mark : CalendarMarks) (log : FaultLog) : State :=
      { s.setMotor p.motor { u with
          frames := u.frames.storeEntry p.sequence p.position { status := .missed, value := 0 }, marks := mark } with log := log }
    let counted : Short := if u.marks.unplaced = 65535 then 65535 else u.marks.unplaced + 1
    let entry (code : LogCode) : FaultLog :=
      s.log.add ⟨code, .motor p.motor, BitVec.ofNat 16 (p.step * 256 + p.index), u.channel.periodCount⟩
    (full = true ∨ 10 ≤ s.calendar.reservations.length →
        s.placeAt p r full =
          (missedState { u.marks with unplaced := counted, fullLogged := true }
            (if u.marks.fullLogged then s.log else entry .calendarFull), true))
      ∧ (full = false → s.calendar.reservations.length < 10 → found = none →
          s.placeAt p r full =
            (missedState { u.marks with unplaced := counted, unplacedLogged := true }
              (if u.marks.unplacedLogged then s.log else entry .sampleUnplaced), false))
      ∧ (∀ o : Nat, full = false → s.calendar.reservations.length < 10 → found = some (o : Int) →
          ∃ before after_ u', s.calendar.reservations = before ++ after_
            ∧ s.placeAt p r full =
              ({ s.setMotor p.motor u' with
                  calendar :=
                    { reservations := before ++
                        { motor := p.motor, input := r.input, start := after p.boundary o,
                          target := after p.boundary r.target, latest := after p.boundary r.latest,
                          slid := decide (o ≠ r.target), position := p.position, sequence := p.sequence,
                          stepIndex := p.step, period := p.period, purpose := r.purpose, state := .placed, tag := none,
                          orphaned := false } :: after_
                      highWater := max s.calendar.highWater (s.calendar.reservations.length + 1) } }, false)
            ∧ (∀ q ∈ before, instantBefore (after p.boundary o) q.start = false)
            ∧ (∀ q rest, after_ = q :: rest → instantBefore (after p.boundary o) q.start = true)
            ∧ (p.position = none ∨ u.frames.halfOf p.sequence = none → u' = u)
            ∧ ∀ k n, p.position = some k → u.frames.halfOf p.sequence = some n →
                u' = { u with frames := u.frames.setHalf n { u.frames.half n with
                  positions := (u.frames.half n).positions.modify k fun record =>
                    { record with slid := decide (o ≠ r.target) } } }))
    ∧ (∀ (m : Motor) (b : Instant) (step index : Nat) (r : SampleRequest) (rest : List SampleRequest) (s : State) (full : Bool),
         let u := s.motor m
         let p (position : Option Nat) : PlacementContext :=
           { motor := m, boundary := b, step := step, index := index, position := position, sequence := u.openSequence,
             period := u.periodWithinFrame }
         State.placeFrom m b step index [] (s, full) = (s, full)
           ∧ State.placeFrom m b step index (r :: rest) (s, full) =
               State.placeFrom m b step (index + 1) rest (State.placeOne m b step index r (s, full))
           ∧ (u.frames.openFrame.bind OpenFrame.storage = none →
               State.placeOne m b step index r (s, full) = s.placeAt (p none) r full)
           ∧ ∀ f n, u.frames.openFrame = some f → f.storage = some n →
               let given := (u.frames.half n).positions
               let capacity := min 28 ((u.settings.ringStride - 16) / 4)
               let record : PositionRecord :=
                 { input := r.input, purpose := r.purpose, stepIndex := step, period := f.periodsCovered - 1, slid := false,
                   resolution := none }
               let half := { u.frames.half n with positions := given ++ [record] }
               let frames := { u.frames with openFrame := some { f with full := true, fullLogged := true } }
               (given.length < capacity →
                   State.placeOne m b step index r (s, full) =
                     (s.setMotor m { u with frames := u.frames.setHalf n half }).placeAt (p (some given.length)) r full)
                 ∧ (capacity ≤ given.length →
                   State.placeOne m b step index r (s, full) =
                     ({ s.setMotor m { u with frames := frames } with
                        log :=
                          if f.fullLogged then s.log
                          else s.log.add ⟨.frameFull, .motor m, BitVec.ofNat 16 (step * 256 + index), u.channel.periodCount⟩ },
                      full)))
    ∧ (∀ (s : State) (m : Motor) (n : SlotName) (t now : Instant), s.inReset = false → s.startReady m →
         ((s.motor m).slot n).state = .pending → ((s.motor m).slot n.other).state ≠ .pending →
         ((s.motor m).slot n.other).state ≠ .active → s.validateSlot m n = none → s.startsAt m t now →
         let s0 := (s.atInstant t).moveTo now
         (∀ k, ¬s0.dueBefore m now k) →
         ∃ s', exec (.start m t) s = .next s' ∧ s0.placesStep s' m now)
    ∧ ∀ (s : State) (m : Motor) (t b : Instant) (n : SlotName), s.inReset = false →
      let s0 := s.atInstant t
      let u := s.motor m
      u.channel.state = .running → u.channel.periodStart = some b →
      reached (after b u.settings.carrierPeriod) s0.timebase = true →
      (∀ j, ¬s0.dueBefore m (after b u.settings.carrierPeriod) j) →
      ∃ s', exec (.periodBoundary m t) s = .next s'
        ∧ ((s'.motor m).channel.state = .running → ((s'.motor m).slot n).state = .active →
            ((s'.motor m).slot n.other).state ≠ .active → s0.placesStep s' m (after b u.settings.carrierPeriod))

/-- RESERVATION_START at the start instant of the first PLACED reservation (R77, R79, R201): at an idle, READY
converter it becomes CONVERTING, its request is sent with the request tag, the tag advances and the result timer is
armed for 2·T_conv; at a busy one it becomes WAITING, or, with its start instant the latest, leaves the list with its
entry MISSED (where the converter frees at that very instant with none WAITING, the model's choice between R77 and
R78, log 37). Before it, and with none PLACED, nothing changes.

WAITING_RESERVATION_START at an idle, READY converter starts the first WAITING reservation of the list as R77 does;
LATEST_INSTANT takes the first WAITING reservation whose latest instant has come off the list, its entry MISSED (R78).
Where there is none, or, for the start, where the converter is busy or LOST, nothing changes. No run meets a WAITING
reservation at an idle, READY converter: the event that frees it has started that one already (log 6).

That of several WAITING reservations whose latest instant has come LATEST_INSTANT takes the first of the list is the
model's choice (log 19); that these three have no effect where nothing is due is its reading (log 2). -/
def Obligations.ReservationsStartWaitOrMiss : Prop :=
  (∀ (s : State) (t : Instant) (before after_ : List Reservation) (r : Reservation), s.inReset = false →
     let s0 := s.atInstant t
     let now := s0.timebase
     let listed (l : List Reservation) : State := { s0 with calendar := { s.calendar with reservations := l } }
     s.calendar.reservations = before ++ r :: after_ → (∀ q ∈ before, q.state ≠ .placed) → r.state = .placed →
     (reached r.start now = true → s.converter.state = .ready → (∀ q ∈ before ++ after_, q.state ≠ .converting) →
         exec (.reservationStart t) s =
           .next { listed (before ++ { r with state := .converting, tag := some s.converter.requestTag } :: after_) with
             converter := { s.converter with
               requestTag := s.converter.requestTag + 1
               resultTimer := some (after now (2 * s.device.tConv))
               requestSent := some (BitVec.ofNat 8 (r.input.toNat * 16 + s.converter.requestTag.toNat * 2)) } })
       ∧ (reached r.start now = true → (∃ q ∈ before ++ after_, q.state = .converting) → r.start ≠ r.latest →
           exec (.reservationStart t) s = .next (listed (before ++ { r with state := .waiting } :: after_)))
       ∧ (reached r.start now = true → (∃ q ∈ before ++ after_, q.state = .converting) → r.start = r.latest →
           exec (.reservationStart t) s =
             .next ((listed (before ++ after_)).setMotor r.motor
               { s.motor r.motor with frames :=
                 (s.motor r.motor).frames.storeEntry r.sequence r.position { status := .missed, value := 0 } }))
       ∧ (reached r.start now = false → exec (.reservationStart t) s = .next s0))
    ∧ (∀ (s : State) (t : Instant), s.inReset = false →
         ((∀ q ∈ s.calendar.reservations, q.state ≠ .placed) → exec (.reservationStart t) s = .next (s.atInstant t))
           ∧ ((∀ q ∈ s.calendar.reservations, q.state ≠ .waiting) →
               exec (.waitingReservationStart t) s = .next (s.atInstant t))
           ∧ (s.converter.state = .lost ∨ (∃ q ∈ s.calendar.reservations, q.state = .converting) →
               exec (.waitingReservationStart t) s = .next (s.atInstant t))
           ∧ ((∀ q ∈ s.calendar.reservations, q.state = .waiting → reached q.latest (s.atInstant t).timebase = false) →
               exec (.latestInstant t) s = .next (s.atInstant t)))
    ∧ (∀ (s : State) (t : Instant) (before after_ : List Reservation) (r : Reservation), s.inReset = false →
         let s0 := s.atInstant t
         let now := s0.timebase
         let listed (l : List Reservation) : State := { s0 with calendar := { s.calendar with reservations := l } }
         s.calendar.reservations = before ++ r :: after_ →
         ((∀ q ∈ before, q.state ≠ .waiting) → r.state = .waiting → s.converter.state = .ready →
             (∀ q ∈ before ++ after_, q.state ≠ .converting) →
             exec (.waitingReservationStart t) s =
               .next { listed (before ++ { r with state := .converting, tag := some s.converter.requestTag } :: after_) with
                 converter := { s.converter with
                   requestTag := s.converter.requestTag + 1
                   resultTimer := some (after now (2 * s.device.tConv))
                   requestSent := some (BitVec.ofNat 8 (r.input.toNat * 16 + s.converter.requestTag.toNat * 2)) } })
           ∧ ((∀ q ∈ before, q.state = .waiting → reached q.latest now = false) → r.state = .waiting →
               reached r.latest now = true →
               exec (.latestInstant t) s =
                 .next ((listed (before ++ after_)).setMotor r.motor
                   { s.motor r.motor with frames :=
                     (s.motor r.motor).frames.storeEntry r.sequence r.position { status := .missed, value := 0 } })))

/-! ### Results, failures and limits (R80 to R86, R98 to R100) -/

/-- The check of a value against an input's record (R98, R99): OK with the count 0 where the input is UNUSED or its
trip count is 0, and where the value lies within the limits, both included; LIMIT with the count one higher outside
them; and where that reaches the trip count, a limit trip, with the count set to 0.

A result that reaches an input's trip count raises one LIMIT_TRIP entry, for the owner or, for a SHARED input, for
DEVICE, with the input and the value as info. It is taken as any accepted result (R81): its entry, of status LIMIT
with the value, goes to its position, the reservation leaves the list, the timer is disarmed, the failure count is 0,
and the first WAITING reservation starts as R77 does (R78, R79; that it starts within the result's own event, before
the trip, is the model's reading, log 6). It then trips every motor it reaches that is RUNNING or STOPPING, with that
cause and info, and no other (R19, R98 to R100, R107); the others' blocks are as the entry leaves them. -/
def Obligations.LimitsCountValuesAndTripMotors : Prop :=
  (∀ (v : BitVec 12) (r : InputRecord),
     let unchecked : Prop := r.owner = .unused ∨ r.tripCount = 0
     let outside : Prop := v.toNat < r.lowLimit.toNat ∨ r.highLimit.toNat < v.toNat
     (unchecked ∨ ¬outside → r.check v = ⟨{ r with consecutive := 0 }, .ok, false⟩)
       ∧ (¬unchecked → outside → r.consecutive + 1 ≠ r.tripCount →
           r.check v = ⟨{ r with consecutive := r.consecutive + 1 }, .limit, false⟩)
       ∧ (¬unchecked → outside → r.consecutive + 1 = r.tripCount →
           r.check v = ⟨{ r with consecutive := 0 }, .limit, true⟩))
    ∧ (∀ (s : State) (tag : ConverterTag) (v : BitVec 12) (t : Instant) (before after_ : List Reservation) (r : Reservation),
         s.inReset = false →
         let s0 := s.atInstant t
         let record := s.inputRecord r.input
         let info := BitVec.ofNat 16 (r.input.toNat * 4096 + v.toNat)
         let reached (m : Motor) : Bool :=
           (decide (record.owner = .motor m) || decide (record.owner = .shared))
             && (decide ((s.motor m).channel.state = .running) || decide ((s.motor m).channel.state = .stopping))
         let stored (m : Motor) : MotorUnit :=
           let u := s.motor m
           if m = r.motor then { u with frames := u.frames.storeEntry r.sequence r.position { status := .limit, value := v } }
           else u
         s.calendar.reservations = before ++ r :: after_ → r.state = .converting →
         (∀ q ∈ before ++ after_, q.state ≠ .converting) → s.converter.state = .ready → r.tag = some tag → r.orphaned = false →
         record.owner ≠ .unused → 0 < record.tripCount → record.consecutive + 1 = record.tripCount →
         (v.toNat < record.lowLimit.toNat ∨ record.highLimit.toNat < v.toNat) →
         ∃ s', exec (.resultRecord r.input tag v t) s = .next s'
           ∧ s'.inputRecord r.input = { record with consecutive := 0 }
           ∧ (∀ m, record.owner = .motor m →
               s'.log = s.log.add ⟨.limitTrip, .motor m, info, (s.motor m).channel.periodCount⟩)
           ∧ (record.owner = .shared → s'.log = s.log.add ⟨.limitTrip, .device, info, s0.timebase⟩)
           ∧ (∀ m, reached m = true → (stored m).tripEntered (s'.motor m) .limitTrip info s0.timebase)
           ∧ (∀ m, reached m = false → s'.motor m = stored m)
           ∧ ((∀ q ∈ before ++ after_, q.state = .placed) →
               s'.calendar.reservations = tripsLeave reached (before ++ after_)
                 ∧ s'.converter = { s.converter with failures := 0, resultTimer := none })
           ∧ (∀ first rest w, before ++ after_ = first ++ w :: rest → (∀ q ∈ first, q.state = .placed) → w.state = .waiting →
               s'.calendar.reservations = tripsLeave reached (s0.freedAndStarted first w rest 0).calendar.reservations
                 ∧ s'.converter = (s0.freedAndStarted first w rest 0).converter))

/-- A result record met by the CONVERTING reservation, with none WAITING (R80 to R82, R84): its tag and input matching, it clears the failure count,
frees the converter, and, unless the reservation is orphaned, is limit-checked and stored as an entry; the tag alone matching, it
is a CONVERTER_MISMATCH, which counts a failure and resolves the entry FAILED; the tag differing, or the converter LOST, it is
discarded and changes nothing.

With no reservation CONVERTING a result record is discarded and changes nothing (R80, R84). With others WAITING, an accepted result,
and a mismatch below the third failure, does the same and starts the first of them at that instant: its request is sent, with
the timer armed afresh (R78, R81, R82). That RESULT_RECORD itself starts it, and not the row WAITING_RESERVATION_START, is the
model's reading (log 6), and so is that a mismatch starts it after its failure has been counted (log 7).

The 20 bits read from the result-data line, first bit highest, are a record where the first is the start marker 1: the input in the
next 4, the tag in 3 and the value in 12, most significant bit first; the line at rest is no record (R201). -/
def Obligations.ResultsMeetTheConvertingReservation : Prop :=
  (∀ (s : State) (input : InputNumber) (tag : ConverterTag) (v : BitVec 12) (t : Instant)
       (before after_ : List Reservation) (r : Reservation), s.inReset = false →
     let s0 := s.atInstant t
     let u := s.motor r.motor
     let freed (failures : Nat) : State :=
       { s0 with
         calendar := { s.calendar with reservations := before ++ after_ }
         converter := { s.converter with failures := failures, resultTimer := none } }
     let stored (res : Resolution) : MotorUnit := { u with frames := u.frames.storeEntry r.sequence r.position res }
     s.calendar.reservations = before ++ r :: after_ → r.state = .converting →
     (∀ q ∈ before ++ after_, q.state = .placed) →
     (s.converter.state = .ready → r.tag = some tag → r.input = input → r.orphaned = true →
         exec (.resultRecord input tag v t) s = .next (freed 0))
       ∧ (s.converter.state = .ready → r.tag = some tag → r.input = input → r.orphaned = false →
           ((s.inputRecord input).check v).trips = false →
           exec (.resultRecord input tag v t) s =
             .next (((freed 0).setInput input ((s.inputRecord input).check v).record).setMotor r.motor
               (stored { status := ((s.inputRecord input).check v).status, value := v })))
       ∧ (s.converter.state = .ready → r.tag = some tag → r.input ≠ input → s.converter.failures < 2 →
           exec (.resultRecord input tag v t) s =
             .next { (freed (s.converter.failures + 1)).setMotor r.motor
                 (if r.orphaned then u else stored { status := .failed, value := 0 }) with
               log := s.log.add ⟨.converterMismatch, .motor r.motor,
                 BitVec.ofNat 16 (r.input.toNat * 256 + input.toNat), u.channel.periodCount⟩ }))
    ∧ (∀ (s : State) (input : InputNumber) (tag : ConverterTag) (v : BitVec 12) (t : Instant), s.inReset = false →
         let s0 := s.atInstant t
         ((∀ q ∈ s.calendar.reservations, q.state ≠ .converting) → exec (.resultRecord input tag v t) s = .next s0)
           ∧ (∀ before after_ r, s.calendar.reservations = before ++ r :: after_ → r.state = .converting →
               (∀ q ∈ before ++ after_, q.state ≠ .converting) → s.converter.state = .lost ∨ r.tag ≠ some tag →
               exec (.resultRecord input tag v t) s = .next s0)
           ∧ ∀ before after_ first rest r w, s.calendar.reservations = before ++ r :: after_ → r.state = .converting →
             before ++ after_ = first ++ w :: rest → (∀ q ∈ first, q.state = .placed) → w.state = .waiting →
             (∀ q ∈ rest, q.state ≠ .converting) → s.converter.state = .ready → r.tag = some tag →
             let u := s.motor r.motor
             let verdict := (s.inputRecord input).check v
             let stored (res : Resolution) : MotorUnit := { u with frames := u.frames.storeEntry r.sequence r.position res }
             (r.input = input → r.orphaned = true →
                 exec (.resultRecord input tag v t) s = .next (s0.freedAndStarted first w rest 0))
               ∧ (r.input = input → r.orphaned = false → verdict.trips = false →
                   exec (.resultRecord input tag v t) s =
                     .next (((s0.freedAndStarted first w rest 0).setInput input verdict.record).setMotor r.motor
                       (stored { status := verdict.status, value := v })))
               ∧ (r.input ≠ input → s.converter.failures < 2 →
                   exec (.resultRecord input tag v t) s =
                     .next { (s0.freedAndStarted first w rest (s.converter.failures + 1)).setMotor r.motor
                         (if r.orphaned then u else stored { status := .failed, value := 0 }) with
                       log := s.log.add ⟨.converterMismatch, .motor r.motor,
                         BitVec.ofNat 16 (r.input.toNat * 256 + input.toNat), u.channel.periodCount⟩ }))
    ∧ (∀ (s : State) (bits : BitVec 20) (t : Instant), s.inReset = false →
         (bits.getLsbD 19 = true →
             exec (.resultRecord (bits.extractLsb' 15 4) (bits.extractLsb' 12 3) (bits.extractLsb' 0 12) t) s =
               .next ((s.atInstant t).readResult bits))
           ∧ (bits.getLsbD 19 = false → s.readResult bits = s))

/-- CONVERTER_TIMEOUT at the timer's instant, with none WAITING and the failure count below 2 (R83): the entry CONVERTER_TIMEOUT with the input and tag, the
count one higher, the timer disarmed, the reservation off the list, its entry FAILED unless it is orphaned. With
others WAITING it does the same and starts the first of them at that instant (R78; that it comes after the count of the failure is
the model's reading, log 7). That it has no effect before the instant, or with no timer armed, is its reading too (log 2).

The third failure in a row, a timeout or a mismatch, makes the converter LOST (R82, R83, R85, R86): after the failure's own entry
comes CONVERTER_LOST for DEVICE, with TIMEOUT or MISMATCH as info; every reservation leaves the list, the position of the one that has
failed, unless it is orphaned, resolving FAILED, and that of a PLACED or WAITING one that its frame holds unresolved MISSED; and every
RUNNING or STOPPING motor goes through trip entry with that cause and info (R19), the others standing but for their frames. -/
def Obligations.FailedConversionsLoseTheConverter : Prop :=
  (∀ (s : State) (t : Instant) (before after_ : List Reservation) (r : Reservation), s.inReset = false →
     let s0 := s.atInstant t
     let u := s.motor r.motor
     s.calendar.reservations = before ++ r :: after_ → r.state = .converting →
     (∀ q ∈ before ++ after_, q.state ≠ .converting) →
     (∀ due k, (∀ q ∈ before ++ after_, q.state = .placed) → s.converter.resultTimer = some due → reached due s0.timebase = true → r.tag = some k →
         s.converter.failures < 2 →
         exec (.converterTimeout t) s =
           .next { ({ s0 with
                 calendar := { s.calendar with reservations := before ++ after_ }
                 converter := { s.converter with failures := s.converter.failures + 1, resultTimer := none } } :
                 State).setMotor r.motor
               (if r.orphaned then u
                 else { u with frames := u.frames.storeEntry r.sequence r.position { status := .failed, value := 0 } }) with
             log := s.log.add ⟨.converterTimeout, .motor r.motor,
               BitVec.ofNat 16 (r.input.toNat * 256 + k.toNat), u.channel.periodCount⟩ })
       ∧ (∀ due k first rest w, before ++ after_ = first ++ w :: rest → (∀ q ∈ first, q.state = .placed) → w.state = .waiting →
           s.converter.state = .ready → s.converter.resultTimer = some due → reached due s0.timebase = true → r.tag = some k →
           s.converter.failures < 2 →
           exec (.converterTimeout t) s =
             .next { (s0.freedAndStarted first w rest (s.converter.failures + 1)).setMotor r.motor
                 (if r.orphaned then u
                   else { u with frames := u.frames.storeEntry r.sequence r.position { status := .failed, value := 0 } }) with
               log := s.log.add ⟨.converterTimeout, .motor r.motor,
                 BitVec.ofNat 16 (r.input.toNat * 256 + k.toNat), u.channel.periodCount⟩ })
       ∧ ((s.converter.resultTimer = none
             ∨ ∃ due, s.converter.resultTimer = some due ∧ reached due s0.timebase = false) →
           exec (.converterTimeout t) s = .next s0))
    ∧ (∀ (s : State) (t due : Instant) (r : Reservation) (k : ConverterTag), s.inReset = false →
         let s0 := s.atInstant t
         s.converting = some r → r.tag = some k → s.converter.resultTimer = some due → reached due s0.timebase = true →
         s.converter.failures = 2 →
         ∃ s', exec (.converterTimeout t) s = .next s' ∧ s0.converterLost s' r 12
           ∧ s'.log = (s.log.add ⟨.converterTimeout, .motor r.motor, BitVec.ofNat 16 (r.input.toNat * 256 + k.toNat),
                 (s.motor r.motor).channel.periodCount⟩).add ⟨.converterLost, .device, 12, s0.timebase⟩)
    ∧ (∀ (s : State) (t : Instant) (r : Reservation) (k : ConverterTag) (input : InputNumber) (v : BitVec 12),
         s.inReset = false →
         let s0 := s.atInstant t
         s.converting = some r → r.tag = some k → r.input ≠ input → s.converter.state = .ready → s.converter.failures = 2 →
         ∃ s', exec (.resultRecord input k v t) s = .next s' ∧ s0.converterLost s' r 13
           ∧ s'.log = (s.log.add ⟨.converterMismatch, .motor r.motor, BitVec.ofNat 16 (r.input.toNat * 256 + input.toNat),
                 (s.motor r.motor).channel.periodCount⟩).add ⟨.converterLost, .device, 13, s0.timebase⟩)

/-! ### Frames (chapter 06) -/

/-- An entry goes to the position of the frame that its half holds (R122, R123, R126, R127): an unresolved position takes it; a CLOSING half
with every position resolved is CLOSED; and, with no burst in flight, a CLOSED half presents a FINAL request and an OPEN or CLOSING
one, where it presents none, a PARTIAL request once 8 positions or more stand resolved from its flushed point. An entry without a position goes nowhere. -/
def Obligations.EntriesResolveTheirPositions : Prop :=
  ∀ (a : FrameAssembler) (seq : Short) (k : Nat) (res : Resolution) (n : HalfName) (p : PositionRecord),
    let a' := a.storeEntry seq (some k) res
    let h := a.half n
    let h' := a'.half n
    a.storeEntry seq none res = a
      ∧ (a.halfOf seq = none → a' = a)
      ∧ (a.halfOf seq = some n → h.positions[k]? = some p → p.resolution = none →
          h.sequence = seq ∧ h.state ≠ .free ∧ a' = a.setHalf n h'
            ∧ h'.positions = h.positions.set k { p with resolution := some res } ∧ h'.flushed = h.flushed
            ∧ h'.burst = h.burst
            ∧ (h'.state = if h.state = .closing ∧ h'.allResolved = true then .closed else h.state)
            ∧ (h'.request =
                if h.burst = true then h.request
                else if h'.state = .closed then .finalFlush
                else if h.request = .none ∧ 8 ≤ h'.run.length then .partialRun else h.request))

/-- A frame opens (R117 to R120): it takes the next sequence, and as its tag the ACTIVE slot's next tag where there is
one, which becomes the slot's own, and the slot's tag otherwise (R41); with neither half FREE it is LOST; with no room
in the ring it is dropped under DROP, and under OVERWRITE gives up the oldest frame; otherwise it takes a FREE half,
half 0 first, and the ring slot at assigned modulo the depth. Giving up the oldest frame raises consumed, and the
lower fill governs the ring-high state and the stale timer, which starts afresh or stops (R119, R195, R196); in the
other cases the attention causes stand. -/
def Obligations.FramesTakeAHalfAndASlot : Prop :=
  ∀ (s : State) (m : Motor),
    let u := s.motor m
    let s' := s.openFrame m
    let u' := s'.motor m
    let room : Prop := (u.frames.assigned - u.frames.consumed).toNat < u.settings.ringDepth
    let freeHalf (n : HalfName) : Prop :=
      (u.frames.half n).state = .free ∧ (n = .half1 → u.frames.half0.state ≠ .free)
    let storedIn (storage : Option HalfName) : Prop := u'.frames.openFrame.bind OpenFrame.storage = storage
    (u'.frames.nextSequence = u.frames.nextSequence + 1 ∧ u'.frames.openFrame.map OpenFrame.sequence = some u.frames.nextSequence
        ∧ u'.frames.openFrame.map OpenFrame.periodsCovered = some 1
        ∧ u'.marks = { u.marks with unplacedLogged := false, fullLogged := false }
        ∧ u'.frames.produced = u.frames.produced)
      ∧ (∀ n, (u.slot n).state = .active → (u.slot n.other).state ≠ .active →
          u'.slot n = { u.slot n with tag := (u.slot n).nextTag.getD (u.slot n).tag, nextTag := none }
            ∧ u'.frames.openFrame.map OpenFrame.tag = some ((u.slot n).nextTag.getD (u.slot n).tag)
            ∧ u'.slot n.other = u.slot n.other)
      ∧ (u.frames.half0.state ≠ .free → u.frames.half1.state ≠ .free →
          storedIn none ∧ u'.frames.assigned = u.frames.assigned ∧ u'.attention = u.attention
            ∧ s'.log = s.log.add ⟨.frameLost, .motor m, u.frames.nextSequence, u.channel.periodCount⟩)
      ∧ (∀ n, freeHalf n → room →
          storedIn (some n) ∧ u'.frames.assigned = u.frames.assigned + 1 ∧ u'.frames.consumed = u.frames.consumed
            ∧ u'.frames.dropRun = false ∧ u'.attention = u.attention ∧ s'.log = s.log ∧ (u'.frames.half n).state = .opened
            ∧ (u'.frames.half n).sequence = u.frames.nextSequence ∧ (u'.frames.half n).positions = []
            ∧ (u'.frames.half n).ringSlot = u.frames.assigned.toNat % u.settings.ringDepth)
      ∧ (∀ n, freeHalf n → ¬room → u.settings.ringPolicy = .drop →
          storedIn none ∧ u'.frames.assigned = u.frames.assigned ∧ u'.frames.consumed = u.frames.consumed
            ∧ u'.frames.dropRun = true ∧ u'.attention = u.attention
            ∧ s'.log = if u.frames.dropRun then s.log
              else s.log.add ⟨.ringFullDrop, .motor m, u.frames.nextSequence, u.channel.periodCount⟩)
      ∧ (∀ n, freeHalf n → ¬room → u.settings.ringPolicy = .overwrite →
          storedIn (some n) ∧ u'.frames.assigned = u.frames.assigned + 1 ∧ u'.frames.consumed = u.frames.consumed + 1
            ∧ u'.frames.dropRun = false
            ∧ u'.attention = u.ringEvaluated (u.frames.produced - (u.frames.consumed + 1)).toNat s.timebase
            ∧ (u'.frames.half n).state = .opened
            ∧ (u'.frames.half n).ringSlot = u.frames.assigned.toNat % u.settings.ringDepth
            ∧ s'.log = s.log.add ⟨.ringOverwrite, .motor m, u.frames.nextSequence, u.channel.periodCount⟩)

/-- What a burst writes (R125, R128, R199, 11.2): a FINAL flush of a frame not yet begun carries the opening stamp, its entries and the closing
stamp in 16 + 4·a bytes from the slot's first byte; a later one carries the entries from the flushed point and the closing stamp from offset
8 + 4·flushed; a PARTIAL one the run and no closing stamp.

A stamp is two little-endian words, the first with the sequence, the tag, the motor in bits 24–25, bit 26 for the closing stamp and
bit 31; of the closing stamp alone bits 27 to 29 say STOPPED, TRIPPED or SWITCHED and bit 30 FULL; the second word is the period count
at open. An entry is one little-endian word with its fields, bits 29 to 31 clear. -/
def Obligations.BurstsCarryStampsAndEntries : Prop :=
  let littleEndian (w : Word) : List Byte :=
    [w.extractLsb' 0 8, w.extractLsb' 8 8, w.extractLsb' 16 8, w.extractLsb' 24 8]
  (∀ (u : MotorUnit) (m : Motor) (h : Half),
    let opening : List Byte := if h.stampWritten then [] else h.openingStamp m
    let bytes (l : List PositionRecord) : List Byte := l.flatMap PositionRecord.entryBytes
    (h.request = .finalFlush →
        h.burstContent m = opening ++ bytes (h.positions.drop h.flushed) ++ h.closingStamp m)
      ∧ (h.request = .partialRun → h.burstContent m = opening ++ bytes h.run)
      ∧ (h.request = .finalFlush → h.stampWritten = false → h.flushed = 0 → h.allResolved = true →
          (h.burstContent m).length = 16 + 4 * h.positions.length)
      ∧ (h.openingStamp m).length = 8 ∧ (h.closingStamp m).length = 8
      ∧ h.openingStamp m = littleEndian (h.openingWord m) ++ littleEndian h.countAtOpen
      ∧ h.closingStamp m = littleEndian (h.closingWord m) ++ littleEndian h.countAtOpen
      ∧ (h.openingWord m).extractLsb' 16 8 = h.tag ∧ (h.openingWord m).extractLsb' 27 4 = 0
      ∧ ((h.openingWord m).extractLsb' 24 2).toNat = m.number ∧ ((h.closingWord m).extractLsb' 24 2).toNat = m.number
      ∧ ((h.closingWord m).getLsbD 27 = true ↔ h.closeFlag = .stopped)
      ∧ ((h.closingWord m).getLsbD 28 = true ↔ h.closeFlag = .tripped)
      ∧ ((h.closingWord m).getLsbD 29 = true ↔ h.closeFlag = .switched) ∧ (h.closingWord m).getLsbD 30 = h.full
      ∧ (h.openingWord m).getLsbD 31 = true ∧ (h.openingWord m).getLsbD 26 = false
      ∧ (h.closingWord m).getLsbD 31 = true ∧ (h.closingWord m).getLsbD 26 = true
      ∧ (h.openingWord m).extractLsb' 0 16 = h.sequence ∧ (h.closingWord m).extractLsb' 0 16 = h.sequence
      ∧ (h.closingWord m).extractLsb' 16 8 = h.tag
      ∧ (u.burstAddress h).toNat =
          (u.settings.ringBase.toNat + h.ringSlot * u.settings.ringStride
            + (if h.stampWritten then 8 + 4 * h.flushed else 0)) % 2 ^ 24)
    ∧ ∀ (p : PositionRecord) (r : Resolution),
      (p.resolution = some r → p.entryBytes = littleEndian (p.entryWord r))
        ∧ (p.entryWord r).extractLsb' 0 12 = r.value ∧ (p.entryWord r).extractLsb' 12 4 = p.input
        ∧ ((p.entryWord r).extractLsb' 16 2).toNat = r.status.number ∧ (p.entryWord r).extractLsb' 18 4 = p.purpose
        ∧ ((p.entryWord r).extractLsb' 22 3).toNat = p.stepIndex % 8 ∧ (p.entryWord r).getLsbD 25 = p.slid
        ∧ ((p.entryWord r).extractLsb' 26 3).toNat = p.period % 8 ∧ (p.entryWord r).extractLsb' 29 3 = 0

/-! ### The Link Arbiter (chapter 07) -/

/-- The round-robin pointer (R143, R144): with the link OPEN and the memory AWAKE, FLUSH_START serves the first candidate in the order pointer,
pointer + 1, pointer + 2, counted modulo 3, the candidates being the urgent motors and, where none is urgent and the controller window
has expired, the motors presenting a request; the pointer then moves to the motor after the one served. No other command but a
reset by the pin moves it; it is M0 at power-on.

The candidates are those of R142, R143 and R151. That the choice is made at FLUSH_START, an event of its own, is the model's
reading (log 5), and so is that it has no effect where no flush is chosen (log 2). -/
def Obligations.PointerServesMotorsInTurn : Prop :=
  ∀ (s : State) (t : Instant), s.inReset = false →
    let presents (m : Motor) : Prop :=
      (s.motor m).frames.half0.request ≠ .none ∨ (s.motor m).frames.half1.request ≠ .none
    let urgent (m : Motor) : Prop :=
      presents m ∧ ((s.motor m).frames.half0.state = .closed ∧ (s.motor m).frames.half1.state ≠ .free
        ∨ (s.motor m).frames.half1.state = .closed ∧ (s.motor m).frames.half0.state ≠ .free)
    let candidate (m : Motor) : Prop :=
      urgent m ∨ (∀ m', ¬urgent m') ∧ s.arbiter.windowTimer = none ∧ presents m
    let turn (m : Motor) : Nat := (m.number + 3 - s.arbiter.pointer.number) % 3
    (∀ m, s.arbiter.state = .openLink → s.port.state = .awake → candidate m → (∀ m', candidate m' → turn m ≤ turn m') →
        ∃ s', exec (.flushStart t) s = .next s' ∧ s'.arbiter.flight.map Flush.motor = some m
          ∧ s'.arbiter.pointer.number = (m.number + 1) % 3)
      ∧ (s.arbiter.state ≠ .openLink ∨ s.port.state ≠ .awake ∨ (∀ m, ¬candidate m) →
          exec (.flushStart t) s = .next (s.atInstant t))
      ∧ (∀ c s', (∀ t', c ≠ .flushStart t') → (∀ t', c ≠ .resetAssert t') → (∀ straps, c ≠ .resetRelease straps) →
          exec c s = .next s' → s'.arbiter.pointer = s.arbiter.pointer)
      ∧ State.reset.arbiter.pointer = .m0

/-- A flush starts (R128, R146, R147): READY goes low, the flush in flight and the burst's content and address are fixed, the half's request
is taken; a LINK-CLEAR goes first where the downstream repeat state is set, which clears it, and one WRITE follows; a byte takes 4
ticks, and a LINK-CLEAR with its gap 6. A motor presents the request of one half, of two the one with the older frame.

That the RAM, which is the model's (log 11), has left repeat mode already at the start of the flush is the model's reading
(log 14). -/
def Obligations.FlushStartTakesTheLink : Prop :=
  (∀ a : FrameAssembler,
    (a.half0.request = .none → a.half1.request = .none → a.presented = none)
      ∧ (a.half0.request ≠ .none → a.half1.request = .none → a.presented = some .half0)
      ∧ (a.half0.request = .none → a.half1.request ≠ .none → a.presented = some .half1)
      ∧ (a.half0.request ≠ .none → a.half1.request ≠ .none →
          a.presented = some (if (a.half1.sequence - a.half0.sequence).toInt < 0 then .half1 else .half0)))
    ∧ ∀ (s : State) (t : Instant) (m : Motor) (n : HalfName), s.inReset = false →
      s.candidate = some m → (s.motor m).frames.presented = some n →
      let s0 := s.atInstant t
      let u := s.motor m
      let h := u.frames.half n
      let content := h.burstContent m
      let start := if s.port.repeatSet then after s0.timebase 6 else s0.timebase
      let write : List Byte := 0x2A :: (addrBytes (u.burstAddress h) ++ content)
      ∃ f : Flush,
        exec (.flushStart t) s =
            .next { s0.setMotor m { u with frames := u.frames.setHalf n { h with request := .none, burst := true } } with
              arbiter := { s.arbiter with state := .flush, pointer := m.following, flight := some f }
              port := { s.port with repeatSet := false, issued := if s.port.repeatSet then [[0x7E], write] else [write] }
              ram := if s.port.repeatSet then s.ram.clearRepeat else s.ram }
          ∧ f.motor = m ∧ f.half = n ∧ (f.final = true ↔ h.request = .finalFlush) ∧ f.opensFrame = !h.stampWritten
          ∧ f.entries = h.burstEntries.length ∧ f.address = u.burstAddress h ∧ f.content = content
          ∧ f.writeStart = start ∧ f.due = after start (4 * (4 + content.length))

/-- A flush completes at its instant (R129, R148, R156): the flush in flight is cleared, the arbiter becomes OPEN, or
CONTROLLER under a refused transaction, and the controller window starts; the burst's bytes stand in an awake RAM,
every other byte as before; a partial burst moves the flushed point on, and the half presents again what it calls for:
FINAL where it has CLOSED, PARTIAL where 8 positions or more stand resolved from the new point (R126, R127); a final
one frees the half and raises produced, the new fill governs the ring-high state and the stale timer, which starts
afresh or stops (R195, R196), and the frame-written event sets written in the records of its sequence: one whose mode
is then met latches FRAME_DONE and leaves the list, and every other record stands (R193).

That the bytes stand in the RAM at the completion is the model's reading (log 14; the RAM is the model's, log 11), and
so are that a STOPPING channel becomes STOPPED within it (R6, log 6) and that nothing happens before its instant (log
2). A completion with a restart waiting is SoftRestartResetsTheBlocksTogether. -/
def Obligations.FlushCompletionFreesTheLink : Prop :=
  ∀ (s : State) (t : Instant), s.inReset = false → s.memoryCanonical →
    let s0 := s.atInstant t
    (∀ f, s.arbiter.flight = some f → reached f.due s0.timebase = true → s.restartWaiting = false →
        let u := s.motor f.motor
        let h := u.frames.half f.half
        ∃ u' cells, exec (.flushCompletion t) s =
            .next { s0.setMotor f.motor u' with
              arbiter :=
                { s.arbiter with
                  state := if s.upstream.selectLow then .controller else .openLink
                  flight := none
                  windowTimer :=
                    if s.device.controllerWindow = 0 then none
                    else some (after s0.timebase (16 * s.device.controllerWindow)) }
              ram := { s.ram with cells := cells } }
          ∧ (s.ram.asleep = false → s.ram.repeatMode = false → Memory.wrote s.ram.cells cells f.address f.content)
          ∧ (s.ram.asleep = true ∨ s.ram.repeatMode = true → cells = s.ram.cells)
          ∧ (f.final = false → ∃ h', u' = { u with frames := u.frames.setHalf f.half h' }
              ∧ h' = { h with
                burst := false, stampWritten := h.stampWritten || f.opensFrame, flushed := h.flushed + f.entries
                request := h'.request }
              ∧ (h.state = .closed → h'.request = .finalFlush)
              ∧ (h.state = .opened ∨ h.state = .closing → h'.request =
                  if h.request = .none ∧ 8 ≤ h'.run.length then .partialRun else h.request))
          ∧ (f.final = true →
              (u'.frames.half f.half).state = .free ∧ u'.frames.produced = u.frames.produced + 1
                ∧ (let evaluated :=
                    u.ringEvaluated (u.frames.produced + 1 - u.frames.consumed).toNat s0.timebase
                   u'.attention.ringHigh = evaluated.ringHigh ∧ u'.attention.staleTimer = evaluated.staleTimer)
                ∧ u'.attention.ringStale = u.attention.ringStale ∧ u'.attention.tripped = u.attention.tripped
                ∧ (∀ n, n ≠ f.half → u'.frames.half n = u.frames.half n)
                ∧ u'.frames.assigned = u.frames.assigned ∧ u'.frames.consumed = u.frames.consumed
                ∧ u'.frames.openFrame = u.frames.openFrame ∧ u'.settings = u.settings
                ∧ (u.channel.state ≠ .stopping → u'.channel = u.channel)
                ∧ (u.channel.state = .stopping → u.channel.periodStart = none →
                    (∀ n, n ≠ f.half → (u.frames.half n).state = .free) → u'.channel.state = .stopped
                      ∧ u'.channel.driveSector = none ∧ u'.tracker.atReset)
                ∧ (u.attention.recordsSound → u.attention.writtenRecorded u'.attention h.sequence)))
      ∧ ((s.arbiter.flight = none ∨ ∃ f, s.arbiter.flight = some f ∧ reached f.due s0.timebase = false) →
          exec (.flushCompletion t) s = .next s0)

/-- The timers of the link (R139, R145, R151, R167, R171): the controller window expires; the wake time ends with the memory state AWAKE, the RAM out of
sleep and the link free; the power-on LINK-CLEAR completes with the downstream repeat state clear and the link free. Before their
instants nothing changes. The link is free as OPEN, or as CONTROLLER under a refused transaction; READY is high in these two
states, and low in FLUSH, in HELD and in reset.

That the RAM leaves sleep at WAKE_TIMER_EXPIRY is the model's choice (log 11), and that the three events have no effect before
their instants its reading (log 2). -/
def Obligations.LinkTimersFreeTheLink : Prop :=
  ∀ (s : State) (t : Instant), s.inReset = false →
    let s0 := s.atInstant t
    let now := s0.timebase
    let freed : Arbiter := { s.arbiter with state := if s.upstream.selectLow then .controller else .openLink }
    let runs (timer : Option Instant) : Prop := timer = none ∨ ∃ due, timer = some due ∧ reached due now = false
    (s.ready = true ↔ s.arbiter.state = .openLink ∨ s.arbiter.state = .controller)
      ∧ (∀ due, s.arbiter.windowTimer = some due → reached due now = true →
          exec (.controllerWindowExpiry t) s = .next { s0 with arbiter := { s.arbiter with windowTimer := none } })
      ∧ (runs s.arbiter.windowTimer → exec (.controllerWindowExpiry t) s = .next s0)
      ∧ (∀ due, s.port.wakeTimer = some due → reached due now = true →
          exec (.wakeTimerExpiry t) s =
            .next { s0 with
              port := { s.port with state := .awake, wakeTimer := none }, ram := { s.ram with asleep := false }
              arbiter := freed })
      ∧ (runs s.port.wakeTimer → exec (.wakeTimerExpiry t) s = .next s0)
      ∧ (∀ due, s.port.linkClearDue = some due → reached due now = true →
          exec (.powerOnLinkClearCompletion t) s =
            .next { s0 with
              port := { s.port with repeatSet := false, linkClearDue := none }
              ram := if s.ram.asleep then s.ram else { s.ram with repeatMode := false }
              arbiter := freed })
      ∧ (runs s.port.linkClearDue → exec (.powerOnLinkClearCompletion t) s = .next s0)

/-! ### The memory path (chapter 08) -/

/-- Select falls (R140, R159): with READY high the arbiter becomes CONTROLLER and the transaction is decoded; with
READY low it is refused, and the arbiter stands, whatever bytes follow: the record keeps the first of them. A refused
transaction, whatever it is, ends with all ones for its data, one LINK_VIOLATION entry naming its first byte, and
nothing else changed but a CONTROLLER that becomes OPEN (R170). The first byte is the one that has counted before the
command of the transaction's row, where one has, and otherwise the row's first.

That a select fall brings bytes is the model's choice (log 13). That one with select low and no bytes, and a
LINK_VIOLATION where READY was high, have no effect is the model's reading (log 2); the first byte of a refused
REPEAT_MODE_READ with an incomplete address, of which no byte has counted before, is the model's choice (log 34) and
not stated. -/
def Obligations.LinkViolationsAreRefusedWhole : Prop :=
  ∀ (s : State) (t : Instant), s.inReset = false →
    let s0 := s.atInstant t
    let repeats := s.upstream.repeatState.isSome
    let refused : Prop := if s.upstream.selectLow then s.decoder.refused = true else s.ready = false
    let info (first : Option Byte) : Short :=
      match first with
      | none => 0
      | some b => BitVec.ofNat 16 ((if repeats then 2 else 1) * 256 + b.toNat)
    let counted := if s.upstream.selectLow then s.decoder.first else none
    let violation (first : Option Byte) (n : Nat) : Host.Outcome State Fault Refusal :=
      .next { s0 with
        log := s.log.add ⟨.linkViolation, .device, info (counted.or first), s0.timebase⟩
        upstream := { s.upstream with selectLow := false, readData := List.replicate n 0xFF }
        decoder := Decoder.idle
        arbiter := if s.arbiter.state = .controller then { s.arbiter with state := .openLink } else s.arbiter }
    (∀ bytes, s.upstream.selectLow = false → s.ready = false ∨ bytes = [] →
        ∃ d, exec (.upstreamSelectFall ⟨bytes, t⟩) s =
            .next { s0 with
              upstream := { s.upstream with
                selectLow := true, readData := if s.ready then [] else s.upstream.readData }
              port := { s.port with issued := if s.ready then [] else s.port.issued }
              arbiter := if s.ready then { s.arbiter with state := .controller } else s.arbiter
              decoder := d }
          ∧ d.refused = !s.ready ∧ d.first = (if s.ready then none else bytes.head?) ∧ d.phase = (if repeats then .address else .command)
          ∧ (d.repeatPrefixDue = true ↔ repeats = true ∧ s.port.repeatSet = false))
      ∧ (∀ bytes, s.upstream.selectLow = true → s.decoder.refused = true →
          exec (.upstreamSelectFall ⟨bytes, t⟩) s =
            .next { s0 with decoder := { s.decoder with first := s.decoder.first.or bytes.head? } })
      ∧ (s.upstream.selectLow = true → s.decoder.refused = false → exec (.upstreamSelectFall ⟨[], t⟩) s = .next s0)
      ∧ (¬refused → ∀ first n, exec (.linkViolation first n t) s = .next s0)
      ∧ (refused →
          (∀ first n, exec (.linkViolation first n t) s = violation first n)
            ∧ (∀ addr mode n, exec (.read addr mode n t) s = violation (some 0x1A) n)
            ∧ (∀ addr mode n, exec (.readWrap addr mode n t) s = violation (some 0x1E) n)
            ∧ (∀ (a : Addr) mode n, exec (.repeatModeRead (some a) mode n t) s =
                violation (some (BitVec.ofNat 8 (a.toNat / 65536))) n)
            ∧ (∀ b mode n, counted = some b → exec (.repeatModeRead none mode n t) s = violation none n)
            ∧ (∀ addr data, exec (.write addr data t) s = violation (some 0x2A) 0)
            ∧ (∀ byte, exec (.wrapSet byte t) s = violation (some 0x4D) 0)
            ∧ exec (.sleep t) s = violation (some 0x5C) 0 ∧ exec (.wake t) s = violation (some 0x5E) 0
            ∧ exec (.linkClear t) s = violation (some 0x7E) 0
            ∧ ∀ bytes, exec (.unknownCommand bytes t) s = violation bytes.head? 0)

/-- A whole read that begins with READY high (R149, R150, R155 to R158, R163, R168): each byte whose address lies in
the part window is the part's, from one view of its words; the others are the RAM's, or all ones while the memory is
ASLEEP; both repeat states follow the mode byte; and the transaction goes to the memory port as it came, with the
remembered command byte before it where the downstream repeat state is clear. The addresses run on linearly for READ,
and within the block of the wrap setting for READ-WRAP. Nothing else changes.

A read that ends before its mode byte has no effect (R155): one with a whole address has gone to the memory port as
far as it went, and one without it, which is not forwarded yet, shows nothing there (R159, log 33).

A read of which UPSTREAM_SELECT_FALL has brought the first bytes is the same read (R140, R159): brought to its data
phase it holds its read view, every byte of the part window as it read there, and from then on, whatever has come
between, it answers the part's bytes from that view (R163). That bytes come in this way is the model's choice (log
13).

The RAM is the model's: that it holds its repeat mode and its sleep in State, and answers and follows the mode byte
where it is awake and its repeat mode agrees with how the read begins, is its choice (log 11). -/
def Obligations.ReadsAnswerFromPartAndRam : Prop :=
  (∀ (s : State) (k : ReadKind) (a : Addr) (mode : Byte) (n : Nat) (t : Instant), s.inReset = false → s.ready = true →
     s.upstream.selectLow = false → s.ram.wrap = s.upstream.wrap →
     let s0 := s.atInstant t
     let code : Byte := match k with | .read => 0x1A | .readWrap => 0x1E
     let address (i : Nat) : Nat :=
       match k, wrapLength s.upstream.wrap with
       | .readWrap, some l => a.toNat - a.toNat % l + (a.toNat % l + i) % l
       | _, _ => (a.toNat + i) % 2 ^ 24
     let cut (issued : List (List Byte)) : State :=
       { s0 with
         upstream := { s.upstream with readData := [] }, port := { s.port with issued := issued }, decoder := Decoder.idle
         arbiter := { s.arbiter with state := .openLink } }
     let answers (c : Instr) (addressFirst : Bool) : Prop :=
       ∃ data, exec c s =
           .next { s0 with
             upstream := { s.upstream with repeatState := if mode = 0x96 then some k else none, readData := data }
             port := { s.port with
               repeatSet := decide (mode = 0x96)
               issued := [(if addressFirst then [] else [code]) ++ addrBytes a ++ [mode]] }
             ram :=
               if s.ram.asleep = false ∧ s.ram.repeatMode = addressFirst then
                 { s.ram with repeatMode := decide (mode = 0x96) }
               else s.ram
             decoder := Decoder.idle
             arbiter := { s.arbiter with state := .openLink } }
         ∧ data.length = n
         ∧ ∀ i < n,
           (inPartWindow s.window.position (address i / 256) = true →
               data[i]? = some (s0.readByte (address i - 256 * windowFirstRow s.window.position)))
             ∧ (inPartWindow s.window.position (address i / 256) = false → s.port.state = .asleep →
                 data[i]? = some 0xFF)
             ∧ (inPartWindow s.window.position (address i / 256) = false → s.port.state ≠ .asleep →
                 s.ram.asleep = false → s.ram.repeatMode = addressFirst →
                 data[i]? = some (Memory.read s.ram.cells (address i)))
     (s.upstream.repeatState = none → k = .read → answers (.read (some a) (some mode) n t) false)
       ∧ (s.upstream.repeatState = none → k = .readWrap → answers (.readWrap (some a) (some mode) n t) false)
       ∧ (s.upstream.repeatState = some k → answers (.repeatModeRead (some a) (some mode) n t) s.port.repeatSet)
       ∧ (s.upstream.repeatState = none → k = .read →
           (∀ mode', exec (.read none mode' n t) s = .next (cut [])) ∧ exec (.read (some a) none n t) s = .next (cut [code :: addrBytes a]))
       ∧ (s.upstream.repeatState = none → k = .readWrap →
           (∀ mode', exec (.readWrap none mode' n t) s = .next (cut []))
             ∧ exec (.readWrap (some a) none n t) s = .next (cut [code :: addrBytes a]))
       ∧ (s.upstream.repeatState = some k →
           (∀ mode', exec (.repeatModeRead none mode' n t) s = .next (cut []))
             ∧ exec (.repeatModeRead (some a) none n t) s =
               .next (cut [(if s.port.repeatSet then [] else [code]) ++ addrBytes a])))
    ∧ (∀ (s : State) (k : ReadKind) (a : Addr) (mode : Byte) (turnaround : List Byte) (t : Instant), s.inReset = false →
         s.ready = true → s.upstream.selectLow = false → turnaround.length = 4 →
         let tail := addrBytes a ++ mode :: turnaround
         let bytes : List Byte :=
           match s.upstream.repeatState, k with
           | some _, _ => tail
           | none, .read => 0x1A :: tail
           | none, .readWrap => 0x1E :: tail
         s.upstream.repeatState = none ∨ s.upstream.repeatState = some k →
         ∃ s1 view, exec (.upstreamSelectFall ⟨bytes, t⟩) s = .next s1 ∧ s1.inFlight ∧ s1.decoder.holdsRead k a view 0
           ∧ s1.decoder.count = bytes.length ∧ s1.upstream.readData = []
           ∧ (s1.decoder.ramAnswers = true ↔ s.ram.asleep = false ∧ s.ram.repeatMode = (s.upstream.repeatState.isSome && s.port.repeatSet))
           ∧ ∀ off < 4096, viewByte view off = (s.atInstant t).readByte off)
    ∧ (∀ (s : State) (c : Instr) (k : ReadKind) (a : Addr) (view : List Word) (i : Nat) (bytes : List Byte) (t : Instant),
         s.inFlight → s.decoder.holdsRead k a view i → transactionBytes c = some bytes → instantOf c = some t →
         s.ram.wrap = s.upstream.wrap →
         let address (j : Nat) : Nat :=
           match k, wrapLength s.upstream.wrap with
           | .readWrap, some l => a.toNat - a.toNat % l + (a.toNat % l + j) % l
           | _, _ => (a.toNat + j) % 2 ^ 24
         let more := bytes.length - s.decoder.count
         ∃ data, exec c s =
             .next { (s.atInstant t).selectUp with
               upstream := { s.upstream with selectLow := false, readData := s.upstream.readData ++ data } }
           ∧ data.length = more
           ∧ ∀ j < more,
             (inPartWindow s.window.position (address (i + j) / 256) = true →
                 data[j]? = some (viewByte view (address (i + j) - 256 * windowFirstRow s.window.position)))
               ∧ (inPartWindow s.window.position (address (i + j) / 256) = false → s.port.state = .asleep →
                   data[j]? = some 0xFF)
               ∧ (inPartWindow s.window.position (address (i + j) / 256) = false → s.port.state ≠ .asleep →
                   s.decoder.ramAnswers = true → data[j]? = some (Memory.read s.ram.cells (address (i + j)))))
    ∧ ∀ (s : State) (addr : Option Addr) (mode : Option Byte) (n : Nat) (t : Instant),
      s.goesOn (.read addr mode n t) ∧ s.goesOn (.readWrap addr mode n t) ∧ s.goesOn (.repeatModeRead addr mode n t)

/-- A WRITE that begins with READY high, outside repeat mode, by the row of its address (R27, R28, R156, R164, R165,
R174, R175): a PASS row and a RESULT row of a STOPPED motor are forwarded, every byte of an awake RAM standing but
those written; the row of an EMPTY or INACTIVE slot is forwarded and captured; that of a PENDING or ACTIVE one, and a
RESULT row of a motor not STOPPED, are withheld with their entry; one whole word of the part window acts as that word,
and a part of one does nothing.

A write of any bytes to a row of the part window, running round within the row, takes the words whose four bytes were
all written, each byte as last written, one after another, lowest address first, each on what the one before left,
with no event between two of them (the model's choice, log 39); parts of words do nothing; and the words after a
SOFT_RESTART word are discarded (R156, R164, R174, R175, R182). Where one gives a START that is taken a tick later,
the whole transaction is (the model's choice, log 27).

A WRITE without a whole address has no effect (R155) and, not classified yet, shows nothing on the memory port (R159,
log 33); one without data bytes leaves a slot as it was. That an awake RAM outside repeat mode takes the bytes, and
another does not, is the model's RAM (log 11).

A WRITE of which UPSTREAM_SELECT_FALL has brought the first bytes (log 13) is the same WRITE (R140, R159). It is
classified, with its entry, when its address completes, and that class stands to its select rise, whatever comes
between: one withheld stays withheld and uncaptured, one forwarded goes on, and one captured goes on while its slot is
EMPTY or INACTIVE (R28, R29, R164, R165). That a SOFT_RESTART in between leaves the record of any transaction in
flight, where R172 has it IDLE, is the model's reading (log 29). -/
def Obligations.WritesActByTheirRow : Prop :=
  (∀ (s : State) (a : Addr) (data : List Byte) (t : Instant), s.inReset = false → s.ready = true →
     s.upstream.selectLow = false → s.upstream.repeatState = none → s.memoryCanonical →
     let s0 := s.atInstant t
     let row := a.toNat / 256
     let start := a.toNat % 256
     let ended (issued : List (List Byte)) : State :=
       { s0 with
         upstream := { s.upstream with readData := [] }, port := { s.port with issued := issued }, decoder := Decoder.idle
         arbiter := { s.arbiter with state := .openLink } }
     let sent : List (List Byte) := [0x2A :: (addrBytes a ++ data)]
     let stored (cells : Memory) : Prop :=
       (s.ram.asleep = false → s.ram.repeatMode = false → Memory.wrote s.ram.cells cells a data)
         ∧ (s.ram.asleep = true ∨ s.ram.repeatMode = true → cells = s.ram.cells)
     let outside : Prop := inPartWindow s.window.position row = false
     (outside → (s.window.rowUse row = .pass
           ∨ ∃ m, s.window.rowUse row = .result m ∧ (s.motor m).channel.state = .stopped) →
         ∃ cells, exec (.write (some a) data t) s = .next { ended sent with ram := { s.ram with cells := cells } }
           ∧ stored cells)
       ∧ (∀ m n, outside → s.window.rowUse row = .plan m n → data ≠ [] →
           ((s.motor m).slot n).state = .empty ∨ ((s.motor m).slot n).state = .inactive →
           ∃ cells copy, exec (.write (some a) data t) s =
               .next ({ ended sent with ram := { s.ram with cells := cells } }.setMotor m
                 ((s.motor m).setSlot n { (s.motor m).slot n with copy := copy, state := .inactive }))
             ∧ stored cells ∧ Memory.wrote ((s.motor m).slot n).copy copy (BitVec.ofNat 24 start) data)
       ∧ (∀ m n, outside → s.window.rowUse row = .plan m n →
           ((s.motor m).slot n).state = .pending ∨ ((s.motor m).slot n).state = .active →
           exec (.write (some a) data t) s =
             .next { ended [] with
               log := s.log.add ⟨.planGuardedWrite, .motor m,
                 BitVec.ofNat 16 ((match n with | .a => 0 | .b => 1) * 256 + start), (s.motor m).channel.periodCount⟩ })
       ∧ (∀ m, outside → s.window.rowUse row = .result m → (s.motor m).channel.state ≠ .stopped →
           exec (.write (some a) data t) s =
             .next { ended [] with
               log := s.log.add ⟨.resultWriteRefused, .motor m, BitVec.ofNat 16 row, (s.motor m).channel.periodCount⟩ })
       ∧ (¬outside → data.length < 4 → exec (.write (some a) data t) s = .next (ended []))
       ∧ (∀ (off : BitVec 12) (v : Word) (s1 : State), a.toNat = 256 * windowFirstRow s.window.position + off.toNat →
           off.toNat % 4 = 0 → data = wordBytes v →
           exec (.settingWordWrite off v t)
               { s0 with
                 upstream := { s.upstream with selectLow := true, readData := [] }, port := { s.port with issued := [] }
                 decoder := Decoder.idle, arbiter := { s.arbiter with state := .controller } } =
             .next s1 →
           exec (.write (some a) data t) s =
             .next { s1 with
               upstream := { s1.upstream with selectLow := false }, decoder := Decoder.idle
               arbiter := if s1.arbiter.state = .controller then { s1.arbiter with state := .openLink } else s1.arbiter })
       ∧ (¬outside →
           let words := rowWords (row - windowFirstRow s.window.position) start data
           ∃ i s1, State.wordsTaken
               { s0.moveTo i with
                 upstream := { s.upstream with selectLow := true, readData := [] }
                 port := { s.port with issued := [] }, decoder := Decoder.idle
                 arbiter := { s.arbiter with state := .controller } } words s1
             ∧ exec (.write (some a) data t) s =
               .next { s1 with
                 upstream := { s1.upstream with selectLow := false }, decoder := Decoder.idle
                 arbiter := if s1.arbiter.state = .controller then { s1.arbiter with state := .openLink } else s1.arbiter }
             ∧ (∀ m, (s.motor m).channel.state = .stopped → (s1.motor m).channel.state = .running → i = s0.timebase →
                 s.startClear m t)
             ∧ (i = s0.timebase
                 ∨ ∃ m v, (BitVec.ofNat 12 (256 * (m.number + 1) + 0x5C), v) ∈ words ∧ v.toNat % 16 = 1
                   ∧ (s.motor m).channel.state = .stopped ∧ ¬s.startClear m t ∧ i = s0.timebase + 1))
       ∧ exec (.write none data t) s = .next (ended [])
       ∧ ∀ m n, outside → s.window.rowUse row = .plan m n →
           ((s.motor m).slot n).state = .empty ∨ ((s.motor m).slot n).state = .inactive →
           exec (.write (some a) [] t) s = .next (ended [0x2A :: addrBytes a]))
    ∧ (∀ (s : State) (a : Addr) (data : List Byte) (t : Instant), s.inReset = false → s.ready = true →
         s.upstream.selectLow = false → s.upstream.repeatState = none →
         let row := a.toNat / 256
         let outside : Prop := inPartWindow s.window.position row = false
         let held (c : TransactionClass) (log : FaultLog) : Prop :=
           ∃ s1, exec (.upstreamSelectFall ⟨0x2A :: (addrBytes a ++ data), t⟩) s = .next s1 ∧ s1.inFlight
             ∧ s1.decoder.holdsWrite a c data.length ∧ s1.log = log
         (¬outside → held .partWindow s.log) ∧ (outside → s.window.rowUse row = .pass → held .pass s.log)
           ∧ (∀ m n, outside → s.window.rowUse row = .plan m n →
               (((s.motor m).slot n).state = .empty ∨ ((s.motor m).slot n).state = .inactive → held (.capture m n) s.log)
                 ∧ (((s.motor m).slot n).state = .pending ∨ ((s.motor m).slot n).state = .active →
                   held (.guardedPlan m n) (s.log.add ⟨.planGuardedWrite, .motor m,
                     BitVec.ofNat 16 ((match n with | .a => 0 | .b => 1) * 256 + a.toNat % 256), (s.motor m).channel.periodCount⟩)))
           ∧ ∀ m, outside → s.window.rowUse row = .result m →
             ((s.motor m).channel.state = .stopped → held .pass s.log)
               ∧ ((s.motor m).channel.state ≠ .stopped → held (.guardedResult m)
                 (s.log.add ⟨.resultWriteRefused, .motor m, BitVec.ofNat 16 row, (s.motor m).channel.periodCount⟩)))
    ∧ (∀ (s : State) (c : Instr) (a : Addr) (n : Nat) (bytes : List Byte) (t : Instant), s.inFlight → s.memoryCanonical →
         transactionBytes c = some bytes → instantOf c = some t →
         let rest := bytes.drop (4 + n)
         let row := a.toNat / 256
         let next : Addr := BitVec.ofNat 24 (256 * row + (a.toNat % 256 + n) % 256)
         let ended : State := (s.atInstant t).selectUp
         let sent : State :=
           { ended with port := { s.port with issued := if rest = [] then s.port.issued else [s.port.issued.flatten ++ rest] } }
         let stored (cells : Memory) : Prop :=
           (s.ram.asleep = false → s.ram.repeatMode = false → Memory.wrote s.ram.cells cells next rest)
             ∧ (s.ram.asleep = true ∨ s.ram.repeatMode = true → cells = s.ram.cells)
         (∀ m slot, s.decoder.holdsWrite a (.guardedPlan m slot) n → exec c s = .next ended)
           ∧ (∀ m, s.decoder.holdsWrite a (.guardedResult m) n → exec c s = .next ended)
           ∧ (s.decoder.holdsWrite a .pass n →
               ∃ cells, exec c s = .next { sent with ram := { s.ram with cells := cells } } ∧ stored cells)
           ∧ (∀ m slot, s.decoder.holdsWrite a (.capture m slot) n → rest ≠ [] →
               (((s.motor m).slot slot).state = .empty ∨ ((s.motor m).slot slot).state = .inactive →
                 ∃ cells copy, exec c s =
                     .next ({ sent with ram := { s.ram with cells := cells } }.setMotor m
                       ((s.motor m).setSlot slot { (s.motor m).slot slot with copy := copy, state := .inactive }))
                   ∧ stored cells
                   ∧ Memory.wrote ((s.motor m).slot slot).copy copy (BitVec.ofNat 24 ((a.toNat % 256 + n) % 256)) rest)
               ∧ (((s.motor m).slot slot).state = .pending ∨ ((s.motor m).slot slot).state = .active → exec c s = .next ended))
           ∧ (∀ m slot, s.decoder.holdsWrite a (.capture m slot) n → rest = [] → exec c s = .next ended))
    ∧ (∀ (s : State) (c : Instr), s.inFlight → transactionBytes c = none → (∀ opening, c ≠ .upstreamSelectFall opening) →
         (∀ t, c ≠ .resetAssert t) → (∀ straps, c ≠ .resetRelease straps) →
         ∃ s', exec c s = .next s' ∧ s'.decoder = s.decoder ∧ s'.upstream = s.upstream)
    ∧ ∀ (s : State) (addr : Option Addr) (data : List Byte) (t : Instant), s.goesOn (.write addr data t)

/-- The transactions without an address, begun with READY high and outside repeat mode (R151, R155 to R159, R166,
R167): WRAP-SET records a setting it names; SLEEP puts the memory ASLEEP with every motor STOPPED and is withheld with
SLEEP_REFUSED otherwise; WAKE holds the link for the wake time; LINK-CLEAR clears both repeat states; an unknown
command is forwarded and has no effect. In repeat mode a LINK-CLEAR still clears the upstream state, and reaches the
RAM as one where the downstream state is set (R150).

What is forwarded appears on the memory port byte for byte from its command byte on (R159): a WRAP-SET that ends
without its byte, which has no other effect (R155), shows its command byte, and bytes after a whole command, `tail`,
go with it. A transaction with such bytes has no row of its own: it is UNKNOWN_COMMAND, taken by its bytes (log 16).

A transaction of which UPSTREAM_SELECT_FALL has brought the first bytes (log 13) is the same transaction (R140, R159).
A SLEEP is decided at its command byte, with its entry, and that stands to its select rise (R159, R166).

That an unknown command leaves the RAM as it was is the model's choice (log 12), and so are that a RAM that sleeps or
stands in repeat mode does not take these, LINK-CLEAR alone apart, and that it stays asleep through WAKE (log 11). -/
def Obligations.ShortTransactionsTakeEffect : Prop :=
  (∀ (s : State) (t : Instant), s.inReset = false → s.ready = true → s.upstream.selectLow = false →
     let s0 := s.atInstant t
     let ended (issued : List (List Byte)) (repeatState : Option ReadKind) : State :=
       { s0 with
         upstream := { s.upstream with repeatState := repeatState, readData := [] }
         port := { s.port with issued := issued }, decoder := Decoder.idle
         arbiter := { s.arbiter with state := .openLink } }
     let hears : Bool := !s.ram.asleep && !s.ram.repeatMode
     let clearedRam : Ram := if s.ram.asleep then s.ram else { s.ram with repeatMode := false }
     let e (issued : List (List Byte)) : State := ended issued none
     let wraps (c : Instr) (tail : List Byte) : Prop :=
       (∀ b rest w, tail = b :: rest → wrapSettingOf b = some w → exec c s =
           .next { e [0x4D :: tail] with
             upstream := { s.upstream with repeatState := none, wrap := w, readData := [] }
             ram := if hears then { s.ram with wrap := w } else s.ram })
         ∧ ((∀ b rest, tail = b :: rest → wrapSettingOf b = none) → exec c s = .next (e [0x4D :: tail]))
     let sleeps (c : Instr) (tail : List Byte) : Prop :=
       ((∀ m, (s.motor m).channel.state = .stopped) → exec c s =
           .next { e [0x5C :: tail] with
             port := { s.port with issued := [0x5C :: tail], state := .asleep }
             ram := if hears then { s.ram with asleep := true } else s.ram })
         ∧ ((∃ m, (s.motor m).channel.state ≠ .stopped) → ∃ info : Short, exec c s =
             .next { e [] with log := s.log.add ⟨.sleepRefused, .device, info, s0.timebase⟩ }
             ∧ ∀ m : Motor, info.getLsbD m.number = decide ((s.motor m).channel.state ≠ .stopped))
     let wakes (c : Instr) (tail : List Byte) : Prop :=
       exec c s =
         .next { e [0x5E :: tail] with
           port := { s.port with
             issued := [0x5E :: tail], state := .waking
             wakeTimer := some (after s0.timebase (1024 * s.device.wakeTime)) }
           arbiter := { s.arbiter with state := .held } }
     let clears (c : Instr) (tail : List Byte) : Prop :=
       exec c s =
         .next { e [0x7E :: tail] with
           port := { s.port with issued := [0x7E :: tail], repeatSet := false }
           ram := if tail = [] then clearedRam else s.ram }
     (s.upstream.repeatState = none →
         (∀ b, wraps (.wrapSet (some b) t) [b]) ∧ wraps (.wrapSet none t) [] ∧ sleeps (.sleep t) [] ∧ wakes (.wake t) []
           ∧ clears (.linkClear t) []
           ∧ (∀ tail, wraps (.unknownCommand (0x4D :: tail) t) tail ∧ sleeps (.unknownCommand (0x5C :: tail) t) tail
               ∧ wakes (.unknownCommand (0x5E :: tail) t) tail ∧ clears (.unknownCommand (0x7E :: tail) t) tail)
           ∧ (∀ c rest, linkCommandOf c = none → exec (.unknownCommand (c :: rest) t) s = .next (e [c :: rest]))
           ∧ exec (.unknownCommand [] t) s = .next (e []))
       ∧ (∀ k, s.upstream.repeatState = some k →
           (s.port.repeatSet = true → clears (.linkClear t) [])
             ∧ (s.port.repeatSet = false → exec (.linkClear t) s =
               .next (e [[match k with | .read => 0x1A | .readWrap => 0x1E, 0x7E]]))))
    ∧ (∀ (s : State) (t : Instant), s.inReset = false → s.ready = true → s.upstream.selectLow = false →
         s.upstream.repeatState = none →
         let begun (issued : List (List Byte)) (d : Decoder) : State :=
           { s.atInstant t with
             upstream := { s.upstream with selectLow := true, readData := [] }, port := { s.port with issued := issued }
             arbiter := { s.arbiter with state := .controller }, decoder := d }
         ∃ d, d.command = some (.known .sleep) ∧ d.count = 1 ∧ d.refused = false
           ∧ ((∀ m, (s.motor m).channel.state = .stopped) →
               d.decision = some .forwarded ∧ exec (.upstreamSelectFall ⟨[0x5C], t⟩) s = .next (begun [[0x5C]] d))
           ∧ ((∃ m, (s.motor m).channel.state ≠ .stopped) → ∃ info : Short, d.decision = some .withheld
               ∧ exec (.upstreamSelectFall ⟨[0x5C], t⟩) s =
                 .next { begun [] d with log := s.log.add ⟨.sleepRefused, .device, info, (s.atInstant t).timebase⟩ }
               ∧ ∀ m : Motor, info.getLsbD m.number = decide ((s.motor m).channel.state ≠ .stopped)))
    ∧ (∀ (s : State) (t : Instant), s.inFlight → s.decoder.command = some (.known .sleep) → s.decoder.count = 1 →
         let ended : State := (s.atInstant t).selectUp
         (s.decoder.decision = some .forwarded → exec (.sleep t) s =
             .next { ended with
               port := { s.port with state := .asleep }
               ram := if !s.ram.asleep && !s.ram.repeatMode then { s.ram with asleep := true } else s.ram })
           ∧ (s.decoder.decision = some .withheld → exec (.sleep t) s = .next ended))
    ∧ ∀ (s : State) (byte : Option Byte) (bytes : List Byte) (t : Instant),
      s.goesOn (.wrapSet byte t) ∧ s.goesOn (.sleep t) ∧ s.goesOn (.wake t) ∧ s.goesOn (.linkClear t)
        ∧ s.goesOn (.unknownCommand bytes t)

end
end

