-- ==== Sys2Proof/Laws/State.lean ====
section
/-! SUPPORT. One lemma per field and named update of State and of a motor's blocks, so that no proof unfolds a record update. -/
namespace Sys2Proof.Machine

@[simp] theorem State.setMotor_inReset (s : State) (m : Motor) (u : MotorUnit) : (s.setMotor m u).inReset = s.inReset := by cases m <;> rfl
@[simp] theorem State.setMotor_timebase (s : State) (m : Motor) (u : MotorUnit) : (s.setMotor m u).timebase = s.timebase := by cases m <;> rfl
@[simp] theorem State.setMotor_placed (s : State) (m : Motor) (u : MotorUnit) : (s.setMotor m u).placed = s.placed := by cases m <;> rfl
@[simp] theorem State.setMotor_device (s : State) (m : Motor) (u : MotorUnit) : (s.setMotor m u).device = s.device := by cases m <;> rfl
@[simp] theorem State.setMotor_inputs (s : State) (m : Motor) (u : MotorUnit) : (s.setMotor m u).inputs = s.inputs := by cases m <;> rfl
@[simp] theorem State.setMotor_calendar (s : State) (m : Motor) (u : MotorUnit) : (s.setMotor m u).calendar = s.calendar := by cases m <;> rfl
@[simp] theorem State.setMotor_converter (s : State) (m : Motor) (u : MotorUnit) : (s.setMotor m u).converter = s.converter := by cases m <;> rfl
@[simp] theorem State.setMotor_decoder (s : State) (m : Motor) (u : MotorUnit) : (s.setMotor m u).decoder = s.decoder := by cases m <;> rfl
@[simp] theorem State.setMotor_upstream (s : State) (m : Motor) (u : MotorUnit) : (s.setMotor m u).upstream = s.upstream := by cases m <;> rfl
@[simp] theorem State.setMotor_port (s : State) (m : Motor) (u : MotorUnit) : (s.setMotor m u).port = s.port := by cases m <;> rfl
@[simp] theorem State.setMotor_ram (s : State) (m : Motor) (u : MotorUnit) : (s.setMotor m u).ram = s.ram := by cases m <;> rfl
@[simp] theorem State.setMotor_window (s : State) (m : Motor) (u : MotorUnit) : (s.setMotor m u).window = s.window := by cases m <;> rfl
@[simp] theorem State.setMotor_arbiter (s : State) (m : Motor) (u : MotorUnit) : (s.setMotor m u).arbiter = s.arbiter := by cases m <;> rfl
@[simp] theorem State.setMotor_log (s : State) (m : Motor) (u : MotorUnit) : (s.setMotor m u).log = s.log := by cases m <;> rfl
@[simp] theorem State.setMotor_enables (s : State) (m : Motor) (u : MotorUnit) : (s.setMotor m u).enables = s.enables := by cases m <;> rfl
@[simp] theorem State.setMotor_restartWaiting (s : State) (m : Motor) (u : MotorUnit) : (s.setMotor m u).restartWaiting = s.restartWaiting := by cases m <;> rfl
@[simp] theorem State.setMotor_freeCount (s : State) (m : Motor) (u : MotorUnit) : (s.setMotor m u).freeCount = s.freeCount := by cases m <;> rfl
@[simp] theorem State.setMotor_pending (s : State) (m : Motor) (u : MotorUnit) : (s.setMotor m u).pending = s.pending := by cases m <;> rfl

@[simp] theorem State.motor_setMotor_self (s : State) (m : Motor) (u : MotorUnit) : (s.setMotor m u).motor m = u := by
  cases m <;> rfl

theorem State.motor_setMotor_ne (s : State) {m k : Motor} (u : MotorUnit) (h : k ≠ m) :
    (s.setMotor m u).motor k = s.motor k := by
  cases m <;> cases k <;> first | rfl | exact absurd rfl h

theorem State.motor_setMotor (s : State) (m k : Motor) (u : MotorUnit) :
    (s.setMotor m u).motor k = if k = m then u else s.motor k := by
  cases m <;> cases k <;> rfl

@[simp] theorem State.motor_onMotor_self (s : State) (m : Motor) (f : MotorUnit → MotorUnit) :
    (s.onMotor m f).motor m = f (s.motor m) := State.motor_setMotor_self s m _

theorem State.motor_onMotor_ne (s : State) {m k : Motor} (f : MotorUnit → MotorUnit) (h : k ≠ m) :
    (s.onMotor m f).motor k = s.motor k := State.motor_setMotor_ne s _ h

theorem State.motor_onMotor (s : State) (m k : Motor) (f : MotorUnit → MotorUnit) :
    (s.onMotor m f).motor k = if k = m then f (s.motor k) else s.motor k := by
  cases m <;> cases k <;> rfl

@[simp] theorem State.motor_onMotors (s : State) (m : Motor) (f : MotorUnit → MotorUnit) :
    (s.onMotors f).motor m = f (s.motor m) := by
  cases m <;> rfl

@[simp] theorem State.setMotor_motor (s : State) (m : Motor) : s.setMotor m (s.motor m) = s := by
  cases m <;> rfl

@[simp] theorem State.setMotor_setMotor (s : State) (m : Motor) (u v : MotorUnit) :
    (s.setMotor m u).setMotor m v = s.setMotor m v := by
  cases m <;> rfl

@[simp] theorem State.onMotor_onMotor (s : State) (m : Motor) (f g : MotorUnit → MotorUnit) :
    (s.onMotor m f).onMotor m g = s.onMotor m fun u => g (f u) := by
  cases m <;> rfl

/-- Two states with the same shared fields and the same three motors are equal. -/
theorem State.motor_ext {s s' : State} (hm : ∀ m, s.motor m = s'.motor m)
    (h : s.setMotor .m0 s'.m0 = (s'.setMotor .m1 s.m1).setMotor .m2 s.m2) : s = s' := by
  have h0 : s.m0 = s'.m0 := hm .m0
  have h1 : s.m1 = s'.m1 := hm .m1
  have h2 : s.m2 = s'.m2 := hm .m2
  cases s; cases s'
  simp only [State.setMotor] at *
  simp_all

@[simp] theorem State.onMotor_inReset (s : State) (m : Motor) (f : MotorUnit → MotorUnit) : (s.onMotor m f).inReset = s.inReset := by cases m <;> rfl
@[simp] theorem State.onMotor_timebase (s : State) (m : Motor) (f : MotorUnit → MotorUnit) : (s.onMotor m f).timebase = s.timebase := by cases m <;> rfl
@[simp] theorem State.onMotor_placed (s : State) (m : Motor) (f : MotorUnit → MotorUnit) : (s.onMotor m f).placed = s.placed := by cases m <;> rfl
@[simp] theorem State.onMotor_device (s : State) (m : Motor) (f : MotorUnit → MotorUnit) : (s.onMotor m f).device = s.device := by cases m <;> rfl
@[simp] theorem State.onMotor_inputs (s : State) (m : Motor) (f : MotorUnit → MotorUnit) : (s.onMotor m f).inputs = s.inputs := by cases m <;> rfl
@[simp] theorem State.onMotor_calendar (s : State) (m : Motor) (f : MotorUnit → MotorUnit) : (s.onMotor m f).calendar = s.calendar := by cases m <;> rfl
@[simp] theorem State.onMotor_converter (s : State) (m : Motor) (f : MotorUnit → MotorUnit) : (s.onMotor m f).converter = s.converter := by cases m <;> rfl
@[simp] theorem State.onMotor_decoder (s : State) (m : Motor) (f : MotorUnit → MotorUnit) : (s.onMotor m f).decoder = s.decoder := by cases m <;> rfl
@[simp] theorem State.onMotor_upstream (s : State) (m : Motor) (f : MotorUnit → MotorUnit) : (s.onMotor m f).upstream = s.upstream := by cases m <;> rfl
@[simp] theorem State.onMotor_port (s : State) (m : Motor) (f : MotorUnit → MotorUnit) : (s.onMotor m f).port = s.port := by cases m <;> rfl
@[simp] theorem State.onMotor_ram (s : State) (m : Motor) (f : MotorUnit → MotorUnit) : (s.onMotor m f).ram = s.ram := by cases m <;> rfl
@[simp] theorem State.onMotor_window (s : State) (m : Motor) (f : MotorUnit → MotorUnit) : (s.onMotor m f).window = s.window := by cases m <;> rfl
@[simp] theorem State.onMotor_arbiter (s : State) (m : Motor) (f : MotorUnit → MotorUnit) : (s.onMotor m f).arbiter = s.arbiter := by cases m <;> rfl
@[simp] theorem State.onMotor_log (s : State) (m : Motor) (f : MotorUnit → MotorUnit) : (s.onMotor m f).log = s.log := by cases m <;> rfl
@[simp] theorem State.onMotor_enables (s : State) (m : Motor) (f : MotorUnit → MotorUnit) : (s.onMotor m f).enables = s.enables := by cases m <;> rfl
@[simp] theorem State.onMotor_restartWaiting (s : State) (m : Motor) (f : MotorUnit → MotorUnit) : (s.onMotor m f).restartWaiting = s.restartWaiting := by cases m <;> rfl
@[simp] theorem State.onMotor_freeCount (s : State) (m : Motor) (f : MotorUnit → MotorUnit) : (s.onMotor m f).freeCount = s.freeCount := by cases m <;> rfl
@[simp] theorem State.onMotor_pending (s : State) (m : Motor) (f : MotorUnit → MotorUnit) : (s.onMotor m f).pending = s.pending := by cases m <;> rfl

@[simp] theorem State.onMotors_inReset (s : State) (f : MotorUnit → MotorUnit) : (s.onMotors f).inReset = s.inReset := rfl
@[simp] theorem State.onMotors_timebase (s : State) (f : MotorUnit → MotorUnit) : (s.onMotors f).timebase = s.timebase := rfl
@[simp] theorem State.onMotors_placed (s : State) (f : MotorUnit → MotorUnit) : (s.onMotors f).placed = s.placed := rfl
@[simp] theorem State.onMotors_device (s : State) (f : MotorUnit → MotorUnit) : (s.onMotors f).device = s.device := rfl
@[simp] theorem State.onMotors_inputs (s : State) (f : MotorUnit → MotorUnit) : (s.onMotors f).inputs = s.inputs := rfl
@[simp] theorem State.onMotors_calendar (s : State) (f : MotorUnit → MotorUnit) : (s.onMotors f).calendar = s.calendar := rfl
@[simp] theorem State.onMotors_converter (s : State) (f : MotorUnit → MotorUnit) : (s.onMotors f).converter = s.converter := rfl
@[simp] theorem State.onMotors_decoder (s : State) (f : MotorUnit → MotorUnit) : (s.onMotors f).decoder = s.decoder := rfl
@[simp] theorem State.onMotors_upstream (s : State) (f : MotorUnit → MotorUnit) : (s.onMotors f).upstream = s.upstream := rfl
@[simp] theorem State.onMotors_port (s : State) (f : MotorUnit → MotorUnit) : (s.onMotors f).port = s.port := rfl
@[simp] theorem State.onMotors_ram (s : State) (f : MotorUnit → MotorUnit) : (s.onMotors f).ram = s.ram := rfl
@[simp] theorem State.onMotors_window (s : State) (f : MotorUnit → MotorUnit) : (s.onMotors f).window = s.window := rfl
@[simp] theorem State.onMotors_arbiter (s : State) (f : MotorUnit → MotorUnit) : (s.onMotors f).arbiter = s.arbiter := rfl
@[simp] theorem State.onMotors_log (s : State) (f : MotorUnit → MotorUnit) : (s.onMotors f).log = s.log := rfl
@[simp] theorem State.onMotors_enables (s : State) (f : MotorUnit → MotorUnit) : (s.onMotors f).enables = s.enables := rfl
@[simp] theorem State.onMotors_restartWaiting (s : State) (f : MotorUnit → MotorUnit) : (s.onMotors f).restartWaiting = s.restartWaiting := rfl
@[simp] theorem State.onMotors_freeCount (s : State) (f : MotorUnit → MotorUnit) : (s.onMotors f).freeCount = s.freeCount := rfl
@[simp] theorem State.onMotors_pending (s : State) (f : MotorUnit → MotorUnit) : (s.onMotors f).pending = s.pending := rfl

@[simp] theorem State.logMotor_inReset (s : State) (m : Motor) (c : LogCode) (i : Short) : (s.logMotor m c i).inReset = s.inReset := rfl
@[simp] theorem State.logMotor_timebase (s : State) (m : Motor) (c : LogCode) (i : Short) : (s.logMotor m c i).timebase = s.timebase := rfl
@[simp] theorem State.logMotor_placed (s : State) (m : Motor) (c : LogCode) (i : Short) : (s.logMotor m c i).placed = s.placed := rfl
@[simp] theorem State.logMotor_device (s : State) (m : Motor) (c : LogCode) (i : Short) : (s.logMotor m c i).device = s.device := rfl
@[simp] theorem State.logMotor_inputs (s : State) (m : Motor) (c : LogCode) (i : Short) : (s.logMotor m c i).inputs = s.inputs := rfl
@[simp] theorem State.logMotor_calendar (s : State) (m : Motor) (c : LogCode) (i : Short) : (s.logMotor m c i).calendar = s.calendar := rfl
@[simp] theorem State.logMotor_converter (s : State) (m : Motor) (c : LogCode) (i : Short) : (s.logMotor m c i).converter = s.converter := rfl
@[simp] theorem State.logMotor_decoder (s : State) (m : Motor) (c : LogCode) (i : Short) : (s.logMotor m c i).decoder = s.decoder := rfl
@[simp] theorem State.logMotor_upstream (s : State) (m : Motor) (c : LogCode) (i : Short) : (s.logMotor m c i).upstream = s.upstream := rfl
@[simp] theorem State.logMotor_port (s : State) (m : Motor) (c : LogCode) (i : Short) : (s.logMotor m c i).port = s.port := rfl
@[simp] theorem State.logMotor_ram (s : State) (m : Motor) (c : LogCode) (i : Short) : (s.logMotor m c i).ram = s.ram := rfl
@[simp] theorem State.logMotor_window (s : State) (m : Motor) (c : LogCode) (i : Short) : (s.logMotor m c i).window = s.window := rfl
@[simp] theorem State.logMotor_arbiter (s : State) (m : Motor) (c : LogCode) (i : Short) : (s.logMotor m c i).arbiter = s.arbiter := rfl
@[simp] theorem State.logMotor_enables (s : State) (m : Motor) (c : LogCode) (i : Short) : (s.logMotor m c i).enables = s.enables := rfl
@[simp] theorem State.logMotor_restartWaiting (s : State) (m : Motor) (c : LogCode) (i : Short) : (s.logMotor m c i).restartWaiting = s.restartWaiting := rfl
@[simp] theorem State.logMotor_freeCount (s : State) (m : Motor) (c : LogCode) (i : Short) : (s.logMotor m c i).freeCount = s.freeCount := rfl
@[simp] theorem State.logMotor_pending (s : State) (m : Motor) (c : LogCode) (i : Short) : (s.logMotor m c i).pending = s.pending := rfl
@[simp] theorem State.logMotor_motor (s : State) (m : Motor) (c : LogCode) (i : Short) (k : Motor) : (s.logMotor m c i).motor k = s.motor k := by cases k <;> rfl

@[simp] theorem State.logDevice_inReset (s : State) (c : LogCode) (i : Short) : (s.logDevice c i).inReset = s.inReset := rfl
@[simp] theorem State.logDevice_timebase (s : State) (c : LogCode) (i : Short) : (s.logDevice c i).timebase = s.timebase := rfl
@[simp] theorem State.logDevice_placed (s : State) (c : LogCode) (i : Short) : (s.logDevice c i).placed = s.placed := rfl
@[simp] theorem State.logDevice_device (s : State) (c : LogCode) (i : Short) : (s.logDevice c i).device = s.device := rfl
@[simp] theorem State.logDevice_inputs (s : State) (c : LogCode) (i : Short) : (s.logDevice c i).inputs = s.inputs := rfl
@[simp] theorem State.logDevice_calendar (s : State) (c : LogCode) (i : Short) : (s.logDevice c i).calendar = s.calendar := rfl
@[simp] theorem State.logDevice_converter (s : State) (c : LogCode) (i : Short) : (s.logDevice c i).converter = s.converter := rfl
@[simp] theorem State.logDevice_decoder (s : State) (c : LogCode) (i : Short) : (s.logDevice c i).decoder = s.decoder := rfl
@[simp] theorem State.logDevice_upstream (s : State) (c : LogCode) (i : Short) : (s.logDevice c i).upstream = s.upstream := rfl
@[simp] theorem State.logDevice_port (s : State) (c : LogCode) (i : Short) : (s.logDevice c i).port = s.port := rfl
@[simp] theorem State.logDevice_ram (s : State) (c : LogCode) (i : Short) : (s.logDevice c i).ram = s.ram := rfl
@[simp] theorem State.logDevice_window (s : State) (c : LogCode) (i : Short) : (s.logDevice c i).window = s.window := rfl
@[simp] theorem State.logDevice_arbiter (s : State) (c : LogCode) (i : Short) : (s.logDevice c i).arbiter = s.arbiter := rfl
@[simp] theorem State.logDevice_enables (s : State) (c : LogCode) (i : Short) : (s.logDevice c i).enables = s.enables := rfl
@[simp] theorem State.logDevice_restartWaiting (s : State) (c : LogCode) (i : Short) : (s.logDevice c i).restartWaiting = s.restartWaiting := rfl
@[simp] theorem State.logDevice_freeCount (s : State) (c : LogCode) (i : Short) : (s.logDevice c i).freeCount = s.freeCount := rfl
@[simp] theorem State.logDevice_pending (s : State) (c : LogCode) (i : Short) : (s.logDevice c i).pending = s.pending := rfl
@[simp] theorem State.logDevice_motor (s : State) (c : LogCode) (i : Short) (k : Motor) : (s.logDevice c i).motor k = s.motor k := by cases k <;> rfl

@[simp] theorem State.setReservations_inReset (s : State) (l : List Reservation) : (s.setReservations l).inReset = s.inReset := rfl
@[simp] theorem State.setReservations_timebase (s : State) (l : List Reservation) : (s.setReservations l).timebase = s.timebase := rfl
@[simp] theorem State.setReservations_placed (s : State) (l : List Reservation) : (s.setReservations l).placed = s.placed := rfl
@[simp] theorem State.setReservations_device (s : State) (l : List Reservation) : (s.setReservations l).device = s.device := rfl
@[simp] theorem State.setReservations_inputs (s : State) (l : List Reservation) : (s.setReservations l).inputs = s.inputs := rfl
@[simp] theorem State.setReservations_converter (s : State) (l : List Reservation) : (s.setReservations l).converter = s.converter := rfl
@[simp] theorem State.setReservations_decoder (s : State) (l : List Reservation) : (s.setReservations l).decoder = s.decoder := rfl
@[simp] theorem State.setReservations_upstream (s : State) (l : List Reservation) : (s.setReservations l).upstream = s.upstream := rfl
@[simp] theorem State.setReservations_port (s : State) (l : List Reservation) : (s.setReservations l).port = s.port := rfl
@[simp] theorem State.setReservations_ram (s : State) (l : List Reservation) : (s.setReservations l).ram = s.ram := rfl
@[simp] theorem State.setReservations_window (s : State) (l : List Reservation) : (s.setReservations l).window = s.window := rfl
@[simp] theorem State.setReservations_arbiter (s : State) (l : List Reservation) : (s.setReservations l).arbiter = s.arbiter := rfl
@[simp] theorem State.setReservations_log (s : State) (l : List Reservation) : (s.setReservations l).log = s.log := rfl
@[simp] theorem State.setReservations_enables (s : State) (l : List Reservation) : (s.setReservations l).enables = s.enables := rfl
@[simp] theorem State.setReservations_restartWaiting (s : State) (l : List Reservation) : (s.setReservations l).restartWaiting = s.restartWaiting := rfl
@[simp] theorem State.setReservations_freeCount (s : State) (l : List Reservation) : (s.setReservations l).freeCount = s.freeCount := rfl
@[simp] theorem State.setReservations_pending (s : State) (l : List Reservation) : (s.setReservations l).pending = s.pending := rfl
@[simp] theorem State.setReservations_motor (s : State) (l : List Reservation) (k : Motor) : (s.setReservations l).motor k = s.motor k := by cases k <;> rfl

@[simp] theorem State.setInput_inReset (s : State) (i : InputNumber) (r : InputRecord) : (s.setInput i r).inReset = s.inReset := rfl
@[simp] theorem State.setInput_timebase (s : State) (i : InputNumber) (r : InputRecord) : (s.setInput i r).timebase = s.timebase := rfl
@[simp] theorem State.setInput_placed (s : State) (i : InputNumber) (r : InputRecord) : (s.setInput i r).placed = s.placed := rfl
@[simp] theorem State.setInput_device (s : State) (i : InputNumber) (r : InputRecord) : (s.setInput i r).device = s.device := rfl
@[simp] theorem State.setInput_calendar (s : State) (i : InputNumber) (r : InputRecord) : (s.setInput i r).calendar = s.calendar := rfl
@[simp] theorem State.setInput_converter (s : State) (i : InputNumber) (r : InputRecord) : (s.setInput i r).converter = s.converter := rfl
@[simp] theorem State.setInput_decoder (s : State) (i : InputNumber) (r : InputRecord) : (s.setInput i r).decoder = s.decoder := rfl
@[simp] theorem State.setInput_upstream (s : State) (i : InputNumber) (r : InputRecord) : (s.setInput i r).upstream = s.upstream := rfl
@[simp] theorem State.setInput_port (s : State) (i : InputNumber) (r : InputRecord) : (s.setInput i r).port = s.port := rfl
@[simp] theorem State.setInput_ram (s : State) (i : InputNumber) (r : InputRecord) : (s.setInput i r).ram = s.ram := rfl
@[simp] theorem State.setInput_window (s : State) (i : InputNumber) (r : InputRecord) : (s.setInput i r).window = s.window := rfl
@[simp] theorem State.setInput_arbiter (s : State) (i : InputNumber) (r : InputRecord) : (s.setInput i r).arbiter = s.arbiter := rfl
@[simp] theorem State.setInput_log (s : State) (i : InputNumber) (r : InputRecord) : (s.setInput i r).log = s.log := rfl
@[simp] theorem State.setInput_enables (s : State) (i : InputNumber) (r : InputRecord) : (s.setInput i r).enables = s.enables := rfl
@[simp] theorem State.setInput_restartWaiting (s : State) (i : InputNumber) (r : InputRecord) : (s.setInput i r).restartWaiting = s.restartWaiting := rfl
@[simp] theorem State.setInput_freeCount (s : State) (i : InputNumber) (r : InputRecord) : (s.setInput i r).freeCount = s.freeCount := rfl
@[simp] theorem State.setInput_pending (s : State) (i : InputNumber) (r : InputRecord) : (s.setInput i r).pending = s.pending := rfl
@[simp] theorem State.setInput_motor (s : State) (i : InputNumber) (r : InputRecord) (k : Motor) : (s.setInput i r).motor k = s.motor k := by cases k <;> rfl

@[simp] theorem State.clearTraces_inReset (s : State) : (s.clearTraces).inReset = s.inReset := rfl
@[simp] theorem State.clearTraces_timebase (s : State) : (s.clearTraces).timebase = s.timebase := rfl
@[simp] theorem State.clearTraces_placed (s : State) : (s.clearTraces).placed = s.placed := rfl
@[simp] theorem State.clearTraces_device (s : State) : (s.clearTraces).device = s.device := rfl
@[simp] theorem State.clearTraces_inputs (s : State) : (s.clearTraces).inputs = s.inputs := rfl
@[simp] theorem State.clearTraces_calendar (s : State) : (s.clearTraces).calendar = s.calendar := rfl
@[simp] theorem State.clearTraces_converter (s : State) : (s.clearTraces).converter = s.converter := rfl
@[simp] theorem State.clearTraces_decoder (s : State) : (s.clearTraces).decoder = s.decoder := rfl
@[simp] theorem State.clearTraces_ram (s : State) : (s.clearTraces).ram = s.ram := rfl
@[simp] theorem State.clearTraces_window (s : State) : (s.clearTraces).window = s.window := rfl
@[simp] theorem State.clearTraces_arbiter (s : State) : (s.clearTraces).arbiter = s.arbiter := rfl
@[simp] theorem State.clearTraces_log (s : State) : (s.clearTraces).log = s.log := rfl
@[simp] theorem State.clearTraces_enables (s : State) : (s.clearTraces).enables = s.enables := rfl
@[simp] theorem State.clearTraces_restartWaiting (s : State) : (s.clearTraces).restartWaiting = s.restartWaiting := rfl
@[simp] theorem State.clearTraces_freeCount (s : State) : (s.clearTraces).freeCount = s.freeCount := rfl
@[simp] theorem State.clearTraces_pending (s : State) : (s.clearTraces).pending = s.pending := rfl
@[simp] theorem State.clearTraces_motor (s : State) (k : Motor) : (s.clearTraces).motor k = s.motor k := by cases k <;> rfl

@[simp] theorem State.issue_inReset (s : State) (b : List Byte) : (s.issue b).inReset = s.inReset := rfl
@[simp] theorem State.issue_timebase (s : State) (b : List Byte) : (s.issue b).timebase = s.timebase := rfl
@[simp] theorem State.issue_placed (s : State) (b : List Byte) : (s.issue b).placed = s.placed := rfl
@[simp] theorem State.issue_device (s : State) (b : List Byte) : (s.issue b).device = s.device := rfl
@[simp] theorem State.issue_inputs (s : State) (b : List Byte) : (s.issue b).inputs = s.inputs := rfl
@[simp] theorem State.issue_calendar (s : State) (b : List Byte) : (s.issue b).calendar = s.calendar := rfl
@[simp] theorem State.issue_converter (s : State) (b : List Byte) : (s.issue b).converter = s.converter := rfl
@[simp] theorem State.issue_decoder (s : State) (b : List Byte) : (s.issue b).decoder = s.decoder := rfl
@[simp] theorem State.issue_upstream (s : State) (b : List Byte) : (s.issue b).upstream = s.upstream := rfl
@[simp] theorem State.issue_ram (s : State) (b : List Byte) : (s.issue b).ram = s.ram := rfl
@[simp] theorem State.issue_window (s : State) (b : List Byte) : (s.issue b).window = s.window := rfl
@[simp] theorem State.issue_arbiter (s : State) (b : List Byte) : (s.issue b).arbiter = s.arbiter := rfl
@[simp] theorem State.issue_log (s : State) (b : List Byte) : (s.issue b).log = s.log := rfl
@[simp] theorem State.issue_enables (s : State) (b : List Byte) : (s.issue b).enables = s.enables := rfl
@[simp] theorem State.issue_restartWaiting (s : State) (b : List Byte) : (s.issue b).restartWaiting = s.restartWaiting := rfl
@[simp] theorem State.issue_freeCount (s : State) (b : List Byte) : (s.issue b).freeCount = s.freeCount := rfl
@[simp] theorem State.issue_pending (s : State) (b : List Byte) : (s.issue b).pending = s.pending := rfl
@[simp] theorem State.issue_motor (s : State) (b : List Byte) (k : Motor) : (s.issue b).motor k = s.motor k := by cases k <;> rfl

@[simp] theorem State.onDecoder_inReset (s : State) (f : Decoder → Decoder) : (s.onDecoder f).inReset = s.inReset := rfl
@[simp] theorem State.onDecoder_timebase (s : State) (f : Decoder → Decoder) : (s.onDecoder f).timebase = s.timebase := rfl
@[simp] theorem State.onDecoder_placed (s : State) (f : Decoder → Decoder) : (s.onDecoder f).placed = s.placed := rfl
@[simp] theorem State.onDecoder_device (s : State) (f : Decoder → Decoder) : (s.onDecoder f).device = s.device := rfl
@[simp] theorem State.onDecoder_inputs (s : State) (f : Decoder → Decoder) : (s.onDecoder f).inputs = s.inputs := rfl
@[simp] theorem State.onDecoder_calendar (s : State) (f : Decoder → Decoder) : (s.onDecoder f).calendar = s.calendar := rfl
@[simp] theorem State.onDecoder_converter (s : State) (f : Decoder → Decoder) : (s.onDecoder f).converter = s.converter := rfl
@[simp] theorem State.onDecoder_upstream (s : State) (f : Decoder → Decoder) : (s.onDecoder f).upstream = s.upstream := rfl
@[simp] theorem State.onDecoder_port (s : State) (f : Decoder → Decoder) : (s.onDecoder f).port = s.port := rfl
@[simp] theorem State.onDecoder_ram (s : State) (f : Decoder → Decoder) : (s.onDecoder f).ram = s.ram := rfl
@[simp] theorem State.onDecoder_window (s : State) (f : Decoder → Decoder) : (s.onDecoder f).window = s.window := rfl
@[simp] theorem State.onDecoder_arbiter (s : State) (f : Decoder → Decoder) : (s.onDecoder f).arbiter = s.arbiter := rfl
@[simp] theorem State.onDecoder_log (s : State) (f : Decoder → Decoder) : (s.onDecoder f).log = s.log := rfl
@[simp] theorem State.onDecoder_enables (s : State) (f : Decoder → Decoder) : (s.onDecoder f).enables = s.enables := rfl
@[simp] theorem State.onDecoder_restartWaiting (s : State) (f : Decoder → Decoder) : (s.onDecoder f).restartWaiting = s.restartWaiting := rfl
@[simp] theorem State.onDecoder_freeCount (s : State) (f : Decoder → Decoder) : (s.onDecoder f).freeCount = s.freeCount := rfl
@[simp] theorem State.onDecoder_pending (s : State) (f : Decoder → Decoder) : (s.onDecoder f).pending = s.pending := rfl
@[simp] theorem State.onDecoder_decoder (s : State) (f : Decoder → Decoder) : (s.onDecoder f).decoder = f s.decoder := rfl
@[simp] theorem State.onDecoder_motor (s : State) (f : Decoder → Decoder) (k : Motor) : (s.onDecoder f).motor k = s.motor k := by
  cases k <;> rfl

@[simp] theorem State.selectRises_inReset (s : State) : (s.selectRises).inReset = s.inReset := rfl
@[simp] theorem State.selectRises_timebase (s : State) : (s.selectRises).timebase = s.timebase := rfl
@[simp] theorem State.selectRises_placed (s : State) : (s.selectRises).placed = s.placed := rfl
@[simp] theorem State.selectRises_device (s : State) : (s.selectRises).device = s.device := rfl
@[simp] theorem State.selectRises_inputs (s : State) : (s.selectRises).inputs = s.inputs := rfl
@[simp] theorem State.selectRises_calendar (s : State) : (s.selectRises).calendar = s.calendar := rfl
@[simp] theorem State.selectRises_converter (s : State) : (s.selectRises).converter = s.converter := rfl
@[simp] theorem State.selectRises_port (s : State) : (s.selectRises).port = s.port := rfl
@[simp] theorem State.selectRises_ram (s : State) : (s.selectRises).ram = s.ram := rfl
@[simp] theorem State.selectRises_window (s : State) : (s.selectRises).window = s.window := rfl
@[simp] theorem State.selectRises_log (s : State) : (s.selectRises).log = s.log := rfl
@[simp] theorem State.selectRises_enables (s : State) : (s.selectRises).enables = s.enables := rfl
@[simp] theorem State.selectRises_restartWaiting (s : State) : (s.selectRises).restartWaiting = s.restartWaiting := rfl
@[simp] theorem State.selectRises_freeCount (s : State) : (s.selectRises).freeCount = s.freeCount := rfl
@[simp] theorem State.selectRises_pending (s : State) : (s.selectRises).pending = s.pending := rfl
@[simp] theorem State.selectRises_motor (s : State) (k : Motor) : (s.selectRises).motor k = s.motor k := by cases k <;> rfl

@[simp] theorem State.logMotor_log (s : State) (m : Motor) (c : LogCode) (i : Short) :
    (s.logMotor m c i).log = s.log.add ⟨c, .motor m, i, (s.motor m).channel.periodCount⟩ := rfl

@[simp] theorem State.logDevice_log (s : State) (c : LogCode) (i : Short) :
    (s.logDevice c i).log = s.log.add ⟨c, .device, i, s.timebase⟩ := rfl

@[simp] theorem State.setReservations_calendar (s : State) (l : List Reservation) :
    (s.setReservations l).calendar = { s.calendar with reservations := l } := rfl

@[simp] theorem State.notePlacement_inReset (s : State) (m : Motor) (b : Instant) : (s.notePlacement m b).inReset = s.inReset := by unfold State.notePlacement; split <;> rfl
@[simp] theorem State.notePlacement_timebase (s : State) (m : Motor) (b : Instant) : (s.notePlacement m b).timebase = s.timebase := by unfold State.notePlacement; split <;> rfl
@[simp] theorem State.notePlacement_device (s : State) (m : Motor) (b : Instant) : (s.notePlacement m b).device = s.device := by unfold State.notePlacement; split <;> rfl
@[simp] theorem State.notePlacement_inputs (s : State) (m : Motor) (b : Instant) : (s.notePlacement m b).inputs = s.inputs := by unfold State.notePlacement; split <;> rfl
@[simp] theorem State.notePlacement_converter (s : State) (m : Motor) (b : Instant) : (s.notePlacement m b).converter = s.converter := by unfold State.notePlacement; split <;> rfl
@[simp] theorem State.notePlacement_decoder (s : State) (m : Motor) (b : Instant) : (s.notePlacement m b).decoder = s.decoder := by unfold State.notePlacement; split <;> rfl
@[simp] theorem State.notePlacement_upstream (s : State) (m : Motor) (b : Instant) : (s.notePlacement m b).upstream = s.upstream := by unfold State.notePlacement; split <;> rfl
@[simp] theorem State.notePlacement_port (s : State) (m : Motor) (b : Instant) : (s.notePlacement m b).port = s.port := by unfold State.notePlacement; split <;> rfl
@[simp] theorem State.notePlacement_ram (s : State) (m : Motor) (b : Instant) : (s.notePlacement m b).ram = s.ram := by unfold State.notePlacement; split <;> rfl
@[simp] theorem State.notePlacement_window (s : State) (m : Motor) (b : Instant) : (s.notePlacement m b).window = s.window := by unfold State.notePlacement; split <;> rfl
@[simp] theorem State.notePlacement_arbiter (s : State) (m : Motor) (b : Instant) : (s.notePlacement m b).arbiter = s.arbiter := by unfold State.notePlacement; split <;> rfl
@[simp] theorem State.notePlacement_log (s : State) (m : Motor) (b : Instant) : (s.notePlacement m b).log = s.log := by unfold State.notePlacement; split <;> rfl
@[simp] theorem State.notePlacement_enables (s : State) (m : Motor) (b : Instant) : (s.notePlacement m b).enables = s.enables := by unfold State.notePlacement; split <;> rfl
@[simp] theorem State.notePlacement_restartWaiting (s : State) (m : Motor) (b : Instant) : (s.notePlacement m b).restartWaiting = s.restartWaiting := by unfold State.notePlacement; split <;> rfl
@[simp] theorem State.notePlacement_freeCount (s : State) (m : Motor) (b : Instant) : (s.notePlacement m b).freeCount = s.freeCount := by unfold State.notePlacement; split <;> rfl
@[simp] theorem State.notePlacement_pending (s : State) (m : Motor) (b : Instant) : (s.notePlacement m b).pending = s.pending := by unfold State.notePlacement; split <;> rfl
@[simp] theorem State.notePlacement_calendar (s : State) (m : Motor) (b : Instant) : (s.notePlacement m b).calendar = s.calendar := by unfold State.notePlacement; split <;> rfl
@[simp] theorem State.notePlacement_motor (s : State) (m : Motor) (b : Instant) (k : Motor) : (s.notePlacement m b).motor k = s.motor k := by
  unfold State.notePlacement; split <;> cases k <;> rfl

theorem State.placedAbove_false {s : State} {m : Motor} :
    s.placedAbove m = false ↔ ∀ k, s.placed = some k → k.number ≤ m.number := by
  unfold State.placedAbove
  cases s.placed <;> simp

@[simp] theorem State.moveTo_inReset (s : State) (i : Instant) : (s.moveTo i).inReset = s.inReset := rfl
@[simp] theorem State.moveTo_device (s : State) (i : Instant) : (s.moveTo i).device = s.device := rfl
@[simp] theorem State.moveTo_inputs (s : State) (i : Instant) : (s.moveTo i).inputs = s.inputs := rfl
@[simp] theorem State.moveTo_calendar (s : State) (i : Instant) : (s.moveTo i).calendar = s.calendar := rfl
@[simp] theorem State.moveTo_converter (s : State) (i : Instant) : (s.moveTo i).converter = s.converter := rfl
@[simp] theorem State.moveTo_decoder (s : State) (i : Instant) : (s.moveTo i).decoder = s.decoder := rfl
@[simp] theorem State.moveTo_upstream (s : State) (i : Instant) : (s.moveTo i).upstream = s.upstream := rfl
@[simp] theorem State.moveTo_port (s : State) (i : Instant) : (s.moveTo i).port = s.port := rfl
@[simp] theorem State.moveTo_ram (s : State) (i : Instant) : (s.moveTo i).ram = s.ram := rfl
@[simp] theorem State.moveTo_window (s : State) (i : Instant) : (s.moveTo i).window = s.window := rfl
@[simp] theorem State.moveTo_arbiter (s : State) (i : Instant) : (s.moveTo i).arbiter = s.arbiter := rfl
@[simp] theorem State.moveTo_log (s : State) (i : Instant) : (s.moveTo i).log = s.log := rfl
@[simp] theorem State.moveTo_enables (s : State) (i : Instant) : (s.moveTo i).enables = s.enables := rfl
@[simp] theorem State.moveTo_restartWaiting (s : State) (i : Instant) : (s.moveTo i).restartWaiting = s.restartWaiting := rfl
@[simp] theorem State.moveTo_freeCount (s : State) (i : Instant) : (s.moveTo i).freeCount = s.freeCount := rfl
@[simp] theorem State.moveTo_pending (s : State) (i : Instant) : (s.moveTo i).pending = s.pending := rfl
@[simp] theorem State.moveTo_m0 (s : State) (i : Instant) : (s.moveTo i).m0 = s.m0 := rfl
@[simp] theorem State.moveTo_m1 (s : State) (i : Instant) : (s.moveTo i).m1 = s.m1 := rfl
@[simp] theorem State.moveTo_m2 (s : State) (i : Instant) : (s.moveTo i).m2 = s.m2 := rfl
@[simp] theorem State.moveTo_timebase (s : State) (i : Instant) : (s.moveTo i).timebase = i := rfl
@[simp] theorem State.moveTo_motor (s : State) (i : Instant) (k : Motor) : (s.moveTo i).motor k = s.motor k := by cases k <;> rfl
@[simp] theorem State.moveTo_timebase_self (s : State) : s.moveTo s.timebase = s := by simp [State.moveTo]
theorem State.moveTo_placed (s : State) {i : Instant} (h : i ≠ s.timebase) : (s.moveTo i).placed = none := if_neg h

@[simp] theorem State.atInstant_inReset (s : State) (t : Instant) : (s.atInstant t).inReset = s.inReset := by unfold State.atInstant; split <;> rfl
@[simp] theorem State.atInstant_device (s : State) (t : Instant) : (s.atInstant t).device = s.device := by unfold State.atInstant; split <;> rfl
@[simp] theorem State.atInstant_inputs (s : State) (t : Instant) : (s.atInstant t).inputs = s.inputs := by unfold State.atInstant; split <;> rfl
@[simp] theorem State.atInstant_calendar (s : State) (t : Instant) : (s.atInstant t).calendar = s.calendar := by unfold State.atInstant; split <;> rfl
@[simp] theorem State.atInstant_converter (s : State) (t : Instant) : (s.atInstant t).converter = s.converter := by unfold State.atInstant; split <;> rfl
@[simp] theorem State.atInstant_decoder (s : State) (t : Instant) : (s.atInstant t).decoder = s.decoder := by unfold State.atInstant; split <;> rfl
@[simp] theorem State.atInstant_upstream (s : State) (t : Instant) : (s.atInstant t).upstream = s.upstream := by unfold State.atInstant; split <;> rfl
@[simp] theorem State.atInstant_port (s : State) (t : Instant) : (s.atInstant t).port = s.port := by unfold State.atInstant; split <;> rfl
@[simp] theorem State.atInstant_ram (s : State) (t : Instant) : (s.atInstant t).ram = s.ram := by unfold State.atInstant; split <;> rfl
@[simp] theorem State.atInstant_window (s : State) (t : Instant) : (s.atInstant t).window = s.window := by unfold State.atInstant; split <;> rfl
@[simp] theorem State.atInstant_arbiter (s : State) (t : Instant) : (s.atInstant t).arbiter = s.arbiter := by unfold State.atInstant; split <;> rfl
@[simp] theorem State.atInstant_log (s : State) (t : Instant) : (s.atInstant t).log = s.log := by unfold State.atInstant; split <;> rfl
@[simp] theorem State.atInstant_enables (s : State) (t : Instant) : (s.atInstant t).enables = s.enables := by unfold State.atInstant; split <;> rfl
@[simp] theorem State.atInstant_restartWaiting (s : State) (t : Instant) : (s.atInstant t).restartWaiting = s.restartWaiting := by unfold State.atInstant; split <;> rfl
@[simp] theorem State.atInstant_freeCount (s : State) (t : Instant) : (s.atInstant t).freeCount = s.freeCount := by unfold State.atInstant; split <;> rfl
@[simp] theorem State.atInstant_pending (s : State) (t : Instant) : (s.atInstant t).pending = s.pending := by unfold State.atInstant; split <;> rfl
@[simp] theorem State.atInstant_motor (s : State) (t : Instant) (k : Motor) : (s.atInstant t).motor k = s.motor k := by
  unfold State.atInstant; split <;> cases k <;> rfl

@[simp] theorem State.atInstant_m0 (s : State) (t : Instant) : (s.atInstant t).m0 = s.m0 := by unfold State.atInstant; split <;> rfl
@[simp] theorem State.atInstant_m1 (s : State) (t : Instant) : (s.atInstant t).m1 = s.m1 := by unfold State.atInstant; split <;> rfl
@[simp] theorem State.atInstant_m2 (s : State) (t : Instant) : (s.atInstant t).m2 = s.m2 := by unfold State.atInstant; split <;> rfl
@[simp] theorem State.atInstant_setMotor_motor (s : State) (t : Instant) (k : Motor) : (s.atInstant t).setMotor k (s.motor k) = s.atInstant t := by
  unfold State.atInstant; split <;> cases k <;> rfl

theorem State.atInstant_timebase (s : State) (t : Instant) :
    (s.atInstant t).timebase = if reached s.timebase t then t else s.timebase := by
  unfold State.atInstant; split <;> rfl

@[simp] theorem MotorUnit.onTracker_settings (u : MotorUnit) (f : Tracker → Tracker) : (u.onTracker f).settings = u.settings := rfl
@[simp] theorem MotorUnit.onTracker_channel (u : MotorUnit) (f : Tracker → Tracker) : (u.onTracker f).channel = u.channel := rfl
@[simp] theorem MotorUnit.onTracker_slotA (u : MotorUnit) (f : Tracker → Tracker) : (u.onTracker f).slotA = u.slotA := rfl
@[simp] theorem MotorUnit.onTracker_slotB (u : MotorUnit) (f : Tracker → Tracker) : (u.onTracker f).slotB = u.slotB := rfl
@[simp] theorem MotorUnit.onTracker_hallCode (u : MotorUnit) (f : Tracker → Tracker) : (u.onTracker f).hallCode = u.hallCode := rfl
@[simp] theorem MotorUnit.onTracker_marks (u : MotorUnit) (f : Tracker → Tracker) : (u.onTracker f).marks = u.marks := rfl
@[simp] theorem MotorUnit.onTracker_frames (u : MotorUnit) (f : Tracker → Tracker) : (u.onTracker f).frames = u.frames := rfl
@[simp] theorem MotorUnit.onTracker_attention (u : MotorUnit) (f : Tracker → Tracker) : (u.onTracker f).attention = u.attention := rfl

@[simp] theorem MotorUnit.onFrames_settings (u : MotorUnit) (f : FrameAssembler → FrameAssembler) : (u.onFrames f).settings = u.settings := rfl
@[simp] theorem MotorUnit.onFrames_channel (u : MotorUnit) (f : FrameAssembler → FrameAssembler) : (u.onFrames f).channel = u.channel := rfl
@[simp] theorem MotorUnit.onFrames_slotA (u : MotorUnit) (f : FrameAssembler → FrameAssembler) : (u.onFrames f).slotA = u.slotA := rfl
@[simp] theorem MotorUnit.onFrames_slotB (u : MotorUnit) (f : FrameAssembler → FrameAssembler) : (u.onFrames f).slotB = u.slotB := rfl
@[simp] theorem MotorUnit.onFrames_hallCode (u : MotorUnit) (f : FrameAssembler → FrameAssembler) : (u.onFrames f).hallCode = u.hallCode := rfl
@[simp] theorem MotorUnit.onFrames_tracker (u : MotorUnit) (f : FrameAssembler → FrameAssembler) : (u.onFrames f).tracker = u.tracker := rfl
@[simp] theorem MotorUnit.onFrames_marks (u : MotorUnit) (f : FrameAssembler → FrameAssembler) : (u.onFrames f).marks = u.marks := rfl
@[simp] theorem MotorUnit.onFrames_attention (u : MotorUnit) (f : FrameAssembler → FrameAssembler) : (u.onFrames f).attention = u.attention := rfl

@[simp] theorem MotorUnit.setSettings_channel (st : MotorSettings) (u : MotorUnit) : (u.setSettings st).channel = u.channel := rfl
@[simp] theorem MotorUnit.setSettings_slotA (st : MotorSettings) (u : MotorUnit) : (u.setSettings st).slotA = u.slotA := rfl
@[simp] theorem MotorUnit.setSettings_slotB (st : MotorSettings) (u : MotorUnit) : (u.setSettings st).slotB = u.slotB := rfl
@[simp] theorem MotorUnit.setSettings_hallCode (st : MotorSettings) (u : MotorUnit) : (u.setSettings st).hallCode = u.hallCode := rfl
@[simp] theorem MotorUnit.setSettings_tracker (st : MotorSettings) (u : MotorUnit) : (u.setSettings st).tracker = u.tracker := rfl
@[simp] theorem MotorUnit.setSettings_marks (st : MotorSettings) (u : MotorUnit) : (u.setSettings st).marks = u.marks := rfl
@[simp] theorem MotorUnit.setSettings_frames (st : MotorSettings) (u : MotorUnit) : (u.setSettings st).frames = u.frames := rfl
@[simp] theorem MotorUnit.setSettings_attention (st : MotorSettings) (u : MotorUnit) : (u.setSettings st).attention = u.attention := rfl

@[simp] theorem MotorUnit.setState_settings (c : ChannelState) (u : MotorUnit) : (u.setState c).settings = u.settings := rfl
@[simp] theorem MotorUnit.setState_slotA (c : ChannelState) (u : MotorUnit) : (u.setState c).slotA = u.slotA := rfl
@[simp] theorem MotorUnit.setState_slotB (c : ChannelState) (u : MotorUnit) : (u.setState c).slotB = u.slotB := rfl
@[simp] theorem MotorUnit.setState_hallCode (c : ChannelState) (u : MotorUnit) : (u.setState c).hallCode = u.hallCode := rfl
@[simp] theorem MotorUnit.setState_tracker (c : ChannelState) (u : MotorUnit) : (u.setState c).tracker = u.tracker := rfl
@[simp] theorem MotorUnit.setState_marks (c : ChannelState) (u : MotorUnit) : (u.setState c).marks = u.marks := rfl
@[simp] theorem MotorUnit.setState_frames (c : ChannelState) (u : MotorUnit) : (u.setState c).frames = u.frames := rfl
@[simp] theorem MotorUnit.setState_attention (c : ChannelState) (u : MotorUnit) : (u.setState c).attention = u.attention := rfl

@[simp] theorem MotorUnit.setStep_settings (k : Nat) (u : MotorUnit) : (u.setStep k).settings = u.settings := rfl
@[simp] theorem MotorUnit.setStep_slotA (k : Nat) (u : MotorUnit) : (u.setStep k).slotA = u.slotA := rfl
@[simp] theorem MotorUnit.setStep_slotB (k : Nat) (u : MotorUnit) : (u.setStep k).slotB = u.slotB := rfl
@[simp] theorem MotorUnit.setStep_hallCode (k : Nat) (u : MotorUnit) : (u.setStep k).hallCode = u.hallCode := rfl
@[simp] theorem MotorUnit.setStep_tracker (k : Nat) (u : MotorUnit) : (u.setStep k).tracker = u.tracker := rfl
@[simp] theorem MotorUnit.setStep_marks (k : Nat) (u : MotorUnit) : (u.setStep k).marks = u.marks := rfl
@[simp] theorem MotorUnit.setStep_frames (k : Nat) (u : MotorUnit) : (u.setStep k).frames = u.frames := rfl
@[simp] theorem MotorUnit.setStep_attention (k : Nat) (u : MotorUnit) : (u.setStep k).attention = u.attention := rfl

@[simp] theorem MotorUnit.startPeriod_settings (b : Instant) (u : MotorUnit) : (u.startPeriod b).settings = u.settings := rfl
@[simp] theorem MotorUnit.startPeriod_slotA (b : Instant) (u : MotorUnit) : (u.startPeriod b).slotA = u.slotA := rfl
@[simp] theorem MotorUnit.startPeriod_slotB (b : Instant) (u : MotorUnit) : (u.startPeriod b).slotB = u.slotB := rfl
@[simp] theorem MotorUnit.startPeriod_hallCode (b : Instant) (u : MotorUnit) : (u.startPeriod b).hallCode = u.hallCode := rfl
@[simp] theorem MotorUnit.startPeriod_tracker (b : Instant) (u : MotorUnit) : (u.startPeriod b).tracker = u.tracker := rfl
@[simp] theorem MotorUnit.startPeriod_marks (b : Instant) (u : MotorUnit) : (u.startPeriod b).marks = u.marks := rfl
@[simp] theorem MotorUnit.startPeriod_frames (b : Instant) (u : MotorUnit) : (u.startPeriod b).frames = u.frames := rfl
@[simp] theorem MotorUnit.startPeriod_attention (b : Instant) (u : MotorUnit) : (u.startPeriod b).attention = u.attention := rfl

@[simp] theorem MotorUnit.countPeriod_settings (u : MotorUnit) : (u.countPeriod).settings = u.settings := rfl
@[simp] theorem MotorUnit.countPeriod_slotA (u : MotorUnit) : (u.countPeriod).slotA = u.slotA := rfl
@[simp] theorem MotorUnit.countPeriod_slotB (u : MotorUnit) : (u.countPeriod).slotB = u.slotB := rfl
@[simp] theorem MotorUnit.countPeriod_hallCode (u : MotorUnit) : (u.countPeriod).hallCode = u.hallCode := rfl
@[simp] theorem MotorUnit.countPeriod_tracker (u : MotorUnit) : (u.countPeriod).tracker = u.tracker := rfl
@[simp] theorem MotorUnit.countPeriod_marks (u : MotorUnit) : (u.countPeriod).marks = u.marks := rfl
@[simp] theorem MotorUnit.countPeriod_frames (u : MotorUnit) : (u.countPeriod).frames = u.frames := rfl
@[simp] theorem MotorUnit.countPeriod_attention (u : MotorUnit) : (u.countPeriod).attention = u.attention := rfl

@[simp] theorem MotorUnit.setNarrow_settings (c : Short) (u : MotorUnit) : (u.setNarrow c).settings = u.settings := rfl
@[simp] theorem MotorUnit.setNarrow_slotA (c : Short) (u : MotorUnit) : (u.setNarrow c).slotA = u.slotA := rfl
@[simp] theorem MotorUnit.setNarrow_slotB (c : Short) (u : MotorUnit) : (u.setNarrow c).slotB = u.slotB := rfl
@[simp] theorem MotorUnit.setNarrow_hallCode (c : Short) (u : MotorUnit) : (u.setNarrow c).hallCode = u.hallCode := rfl
@[simp] theorem MotorUnit.setNarrow_tracker (c : Short) (u : MotorUnit) : (u.setNarrow c).tracker = u.tracker := rfl
@[simp] theorem MotorUnit.setNarrow_marks (c : Short) (u : MotorUnit) : (u.setNarrow c).marks = u.marks := rfl
@[simp] theorem MotorUnit.setNarrow_frames (c : Short) (u : MotorUnit) : (u.setNarrow c).frames = u.frames := rfl
@[simp] theorem MotorUnit.setNarrow_attention (c : Short) (u : MotorUnit) : (u.setNarrow c).attention = u.attention := rfl

@[simp] theorem MotorUnit.stopCarrier_settings (u : MotorUnit) : (u.stopCarrier).settings = u.settings := rfl
@[simp] theorem MotorUnit.stopCarrier_slotA (u : MotorUnit) : (u.stopCarrier).slotA = u.slotA := rfl
@[simp] theorem MotorUnit.stopCarrier_slotB (u : MotorUnit) : (u.stopCarrier).slotB = u.slotB := rfl
@[simp] theorem MotorUnit.stopCarrier_hallCode (u : MotorUnit) : (u.stopCarrier).hallCode = u.hallCode := rfl
@[simp] theorem MotorUnit.stopCarrier_tracker (u : MotorUnit) : (u.stopCarrier).tracker = u.tracker := rfl
@[simp] theorem MotorUnit.stopCarrier_marks (u : MotorUnit) : (u.stopCarrier).marks = u.marks := rfl
@[simp] theorem MotorUnit.stopCarrier_frames (u : MotorUnit) : (u.stopCarrier).frames = u.frames := rfl
@[simp] theorem MotorUnit.stopCarrier_attention (u : MotorUnit) : (u.stopCarrier).attention = u.attention := rfl

@[simp] theorem MotorUnit.setFault_settings (b : Bool) (u : MotorUnit) : (u.setFault b).settings = u.settings := rfl
@[simp] theorem MotorUnit.setFault_slotA (b : Bool) (u : MotorUnit) : (u.setFault b).slotA = u.slotA := rfl
@[simp] theorem MotorUnit.setFault_slotB (b : Bool) (u : MotorUnit) : (u.setFault b).slotB = u.slotB := rfl
@[simp] theorem MotorUnit.setFault_hallCode (b : Bool) (u : MotorUnit) : (u.setFault b).hallCode = u.hallCode := rfl
@[simp] theorem MotorUnit.setFault_tracker (b : Bool) (u : MotorUnit) : (u.setFault b).tracker = u.tracker := rfl
@[simp] theorem MotorUnit.setFault_marks (b : Bool) (u : MotorUnit) : (u.setFault b).marks = u.marks := rfl
@[simp] theorem MotorUnit.setFault_frames (b : Bool) (u : MotorUnit) : (u.setFault b).frames = u.frames := rfl
@[simp] theorem MotorUnit.setFault_attention (b : Bool) (u : MotorUnit) : (u.setFault b).attention = u.attention := rfl

@[simp] theorem MotorUnit.setHallCode_settings (c : HallCode) (u : MotorUnit) : (u.setHallCode c).settings = u.settings := rfl
@[simp] theorem MotorUnit.setHallCode_channel (c : HallCode) (u : MotorUnit) : (u.setHallCode c).channel = u.channel := rfl
@[simp] theorem MotorUnit.setHallCode_slotA (c : HallCode) (u : MotorUnit) : (u.setHallCode c).slotA = u.slotA := rfl
@[simp] theorem MotorUnit.setHallCode_slotB (c : HallCode) (u : MotorUnit) : (u.setHallCode c).slotB = u.slotB := rfl
@[simp] theorem MotorUnit.setHallCode_tracker (c : HallCode) (u : MotorUnit) : (u.setHallCode c).tracker = u.tracker := rfl
@[simp] theorem MotorUnit.setHallCode_marks (c : HallCode) (u : MotorUnit) : (u.setHallCode c).marks = u.marks := rfl
@[simp] theorem MotorUnit.setHallCode_frames (c : HallCode) (u : MotorUnit) : (u.setHallCode c).frames = u.frames := rfl
@[simp] theorem MotorUnit.setHallCode_attention (c : HallCode) (u : MotorUnit) : (u.setHallCode c).attention = u.attention := rfl

@[simp] theorem MotorUnit.releaseSlots_settings (u : MotorUnit) : (u.releaseSlots).settings = u.settings := rfl
@[simp] theorem MotorUnit.releaseSlots_channel (u : MotorUnit) : (u.releaseSlots).channel = u.channel := rfl
@[simp] theorem MotorUnit.releaseSlots_hallCode (u : MotorUnit) : (u.releaseSlots).hallCode = u.hallCode := rfl
@[simp] theorem MotorUnit.releaseSlots_tracker (u : MotorUnit) : (u.releaseSlots).tracker = u.tracker := rfl
@[simp] theorem MotorUnit.releaseSlots_marks (u : MotorUnit) : (u.releaseSlots).marks = u.marks := rfl
@[simp] theorem MotorUnit.releaseSlots_frames (u : MotorUnit) : (u.releaseSlots).frames = u.frames := rfl
@[simp] theorem MotorUnit.releaseSlots_attention (u : MotorUnit) : (u.releaseSlots).attention = u.attention := rfl

@[simp] theorem MotorUnit.allOff_settings (t : Instant) (u : MotorUnit) : (u.allOff t).settings = u.settings := rfl
@[simp] theorem MotorUnit.allOff_slotA (t : Instant) (u : MotorUnit) : (u.allOff t).slotA = u.slotA := rfl
@[simp] theorem MotorUnit.allOff_slotB (t : Instant) (u : MotorUnit) : (u.allOff t).slotB = u.slotB := rfl
@[simp] theorem MotorUnit.allOff_hallCode (t : Instant) (u : MotorUnit) : (u.allOff t).hallCode = u.hallCode := rfl
@[simp] theorem MotorUnit.allOff_tracker (t : Instant) (u : MotorUnit) : (u.allOff t).tracker = u.tracker := rfl
@[simp] theorem MotorUnit.allOff_marks (t : Instant) (u : MotorUnit) : (u.allOff t).marks = u.marks := rfl
@[simp] theorem MotorUnit.allOff_frames (t : Instant) (u : MotorUnit) : (u.allOff t).frames = u.frames := rfl
@[simp] theorem MotorUnit.allOff_attention (t : Instant) (u : MotorUnit) : (u.allOff t).attention = u.attention := rfl

@[simp] theorem MotorUnit.driveCurrent_settings (u : MotorUnit) : (u.driveCurrent).settings = u.settings := rfl
@[simp] theorem MotorUnit.driveCurrent_slotA (u : MotorUnit) : (u.driveCurrent).slotA = u.slotA := rfl
@[simp] theorem MotorUnit.driveCurrent_slotB (u : MotorUnit) : (u.driveCurrent).slotB = u.slotB := rfl
@[simp] theorem MotorUnit.driveCurrent_hallCode (u : MotorUnit) : (u.driveCurrent).hallCode = u.hallCode := rfl
@[simp] theorem MotorUnit.driveCurrent_tracker (u : MotorUnit) : (u.driveCurrent).tracker = u.tracker := rfl
@[simp] theorem MotorUnit.driveCurrent_marks (u : MotorUnit) : (u.driveCurrent).marks = u.marks := rfl
@[simp] theorem MotorUnit.driveCurrent_frames (u : MotorUnit) : (u.driveCurrent).frames = u.frames := rfl
@[simp] theorem MotorUnit.driveCurrent_attention (u : MotorUnit) : (u.driveCurrent).attention = u.attention := rfl

@[simp] theorem MotorUnit.driveLegs_settings (t b : Instant) (d0 d1 d2 : LegDrive) (u : MotorUnit) : (u.driveLegs t b d0 d1 d2).settings = u.settings := rfl
@[simp] theorem MotorUnit.driveLegs_slotA (t b : Instant) (d0 d1 d2 : LegDrive) (u : MotorUnit) : (u.driveLegs t b d0 d1 d2).slotA = u.slotA := rfl
@[simp] theorem MotorUnit.driveLegs_slotB (t b : Instant) (d0 d1 d2 : LegDrive) (u : MotorUnit) : (u.driveLegs t b d0 d1 d2).slotB = u.slotB := rfl
@[simp] theorem MotorUnit.driveLegs_hallCode (t b : Instant) (d0 d1 d2 : LegDrive) (u : MotorUnit) : (u.driveLegs t b d0 d1 d2).hallCode = u.hallCode := rfl
@[simp] theorem MotorUnit.driveLegs_tracker (t b : Instant) (d0 d1 d2 : LegDrive) (u : MotorUnit) : (u.driveLegs t b d0 d1 d2).tracker = u.tracker := rfl
@[simp] theorem MotorUnit.driveLegs_marks (t b : Instant) (d0 d1 d2 : LegDrive) (u : MotorUnit) : (u.driveLegs t b d0 d1 d2).marks = u.marks := rfl
@[simp] theorem MotorUnit.driveLegs_frames (t b : Instant) (d0 d1 d2 : LegDrive) (u : MotorUnit) : (u.driveLegs t b d0 d1 d2).frames = u.frames := rfl
@[simp] theorem MotorUnit.driveLegs_attention (t b : Instant) (d0 d1 d2 : LegDrive) (u : MotorUnit) : (u.driveLegs t b d0 d1 d2).attention = u.attention := rfl

@[simp] theorem MotorUnit.setSlot_settings (u : MotorUnit) (n : SlotName) (p : PlanSlot) : (u.setSlot n p).settings = u.settings := by cases n <;> rfl
@[simp] theorem MotorUnit.onSlot_settings (u : MotorUnit) (n : SlotName) (f : PlanSlot → PlanSlot) : (u.onSlot n f).settings = u.settings := by cases n <;> rfl
@[simp] theorem MotorUnit.setSlot_channel (u : MotorUnit) (n : SlotName) (p : PlanSlot) : (u.setSlot n p).channel = u.channel := by cases n <;> rfl
@[simp] theorem MotorUnit.onSlot_channel (u : MotorUnit) (n : SlotName) (f : PlanSlot → PlanSlot) : (u.onSlot n f).channel = u.channel := by cases n <;> rfl
@[simp] theorem MotorUnit.setSlot_hallCode (u : MotorUnit) (n : SlotName) (p : PlanSlot) : (u.setSlot n p).hallCode = u.hallCode := by cases n <;> rfl
@[simp] theorem MotorUnit.onSlot_hallCode (u : MotorUnit) (n : SlotName) (f : PlanSlot → PlanSlot) : (u.onSlot n f).hallCode = u.hallCode := by cases n <;> rfl
@[simp] theorem MotorUnit.setSlot_tracker (u : MotorUnit) (n : SlotName) (p : PlanSlot) : (u.setSlot n p).tracker = u.tracker := by cases n <;> rfl
@[simp] theorem MotorUnit.onSlot_tracker (u : MotorUnit) (n : SlotName) (f : PlanSlot → PlanSlot) : (u.onSlot n f).tracker = u.tracker := by cases n <;> rfl
@[simp] theorem MotorUnit.setSlot_marks (u : MotorUnit) (n : SlotName) (p : PlanSlot) : (u.setSlot n p).marks = u.marks := by cases n <;> rfl
@[simp] theorem MotorUnit.onSlot_marks (u : MotorUnit) (n : SlotName) (f : PlanSlot → PlanSlot) : (u.onSlot n f).marks = u.marks := by cases n <;> rfl
@[simp] theorem MotorUnit.setSlot_frames (u : MotorUnit) (n : SlotName) (p : PlanSlot) : (u.setSlot n p).frames = u.frames := by cases n <;> rfl
@[simp] theorem MotorUnit.onSlot_frames (u : MotorUnit) (n : SlotName) (f : PlanSlot → PlanSlot) : (u.onSlot n f).frames = u.frames := by cases n <;> rfl
@[simp] theorem MotorUnit.setSlot_attention (u : MotorUnit) (n : SlotName) (p : PlanSlot) : (u.setSlot n p).attention = u.attention := by cases n <;> rfl
@[simp] theorem MotorUnit.onSlot_attention (u : MotorUnit) (n : SlotName) (f : PlanSlot → PlanSlot) : (u.onSlot n f).attention = u.attention := by cases n <;> rfl

@[simp] theorem MotorUnit.slot_setSlot_self (u : MotorUnit) (n : SlotName) (p : PlanSlot) : (u.setSlot n p).slot n = p := by
  cases n <;> rfl

@[simp] theorem MotorUnit.slot_setSlot_other (u : MotorUnit) (n : SlotName) (p : PlanSlot) :
    (u.setSlot n p).slot n.other = u.slot n.other := by
  cases n <;> rfl

theorem MotorUnit.slot_onSlot (u : MotorUnit) (n k : SlotName) (f : PlanSlot → PlanSlot) :
    (u.onSlot n f).slot k = if k = n then f (u.slot k) else u.slot k := by
  cases n <;> cases k <;> rfl

@[simp] theorem MotorUnit.slot_onTracker (u : MotorUnit) (f : Tracker → Tracker) (n : SlotName) :
    (u.onTracker f).slot n = u.slot n := by
  cases n <;> rfl

@[simp] theorem MotorUnit.slot_onFrames (u : MotorUnit) (f : FrameAssembler → FrameAssembler) (n : SlotName) :
    (u.onFrames f).slot n = u.slot n := by
  cases n <;> rfl

@[simp] theorem Channel.leg_setLeg_self (c : Channel) (n : LegName) (l : Leg) : (c.setLeg n l).leg n = l := by
  cases n <;> rfl

theorem Channel.leg_setLeg (c : Channel) (n k : LegName) (l : Leg) :
    (c.setLeg n l).leg k = if k = n then l else c.leg k := by
  cases n <;> cases k <;> rfl

@[simp] theorem Channel.leg_onLegs (c : Channel) (f : Leg → Leg) (n : LegName) : (c.onLegs f).leg n = f (c.leg n) := by
  cases n <;> rfl

@[simp] theorem FrameAssembler.half_setHalf_self (a : FrameAssembler) (n : HalfName) (h : Half) :
    (a.setHalf n h).half n = h := by
  cases n <;> rfl

theorem FrameAssembler.half_setHalf (a : FrameAssembler) (n k : HalfName) (h : Half) :
    (a.setHalf n h).half k = if k = n then h else a.half k := by
  cases n <;> cases k <;> rfl

@[simp] theorem FrameAssembler.half_onHalf_self (a : FrameAssembler) (n : HalfName) (f : Half → Half) :
    (a.onHalf n f).half n = f (a.half n) := FrameAssembler.half_setHalf_self a n _

end Sys2Proof.Machine
end

