-- ==== Sys2Proof/Laws/Log.lean ====
section
/-! SUPPORT. The Fault Log: what an addition does to its bounds (R186, R187). -/
namespace Sys2Proof.Machine

/-- A displacement takes one entry off the list. -/
theorem dropNewestNonTrip_length : ∀ {l l' : List LogEntry}, dropNewestNonTrip l = some l' → l'.length + 1 = l.length
  | [], _, h => by simp [dropNewestNonTrip] at h
  | e :: rest, l', h => by
    unfold dropNewestNonTrip at h
    split at h
    · rename_i rest' hr
      have := dropNewestNonTrip_length hr
      simp only [Option.some.injEq] at h
      subst h
      simp only [List.length_cons]
      omega
    · split at h
      · simp at h
      · simp only [Option.some.injEq] at h
        subst h
        rfl

/-- No displacement is found exactly where every entry is of trip class. -/
theorem dropNewestNonTrip_none : ∀ {l : List LogEntry}, (∀ y ∈ l, y.code.tripClass = true) → dropNewestNonTrip l = none
  | [], _ => rfl
  | e :: rest, h => by
    have ih := dropNewestNonTrip_none (l := rest) fun y hy => h y (List.mem_cons_of_mem _ hy)
    simp [dropNewestNonTrip, ih, h e (by simp)]

/-- The displacement takes the newest non-trip entry. -/
theorem dropNewestNonTrip_some {older newer : List LogEntry} {x : LogEntry} (hx : x.code.tripClass = false)
    (hn : ∀ y ∈ newer, y.code.tripClass = true) : dropNewestNonTrip (older ++ x :: newer) = some (older ++ newer) := by
  induction older with
  | nil => simp [dropNewestNonTrip, dropNewestNonTrip_none hn, hx]
  | cons e rest ih => simp [dropNewestNonTrip, ih]

/-- A discard keeps the bounds. -/
theorem FaultLog.discard_bounded {l : FaultLog} (h : l.entries.length ≤ logCapacity) : l.discard.bounded := by
  refine ⟨h, ?_, ?_⟩
  · simp only [FaultLog.discard]
    omega
  · simp only [FaultLog.discard]
    constructor
    · intro _; trivial
    · intro _; omega

/-- An addition keeps the bounds of the log (R186). -/
theorem FaultLog.add_bounded {l : FaultLog} (e : LogEntry) (h : l.bounded) : (l.add e).bounded := by
  unfold FaultLog.add
  split
  · rename_i hc
    simp only [Bool.and_eq_true, decide_eq_true_eq] at hc
    refine ⟨?_, h.2.1, h.2.2⟩
    simp only [List.length_append, List.length_cons, List.length_nil]
    omega
  · split
    · split
      · rename_i kept hk
        have hd := FaultLog.discard_bounded h.1
        have hl := dropNewestNonTrip_length hk
        refine ⟨?_, hd.2.1, hd.2.2⟩
        have := h.1
        simp only [List.length_append, List.length_cons, List.length_nil]
        omega
      · exact FaultLog.discard_bounded h.1
    · exact FaultLog.discard_bounded h.1

/-- A pop keeps the bounds. -/
theorem State.popLog_bounded {s : State} (h : s.log.bounded) : s.popLog.log.bounded :=
  ⟨by have := h.1; simp only [State.popLog, List.length_drop]; omega, h.2⟩

/-- A clear-overflow keeps the bounds. -/
theorem State.clearLogOverflow_bounded {s : State} (h : s.log.bounded) : s.clearLogOverflow.log.bounded :=
  ⟨h.1, by simp [State.clearLogOverflow], by simp [State.clearLogOverflow]⟩

end Sys2Proof.Machine
end

