-- ==== Sys2Proof/Laws/Memory.lean ====
section
/-! SUPPORT. Memory: what a write does to a read, and that every memory operation keeps the canonical form. -/
namespace Sys2Proof.Machine

/-- Nothing listed at or below a bound reads as an unlisted byte there. -/
theorem Memory.read_of_above {low : Nat} : ∀ {m : Memory}, m.above low = true → m.wf = true →
    ∀ {x : Nat}, x ≤ low → Memory.read m x = 0
  | [], _, _, _, _ => rfl
  | (a, b) :: rest, habove, hwf, x, hx => by
    simp only [Memory.above, decide_eq_true_eq] at habove
    simp only [Memory.wf, Bool.and_eq_true] at hwf
    have hne : x ≠ a := by omega
    simp only [Memory.read, hne, if_false]
    exact Memory.read_of_above (low := a) hwf.1.2 hwf.2 (by omega)

/-- The address written reads as the byte written. -/
theorem Memory.read_write_same : ∀ {m : Memory}, m.wf = true → ∀ (x : Nat) (v : Byte), Memory.read (Memory.write m x v) x = v
  | [], _, x, v => by
    unfold Memory.write
    split
    · rename_i h; simp [Memory.read, h]
    · simp [Memory.read]
  | (a, b) :: rest, hwf, x, v => by
    have hw := hwf
    simp only [Memory.wf, Bool.and_eq_true] at hwf
    unfold Memory.write
    split
    · rename_i hlt
      split
      · rename_i hv
        have hne : x ≠ a := by omega
        simp only [Memory.read, hne, if_false, hv]
        exact Memory.read_of_above (low := a) hwf.1.2 hwf.2 (by omega)
      · simp [Memory.read]
    · split
      · rename_i hxa
        subst hxa
        split
        · rename_i hv
          subst hv
          exact Memory.read_of_above hwf.1.2 hwf.2 (Nat.le_refl _)
        · simp [Memory.read]
      · rename_i hne
        simp only [Memory.read, hne, if_false]
        exact Memory.read_write_same hwf.2 x v

/-- Every other address reads as before. -/
theorem Memory.read_write_other : ∀ (m : Memory) {x y : Nat} (v : Byte), y ≠ x →
    Memory.read (Memory.write m x v) y = Memory.read m y
  | [], x, y, v, h => by
    unfold Memory.write
    split <;> simp [Memory.read, h]
  | (a, b) :: rest, x, y, v, h => by
    unfold Memory.write
    split
    · split <;> simp [Memory.read, h]
    · split
      · rename_i hxa
        subst hxa
        split <;> simp [Memory.read, h]
      · simp only [Memory.read]
        rw [Memory.read_write_other rest v h]

/-- A write puts nothing at or below a bound that the memory and the written address are above. -/
theorem Memory.above_write : ∀ {m : Memory} {low x : Nat} (v : Byte), m.above low = true → m.wf = true → low < x →
    (Memory.write m x v).above low = true
  | [], low, x, v, _, _, hx => by
    unfold Memory.write
    split <;> simp [Memory.above, hx]
  | (a, b) :: rest, low, x, v, h, hwf, hx => by
    simp only [Memory.above, decide_eq_true_eq] at h
    simp only [Memory.wf, Bool.and_eq_true] at hwf
    unfold Memory.write
    split
    · split <;> simp [Memory.above, h, hx]
    · split
      · split
        · cases rest with
          | nil => rfl
          | cons q r =>
            simp only [Memory.above, decide_eq_true_eq] at hwf ⊢
            omega
        · simp [Memory.above, h]
      · simp [Memory.above, h]

/-- A write keeps the canonical form. -/
theorem Memory.wf_write : ∀ {m : Memory} (x : Nat) (v : Byte), m.wf = true → (Memory.write m x v).wf = true
  | [], x, v, _ => by
    unfold Memory.write
    split
    · rfl
    · rename_i h; simpa [Memory.wf, Memory.above] using h
  | (a, b) :: rest, x, v, hwf => by
    have hw := hwf
    simp only [Memory.wf, Bool.and_eq_true] at hwf
    unfold Memory.write
    split
    · split
      · exact hw
      · rename_i hlt hv
        simp only [Memory.wf, Memory.above, Bool.and_eq_true, decide_eq_true_eq] at hwf ⊢
        exact ⟨⟨hv, hlt⟩, hwf⟩
    · split
      · split
        · exact hwf.2
        · rename_i hv
          simp only [Memory.wf, Bool.and_eq_true, decide_eq_true_eq]
          exact ⟨⟨hv, hwf.1.2⟩, hwf.2⟩
      · rename_i hlt hne
        simp only [Memory.wf, Bool.and_eq_true]
        exact ⟨⟨hwf.1.1, Memory.above_write v hwf.1.2 hwf.2 (by omega)⟩, Memory.wf_write x v hwf.2⟩

/-- A row write keeps the canonical form. -/
theorem Memory.wf_writeRow (row : Nat) : ∀ (off : Nat) (data : List Byte) {m : Memory}, m.wf = true →
    (Memory.writeRow row off data m).wf = true
  | _, [], _, h => h
  | off, b :: rest, _, h => Memory.wf_writeRow row (off + 1) rest (Memory.wf_write _ b h)

/-- An address that no byte of a row write falls on reads as before. -/
theorem Memory.read_writeRow_other (row : Nat) : ∀ (off : Nat) (data : List Byte) (m : Memory) (x : Nat),
    (∀ i, i < data.length → x ≠ row * 256 + (off + i) % 256) → Memory.read (Memory.writeRow row off data m) x = Memory.read m x
  | _, [], _, _, _ => rfl
  | off, b :: rest, m, x, h => by
    unfold Memory.writeRow
    rw [Memory.read_writeRow_other row (off + 1) rest _ x, Memory.read_write_other]
    · exact h 0 (by simp)
    · intro i hi
      have := h (i + 1) (by simp; omega)
      rwa [show off + (i + 1) = off + 1 + i by omega] at this

/-- A byte of a row write that no later byte replaces reads as written. -/
theorem Memory.read_writeRow_at (row : Nat) : ∀ (off : Nat) (data : List Byte) (m : Memory), m.wf = true →
    ∀ (i : Nat) (b : Byte), data[i]? = some b → data.length ≤ i + 256 →
      Memory.read (Memory.writeRow row off data m) (row * 256 + (off + i) % 256) = b
  | _, [], _, _, i, b, h, _ => by simp at h
  | off, c :: rest, m, hwf, 0, b, h, hlen => by
    unfold Memory.writeRow
    simp only [List.getElem?_cons_zero, Option.some.injEq] at h
    rw [Memory.read_writeRow_other, Nat.add_zero, Memory.read_write_same hwf, h]
    intro i hi heq
    simp only [List.length_cons] at hlen
    omega
  | off, c :: rest, m, hwf, i + 1, b, h, hlen => by
    unfold Memory.writeRow
    simp only [List.getElem?_cons_succ] at h
    have := Memory.read_writeRow_at row (off + 1) rest _ (Memory.wf_write (row * 256 + off % 256) c hwf) i b h
      (by simp only [List.length_cons] at hlen; omega)
    rwa [show off + 1 + i = off + (i + 1) by omega] at this

/-- A WRITE to the RAM keeps the canonical form. -/
theorem Ram.wf_store {r : Ram} (a : Addr) (data : List Byte) (h : r.cells.wf = true) : (r.store a data).cells.wf = true := by
  unfold Ram.store
  split
  · exact Memory.wf_writeRow _ _ _ h
  · exact h

/-- A LINK-CLEAR leaves the bytes of the RAM. -/
@[simp] theorem Ram.clearRepeat_cells (r : Ram) : r.clearRepeat.cells = r.cells := by
  unfold Ram.clearRepeat
  split <;> rfl

/-- A capture keeps the canonical form of the copy. -/
theorem PlanSlot.wf_capture {p : PlanSlot} (start : Nat) (data : List Byte) (h : p.copy.wf = true) :
    (p.capture start data).copy.wf = true := by
  unfold PlanSlot.capture
  split
  · exact h
  · exact Memory.wf_writeRow _ _ _ h

/-- What a write of a row is, read byte by byte (R27, R156). -/
theorem Memory.wrote_writeRow {m : Memory} (a : Addr) (data : List Byte) (h : m.wf = true) :
    Memory.wrote m (Memory.writeRow (a.toNat / 256) (a.toNat % 256) data m) a data :=
  ⟨fun i b hb hlen => Memory.read_writeRow_at _ _ _ _ h i b hb hlen,
    fun x hx => Memory.read_writeRow_other _ _ _ _ x hx⟩

/-- The memory of the state after reset is canonical. -/
theorem State.reset_memoryWf : Memory.wf State.reset.ram.cells = true := rfl

end Sys2Proof.Machine
end

