-- ==== Sys2Proof/Laws/Gates.lean ====
section
/-! SUPPORT. Legs: each operation on a leg keeps it safe (R14), and what it does to the leg's command. What the operations on
a motor's legs do, in the words of Safety.lean, and what a narrow pulse adds to the count (R16). -/
namespace Sys2Proof.Machine

theorem Leg.turnOnNow_safe {l : Leg} (h : l.safe) : l.turnOnNow.safe := by
  unfold Leg.turnOnNow
  split <;> simp_all [Leg.safe]

theorem Leg.turnOnLater_safe {l : Leg} (dead : Nat) (now : Instant) (h : l.safe) : (Leg.turnOnLater dead now l).safe := by
  unfold Leg.turnOnLater
  split
  · exact Leg.turnOnNow_safe h
  · exact h

/-- With both sides cut, no output is on. -/
theorem Leg.cut_off (now : Instant) (l : Leg) :
    ((l.cutHigh now).cutLow now).highOn = false ∧ ((l.cutHigh now).cutLow now).lowOn = false := by
  unfold Leg.cutLow Leg.cutHigh
  cases h : l.highOn <;> cases hl : l.lowOn <;> simp [h, hl]

/-- A new command keeps a leg safe, whatever it was before. -/
theorem Leg.setCommand_safe {l : Leg} (dead : Nat) (now : Instant) (c : LegCommand) (h : l.safe) :
    (Leg.setCommand dead now c l).safe := by
  have hc := Leg.cut_off now l
  unfold Leg.setCommand
  split
  · exact h
  · split
    · simp [Leg.safe, hc]
    · exact Leg.turnOnLater_safe _ _ (by simp [Leg.safe, hc])
    · exact Leg.turnOnLater_safe _ _ (by simp [Leg.safe, hc])

@[simp] theorem Leg.turnOnNow_command (l : Leg) : l.turnOnNow.command = l.command := by
  unfold Leg.turnOnNow
  split <;> rfl

@[simp] theorem Leg.turnOnLater_command (dead : Nat) (now : Instant) (l : Leg) :
    (Leg.turnOnLater dead now l).command = l.command := by
  unfold Leg.turnOnLater
  split <;> simp

@[simp] theorem Leg.setCommand_command (dead : Nat) (now : Instant) (c : LegCommand) (l : Leg) :
    (Leg.setCommand dead now c l).command = c := by
  unfold Leg.setCommand
  split
  · rename_i h; exact h.symm
  · split <;> simp

theorem Leg.follow_safe {l : Leg} (dead : Nat) (now b : Instant) (period : Nat) (d : LegDrive) (h : l.safe) :
    (Leg.follow dead now b period d l).safe := Leg.setCommand_safe dead now _ h

theorem Leg.park_safe {l : Leg} (dead : Nat) (now : Instant) (c : LegCommand) (h : l.safe) :
    (Leg.park dead now c l).safe := Leg.setCommand_safe dead now c h

theorem Leg.takeEdge_safe {l : Leg} (dead : Nat) (now b : Instant) (period : Nat) (e : LegEdge) (h : l.safe) :
    (Leg.takeEdge dead now b period e l).safe := by
  have := Leg.setCommand_safe dead now e.command h
  unfold Leg.takeEdge
  split <;> exact this

/-- A safe leg that is parked OFF has both outputs off and no edge to come (R1). -/
theorem Leg.park_off {l : Leg} (dead : Nat) (now : Instant) (h : l.safe) : (Leg.park dead now .off l).allOff := by
  have hs := Leg.park_safe dead now .off h
  have hc : (Leg.park dead now .off l).command = .off := Leg.setCommand_command dead now .off l
  refine ⟨hc, rfl, ?_, ?_⟩
  · cases hh : (Leg.park dead now .off l).highOn
    · rfl
    · have := hs.1 hh; simp [hc] at this
  · cases hh : (Leg.park dead now .off l).lowOn
    · rfl
    · have := hs.2 hh; simp [hc] at this

/-- All that a new command does to a leg (R14). -/
theorem Leg.setCommand_commanded (dead : Nat) (now : Instant) (c : LegCommand) (l : Leg) :
    l.commanded dead now c (Leg.setCommand dead now c l) := by
  unfold Leg.commanded Leg.setCommand
  by_cases h : c = l.command
  · simp [h]
  · cases c <;> simp [h, Leg.turnOnLater, Leg.turnOnNow, Leg.otherOff, Leg.cutHigh, Leg.cutLow] <;> (repeat' split) <;>
      simp_all

/-- All that the drives of a step do to each leg (R13, R14). -/
theorem MotorUnit.driveLegs_driven (now b : Instant) (d : LegName → LegDrive) (u : MotorUnit) (n : LegName) :
    u.legDriven (u.driveLegs now b (d .leg0) (d .leg1) (d .leg2)) n (d n) now b := by
  have h := Leg.setCommand_commanded u.settings.deadTime now ((d n).commandAt (elapsed b now)) (u.channel.leg n)
  cases n <;> exact ⟨h, rfl, rfl⟩

/-- All six outputs off, with the turn-off instants (R1, R14). -/
theorem MotorUnit.allOff_legsOff {u : MotorUnit} (now : Instant) (h : u.channel.safe) : u.legsOff (u.allOff now) now := by
  have k (l : Leg) : l.commanded u.settings.deadTime now .off (Leg.park u.settings.deadTime now .off l) :=
    Leg.setCommand_commanded u.settings.deadTime now .off l
  refine ⟨fun n => ?_, fun n => ?_⟩
  · cases n
    · exact Leg.park_off _ _ h.1
    · exact Leg.park_off _ _ h.2.1
    · exact Leg.park_off _ _ h.2.2
  · cases n <;> exact k _

/-- The safe state, under dead time (R14, R20). -/
theorem MotorUnit.toSafeState_inSafeState (now : Instant) (u : MotorUnit) : u.inSafeState (u.toSafeState now) now := by
  have k (c : LegCommand) (l : Leg) : l.commanded u.settings.deadTime now c (Leg.park u.settings.deadTime now c l) :=
    Leg.setCommand_commanded u.settings.deadTime now c l
  unfold MotorUnit.inSafeState MotorUnit.toSafeState
  dsimp only
  cases u.settings.safeState <;> intro n <;> cases n <;> exact ⟨k _ _, rfl⟩

/-- All that the execution of a commutation does to a motor (R60). -/
theorem MotorUnit.commutate_commutated (now : Instant) (u : MotorUnit) :
    (u.tracker.scheduled = none → u.commutate now = u)
      ∧ ∀ x, u.tracker.scheduled = some x →
        ∃ ch, u.commutate now = { u with channel := ch, tracker := { u.tracker with scheduled := none } }
          ∧ u.commutated { u with channel := ch } x.target now := by
  unfold MotorUnit.commutate
  refine ⟨fun h => by rw [h], fun x h => ?_⟩
  rw [h]
  dsimp only [MotorUnit.onTracker]
  by_cases e : u.channel.driveSector = some x.target
  · rw [if_pos e]
    refine ⟨u.channel, rfl, fun _ => ?_, fun b hb => absurd e hb⟩
    rw [← e]
  · rw [if_neg e]
    let v : MotorUnit :=
      { u with channel := { u.channel with driveSector := some x.target }, tracker := { u.tracker with scheduled := none } }
    have hm : v.hallMode = u.hallMode := rfl
    show ∃ ch, MotorUnit.refreshRoles now v = _ ∧ _
    unfold MotorUnit.refreshRoles
    rw [hm]
    split
    · rename_i b hh hb
      refine ⟨(v.driveRoles now b).channel, rfl, fun k => ?_, fun b' _ _ hb' => ?_⟩
      · rcases k with k | k | k
        · exact absurd k e
        · rw [hh] at k; cases k
        · rw [show v.channel.periodStart = u.channel.periodStart from rfl, k] at hb; cases hb
      · have : b' = b := by
          rw [show v.channel.periodStart = u.channel.periodStart from rfl, hb'] at hb; cases hb; rfl
        subst this
        refine ⟨rfl, fun n => ?_⟩
        have k := MotorUnit.driveLegs_driven now b' (fun n => (v.roleOfLeg n).drive v.channel.chop) v n
        have hd : (v.roleOfLeg n).drive v.channel.chop =
            (match u.settings.sectorEntry x.target with
              | none => .hold .off
              | some e => match e.role n with | .float => .hold .off | .low => .hold .lowSide | .chop => u.channel.chop) := by
          show (MotorUnit.roleOfLeg v n).drive u.channel.chop = _
          have : v.roleOfLeg n = match u.settings.sectorEntry x.target with | some e => e.role n | none => .float := rfl
          rw [this]
          cases u.settings.sectorEntry x.target with
          | none => rfl
          | some e => dsimp only; cases e.role n <;> rfl
        rw [hd] at k
        exact k
    · rename_i hn
      refine ⟨v.channel, rfl, fun _ => rfl, fun b _ hh hb => ?_⟩
      exact absurd hb (by
        intro hb'
        exact hn b hh hb')
theorem satInc_toNat (c : Short) : (satInc c).toNat = min 65535 (c.toNat + 1) := by
  have := c.isLt
  unfold satInc
  split
  · rename_i h; subst h; rfl
  · rename_i h
    have : c.toNat ≠ 65535 := fun e => h (BitVec.eq_of_toNat_eq e)
    rw [BitVec.toNat_add]; simp; omega

theorem countNarrow_toNat (substituted : Bool) (c : Short) :
    (countNarrow substituted c).toNat = min 65535 (c.toNat + if substituted then 1 else 0) := by
  have := c.isLt
  cases substituted
  · simp [countNarrow]; omega
  · simp [countNarrow, satInc_toNat]

end Sys2Proof.Machine
end

