-- ==== Sys2Proof/Laws/Chain.lean ====
section
/-! SUPPORT. What a command can do, as a chain of operations: every command but the two of the reset pin takes the state at
its instant to the next state by operations of `State.Op` alone, each with what holds where it is made. A property that
every operation keeps is one that every command keeps. -/
namespace Sys2Proof.Machine

/-! ### The operations -/

/-- The operations on the blocks of one motor at the instant `now`. -/
inductive MotorUnit.Op (now : Instant) : MotorUnit → MotorUnit → Prop where
  | fault (b : Bool) (u : MotorUnit) : MotorUnit.Op now u (u.setFault b)
  | hallCode (c : HallCode) (u : MotorUnit) : MotorUnit.Op now u (u.setHallCode c)
  | tracker (f : Tracker → Tracker) (u : MotorUnit) : MotorUnit.Op now u (u.onTracker f)
  | sector (d : Option HallCode) (u : MotorUnit) :
      MotorUnit.Op now u { u with channel := { u.channel with driveSector := d } }
  | refreshRoles (u : MotorUnit) : MotorUnit.Op now u (u.refreshRoles now)
  | attention (a : MotorAttention) (u : MotorUnit) (hl : a.records.length ≤ u.attention.records.length)
      (hm : ∀ r ∈ a.records, r.met = true → r ∈ u.attention.records) :
      MotorUnit.Op now u { u with attention := a }
  | marks (k : CalendarMarks) (u : MotorUnit) : MotorUnit.Op now u { u with marks := k }
  | narrow (c : Short) (u : MotorUnit) : MotorUnit.Op now u (u.setNarrow c)
  | storeEntry (seq : Short) (p : Option Nat) (r : Resolution) (u : MotorUnit) :
      MotorUnit.Op now u (u.onFrames (FrameAssembler.storeEntry seq p r))
  | givePosition (step : Nat) (r : SampleRequest) (u : MotorUnit) : MotorUnit.Op now u (u.givePosition step r)
  | markSlid (seq : Short) (p : Option Nat) (b : Bool) (u : MotorUnit) : MotorUnit.Op now u (u.markSlid seq p b)
  | openRecord (f : OpenFrame → OpenFrame) (u : MotorUnit) (h : ∀ o, (f o).storage = o.storage) :
      MotorUnit.Op now u (u.onFrames (FrameAssembler.onOpenFrame f))
  | beginFrame (u : MotorUnit) : MotorUnit.Op now u u.beginFrame
  | takeHalf (n : HalfName) (u : MotorUnit) (hn : u.frames.freeHalf = some n) (h : u.ringHasRoom = true) :
      MotorUnit.Op now u (u.takeHalf n)
  | overwrite (n : HalfName) (u : MotorUnit) (hn : u.frames.freeHalf = some n) (h : u.ringHasRoom = false) :
      MotorUnit.Op now u ((u.overwriteOldest now).takeHalf n)
  | dropRun (u : MotorUnit) : MotorUnit.Op now u (u.onFrames fun a => { a with dropRun := true })
  | consume (v : Word) (u : MotorUnit) (h : u.frames.mayConsume v = true) :
      MotorUnit.Op now u ((u.onFrames fun a => { a with consumed := v }).countersChanged now)
  | closeFrame (flag : CloseFlag) (u : MotorUnit) : MotorUnit.Op now u (u.closeFrame now flag)
  | trip (cause : TripCause) (info : Short) (u : MotorUnit) : MotorUnit.Op now u (u.trip now cause info)
  | setLegs (b : Instant) (u : MotorUnit) (h : u.channel.state = .running) : MotorUnit.Op now u (u.setLegs now b)
  | gateEdge (n : LegName) (u : MotorUnit) : MotorUnit.Op now u (u.gateEdge now n)
  | deadTimeEnds (n : LegName) (u : MotorUnit) : MotorUnit.Op now u (u.deadTimeEnds now n)
  | begin (n : SlotName) (u : MotorUnit) (hs : u.channel.state = .stopped) (h : (u.slot n).state = .pending) :
      MotorUnit.Op now u (((u.setState .running).startPeriod now).activateSlot n)
  | stop (u : MotorUnit) : MotorUnit.Op now u u.stop
  | restart (u : MotorUnit) (h : u.channel.state = .tripped) : MotorUnit.Op now u (u.allOff now).enterStopped
  | stoppingBoundary (u : MotorUnit) : MotorUnit.Op now u (u.stoppingBoundary now)
  | completeStop (u : MotorUnit) : MotorUnit.Op now u u.completeStop
  | period (b : Instant) (u : MotorUnit) (h : u.channel.periodStart.isSome = true) :
      MotorUnit.Op now u (u.startPeriod b).countPeriod
  | activate (n : SlotName) (u : MotorUnit) (hr : u.channel.periodStart.isSome = true) (h : (u.slot n).state = .pending) :
      MotorUnit.Op now u (u.activateSlot n)
  | stepIndex (k : Nat) (u : MotorUnit) : MotorUnit.Op now u (u.setStep k)
  | pend (n : SlotName) (tag : Byte) (kind : ActivationKind) (u : MotorUnit)
      (h : (u.slot n).state = .empty ∨ (u.slot n).state = .inactive) (ho : (u.slot n.other).state ≠ .pending) :
      MotorUnit.Op now u (u.onSlot n (PlanSlot.pend tag kind))
  | retag (n : SlotName) (tag : Byte) (u : MotorUnit) : MotorUnit.Op now u (u.onSlot n (PlanSlot.retag tag))
  | cancel (n : SlotName) (u : MotorUnit) : MotorUnit.Op now u (u.onSlot n PlanSlot.cancel)
  | settings (w : MotorWord) (v : Word) (st : MotorSettings) (u : MotorUnit) (ha : u.settingAllowed w = true)
      (h : u.newSettings w v = some st) : MotorUnit.Op now u ((u.setSettings st).afterSetting now w)

/-- The operations on the Sample Calendar with conversion intervals of `width`: the one that places, and the others, which make
no reservation. A placed interval overlaps none of the list's (R71). -/
inductive Calendar.Op (width : Nat) : Bool → Calendar → Calendar → Prop where
  | insert (r : Reservation) (b : Instant) (o : Nat) (c : Calendar) (hp : r.state = .placed)
      (h : c.reservations.length < calendarCapacity) (hs : r.start = after b o) (ho : o < 65536)
      (hf : freeAt width (c.reservations.map fun q => offsetFrom b q.start) o = true) :
      Calendar.Op width true c
        { reservations := insertReservation r c.reservations,
          highWater := max c.highWater (insertReservation r c.reservations).length }
  | remove (l : List Reservation) (c : Calendar) (h : l.Sublist c.reservations) :
      Calendar.Op width false c { c with reservations := l }
  | orphan (m : Motor) (c : Calendar) :
      Calendar.Op width false c { c with reservations := c.reservations.map (Reservation.orphan m) }
  | convert (test : Reservation → Bool) (k : ConverterTag) (c : Calendar)
      (h : c.reservations.find? Reservation.isConverting = none) :
      Calendar.Op width false c { c with reservations := changeFirst test (Reservation.convert k) c.reservations }
  | wait (c : Calendar) :
      Calendar.Op width false c
        { c with reservations := changeFirst Reservation.isPlaced (fun q => { q with state := .waiting }) c.reservations }
  | clearMark (c : Calendar) : Calendar.Op width false c { c with highWater := c.reservations.length }

/-- The operations on the whole state; none changes the timebase, the reset pin, the queue or the count of free values. The first
index says whether a reservation may be placed, the second whether the operation is one of a transaction of the upstream link. -/
inductive State.Op : Bool → Bool → State → State → Prop where
  | motor {pl tx : Bool} (m : Motor) {u : MotorUnit} (s : State) (h : MotorUnit.Op s.timebase (s.motor m) u) :
      State.Op pl tx s (s.setMotor m u)
  | log {pl tx : Bool} (e : LogEntry) (s : State) : State.Op pl tx s { s with log := s.log.add e }
  | popLog {pl tx : Bool} (s : State) : State.Op pl tx s s.popLog
  | clearOverflow {pl tx : Bool} (s : State) : State.Op pl tx s s.clearLogOverflow
  | calendar {pl tx : Bool} {c : Calendar} (s : State) (h : Calendar.Op s.device.tConv pl s.calendar c) :
      State.Op pl tx s { s with calendar := c }
  | converter {pl tx : Bool} (c : Converter) (s : State) : State.Op pl tx s { s with converter := c }
  | device {tx : Bool} (d : DeviceSettings) (s : State)
      (h : d = { s.device with tConv := d.tConv } ∧ 40 ≤ d.tConv ∧ d.tConv ≤ 320
        ∨ d = { s.device with controllerWindow := d.controllerWindow } ∧ d.controllerWindow ≤ 255
        ∨ d = { s.device with wakeTime := d.wakeTime } ∧ 1 ≤ d.wakeTime ∧ d.wakeTime ≤ 255) :
      State.Op false tx s { s with device := d }
  | input {pl tx : Bool} (i : InputNumber) (r : InputRecord) (s : State)
      (h : r.tripCount ≤ 4 ∧ r.lowLimit.toNat ≤ r.highLimit.toNat
        ∨ ∃ k, r = { s.inputRecord i with consecutive := k }) : State.Op pl tx s (s.setInput i r)
  | window {pl tx : Bool} (w : WindowMap) (s : State) : State.Op pl tx s { s with window := w }
  | enables {pl tx : Bool} (e : BitVec 14) (s : State) : State.Op pl tx s { s with enables := e }
  | restartWaits {pl tx : Bool} (s : State) : State.Op pl tx s { s with restartWaiting := true }
  | traces {pl : Bool} (data : List Byte) (issued : List (List Byte)) (s : State) :
      State.Op pl true s { s with upstream := { s.upstream with readData := data }, port := { s.port with issued := issued } }
  | repeatStates {pl : Bool} (k : Option ReadKind) (w : WrapSetting) (b : Bool) (s : State) :
      State.Op pl true s { s with upstream := { s.upstream with repeatState := k, wrap := w }, port := { s.port with repeatSet := b } }
  | asleep {pl : Bool} (s : State) : State.Op pl true s { s with port := { s.port with state := .asleep } }
  | ram {pl tx : Bool} (r : Ram) (s : State) (h : r.cells = s.ram.cells) : State.Op pl tx s { s with ram := r }
  | store {pl : Bool} (a : Addr) (data : List Byte) (s : State) : State.Op pl true s { s with ram := s.ram.store a data }
  | selectFalls {pl : Bool} (s : State) : State.Op pl true s s.selectFalls
  | selectRises {pl : Bool} (s : State) : State.Op pl true s s.selectRises
  | record {pl : Bool} (d : Decoder) (s : State) (h : d.refused = s.decoder.refused) : State.Op pl true s { s with decoder := d }
  | wake {pl : Bool} (s : State) (hs : s.upstream.selectLow = true) (hr : s.decoder.refused = false) :
      State.Op pl true s s.wakes.selectRises
  | softRestart {tx : Bool} (s : State) (h : s.arbiter.flight = none) : State.Op false tx s s.softRestartNow
  | startFlush {pl tx : Bool} (m : Motor) (n : HalfName) (s : State) (h : s.candidate = some m)
      (hn : (s.motor m).frames.presented = some n) : State.Op pl tx s (s.startFlush m n)
  | endFlush {tx : Bool} (f : Flush) (s : State) (h : s.arbiter.flight = some f) : State.Op false tx s (s.endFlush f)
  | windowExpires {pl tx : Bool} (s : State) : State.Op pl tx s s.windowExpires
  | wakeExpires {pl tx : Bool} (s : State) : State.Op pl tx s s.wakeExpires
  | linkCleared {pl tx : Bool} (s : State) : State.Op pl tx s s.linkCleared
  | placed {tx : Bool} (p : Option Motor) (s : State) : State.Op true tx s { s with placed := p }

variable {pl tx : Bool}

/-! ### Chains -/

/-- A chain of operations on one motor. -/
inductive MotorUnit.Ops (now : Instant) : MotorUnit → MotorUnit → Prop where
  | refl (u : MotorUnit) : MotorUnit.Ops now u u
  | step {u v w : MotorUnit} (h : MotorUnit.Ops now u v) (o : MotorUnit.Op now v w) : MotorUnit.Ops now u w

/-- A chain of operations. -/
inductive State.Ops (pl tx : Bool) : State → State → Prop where
  | refl (s : State) : State.Ops pl tx s s
  | step {s t u : State} (h : State.Ops pl tx s t) (o : State.Op pl tx t u) : State.Ops pl tx s u

theorem MotorUnit.Op.ops {now : Instant} {u v : MotorUnit} (h : MotorUnit.Op now u v) : MotorUnit.Ops now u v :=
  .step (.refl u) h

theorem State.Op.ops {s t : State} (h : State.Op pl tx s t) : State.Ops pl tx s t := .step (.refl s) h

theorem MotorUnit.Ops.trans {now : Instant} {u v w : MotorUnit} (h : MotorUnit.Ops now u v) (k : MotorUnit.Ops now v w) :
    MotorUnit.Ops now u w := by
  induction k with
  | refl => exact h
  | step _ o ih => exact .step ih o

theorem State.Ops.trans {s t u : State} (h : State.Ops pl tx s t) (k : State.Ops pl tx t u) : State.Ops pl tx s u := by
  induction k with
  | refl => exact h
  | step _ o ih => exact .step ih o

/-- An operation leaves what is not the part's own. -/
theorem State.Op.frame {s t : State} (h : State.Op pl tx s t) :
    t.timebase = s.timebase ∧ t.inReset = s.inReset ∧ t.pending = s.pending ∧ t.freeCount = s.freeCount := by
  cases h <;>
    simp [State.popLog, State.clearLogOverflow, State.setInput, State.selectFalls, State.wakes,
      State.softRestartNow, State.startFlush, State.endFlush, State.windowExpires, State.wakeExpires, State.linkCleared,
      State.selectRises] <;>
    split <;> simp

/-- A chain leaves what is not the part's own. -/
theorem State.Ops.frame {s t : State} (h : State.Ops pl tx s t) :
    t.timebase = s.timebase ∧ t.inReset = s.inReset ∧ t.pending = s.pending ∧ t.freeCount = s.freeCount := by
  induction h with
  | refl => exact ⟨rfl, rfl, rfl, rfl⟩
  | step _ o ih =>
    have := o.frame
    exact ⟨this.1.trans ih.1, this.2.1.trans ih.2.1, this.2.2.1.trans ih.2.2.1, this.2.2.2.trans ih.2.2.2⟩

/-- What every operation keeps, a chain keeps. -/
theorem State.Ops.keeps {P : State → Prop} (h : ∀ {s t}, State.Op pl tx s t → P s → P t) {s t : State} (k : State.Ops pl tx s t)
    (hs : P s) : P t := by
  induction k with
  | refl => exact hs
  | step _ o ih => exact h o ih

theorem State.Ops.ite {s a b : State} (c : Prop) [Decidable c] (ha : State.Ops pl tx s a) (hb : State.Ops pl tx s b) :
    State.Ops pl tx s (if c then a else b) := by
  split
  · exact ha
  · exact hb

theorem MotorUnit.Ops.ite {now : Instant} {u a b : MotorUnit} (c : Prop) [Decidable c] (ha : MotorUnit.Ops now u a)
    (hb : MotorUnit.Ops now u b) : MotorUnit.Ops now u (if c then a else b) := by
  split
  · exact ha
  · exact hb

/-- A chain on one motor is a chain. -/
theorem State.Ops.motor (m : Motor) {u : MotorUnit} (s : State) (h : MotorUnit.Ops s.timebase (s.motor m) u) :
    State.Ops pl tx s (s.setMotor m u) := by
  generalize hv : s.motor m = v at h
  generalize hn : s.timebase = now at h
  induction h with
  | refl => subst hv; rw [State.setMotor_motor]; exact .refl s
  | @step v w _ o ih =>
    have h2 : State.Op pl tx (s.setMotor m v) ((s.setMotor m v).setMotor m w) :=
      .motor m _ (by simpa [hn] using o)
    rw [State.setMotor_setMotor] at h2
    exact .step ih h2

theorem State.onMotor_ops (m : Motor) {f : MotorUnit → MotorUnit} (s : State)
    (h : MotorUnit.Ops s.timebase (s.motor m) (f (s.motor m))) : State.Ops pl tx s (s.onMotor m f) := State.Ops.motor m s h

theorem State.logMotor_ops (s : State) (m : Motor) (c : LogCode) (i : Short) : State.Ops pl tx s (s.logMotor m c i) :=
  (State.Op.log _ s).ops

theorem State.logDevice_ops (s : State) (c : LogCode) (i : Short) : State.Ops pl tx s (s.logDevice c i) :=
  (State.Op.log _ s).ops

/-! ### Chains with a capture -/

/-- A command as a chain of operations around at most one capture by a plan slot: up to the capture, and after it, no motor
changes. -/
inductive State.Run (pl tx : Bool) (s t : State) : Prop where
  | ops (h : State.Ops pl tx s t) : State.Run pl tx s t
  | capture (m : Motor) (n : SlotName) (start : Nat) (data : List Byte) (a : State) (h : State.Ops pl tx s a)
      (ha : ∀ k, a.motor k = s.motor k)
      (he : ((a.motor m).slot n).state = .empty ∨ ((a.motor m).slot n).state = .inactive)
      (ht : State.Ops pl tx (a.onMotor m fun u => u.onSlot n (PlanSlot.capture start data)) t)
      (hm : ∀ k, t.motor k = (a.onMotor m fun u => u.onSlot n (PlanSlot.capture start data)).motor k) : State.Run pl tx s t

/-- A chain that changes no motor, before a chain with a capture. -/
theorem State.Run.after {s a t : State} (h : State.Ops pl tx s a) (ha : ∀ k, a.motor k = s.motor k) (r : State.Run pl tx a t) :
    State.Run pl tx s t := by
  cases r with
  | ops k => exact .ops (h.trans k)
  | capture m n start data b k hk he ht hm =>
    exact .capture m n start data b (h.trans k) (fun j => (hk j).trans (ha j)) he ht hm

/-- A chain with a capture, then one that changes no motor. -/
theorem State.Run.before {s a t : State} (r : State.Run pl tx s a) (h : State.Ops pl tx a t) (ht : ∀ k, t.motor k = a.motor k) :
    State.Run pl tx s t := by
  cases r with
  | ops k => exact .ops (k.trans h)
  | capture m n start data b k hk he hb hm =>
    exact .capture m n start data b k hk he (hb.trans h) (fun j => (ht j).trans (hm j))

/-- What every operation and every capture keeps, a chain with a capture keeps. -/
theorem State.Run.keeps {P : State → Prop} (h : ∀ {s t}, State.Op pl tx s t → P s → P t)
    (hc : ∀ (s : State) m n start data, ((s.motor m).slot n).state = .empty ∨ ((s.motor m).slot n).state = .inactive → P s →
      P (s.onMotor m fun u => u.onSlot n (PlanSlot.capture start data))) {s t : State} (k : State.Run pl tx s t) (hs : P s) :
    P t := by
  cases k with
  | ops k => exact k.keeps h hs
  | capture m n start data a k _ he ht _ => exact ht.keeps h (hc a m n start data he (k.keeps h hs))

end Sys2Proof.Machine
end

