-- ==== Sys2Proof/Laws/Exec.lean ====
section
/-! SUPPORT. Every shared operation and every command, read as a chain of the operations of `State.Op`. -/
namespace Sys2Proof.Machine

variable {pl tx : Bool}

/-! ### Frames and placement -/

theorem State.storeEntry_ops (s : State) (m : Motor) (q : Short) (p : Option Nat) (r : Resolution) :
    State.Ops pl tx s (s.storeEntry m q p r) :=
  State.onMotor_ops m s (MotorUnit.Op.storeEntry q p r _).ops

theorem State.resolve_ops (s : State) (r : Reservation) (res : Resolution) : State.Ops pl tx s (s.resolve r res) :=
  s.storeEntry_ops _ _ _ _

theorem State.overCapacity_ops (s : State) (m : Motor) (step index : Nat) : State.Ops pl tx s (s.overCapacity m step index) := by
  unfold State.overCapacity
  dsimp only
  refine .trans (.ite _ (.refl s) (s.logMotor_ops m _ _)) (State.onMotor_ops m _ (MotorUnit.Op.ops ?_))
  exact .openRecord (fun f => { f with full := true, fullLogged := true }) _ fun _ => rfl

theorem State.missRequest_ops (s : State) (c : PlacementContext) (full : Bool) : State.Ops pl tx s (s.missRequest c full) := by
  unfold State.missRequest
  refine .trans (.trans (s.storeEntry_ops c.motor c.sequence c.position missed) ?_)
    (State.onMotor_ops c.motor _ (MotorUnit.Op.marks _ _).ops)
  split
  · exact .refl _
  · exact State.logMotor_ops _ _ _ _

/-- A chosen start is one of the candidates, clipped to the window, and its interval is free (R71). -/
theorem bestStart_mem (target : Int) : ∀ (l : List Int) (p : Int), bestStart target l = some p → p ∈ l
  | [], _, h => by cases h
  | q :: rest, p, h => by
    unfold bestStart at h
    split at h
    · cases h; exact List.mem_cons_self
    · rename_i r hr
      cases h
      have := bestStart_mem target rest r hr
      unfold betterStart
      split
      · exact List.mem_cons_self
      · split
        · exact List.mem_cons_of_mem q this
        · by_cases e : q ≤ r
          · rw [Int.max_eq_right e]; exact List.mem_cons_of_mem q this
          · rw [Int.max_eq_left (by omega)]; exact List.mem_cons_self

theorem findStart_free {width : Nat} {busy : List Int} {lo hi target p : Int} (h : findStart width busy lo hi target = some p) :
    freeAt width busy p = true ∧ lo ≤ p ∧ p ≤ max lo hi := by
  have hm := bestStart_mem target _ p h
  rw [List.mem_filter] at hm
  refine ⟨hm.2, ?_⟩
  have hc := hm.1
  unfold startCandidates clipTo at hc
  rw [List.mem_map] at hc
  obtain ⟨q, _, rfl⟩ := hc
  omega

/-- A request with 16-bit offsets, as every step of a plan has (R32). -/
def SampleRequest.short (r : SampleRequest) : Prop := r.earliest < 65536 ∧ r.latest < 65536

theorem planShort_lt (c : Memory) (o : Nat) : planShort c o < 65536 := by
  unfold planShort planByte
  have := (Memory.read c o).isLt
  have := (Memory.read c (o + 1)).isLt
  omega

theorem planStep_short (c : Memory) (k : Nat) : ∀ r ∈ (planStep c k).requests, r.short := by
  intro r hr
  simp only [planStep, stepAt, List.mem_map] at hr
  obtain ⟨i, _, rfl⟩ := hr
  exact ⟨planShort_lt _ _, planShort_lt _ _⟩

theorem State.reserve_ops (s : State) (c : PlacementContext) (r : SampleRequest) (o : Int) (hr : r.short)
    (hf : findStart s.device.tConv (s.busyOffsets c.boundary) r.earliest r.latest r.target = some o)
    (h : s.calendar.reservations.length < calendarCapacity) :
    State.Ops true tx s (s.reserve c (c.reservation r o.toNat)) := by
  have hp := findStart_free hf
  have h0 : 0 ≤ o := by omega
  have ho : ((o.toNat : Nat) : Int) = o := Int.toNat_of_nonneg h0
  have hb : o.toNat < 65536 := by have := hr.1; have := hr.2; omega
  exact .trans
    (State.Op.calendar s (.insert (c.reservation r o.toNat) c.boundary o.toNat s.calendar rfl h rfl hb (by rw [ho]; exact hp.1))).ops
    (State.onMotor_ops c.motor _ (MotorUnit.Op.markSlid _ _ _ _).ops)

theorem State.placeAt_ops (s : State) (c : PlacementContext) (r : SampleRequest) (full : Bool) (hr : r.short) :
    State.Ops true tx s (s.placeAt c r full).1 := by
  unfold State.placeAt
  split
  · exact s.missRequest_ops c true
  · rename_i h
    simp only [Bool.or_eq_true, decide_eq_true_eq, not_or, Nat.not_le] at h
    split
    · rename_i o hf
      exact s.reserve_ops c r o hr hf h.2
    · exact s.missRequest_ops c false

theorem State.placeOne_ops (m : Motor) (b : Instant) (step index : Nat) (r : SampleRequest) (sf : State × Bool)
    (hr : r.short) : State.Ops true tx sf.1 (State.placeOne m b step index r sf).1 := by
  unfold State.placeOne
  dsimp only
  split
  · exact State.overCapacity_ops _ _ _ _
  · exact State.placeAt_ops _ _ _ _ hr
  · exact .trans (State.onMotor_ops m sf.1 (MotorUnit.Op.givePosition step r _).ops) (State.placeAt_ops _ _ _ _ hr)

theorem State.placeFrom_ops (m : Motor) (b : Instant) (step : Nat) :
    ∀ (l : List SampleRequest) (index : Nat) (sf : State × Bool), (∀ r ∈ l, r.short) →
      State.Ops true tx sf.1 (State.placeFrom m b step index l sf).1
  | [], _, sf, _ => .refl sf.1
  | r :: rest, index, sf, h =>
    .trans (State.placeOne_ops m b step index r sf (h r List.mem_cons_self))
      (State.placeFrom_ops m b step rest (index + 1) _ fun q hq => h q (List.mem_cons_of_mem r hq))

theorem State.notePlacement_ops (s : State) (m : Motor) (b : Instant) : State.Ops true tx s (s.notePlacement m b) :=
  .ite _ (State.Op.placed _ s).ops (.refl s)

theorem State.placeStep_ops (s : State) (m : Motor) (b : Instant) : State.Ops true tx s (s.placeStep m b) := by
  unfold State.placeStep
  split
  · exact .refl s
  · exact .trans (s.notePlacement_ops m b) (State.placeFrom_ops m b _ _ 0 (_, false) (planStep_short _ _))

theorem State.dropFrame_ops (s : State) (m : Motor) (q : Short) : State.Ops pl tx s (s.dropFrame m q) := by
  unfold State.dropFrame
  refine .trans ?_ (State.onMotor_ops m _ (MotorUnit.Op.dropRun _).ops)
  split
  · exact .refl s
  · exact s.logMotor_ops m _ _

/-- Giving up the oldest frame and taking a half are one operation on the motor, with the entry after it. -/
theorem State.overwriteOldest_takeHalf_ops (s : State) (m : Motor) (q : Short) (n : HalfName)
    (hn : (s.motor m).frames.freeHalf = some n) (h : (s.motor m).ringHasRoom = false) :
    State.Ops pl tx s ((s.overwriteOldest m q).onMotor m (MotorUnit.takeHalf n)) := by
  have h1 : State.Ops pl tx s (s.onMotor m fun u => (u.overwriteOldest s.timebase).takeHalf n) :=
    State.onMotor_ops m s (MotorUnit.Op.overwrite n _ hn h).ops
  have h2 := (State.Op.log (pl := pl) (tx := tx) ⟨.ringOverwrite, .motor m, q, (s.motor m).channel.periodCount⟩
    (s.onMotor m fun u => (u.overwriteOldest s.timebase).takeHalf n)).ops
  cases m <;> exact .trans h1 h2

theorem State.openFrame_ops (s : State) (m : Motor) : State.Ops pl tx s (s.openFrame m) := by
  have h1 : State.Ops pl tx s (s.onMotor m MotorUnit.beginFrame) := State.onMotor_ops m s (MotorUnit.Op.beginFrame _).ops
  unfold State.openFrame
  dsimp only
  refine .trans h1 ?_
  split
  · exact State.logMotor_ops _ _ _ _
  · rename_i n hn
    split
    · rename_i hr
      exact State.onMotor_ops m _ (MotorUnit.Op.takeHalf n _ hn hr).ops
    · rename_i hr
      split
      · exact State.dropFrame_ops _ _ _
      · exact State.overwriteOldest_takeHalf_ops _ m _ n hn (by simpa using hr)

/-! ### Conversions, trips and limits -/

theorem State.sendFirst_ops (s : State) (test : Reservation → Bool) (h : s.converting = none) :
    State.Ops false tx s (s.sendFirst test) := by
  unfold State.sendFirst
  split
  · exact .refl s
  · exact .trans (State.Op.calendar s (.convert test s.converter.requestTag s.calendar h)).ops
      (State.Op.converter _ _).ops

theorem State.converterFree_idle {s : State} (h : s.converterFree = true) : s.converting = none := by
  unfold State.converterFree at h
  simp only [Bool.and_eq_true] at h
  simpa using h.2

theorem State.startWaiting_ops (s : State) : State.Ops false tx s s.startWaiting := by
  unfold State.startWaiting
  split
  · rename_i h; exact s.sendFirst_ops _ (State.converterFree_idle h)
  · exact .refl s

theorem removeFirst_sublist (test : Reservation → Bool) : ∀ l, (removeFirst test l).Sublist l
  | [] => .refl _
  | q :: rest => by
    unfold removeFirst
    split
    · exact List.sublist_cons_self q rest
    · exact (removeFirst_sublist test rest).cons_cons q

theorem State.remove_ops (s : State) {l : List Reservation} (h : l.Sublist s.calendar.reservations) :
    State.Ops false tx s (s.setReservations l) := (State.Op.calendar s (.remove l s.calendar h)).ops

theorem State.reservationStarts_ops (s : State) : State.Ops false tx s s.reservationStarts := by
  unfold State.reservationStarts
  split
  · exact .refl s
  · split
    · split
      · rename_i h; exact s.sendFirst_ops _ (State.converterFree_idle h)
      · split
        · exact .trans (s.remove_ops (removeFirst_sublist _ _)) (State.resolve_ops _ _ _)
        · exact (State.Op.calendar s (.wait s.calendar)).ops
    · exact .refl s

theorem State.latestArrives_ops (s : State) : State.Ops false tx s s.latestArrives := by
  unfold State.latestArrives
  split
  · exact .refl s
  · exact .trans (s.remove_ops (removeFirst_sublist _ _)) (State.resolve_ops _ _ _)

theorem State.foldl_resolve_ops (res : Resolution) : ∀ (l : List Reservation) (s : State),
    State.Ops pl tx s (l.foldl (fun s r => s.resolve r res) s)
  | [], s => .refl s
  | r :: rest, s => .trans (s.resolve_ops r res) (State.foldl_resolve_ops res rest _)

theorem State.removeMissed_ops (s : State) (test : Reservation → Bool) : State.Ops false tx s (s.removeMissed test) :=
  .trans (s.remove_ops List.filter_sublist) (State.foldl_resolve_ops missed _ _)

theorem State.tripEntry_ops (s : State) (m : Motor) (c : TripCause) (i : Short) : State.Ops false tx s (s.tripEntry m c i) := by
  unfold State.tripEntry
  refine .trans (s.removeMissed_ops (Reservation.ahead m)) ?_
  refine .trans (State.Op.calendar _ (.orphan m _)).ops ?_
  have ht : (s.removeMissed (Reservation.ahead m)).timebase = s.timebase := (s.removeMissed_ops (tx := tx) _).frame.1
  refine State.onMotor_ops m _ ?_
  have := (MotorUnit.Op.trip (now := s.timebase) c i
    (((s.removeMissed (Reservation.ahead m)).setReservations
      ((s.removeMissed (Reservation.ahead m)).calendar.reservations.map (Reservation.orphan m))).motor m)).ops
  simpa [State.setReservations, ht] using this

theorem State.trip_ops (s : State) (m : Motor) (c : TripCause) (i : Short) : State.Ops false tx s (s.trip m c i) := by
  unfold State.trip
  split
  · exact s.tripEntry_ops m c i
  · exact s.tripEntry_ops m c i
  · exact .refl s
  · exact .refl s

theorem State.tripAll_ops (s : State) (c : TripCause) (i : Short) : State.Ops false tx s (s.tripAll c i) :=
  .trans (.trans (s.trip_ops .m0 c i) (State.trip_ops _ .m1 c i)) (State.trip_ops _ .m2 c i)

theorem State.logLimit_ops (s : State) (o : InputOwner) (i : Short) : State.Ops pl tx s (s.logLimit o i) := by
  cases o
  · exact s.logMotor_ops _ _ _
  · exact s.logDevice_ops _ _
  · exact .refl s

theorem State.limitTrip_ops (s : State) (o : InputOwner) (i : Short) : State.Ops false tx s (s.limitTrip o i) := by
  cases o
  · exact s.trip_ops _ _ _
  · exact s.tripAll_ops _ _
  · exact .refl s

/-- A check changes the consecutive count of a record alone. -/
theorem InputRecord.check_record (v : BitVec 12) (r : InputRecord) :
    ∃ k, (r.check v).record = { r with consecutive := k } := by
  unfold InputRecord.check
  split
  · exact ⟨_, rfl⟩
  · split
    · split <;> exact ⟨_, rfl⟩
    · exact ⟨_, rfl⟩

theorem State.takeValue_ops (s : State) (r : Reservation) (v : BitVec 12) : State.Ops false tx s (s.takeValue r v) := by
  have h1 : State.Ops false tx s (s.setInput r.input ((s.inputRecord r.input).check v).record) :=
    (State.Op.input _ _ s (.inr (InputRecord.check_record v _))).ops
  unfold State.takeValue
  dsimp only
  cases ((s.inputRecord r.input).check v).trips
  · exact .trans h1 (State.resolve_ops _ _ _)
  · exact .trans (.trans (.trans h1 (State.logLimit_ops _ _ _)) (State.resolve_ops _ _ _)) (State.limitTrip_ops _ _ _)

theorem State.dropConverting_ops (s : State) : State.Ops false tx s s.dropConverting := s.remove_ops (removeFirst_sublist _ _)

theorem State.acceptResult_ops (s : State) (r : Reservation) (v : BitVec 12) : State.Ops false tx s (s.acceptResult r v) := by
  have h1 : State.Ops false tx s
      ({ s with converter := { s.converter with failures := 0, resultTimer := none } }.dropConverting.startWaiting) :=
    .trans (.trans (State.Op.converter _ s).ops (State.dropConverting_ops _)) (State.startWaiting_ops _)
  exact .ite _ h1 (.trans h1 (State.takeValue_ops _ _ _))

theorem State.loseConverter_ops (s : State) (k : InfoName) : State.Ops false tx s (s.loseConverter k) :=
  .trans (.trans (.trans (State.Op.converter _ s).ops (State.logDevice_ops _ _ _)) (State.removeMissed_ops _ _))
    (State.tripAll_ops _ _ _)

theorem State.failConversion_ops (s : State) (r : Reservation) (k : InfoName) : State.Ops false tx s (s.failConversion r k) := by
  have h1 : State.Ops false tx s
      { s with converter := { s.converter with failures := s.converter.failures + 1, resultTimer := none } }.dropConverting :=
    .trans (State.Op.converter _ s).ops (State.dropConverting_ops _)
  have h2 := State.Ops.ite (r.orphaned = true) h1 (.trans h1 (State.resolve_ops _ r failed))
  exact .ite _ (.trans h2 (State.loseConverter_ops _ _)) (.trans h2 (State.startWaiting_ops _))

theorem State.takeResult_ops (input : InputNumber) (tag : ConverterTag) (v : BitVec 12) (s : State) :
    State.Ops false tx s (s.takeResult input tag v) := by
  unfold State.takeResult
  split
  · exact .refl s
  · split
    · exact .refl s
    · split
      · split
        · exact s.acceptResult_ops _ _
        · exact .trans (s.logMotor_ops _ _ _) (State.failConversion_ops _ _ _)
      · exact .refl s

theorem State.readResult_ops (bits : BitVec 20) (s : State) : State.Ops false tx s (s.readResult bits) := by
  unfold State.readResult
  exact .ite _ (s.takeResult_ops _ _ _) (.refl s)

/-- The bits of a record, read again, are its input, its tag and its value. -/
@[simp] theorem State.readResult_resultBits (input : InputNumber) (tag : ConverterTag) (v : BitVec 12) (s : State) :
    s.readResult (resultBits input tag v) = s.takeResult input tag v := by
  have h0 : (resultBits input tag v).getLsbD 19 = true := by
    unfold resultBits
    rw [BitVec.getLsbD_append, BitVec.getLsbD_append, BitVec.getLsbD_append]
    simp
  have h1 : (resultBits input tag v).extractLsb' 15 4 = input := by
    refine BitVec.eq_of_getLsbD_eq fun i hi => ?_
    unfold resultBits
    rw [BitVec.getLsbD_extractLsb', BitVec.getLsbD_append, BitVec.getLsbD_append, BitVec.getLsbD_append]
    have : ¬ 15 + i < 3 + 12 := by omega
    simp [hi, this]
  have h2 : (resultBits input tag v).extractLsb' 12 3 = tag := by
    refine BitVec.eq_of_getLsbD_eq fun i hi => ?_
    unfold resultBits
    rw [BitVec.getLsbD_extractLsb', BitVec.getLsbD_append, BitVec.getLsbD_append]
    have : 12 + i < 15 := by omega
    simp [hi, this]
  have h3 : (resultBits input tag v).extractLsb' 0 12 = v := by
    refine BitVec.eq_of_getLsbD_eq fun i hi => ?_
    unfold resultBits
    rw [BitVec.getLsbD_extractLsb', BitVec.getLsbD_append, BitVec.getLsbD_append]
    have : i < 15 := by omega
    simp [hi, this]
  unfold State.readResult
  rw [if_pos h0, h1, h2, h3]

theorem State.resultTimerFalls_ops (s : State) : State.Ops false tx s s.resultTimerFalls := by
  unfold State.resultTimerFalls
  split
  · split
    · exact .refl s
    · exact .trans (s.logMotor_ops _ _ _) (State.failConversion_ops _ _ _)
  · exact .refl s

theorem State.faultActivates_ops (m : Motor) (s : State) : State.Ops false tx s (s.faultActivates m) := by
  unfold State.faultActivates
  split
  · exact .refl s
  · exact .trans (.trans (State.onMotor_ops m s (MotorUnit.Op.fault true _).ops) (State.logMotor_ops _ _ _ _))
      (State.trip_ops _ _ _ _)

/-! ### The Hall Tracker -/

theorem MotorUnit.tracker_ops (now : Instant) (f : Tracker → Tracker) (u : MotorUnit) :
    MotorUnit.Ops now u (u.onTracker f) := (MotorUnit.Op.tracker f u).ops

theorem MotorUnit.armTimeout_ops (now : Instant) (u : MotorUnit) : MotorUnit.Ops now u (u.armTimeout now) :=
  u.tracker_ops now _

theorem MotorUnit.scheduleCommutation_ops (now : Instant) (c : HallCode) (u : MotorUnit) :
    MotorUnit.Ops now u (u.scheduleCommutation now c) := u.tracker_ops now _

theorem MotorUnit.commutate_ops (now : Instant) (u : MotorUnit) : MotorUnit.Ops now u (u.commutate now) := by
  have h1 := u.tracker_ops now fun k => { k with scheduled := none }
  unfold MotorUnit.commutate
  split
  · exact .refl u
  · exact .ite _ h1 (.trans (.trans h1 (MotorUnit.Op.sector _ _).ops) (MotorUnit.Op.refreshRoles _).ops)

theorem MotorUnit.commutationArrives_ops (now : Instant) (u : MotorUnit) :
    MotorUnit.Ops now u (u.commutationArrives now) := .ite _ (u.commutate_ops now) (.refl u)

theorem MotorUnit.nextCommutation_ops (now : Instant) (c : HallCode) (u : MotorUnit) :
    MotorUnit.Ops now u (u.nextCommutation now c) := by
  unfold MotorUnit.nextCommutation
  split
  · exact .trans (u.commutate_ops now) (MotorUnit.scheduleCommutation_ops now c _)
  · exact .refl u

theorem MotorUnit.acceptEdge_ops (now : Instant) (c : HallCode) (u : MotorUnit) :
    MotorUnit.Ops now u (u.acceptEdge now c) :=
  .trans (.trans (u.tracker_ops now _) (MotorUnit.nextCommutation_ops now c _)) (MotorUnit.armTimeout_ops now _)

theorem MotorUnit.enterWaitFirst_ops (now : Instant) (u : MotorUnit) : MotorUnit.Ops now u (u.enterWaitFirst now) :=
  .trans (u.tracker_ops now _) (MotorUnit.armTimeout_ops now _)

theorem MotorUnit.dropMeasurements_ops (now : Instant) (u : MotorUnit) : MotorUnit.Ops now u (u.dropMeasurements now) :=
  .trans (u.tracker_ops now _) (MotorUnit.armTimeout_ops now _)

theorem MotorUnit.predict_ops (now : Instant) (c : HallCode) (u : MotorUnit) : MotorUnit.Ops now u (u.predict now c) :=
  .trans (.trans (u.tracker_ops now _) (MotorUnit.nextCommutation_ops now c _)) (MotorUnit.armTimeout_ops now _)

theorem MotorUnit.exitWaitFirst_ops (now : Instant) (c : HallCode) (u : MotorUnit) :
    MotorUnit.Ops now u (u.exitWaitFirst now c) := by
  have h1 := u.tracker_ops now fun k =>
    { k with
      state := .tracking, sector := some c, lastEdge := now, reference := .entry, predictions := 0, overtaken := none }
  exact .trans (.ite _ (.trans h1 (MotorUnit.scheduleCommutation_ops now c _)) h1) (MotorUnit.armTimeout_ops now _)

theorem MotorUnit.driveCurrent_ops (now : Instant) (u : MotorUnit) : MotorUnit.Ops now u u.driveCurrent :=
  (MotorUnit.Op.sector _ u).ops

theorem MotorUnit.beginTracker_ops (now : Instant) (u : MotorUnit) : MotorUnit.Ops now u (u.beginTracker now) := by
  have h1 : MotorUnit.Ops now u ((u.onTracker (Tracker.begin now u.hallCode)).armTimeout now) :=
    .trans (u.tracker_ops now _) (MotorUnit.armTimeout_ops now _)
  exact .ite _ (.trans h1 (MotorUnit.driveCurrent_ops now _)) h1

theorem MotorUnit.switchMode_ops (now : Instant) (was : Bool) (u : MotorUnit) :
    MotorUnit.Ops now u (u.switchMode now was) := by
  unfold MotorUnit.switchMode
  split
  · exact .trans (u.driveCurrent_ops now) (MotorUnit.armTimeout_ops now _)
  · exact u.tracker_ops now _
  · exact .refl u

theorem State.judgeDirection_ops (s : State) (m : Motor) (c : HallCode) : State.Ops pl tx s (s.judgeDirection m c) := by
  unfold State.judgeDirection
  split
  · exact .refl s
  · split
    · exact .refl s
    · exact s.logMotor_ops _ _ _

theorem State.judgeDirection_timebase (s : State) (m : Motor) (c : HallCode) :
    (s.judgeDirection m c).timebase = s.timebase := (s.judgeDirection_ops (pl := false) (tx := false) m c).frame.1

theorem State.acceptEdge_ops (s : State) (m : Motor) (c : HallCode) : State.Ops pl tx s (s.acceptEdge m c) := by
  refine .trans (s.judgeDirection_ops m c) (State.onMotor_ops m _ ?_)
  rw [s.judgeDirection_timebase m c]
  exact MotorUnit.acceptEdge_ops _ _ _

theorem State.invalidCode_ops (s : State) (m : Motor) (c : HallCode) : State.Ops false tx s (s.invalidCode m c) := by
  have hr : ∀ t : State, State.Ops false tx s t → State.Ops false tx s (t.onMotor m (MotorUnit.enterWaitFirst s.timebase)) := by
    intro t ht
    refine .trans ht (State.onMotor_ops m t ?_)
    rw [ht.frame.1]
    exact MotorUnit.enterWaitFirst_ops _ _
  unfold State.invalidCode
  refine hr _ ?_
  split
  · exact .trans (s.logMotor_ops _ _ _) (State.trip_ops _ _ _ _)
  · exact .refl s

theorem State.examine_ops (s : State) (m : Motor) : State.Ops false tx s (s.examine m) := by
  unfold State.examine
  dsimp only
  split
  · exact .refl s
  · split
    · exact s.acceptEdge_ops m _
    · exact s.invalidCode_ops m _

theorem State.edgeArrives_ops (s : State) (m : Motor) : State.Ops false tx s (s.edgeArrives m) := by
  unfold State.edgeArrives
  dsimp only
  split
  · exact .refl s
  · split
    · exact s.examine_ops m
    · exact State.onMotor_ops m s (MotorUnit.tracker_ops _ _ _)

theorem State.hallChanges_ops (m : Motor) (c : HallCode) (s : State) : State.Ops false tx s (s.hallChanges m c) := by
  have h1 : State.Ops false tx s (s.onMotor m (MotorUnit.setHallCode c)) := State.onMotor_ops m s (MotorUnit.Op.hallCode c _).ops
  unfold State.hallChanges
  split
  · exact .refl s
  · split
    · exact h1
    · split
      · split
        · refine .trans h1 (State.onMotor_ops m _ ?_)
          simpa using MotorUnit.exitWaitFirst_ops _ _ _
        · exact h1
      · exact .trans h1 (State.edgeArrives_ops _ m)
      · exact .trans h1 (State.edgeArrives_ops _ m)

theorem State.examinationDue_ops (m : Motor) (s : State) : State.Ops false tx s (s.examinationDue m) := by
  unfold State.examinationDue
  split
  · exact .trans (.trans (State.onMotor_ops m s (MotorUnit.tracker_ops _ _ _)) (State.examine_ops _ m))
      (State.onMotor_ops m _ (MotorUnit.tracker_ops _ _ _))
  · exact .refl s

theorem State.stall_ops (s : State) (m : Motor) : State.Ops false tx s (s.stall m) := by
  unfold State.stall
  have h1 : ∀ i, State.Ops false tx s ((s.logMotor m .hallStall i).trip m .hallStall i) := fun i =>
    .trans (s.logMotor_ops _ _ _) (State.trip_ops _ _ _ _)
  refine .trans (h1 _) (State.onMotor_ops m _ ?_)
  rw [(h1 _).frame.1]
  exact MotorUnit.dropMeasurements_ops _ _

theorem State.sectorTimeoutExpires_ops (m : Motor) (s : State) : State.Ops false tx s (s.sectorTimeoutExpires m) := by
  unfold State.sectorTimeoutExpires
  dsimp only
  split
  · split
    · split
      · exact State.onMotor_ops m s (MotorUnit.predict_ops _ _ _)
      · exact s.stall_ops m
    · exact State.onMotor_ops m s (MotorUnit.dropMeasurements_ops _ _)
  · exact .refl s

/-! ### Plans -/

/-- The slot in a state that a search names is in that state. -/
theorem MotorUnit.slotIn_state {u : MotorUnit} {st : SlotState} {n : SlotName} (h : u.slotIn st = some n) :
    (u.slot n).state = st := by
  unfold MotorUnit.slotIn at h
  split at h
  · rename_i ha; cases h; exact ha
  · split at h
    · rename_i hb; cases h; exact hb
    · cases h

theorem State.commit_ops (m : Motor) (n : SlotName) (tag : Byte) (kind : ActivationKind) (s : State) :
    State.Ops pl tx s (s.commit m n tag kind) := by
  have fresh (h : ((s.motor m).slot n).state = .empty ∨ ((s.motor m).slot n).state = .inactive) :
      State.Ops pl tx s (if ((s.motor m).slot n.other).state = .pending then
        s.logMotor m .commitRefused InfoName.otherPending.info else s.commitFresh m n tag kind) := by
    split
    · exact s.logMotor_ops _ _ _
    · rename_i ho
      unfold State.commitFresh
      split
      · exact s.logMotor_ops _ _ _
      · exact State.onMotor_ops m s (MotorUnit.Op.pend n tag kind _ h ho).ops
  unfold State.commit
  split
  · exact State.onMotor_ops m s (MotorUnit.Op.retag n tag _).ops
  · exact s.logMotor_ops _ _ _
  · rename_i h; exact fresh (.inl h)
  · rename_i h; exact fresh (.inr h)

theorem State.cancel_ops (m : Motor) (n : SlotName) (s : State) : State.Ops pl tx s (s.cancel m n) :=
  State.onMotor_ops m s (MotorUnit.Op.cancel n _).ops

theorem State.mapCommit_ops (s : State) : State.Ops pl tx s s.mapCommit := by
  unfold State.mapCommit
  split
  · split
    · exact s.logDevice_ops _ _
    · exact (State.Op.window _ s).ops
  · exact s.logDevice_ops _ _

/-! ### The channel -/

theorem State.onMotor_state (s : State) (m : Motor) (f : MotorUnit → MotorUnit) :
    ((s.onMotor m f).motor m) = f (s.motor m) := State.motor_onMotor_self s m f

theorem MotorUnit.setStep_ops (now : Instant) (k : Nat) (u : MotorUnit) : MotorUnit.Ops now u (u.setStep k) :=
  (MotorUnit.Op.stepIndex k u).ops

theorem MotorUnit.beginRun_ops (now : Instant) (n : SlotName) (u : MotorUnit) (hs : u.channel.state = .stopped)
    (h : (u.slot n).state = .pending) : MotorUnit.Ops now u (u.beginRun now n) :=
  .trans (.trans (MotorUnit.Op.begin n u hs h).ops (MotorUnit.beginTracker_ops now _)) (MotorUnit.setStep_ops now 0 _)

/-! ### What frames, the tracker and activation leave of a motor's channel -/

@[simp] theorem MotorUnit.beginFrame_channel (u : MotorUnit) : u.beginFrame.channel = u.channel := by
  unfold MotorUnit.beginFrame
  cases u.activeSlot with
  | none => rfl
  | some n => cases n <;> rfl

@[simp] theorem MotorUnit.takeHalf_channel (n : HalfName) (u : MotorUnit) : (u.takeHalf n).channel = u.channel := by
  unfold MotorUnit.takeHalf
  dsimp only
  split <;> rfl

@[simp] theorem MotorUnit.overwriteOldest_channel (now : Instant) (u : MotorUnit) :
    (u.overwriteOldest now).channel = u.channel := rfl

@[simp] theorem MotorUnit.closeFrame_channel (now : Instant) (flag : CloseFlag) (u : MotorUnit) :
    (u.closeFrame now flag).channel = u.channel := by
  unfold MotorUnit.closeFrame
  split
  · rfl
  · dsimp only
    split <;> rfl

/-- Opening a frame leaves the channel of its motor. -/
@[simp] theorem State.openFrame_channel (s : State) (m : Motor) :
    ((s.openFrame m).motor m).channel = (s.motor m).channel := by
  unfold State.openFrame State.dropFrame State.overwriteOldest
  dsimp only
  split
  · simp [State.logMotor_motor]
  · split
    · simp
    · split
      · split <;> simp [State.logMotor_motor, MotorUnit.onFrames]
      · simp [State.logMotor_motor]

@[simp] theorem MotorUnit.armTimeout_channel (now : Instant) (u : MotorUnit) : (u.armTimeout now).channel = u.channel := rfl

theorem MotorUnit.switchMode_state (now : Instant) (was : Bool) (u : MotorUnit) :
    (u.switchMode now was).channel.state = u.channel.state
      ∧ (u.switchMode now was).channel.periodStart = u.channel.periodStart := by
  unfold MotorUnit.switchMode
  split <;> exact ⟨rfl, rfl⟩

theorem MotorUnit.activateSlot_channel (n : SlotName) (u : MotorUnit) : (u.activateSlot n).channel = u.channel := by
  cases n <;> rfl

theorem MotorUnit.beginRun_state (now : Instant) (n : SlotName) (u : MotorUnit) :
    (u.beginRun now n).channel.state = .running := by
  unfold MotorUnit.beginRun MotorUnit.beginTracker MotorUnit.driveCurrent
  dsimp only
  split <;> cases n <;> rfl

/-! ### START, RESTART, PERIOD_BOUNDARY -/

theorem State.setLegs_ops (s : State) (m : Motor) (now b : Instant) (hn : now = s.timebase)
    (h : (s.motor m).channel.state = .running) : State.Ops pl tx s (s.onMotor m (MotorUnit.setLegs now b)) := by
  subst hn
  exact State.onMotor_ops m s (MotorUnit.Op.setLegs b _ h).ops

theorem State.startLegs_ops (s : State) (m : Motor) (now : Instant) (hn : now = s.timebase)
    (h : (s.motor m).channel.state = .running) : State.Ops pl tx s (s.onMotor m (MotorUnit.startLegs now)) := by
  subst hn
  exact State.onMotor_ops m s (.trans (MotorUnit.Op.setLegs s.timebase _ h).ops (MotorUnit.Op.narrow _ _).ops)

theorem State.takeStart_ops (s : State) (m : Motor) (n : SlotName) (hs : (s.motor m).channel.state = .stopped)
    (h : ((s.motor m).slot n).state = .pending) : State.Ops true tx s (s.takeStart m n) := by
  have h1 : State.Ops true tx s (s.onMotor m (MotorUnit.beginRun s.timebase n)) :=
    State.onMotor_ops m s (MotorUnit.beginRun_ops _ n _ hs h)
  have h2 := State.Ops.trans h1 (State.openFrame_ops _ m)
  refine .trans (.trans h2 (State.startLegs_ops _ m _ h2.frame.1.symm ?_)) (State.placeStep_ops _ m _)
  rw [State.openFrame_channel, State.motor_onMotor_self]
  exact MotorUnit.beginRun_state _ n _

theorem MotorUnit.pendingSlot_state {u : MotorUnit} {n : SlotName} (h : u.pendingSlot = some n) :
    (u.slot n).state = .pending := MotorUnit.slotIn_state h

theorem State.startRefusal_none {s : State} {m : Motor} (h : s.startRefusal m = none) :
    (s.motor m).channel.state = .stopped := by
  unfold State.startRefusal at h
  dsimp only at h
  split at h
  · cases h
  · rename_i hs; simpa using hs

theorem MotorUnit.restartRefusal_none {u : MotorUnit} (h : u.restartRefusal = none) : u.channel.state = .tripped := by
  unfold MotorUnit.restartRefusal at h
  split at h
  · cases h
  · rename_i hs; simpa using hs

theorem State.restart_ops (m : Motor) (s : State) : State.Ops pl tx s (s.restart m) := by
  unfold State.restart
  split
  · exact s.logMotor_ops _ _ _
  · rename_i h
    exact State.onMotor_ops m s (MotorUnit.Op.restart _ (MotorUnit.restartRefusal_none h)).ops

theorem MotorUnit.activateAt_ops (now b : Instant) (n : SlotName) (u : MotorUnit)
    (hr : u.channel.periodStart.isSome = true) (h : (u.slot n).state = .pending) :
    MotorUnit.Ops now u (u.activateAt b n) := by
  have h1 : MotorUnit.Ops now u ((u.activateSlot n).setStep 0) :=
    .trans (MotorUnit.Op.activate n u hr h).ops (MotorUnit.setStep_ops now 0 _)
  refine .trans h1 ?_
  show MotorUnit.Ops now _ (((u.activateSlot n).setStep 0).switchMode b u.hallMode)
  unfold MotorUnit.switchMode
  split
  · exact .trans (MotorUnit.driveCurrent_ops now _) (MotorUnit.tracker_ops now _ _)
  · exact MotorUnit.tracker_ops now _ _
  · exact .refl _

theorem State.closeFrame_ops (s : State) (m : Motor) (now : Instant) (flag : CloseFlag) (hn : now = s.timebase) :
    State.Ops pl tx s (s.onMotor m (MotorUnit.closeFrame now flag)) := by
  subst hn
  exact State.onMotor_ops m s (MotorUnit.Op.closeFrame flag _).ops

theorem State.renewFrame_ops (s : State) (m : Motor) (flag : CloseFlag) : State.Ops pl tx s (s.renewFrame m flag) :=
  .trans (s.closeFrame_ops m _ flag rfl) (State.openFrame_ops _ m)

@[simp] theorem State.renewFrame_channel (s : State) (m : Motor) (flag : CloseFlag) :
    ((s.renewFrame m flag).motor m).channel = (s.motor m).channel := by
  unfold State.renewFrame
  simp

theorem State.countFrame_ops (s : State) (m : Motor) : State.Ops pl tx s (s.countFrame m) := by
  unfold State.countFrame
  split
  · exact s.renewFrame_ops m _
  · exact State.onMotor_ops m s
      (MotorUnit.Op.openRecord (fun f => { f with periodsCovered := f.periodsCovered + 1 }) _ fun _ => rfl).ops

@[simp] theorem State.countFrame_channel (s : State) (m : Motor) :
    ((s.countFrame m).motor m).channel = (s.motor m).channel := by
  unfold State.countFrame
  split
  · simp
  · simp [MotorUnit.onFrames]

theorem State.setStepAt_ops (s : State) (m : Motor) (b : Instant) (h : (s.motor m).channel.state = .running) :
    State.Ops true tx s (s.setStepAt m b) :=
  .trans (s.setLegs_ops m _ b rfl h) (State.placeStep_ops _ m b)

theorem MotorUnit.activating_state {u : MotorUnit} {n : SlotName} (h : u.activating = some n) :
    (u.slot n).state = .pending := by
  unfold MotorUnit.activating at h
  split at h
  · cases h
  · rename_i k hk
    have := MotorUnit.pendingSlot_state hk
    split at h
    · cases h; exact this
    · split at h
      · cases h; exact this
      · cases h

theorem State.stoppingBoundary_ops (s : State) (m : Motor) (now : Instant) (hn : now = s.timebase) :
    State.Ops pl tx s (s.onMotor m (MotorUnit.stoppingBoundary now)) := by
  subst hn
  exact State.onMotor_ops m s (MotorUnit.Op.stoppingBoundary _).ops

theorem State.runningBoundary_ops (s : State) (m : Motor) (b : Instant) (h : (s.motor m).channel.state = .running)
    (hr : (s.motor m).channel.periodStart.isSome = true) : State.Ops true tx s (s.runningBoundary m b) := by
  unfold State.runningBoundary
  split
  · rename_i n hn
    have h1 : State.Ops true tx s (s.onMotor m (MotorUnit.activateAt b n)) :=
      State.onMotor_ops m s (MotorUnit.activateAt_ops _ b n _ hr (MotorUnit.activating_state hn))
    refine .trans (.trans h1 (State.renewFrame_ops _ m _)) (State.setStepAt_ops _ m b ?_)
    rw [State.renewFrame_channel, State.motor_onMotor_self]
    unfold MotorUnit.activateAt
    rw [(MotorUnit.switchMode_state _ _ _).1]
    show ((s.motor m).activateSlot n).channel.state = .running
    rw [MotorUnit.activateSlot_channel]
    exact h
  · split
    · rename_i k _
      have h1 : State.Ops true tx s (s.onMotor m (MotorUnit.setStep k)) := State.onMotor_ops m s (MotorUnit.setStep_ops _ k _)
      refine .trans (.trans h1 (State.countFrame_ops _ m)) (State.setStepAt_ops _ m b ?_)
      rw [State.countFrame_channel, State.motor_onMotor_self]
      exact h
    · exact s.stoppingBoundary_ops m _ rfl

theorem State.ownBoundary_ops (m : Motor) (s : State) : State.Ops true tx s (s.ownBoundary m) := by
  unfold State.ownBoundary
  split
  · exact .refl s
  · rename_i b hb
    have hr : (s.motor m).channel.periodStart.isSome = true := by
      unfold MotorUnit.nextBoundary at hb
      cases hp : (s.motor m).channel.periodStart with
      | none => simp [hp] at hb
      | some _ => rfl
    have h1 : State.Ops true tx s (s.onMotor m fun u => (u.startPeriod b).countPeriod) :=
      State.onMotor_ops m s (MotorUnit.Op.period b _ hr).ops
    split
    · dsimp only
      split
      · rename_i hs
        refine .trans h1 (State.runningBoundary_ops _ m b ?_ ?_)
        · rw [State.motor_onMotor_self]; exact hs
        · rw [State.motor_onMotor_self]; rfl
      · exact .trans h1 (State.stoppingBoundary_ops _ m _ (by simp))
      · exact .refl s
      · exact .refl s
    · exact .refl s

/-! ### A motor's boundary leaves the other motors; the boundaries that come before a boundary or a START (R76) -/

section Others

variable {m k : Motor} (h : m ≠ k)
include h

theorem State.missRequest_other (s : State) (c : PlacementContext) (full : Bool) (hc : c.motor = k) :
    (s.missRequest c full).motor m = s.motor m := by
  subst hc
  unfold State.missRequest State.storeEntry
  dsimp only
  split <;> simp [State.motor_onMotor_ne _ _ h, State.logMotor_motor]

theorem State.placeAt_other (s : State) (c : PlacementContext) (r : SampleRequest) (full : Bool) (hc : c.motor = k) :
    (s.placeAt c r full).1.motor m = s.motor m := by
  unfold State.placeAt
  split
  · exact State.missRequest_other h s c true hc
  · split
    · subst hc
      unfold State.reserve
      dsimp only
      rw [State.motor_onMotor_ne _ _ h]
      cases m <;> rfl
    · exact State.missRequest_other h s c false hc

theorem State.placeOne_other (b : Instant) (step index : Nat) (r : SampleRequest) (sf : State × Bool) :
    (State.placeOne k b step index r sf).1.motor m = sf.1.motor m := by
  unfold State.placeOne
  dsimp only
  split
  · unfold State.overCapacity
    dsimp only
    rw [State.motor_onMotor_ne _ _ h]
    split <;> simp [State.logMotor_motor]
  · exact State.placeAt_other h _ _ _ _ rfl
  · exact (State.placeAt_other h _ _ _ _ rfl).trans (State.motor_onMotor_ne _ _ h)

theorem State.placeFrom_other (b : Instant) (step : Nat) :
    ∀ (l : List SampleRequest) (index : Nat) (sf : State × Bool),
      (State.placeFrom k b step index l sf).1.motor m = sf.1.motor m
  | [], _, _ => rfl
  | r :: rest, index, sf =>
    (State.placeFrom_other b step rest (index + 1) _).trans (State.placeOne_other h b step index r sf)

theorem State.placeStep_other (s : State) (b : Instant) : (s.placeStep k b).motor m = s.motor m := by
  unfold State.placeStep
  split
  · rfl
  · exact (State.placeFrom_other h b _ _ 0 (_, false)).trans (s.notePlacement_motor k b m)

theorem State.openFrame_other (s : State) : (s.openFrame k).motor m = s.motor m := by
  unfold State.openFrame State.dropFrame State.overwriteOldest
  dsimp only
  split
  · simp [State.logMotor_motor, State.motor_onMotor_ne _ _ h]
  · split
    · simp [State.motor_onMotor_ne _ _ h]
    · split
      · split <;> simp [State.logMotor_motor, State.motor_onMotor_ne _ _ h]
      · simp [State.logMotor_motor, State.motor_onMotor_ne _ _ h]

theorem State.setStepAt_other (s : State) (b : Instant) : (s.setStepAt k b).motor m = s.motor m :=
  (State.placeStep_other h _ b).trans (State.motor_onMotor_ne _ _ h)

theorem State.renewFrame_other (s : State) (flag : CloseFlag) : (s.renewFrame k flag).motor m = s.motor m :=
  (State.openFrame_other h _).trans (State.motor_onMotor_ne _ _ h)

/-- A boundary of one motor leaves the other motors. -/
theorem State.ownBoundary_other (s : State) : (s.ownBoundary k).motor m = s.motor m := by
  unfold State.ownBoundary State.runningBoundary State.countFrame
  repeat' (first | rfl | split | simp only [State.setStepAt_other h, State.renewFrame_other h, State.motor_onMotor_ne _ _ h])

end Others

theorem Motor.others_ne {m k : Motor} (h : k ∈ m.others) : m ≠ k := by
  cases m <;> cases k <;> simp_all [Motor.others]

/-- The motors whose boundaries may come before one of a motor are others. -/
theorem State.inTurn_ne {s : State} {m k : Motor} (h : k ∈ s.inTurn m) : m ≠ k := by
  rcases List.mem_append.1 h with h | h <;> exact Motor.others_ne (List.mem_filter.1 h).1

theorem State.foldBoundaries_none {m : Motor} {b : Instant} {s : State} : ∀ l : List Motor,
    (∀ k ∈ l, s.boundaryBefore m b k = false) →
      l.foldl (fun s k => if s.boundaryBefore m b k then s.ownBoundary k else s) s = s
  | [], _ => rfl
  | k :: rest, h => by
    simp only [List.foldl_cons, h k List.mem_cons_self, Bool.false_eq_true, if_false]
    exact State.foldBoundaries_none rest fun j hj => h j (List.mem_cons_of_mem k hj)

theorem State.foldBoundaries_ops (m : Motor) (b : Instant) : ∀ (l : List Motor) (s : State),
    State.Ops true tx s (l.foldl (fun s k => if s.boundaryBefore m b k then s.ownBoundary k else s) s)
  | [], s => .refl s
  | k :: rest, s => .trans (.ite _ (s.ownBoundary_ops k) (.refl s)) (State.foldBoundaries_ops m b rest _)

theorem State.boundariesBefore_ops (m : Motor) (b : Instant) (s : State) : State.Ops true tx s (s.boundariesBefore m b) :=
  State.foldBoundaries_ops m b _ s

theorem State.foldBoundaries_motor (m : Motor) (b : Instant) : ∀ (l : List Motor) (s : State), (∀ k ∈ l, m ≠ k) →
    (l.foldl (fun s k => if s.boundaryBefore m b k then s.ownBoundary k else s) s).motor m = s.motor m
  | [], _, _ => rfl
  | k :: rest, s, h => by
    refine (State.foldBoundaries_motor m b rest _ fun j hj => h j (List.mem_cons_of_mem k hj)).trans ?_
    dsimp only
    split
    · exact State.ownBoundary_other (h k List.mem_cons_self) s
    · rfl

/-- The boundaries that come before one of a motor leave that motor. -/
@[simp] theorem State.boundariesBefore_motor (m : Motor) (b : Instant) (s : State) :
    (s.boundariesBefore m b).motor m = s.motor m :=
  State.foldBoundaries_motor m b _ s fun _ => State.inTurn_ne

/-- Where no boundary comes before, none is taken. -/
theorem State.boundariesBefore_none {s : State} {m : Motor} {b : Instant} (h : ∀ k, k ≠ m → s.boundaryBefore m b k = false) :
    s.boundariesBefore m b = s :=
  State.foldBoundaries_none _ fun k hk => h k (State.inTurn_ne hk).symm

theorem State.periodBoundary_ops (m : Motor) (s : State) : State.Ops true tx s (s.periodBoundary m) := by
  unfold State.periodBoundary
  split
  · exact .refl s
  · exact .ite _ (.trans (s.boundariesBefore_ops m _) (State.ownBoundary_ops m _)) (.refl s)

/-- Where a boundary is due and none comes before it, PERIOD_BOUNDARY takes it alone. -/
theorem State.periodBoundary_alone {s : State} {m : Motor} {b : Instant} (hb : (s.motor m).nextBoundary = some b)
    (h : ∀ k, k ≠ m → s.boundaryBefore m b k = false) : s.periodBoundary m = s.ownBoundary m := by
  unfold State.periodBoundary
  rw [hb]
  dsimp only
  rw [State.boundariesBefore_none h]
  split
  · rfl
  · rename_i hd
    unfold State.ownBoundary
    rw [hb]
    dsimp only
    split
    · rename_i hr
      cases hs : (s.motor m).channel.state <;> simp [MotorUnit.boundaryDue, hb, timerDue, hr, hs] at hd ⊢
    · rfl

theorem State.start_ops (m : Motor) (s : State) : State.Ops true tx s (s.start m) := by
  unfold State.start
  split
  · exact s.logMotor_ops _ _ _
  · rename_i h
    split
    · rename_i n hn
      refine .trans (s.boundariesBefore_ops m _) (State.takeStart_ops _ m n ?_ ?_)
      · rw [State.boundariesBefore_motor]; exact State.startRefusal_none h
      · rw [State.boundariesBefore_motor]; exact MotorUnit.pendingSlot_state hn
    · exact .refl s

/-! ### The part window -/

theorem State.softRestart_ops (s : State) : State.Ops false tx s s.softRestart := by
  unfold State.softRestart
  split
  · exact (State.Op.restartWaits s).ops
  · rename_i h
    exact (State.Op.softRestart s (by simpa using h)).ops

theorem State.restartTakesEffect_ops (s : State) : State.Ops false tx s s.restartTakesEffect := by
  unfold State.restartTakesEffect
  split
  · rename_i h
    exact (State.Op.softRestart s (by simp only [Bool.and_eq_true, Option.isNone_iff_eq_none] at h; exact h.2)).ops
  · exact .refl s

theorem State.clearDeviceCounts_ops (s : State) : State.Ops false tx s s.clearDeviceCounts :=
  (State.Op.calendar s (.clearMark _)).ops

theorem MotorUnit.clearCounts_ops (now : Instant) (u : MotorUnit) : MotorUnit.Ops now u u.clearCounts :=
  .trans (MotorUnit.Op.narrow 0 u).ops (MotorUnit.Op.marks _ _).ops

theorem State.refuseDeviceWord_ops (s : State) (off : Nat) : State.Ops pl tx s (s.refuseDeviceWord off) := s.logDevice_ops _ _

theorem State.clearCauses_ops (v : Word) (s : State) : State.Ops pl tx s (s.clearCauses v) := by
  have h0 : State.Ops pl tx s (s.setMotor .m0 { s.m0 with attention := s.m0.attention.clearLatched (field v 0 4) }) :=
    (State.Op.motor .m0 s (.attention (s.m0.attention.clearLatched (field v 0 4)) _ (Nat.le_refl _) fun _ h _ => h)).ops
  have h1 := (State.Op.motor (pl := pl) (tx := tx) .m1 (s.setMotor .m0 { s.m0 with attention := s.m0.attention.clearLatched (field v 0 4) })
    (.attention (s.m1.attention.clearLatched (field v 4 4)) _ (Nat.le_refl _) fun _ h _ => h)).ops
  have h2 := (State.Op.motor (pl := pl) (tx := tx) .m2 ((s.setMotor .m0 { s.m0 with attention := s.m0.attention.clearLatched (field v 0 4) }).setMotor
    .m1 { s.m1 with attention := s.m1.attention.clearLatched (field v 4 4) })
    (.attention (s.m2.attention.clearLatched (field v 8 4)) _ (Nat.le_refl _) fun _ h _ => h)).ops
  exact .trans (.trans h0 h1) h2

theorem State.writeConsumed_ops (m : Motor) (v : Word) (s : State) : State.Ops pl tx s (s.writeConsumed m v) := by
  unfold State.writeConsumed
  dsimp only
  split
  · rename_i h
    split
    · exact .refl s
    · rw [State.onMotor_onMotor]
      exact State.onMotor_ops m s (MotorUnit.Op.consume v _ h).ops
  · exact s.logMotor_ops _ _ _

theorem State.takeMotorSetting_ops (s : State) (m : Motor) (w : MotorWord) (off : Nat) (v : Word) :
    State.Ops pl tx s (s.takeMotorSetting m w off v) := by
  unfold State.takeMotorSetting
  dsimp only
  split
  · rename_i st h
    split at h
    · rename_i ha
      exact State.onMotor_ops m s (MotorUnit.Op.settings w v st _ ha h).ops
    · cases h
  · exact s.logMotor_ops _ _ _

theorem State.takeMotorCommand_ops (s : State) (m : Motor) (off : Nat) (v : Word) :
    State.Ops true tx s (s.takeMotorCommand m off v) := by
  unfold State.takeMotorCommand
  split
  · exact s.start_ops m
  · exact State.onMotor_ops m s (MotorUnit.Op.stop _).ops
  · exact s.restart_ops m
  · exact s.commit_ops m _ _ _
  · exact s.cancel_ops m _
  · exact State.onMotor_ops m s (MotorUnit.clearCounts_ops _ _)
  · exact s.logMotor_ops _ _ _

theorem State.takeDeviceCommand_ops (s : State) (off : Nat) (v : Word) : State.Ops false tx s (s.takeDeviceCommand off v) := by
  unfold State.takeDeviceCommand
  split
  · exact s.softRestart_ops
  · exact s.clearDeviceCounts_ops
  · exact s.mapCommit_ops
  · exact s.refuseDeviceWord_ops off

theorem State.takeMotorWord_ops (s : State) (m : Motor) (w : MotorWord) (off : Nat) (v : Word) :
    State.Ops true tx s (s.takeMotorWord m w off v) := by
  unfold State.takeMotorWord
  split <;> first
    | exact s.writeConsumed_ops m v
    | exact s.takeMotorCommand_ops m off v
    | exact .refl s
    | exact s.takeMotorSetting_ops m _ off v

/-- An accepted input word lies in range (R96). -/
theorem inputWordOf_range {v : Word} {r : InputRecord} (h : inputWordOf v = some r) :
    r.tripCount ≤ 4 ∧ r.lowLimit.toNat ≤ r.highLimit.toNat := by
  unfold inputWordOf at h
  split at h
  · cases h
  · split at h
    · rename_i hr
      cases h
      exact ⟨hr.1, hr.2⟩
    · cases h

theorem State.takeInput_ops (s : State) (i : Fin 16) (off : Nat) (v : Word) : State.Ops pl tx s (s.takeInput i off v) := by
  unfold State.takeInput
  split
  · rename_i r h
    split at h
    · exact (State.Op.input _ _ s (.inl (inputWordOf_range h))).ops
    · cases h
  · exact s.refuseDeviceWord_ops off

theorem State.takeStaging_ops (s : State) (k : Fin 8) (off : Nat) (v : Word) : State.Ops pl tx s (s.takeStaging k off v) := by
  unfold State.takeStaging
  split
  · exact (State.Op.window _ s).ops
  · exact s.refuseDeviceWord_ops off

/-- The word at an offset can give START, which places: it lies in a motor block. -/
def wordPlaces (off : Nat) : Bool :=
  match wordAt off with
  | .motorBlock _ _ => true
  | _ => false

theorem State.takeWord_ops (s : State) (off : Nat) (v : Word) : State.Ops (wordPlaces off) tx s (s.takeWord off v) := by
  unfold wordPlaces State.takeWord
  cases wordAt off with
  | tConv =>
    dsimp only
    unfold State.takeTConv
    split
    · rename_i h
      exact (State.Op.device _ s (.inl ⟨rfl, h.2.1, h.2.2⟩)).ops
    · exact s.refuseDeviceWord_ops off
  | controllerWindow =>
    dsimp only
    unfold State.takeControllerWindow
    split
    · rename_i h
      exact (State.Op.device _ s (.inr (.inl ⟨rfl, h⟩))).ops
    · exact s.refuseDeviceWord_ops off
  | wakeTime =>
    dsimp only
    unfold State.takeWakeTime
    split
    · rename_i h
      exact (State.Op.device _ s (.inr (.inr ⟨rfl, h.1, h.2⟩))).ops
    · exact s.refuseDeviceWord_ops off
  | input i => exact s.takeInput_ops _ off v
  | staging k => exact s.takeStaging_ops _ off v
  | attentionEnable => exact (State.Op.enables _ s).ops
  | attentionPending => exact s.clearCauses_ops v
  | logPop => exact (State.Op.popLog s).ops
  | logClearOverflow => exact (State.Op.clearOverflow s).ops
  | deviceCommand => exact s.takeDeviceCommand_ops off v
  | motorBlock m w => exact s.takeMotorWord_ops _ _ off v
  | logTop => exact .refl s
  | logStamp => exact .refl s
  | logState => exact .refl s
  | deviceStatus => exact .refl s
  | unassigned => exact .refl s

theorem State.takeWords_ops : ∀ (l : List (Nat × Word)) (s : State), (∀ w ∈ l, wordPlaces w.1 = pl) →
    State.Ops pl tx s (s.takeWords l)
  | [], s, _ => .refl s
  | (off, v) :: rest, s, h => by
    have h1 : State.Ops pl tx s (s.takeWord off v) := h (off, v) List.mem_cons_self ▸ s.takeWord_ops off v
    unfold State.takeWords
    exact .ite _ h1 (.trans h1 (State.takeWords_ops rest _ fun w hw => h w (List.mem_cons_of_mem _ hw)))

/-- The words of a row of the part window can all give START, or none can. -/
theorem wordPlaces_row (row k : Nat) (hk : k < 64) : wordPlaces (256 * row + 4 * k) = decide (1 ≤ row ∧ row ≤ 3) := by
  have h1 : (256 * row + 4 * k) / 256 = row := by omega
  unfold wordPlaces wordAt
  rw [h1]
  match row with
  | 0 =>
    have : ∀ o m w, deviceWordAt o ≠ .motorBlock m w := by
      intro o m w
      unfold deviceWordAt
      split <;> (try split) <;> (try split) <;> simp
    generalize ho : (256 * 0 + 4 * k) % 256 = o
    have hd := this o
    cases he : deviceWordAt o with
    | motorBlock m w => exact absurd he (hd m w)
    | _ => simp
  | 1 => rfl
  | 2 => rfl
  | 3 => rfl
  | n + 4 => simp

theorem wholeWords_places (row : Nat) (bytes : List (Nat × Byte)) :
    ∀ w ∈ wholeWords row bytes, wordPlaces w.1 = decide (1 ≤ row ∧ row ≤ 3) := by
  intro w hw
  simp only [wholeWords, List.mem_filterMap, List.mem_range, Option.map_eq_some_iff] at hw
  obtain ⟨k, hk, v, _, rfl⟩ := hw
  exact wordPlaces_row row k hk

/-! ### Attention -/

theorem endFirstDelay_length (now : Instant) : ∀ l, (endFirstDelay now l).length = l.length
  | [] => rfl
  | r :: rest => by
    unfold endFirstDelay
    split
    · rfl
    · simp [endFirstDelay_length now rest]

/-- After a settling no record whose mode is met is in the list (R193). -/
theorem MotorAttention.settleRecords_sound (a : MotorAttention) : ∀ r ∈ a.settleRecords.records, r.met = false := by
  simp [MotorAttention.settleRecords]

theorem MotorUnit.recordDue_ops (now : Instant) (u : MotorUnit) : MotorUnit.Ops now u (u.recordDue now) := by
  refine .ite _ (MotorUnit.Op.attention _ u ?_ fun r h hm => ?_).ops (.refl u)
  · refine Nat.le_trans (List.length_filter_le _ _) ?_
    simp [endFirstDelay_length]
  · simp [MotorAttention.settleRecords_sound _ r h] at hm

theorem State.staleExpires_ops (s : State) (m : Motor) : State.Ops pl tx s (s.onMotor m MotorUnit.staleExpires) :=
  State.onMotor_ops m s
    (MotorUnit.Op.attention { (s.motor m).attention with ringStale := true, staleTimer := none } _ (Nat.le_refl _) fun _ h _ => h).ops

/-! ### The link -/

theorem State.chooseFlush_ops (s : State) : State.Ops pl tx s s.chooseFlush := by
  unfold State.chooseFlush
  split
  · exact .refl s
  · rename_i m h
    split
    · rename_i n hn
      exact (State.Op.startFlush m n s h hn).ops
    · exact .refl s

theorem State.flushCompletes_ops (s : State) : State.Ops false tx s s.flushCompletes := by
  unfold State.flushCompletes
  split
  · exact .refl s
  · rename_i f h
    split
    · exact .trans (State.Op.endFlush f s h).ops (State.restartTakesEffect_ops _)
    · exact .refl s

theorem State.clearTraces_ops (s : State) : State.Ops pl true s s.clearTraces := (State.Op.traces [] [] s).ops

theorem State.issue_ops (s : State) (b : List Byte) : State.Ops pl true s (s.issue b) :=
  (State.Op.traces s.upstream.readData [s.port.issued.flatten ++ b] s).ops

theorem State.onDecoder_ops (s : State) {f : Decoder → Decoder} (h : (f s.decoder).refused = s.decoder.refused) :
    State.Ops pl true s (s.onDecoder f) := (State.Op.record _ s h).ops

theorem State.violate_ops (first : Option Byte) (n : Nat) (s : State) : State.Ops pl true s (s.violate first n) :=
  .trans (s.logDevice_ops _ _) (State.Op.traces (List.replicate n 0xFF) s.port.issued _).ops

theorem State.selectFalls_motor (s : State) (k : Motor) : s.selectFalls.motor k = s.motor k := by
  unfold State.selectFalls
  split <;> cases k <;> rfl

theorem State.opens_ops (s : State) : State.Ops pl true s s.opens :=
  .ite _ (.refl s) (.ite _ (State.Op.selectFalls s).ops (.trans (State.Op.selectFalls s).ops (State.clearTraces_ops _)))

theorem State.opens_motor (s : State) (k : Motor) : s.opens.motor k = s.motor k := by
  unfold State.opens
  (repeat' split) <;> simp [s.selectFalls_motor k]

theorem State.opens_selectLow (s : State) : s.opens.upstream.selectLow = true := by
  unfold State.opens
  split
  · assumption
  · have : s.selectFalls.upstream.selectLow = true := by
      unfold State.selectFalls
      split
      · assumption
      · rfl
    split
    · exact this
    · exact this

theorem State.setRepeat_ops (s : State) (taken : Bool) (k : ReadKind) (mode : Byte) :
    State.Ops pl true s (s.setRepeat taken k mode) := by
  have h1 := (State.Op.repeatStates (pl := pl) (if decide (mode = repeatMarker) then some k else none) s.upstream.wrap
    (decide (mode = repeatMarker)) s).ops
  refine .trans h1 (State.Op.ram _ _ ?_).ops
  split <;> rfl

theorem State.classify_capture {s : State} {row : Nat} {m : Motor} {n : SlotName} (h : s.classify row = .capture m n) :
    ((s.motor m).slot n).state = .empty ∨ ((s.motor m).slot n).state = .inactive := by
  unfold State.classify at h
  split at h
  · cases h
  · split at h
    · cases h
    · split at h
      · rename_i hs; cases h; exact .inl hs
      · rename_i hs; cases h; exact .inr hs
      · cases h
      · cases h
    · split at h <;> cases h

/-! ### The Decoder, byte by byte -/

/-- What a byte before the data, or the bytes of a transaction that captures nothing, do: a chain, no motor changed, select and the
refusal as they were. -/
structure State.Moves (s t : State) : Prop where
  ops : ∀ pl, State.Ops pl true s t
  motors : ∀ k, t.motor k = s.motor k
  selectLow : t.upstream.selectLow = s.upstream.selectLow
  refused : t.decoder.refused = s.decoder.refused

theorem State.Moves.refl (s : State) : State.Moves s s := ⟨fun _ => .refl s, fun _ => rfl, rfl, rfl⟩

theorem State.Moves.trans {s t u : State} (h : State.Moves s t) (k : State.Moves t u) : State.Moves s u :=
  ⟨fun pl => (h.ops pl).trans (k.ops pl), fun m => (k.motors m).trans (h.motors m), k.selectLow.trans h.selectLow,
    k.refused.trans h.refused⟩

theorem State.Moves.ite {s a b : State} (c : Prop) [Decidable c] (ha : State.Moves s a) (hb : State.Moves s b) :
    State.Moves s (if c then a else b) := by
  split
  · exact ha
  · exact hb

theorem State.onDecoder_moves (s : State) {f : Decoder → Decoder} (h : (f s.decoder).refused = s.decoder.refused) :
    State.Moves s (s.onDecoder f) :=
  ⟨fun _ => s.onDecoder_ops h, fun k => by cases k <;> rfl, rfl, h⟩

theorem State.issue_moves (s : State) (b : List Byte) : State.Moves s (s.issue b) :=
  ⟨fun _ => s.issue_ops b, fun k => by cases k <;> rfl, rfl, rfl⟩

theorem State.logMotor_moves (s : State) (m : Motor) (c : LogCode) (i : Short) : State.Moves s (s.logMotor m c i) :=
  ⟨fun _ => s.logMotor_ops m c i, fun k => by cases k <;> rfl, rfl, rfl⟩

theorem State.forwardCommand_moves (s : State) (b : Byte) : State.Moves s (s.forwardCommand b) :=
  (s.issue_moves [b]).trans (State.onDecoder_moves _ rfl)

theorem State.decideSleep_moves (s : State) (b : Byte) : State.Moves s (s.decideSleep b) :=
  .ite _ (s.forwardCommand_moves b)
    (.trans ⟨fun _ => s.logDevice_ops _ _, fun k => by cases k <;> rfl, rfl, rfl⟩ (State.onDecoder_moves _ rfl))

theorem State.takeCommandByte_moves (s : State) (b : Byte) : State.Moves s (s.takeCommandByte b) := by
  unfold State.takeCommandByte
  split
  · exact .trans (s.onDecoder_moves rfl) (State.forwardCommand_moves _ b)
  · rename_i c _
    refine .trans (t := s.onDecoder fun d => { d with command := some (.known c) }) (s.onDecoder_moves rfl) ?_
    dsimp only
    split
    · exact State.onDecoder_moves _ rfl
    · exact State.onDecoder_moves _ rfl
    · exact State.onDecoder_moves _ rfl
    · exact State.decideSleep_moves _ b
    · exact State.forwardCommand_moves _ b
    · exact State.forwardCommand_moves _ b
    · exact State.forwardCommand_moves _ b

theorem State.classifyWrite_moves (s : State) (a : Addr) : State.Moves s (s.classifyWrite a) := by
  unfold State.classifyWrite
  dsimp only
  split
  · exact .trans (s.onDecoder_moves rfl) (State.logMotor_moves _ _ _ _)
  · exact .trans (s.onDecoder_moves rfl) (State.logMotor_moves _ _ _ _)
  · exact .trans (s.onDecoder_moves rfl) (State.issue_moves _ _)
  · exact .trans (s.onDecoder_moves rfl) (State.issue_moves _ _)
  all_goals exact s.onDecoder_moves rfl

theorem State.forwardRead_moves (s : State) (k : ReadKind) (a : Addr) : State.Moves s (s.forwardRead k a) :=
  (s.issue_moves _).trans (State.onDecoder_moves _ rfl)

theorem State.takeAddressByte_moves (s : State) (b : Byte) : State.Moves s (s.takeAddressByte b) := by
  unfold State.takeAddressByte
  dsimp only
  split
  · exact s.onDecoder_moves rfl
  · exact .trans (s.onDecoder_moves rfl) (State.forwardRead_moves _ _ _)
  · exact .trans (s.onDecoder_moves rfl) (State.classifyWrite_moves _ _)

theorem State.takeModeByte_moves (s : State) (b : Byte) : State.Moves s (s.takeModeByte b) := by
  unfold State.takeModeByte
  split
  · exact .refl s
  · rename_i k _
    exact .trans (t := s.setRepeat (s.ram.takes s.decoder.addressFirst) k b)
      ⟨fun _ => s.setRepeat_ops _ _ _, fun k => by cases k <;> rfl, rfl, rfl⟩
      (.trans (State.issue_moves _ [b]) (State.onDecoder_moves _ rfl))

theorem State.takeByte_moves (s : State) (b : Byte) : State.Moves s (s.takeByte b) := by
  have h : State.Moves s (s.onDecoder fun d => { d with count := d.count + 1 }) := s.onDecoder_moves rfl
  unfold State.takeByte
  dsimp only
  split
  · exact h.trans (State.takeCommandByte_moves _ b)
  · exact h.trans (State.takeAddressByte_moves _ b)
  · exact h.trans (State.takeModeByte_moves _ b)
  all_goals exact h

theorem State.readOn_moves (s : State) (n : Nat) : State.Moves s (s.readOn n) := by
  have h : State.Moves s s.takeView := s.onDecoder_moves rfl
  refine .ite _ (.refl s) ?_
  exact h.trans ⟨fun _ => (State.Op.traces _ s.takeView.port.issued s.takeView).ops, fun k => by cases k <;> rfl, rfl, rfl⟩

theorem State.passData_moves (s : State) (a : Addr) (data : List Byte) : State.Moves s (s.passData a data) :=
  (s.issue_moves data).trans ⟨fun _ => (State.Op.store a data _).ops, fun k => by cases k <;> rfl, rfl, rfl⟩

theorem State.takeWrapBytes_moves (s : State) (bytes : List Byte) : State.Moves s (s.takeWrapBytes bytes) := by
  unfold State.takeWrapBytes
  dsimp only
  split
  · exact s.issue_moves bytes
  · rename_i w _
    refine .trans (s.issue_moves bytes) ⟨fun pl => ?_, fun k => by cases k <;> rfl, rfl, rfl⟩
    refine .trans (State.Op.repeatStates s.upstream.repeatState w s.port.repeatSet _).ops (State.Op.ram _ _ ?_).ops
    split <;> rfl

/-- What bytes of a transaction do: they move as a byte before the data does, or they end in one capture by a slot that is EMPTY or
INACTIVE, and then no word is to be handed on. -/
inductive State.Takes (s t : State) : Prop where
  | moves (h : State.Moves s t) : State.Takes s t
  | capture (m : Motor) (n : SlotName) (start : Nat) (data : List Byte) (a : State) (f : Decoder → Decoder) (h : State.Moves s a)
      (he : ((a.motor m).slot n).state = .empty ∨ ((a.motor m).slot n).state = .inactive)
      (hr : (f a.decoder).refused = a.decoder.refused)
      (hc : (f a.decoder).command = some (.known .write) ∧ (f a.decoder).decision = some (.capture m n))
      (ht : t = (a.onMotor m fun u => u.onSlot n (PlanSlot.capture start data)).onDecoder f) : State.Takes s t

theorem State.Takes.after {s a t : State} (h : State.Moves s a) (k : State.Takes a t) : State.Takes s t := by
  cases k with
  | moves k => exact .moves (h.trans k)
  | capture m n start data b f k he hr hc ht => exact .capture m n start data b f (h.trans k) he hr hc ht

theorem State.takeData_takes (s : State) (bytes : List Byte) : State.Takes s (s.takeData bytes) := by
  have counts {t : State} (h : State.Moves s t) :
      State.Takes s (t.onDecoder (Decoder.counted bytes.length)) :=
    .moves (h.trans (State.onDecoder_moves _ rfl))
  unfold State.takeData
  dsimp only
  split
  · rename_i hk
    unfold State.writeOn
    split
    · exact counts (s.passData_moves _ _)
    · rename_i a m n ha hd
      dsimp only
      have hm (k : Motor) := (s.passData_moves (rowStep a s.decoder.offset) bytes).motors k
      split
      · rename_i he
        exact .capture m n _ bytes (s.passData (rowStep a s.decoder.offset) bytes) _ (s.passData_moves _ _)
          (.inl (by rw [hm]; exact he)) rfl ⟨hk, hd⟩ rfl
      · rename_i he
        exact .capture m n _ bytes (s.passData (rowStep a s.decoder.offset) bytes) _ (s.passData_moves _ _)
          (.inr (by rw [hm]; exact he)) rfl ⟨hk, hd⟩ rfl
      · exact counts (.refl s)
      · exact counts (.refl s)
    · exact counts (s.onDecoder_moves rfl)
    · exact counts (.refl s)
  · exact counts (s.takeWrapBytes_moves bytes)
  · exact counts (s.readOn_moves _)
  · exact counts (s.readOn_moves _)
  · exact counts (s.readOn_moves _)
  · exact counts (.ite _ (s.issue_moves bytes) (.refl s))
  · exact counts (.ite _ (s.issue_moves bytes) (.refl s))
  · exact counts (.ite _ (s.issue_moves bytes) (.refl s))
  · exact counts (.ite _ (s.issue_moves bytes) (.refl s))
  · exact counts (.refl s)

theorem State.takeBytes_takes : ∀ (bytes : List Byte) (s : State), State.Takes s (s.takeBytes bytes)
  | [], s => .moves (.refl s)
  | b :: rest, s => by
    unfold State.takeBytes
    split
    · exact (State.takeBytes_takes rest _).after (s.takeByte_moves b)
    · exact (State.takeBytes_takes rest _).after (s.takeByte_moves b)
    · exact (State.takeBytes_takes rest _).after (s.takeByte_moves b)
    all_goals exact s.takeData_takes (b :: rest)

/-- Bytes of a transaction are a chain. -/
theorem State.Takes.run {s t : State} (h : State.Takes s t) : State.Run false true s t := by
  cases h with
  | moves h => exact .ops (h.ops false)
  | capture m n start data a f h he hr hc ht =>
    subst ht
    exact .capture m n start data a (h.ops false) h.motors he (State.onDecoder_ops _ (by simpa using hr))
      fun k => by cases k <;> rfl

/-- Bytes of a transaction leave select and the refusal. -/
theorem State.Takes.select {s t : State} (h : State.Takes s t) :
    t.upstream.selectLow = s.upstream.selectLow ∧ t.decoder.refused = s.decoder.refused := by
  cases h with
  | moves h => exact ⟨h.selectLow, h.refused⟩
  | capture m n start data a f h he hr hc ht =>
    subst ht
    refine ⟨?_, ?_⟩
    · simpa [State.onDecoder] using h.selectLow
    · have e : ((a.onMotor m fun u => u.onSlot n (PlanSlot.capture start data)).onDecoder f).decoder = f a.decoder := by
        simp [State.onDecoder]
      rw [e, hr, h.refused]

theorem State.clearsLink_ops (s : State) : State.Ops pl true s s.clearsLink :=
  (State.Op.repeatStates none s.upstream.wrap false s).ops

/-- The end of a transaction leaves the RAM's bytes. -/
theorem Decoder.endsOn_cells (d : Decoder) (r : Ram) : (d.endsOn r).cells = r.cells := by
  have hs : r.sleep.cells = r.cells := by unfold Ram.sleep; split <;> rfl
  unfold Decoder.endsOn
  (repeat' split) <;> first | rfl | exact hs | exact Ram.clearRepeat_cells r

/-- A select rise is a chain; WAKE alone holds the link across it. -/
theorem State.completes_run (s : State) (hs : s.upstream.selectLow = true) (hr : s.decoder.refused = false) :
    ∃ pl, State.Ops pl true s s.completes.selectRises := by
  have h1 {pl : Bool} : State.Ops pl true s { s with decoder := Decoder.idle, ram := s.decoder.endsOn s.ram } :=
    .trans (State.Op.ram _ s (s.decoder.endsOn_cells s.ram)).ops
      (State.Op.record Decoder.idle { s with ram := s.decoder.endsOn s.ram } hr.symm).ops
  have rise {pl : Bool} {t : State} (h : State.Ops pl true { s with decoder := Decoder.idle, ram := s.decoder.endsOn s.ram } t) :
      State.Ops pl true s t.selectRises :=
    .trans (.trans h1 h) (State.Op.selectRises t).ops
  unfold State.completes
  dsimp only
  split
  · unfold State.handed
    split
    · exact ⟨_, rise (State.takeWords_ops _ _ (wholeWords_places _ _))⟩
    · exact ⟨false, rise (.refl _)⟩
  · exact ⟨false, rise (.ite _ (State.Op.asleep _).ops (.refl _))⟩
  · exact ⟨false, .trans h1 (State.Op.wake { s with decoder := Decoder.idle, ram := s.decoder.endsOn s.ram } hs rfl).ops⟩
  · exact ⟨false, rise (State.clearsLink_ops _)⟩
  · refine ⟨false, rise (.ite _ ?_ (.refl _))⟩
    unfold State.clearsRepeat
    split
    · exact .trans (State.issue_ops _ _) (State.Op.repeatStates none s.upstream.wrap s.port.repeatSet _).ops
    · exact .trans (State.issue_ops _ _) (State.clearsLink_ops _)
  · exact ⟨false, rise (.refl _)⟩

/-- A transaction to its select rise is a chain. -/
theorem State.transact_run (bytes : List Byte) (n : Nat) (s : State) : ∃ pl, State.Run pl true s (s.transact bytes n) := by
  unfold State.transact
  dsimp only
  split
  · exact ⟨false, .ops (.trans (.trans s.opens_ops (State.violate_ops _ n _)) (State.Op.selectRises _).ops)⟩
  · rename_i hr
    have hk := State.takeBytes_takes (bytes.drop s.opens.decoder.count) s.opens
    have hl := hk.select
    rw [s.opens_selectLow] at hl
    obtain ⟨pl, ho⟩ := State.completes_run _ hl.1 (hl.2.trans (by simpa using hr))
    cases hk with
    | moves hm => exact ⟨pl, .ops (.trans s.opens_ops (.trans (hm.ops pl) ho))⟩
    | capture m k start data a f h he hrf hc ht =>
      have hd : ∀ j, ((a.onMotor m fun u => u.onSlot k (PlanSlot.capture start data)).onDecoder f).completes.selectRises.motor j
          = (a.onMotor m fun u => u.onSlot k (PlanSlot.capture start data)).motor j := by
        intro j
        have e : ((a.onMotor m fun u => u.onSlot k (PlanSlot.capture start data)).onDecoder f).decoder = f a.decoder := by
          simp [State.onDecoder]
        have ec : ((a.onMotor m fun u => u.onSlot k (PlanSlot.capture start data)).onDecoder f).handed = [] := by
          unfold State.handed
          rw [e, hc.2]
          split
          · rename_i h; simp at h
          · rfl
        unfold State.completes
        rw [e, hc.1, ec]
        cases j <;> rfl
      rw [ht] at ho ⊢
      refine ⟨pl, State.Run.after s.opens_ops s.opens_motor (.capture m k start data a (h.ops pl) h.motors he ?_ hd)⟩
      exact .trans (State.onDecoder_ops _ (by simpa using hrf)) ho

/-- The opening of a transaction is a chain. -/
theorem State.begins_run (bytes : List Byte) (s : State) : ∃ pl, State.Run pl true s (s.begins bytes) := by
  unfold State.begins
  dsimp only
  split
  · exact ⟨false, .ops (.trans s.opens_ops (State.onDecoder_ops _ rfl))⟩
  · exact ⟨false, State.Run.after s.opens_ops s.opens_motor (State.takeBytes_takes _ _).run⟩

theorem State.linkViolation_ops (first : Option Byte) (n : Nat) (s : State) :
    State.Ops pl true s
      (if s.opens.decoder.refused then (s.opens.violate (s.opens.decoder.firstByte first) n).selectRises else s) :=
  .ite _ (.trans (.trans s.opens_ops (State.violate_ops _ n _)) (State.Op.selectRises _).ops) (.refl s)

/-! ### Commands -/

/-- An instant at which a command may be taken: one not behind the timebase, or the tick after it (logs 1 and 27). -/
def State.takesAt (s : State) (b : Instant) : Prop := ∃ i n, n ≤ 1 ∧ reached s.timebase i = true ∧ b = after i n

/-- Moving to an instant changes the timebase and the record of who has placed alone, and never takes time back. -/
theorem State.atInstant_eq (s : State) (t : Instant) :
    ∃ b p, reached s.timebase b = true ∧ s.atInstant t = { s with timebase := b, placed := p } := by
  unfold State.atInstant
  split
  · exact ⟨t, _, by assumption, rfl⟩
  · exact ⟨s.timebase, s.placed, by simp [reached], rfl⟩

/-- An instant not behind the timebase is one at which a command may be taken. -/
theorem State.takesAt_reached {s : State} {b : Instant} (h : reached s.timebase b = true) : s.takesAt b :=
  ⟨b, 0, by omega, h, by simp [after]⟩

/-- A command taken at `t` outside reset is a chain where what it does at its instant is one. -/
theorem State.act_run {t : Instant} {f : State → State} {s s' : State} (hs : s.inReset = false)
    (h : State.act t f s = .next s') (k : ∀ u, ∃ pl, State.Run pl tx u (f u)) :
    ∃ b p pl, s.takesAt b ∧ State.Run pl tx { s with timebase := b, placed := p } s' := by
  obtain ⟨b, p, hr, hb⟩ := s.atInstant_eq t
  unfold State.act at h
  simp only [hs, Bool.false_eq_true, if_false, Host.Outcome.next.injEq] at h
  simp only [hb] at h
  subst h
  obtain ⟨pl, hk⟩ := k { s with timebase := b, placed := p }
  exact ⟨b, p, pl, State.takesAt_reached hr, hk⟩

/-- The same for a command that may give START. -/
theorem State.actStart_run {t : Instant} {f : State → State} {s s' : State} (hs : s.inReset = false)
    (h : State.actStart t f s = .next s') (k : ∀ u, ∃ pl, State.Run pl tx u (f u)) :
    ∃ b p pl, s.takesAt b ∧ State.Run pl tx { s with timebase := b, placed := p } s' := by
  obtain ⟨b, p, hr, hb⟩ := s.atInstant_eq t
  unfold State.actStart at h
  simp only [hs, Bool.false_eq_true, if_false, Host.Outcome.next.injEq] at h
  simp only [hb] at h
  subst h
  split
  · obtain ⟨pl, hk⟩ := k (State.moveTo { s with timebase := b, placed := p } (b + 1))
    exact ⟨_, _, pl, ⟨b, 1, Nat.le_refl 1, hr, rfl⟩, hk⟩
  · obtain ⟨pl, hk⟩ := k { s with timebase := b, placed := p }
    exact ⟨b, p, pl, State.takesAt_reached hr, hk⟩

/-- The same for what makes no reservation. -/
theorem State.act_ops {t : Instant} {f : State → State} {s s' : State} (hs : s.inReset = false)
    (h : State.act t f s = .next s') (k : ∀ u, State.Ops false tx u (f u)) :
    ∃ b p pl, s.takesAt b ∧ State.Run pl tx { s with timebase := b, placed := p } s' :=
  State.act_run hs h fun u => ⟨false, .ops (k u)⟩

/-- The same for what places. -/
theorem State.act_placing {t : Instant} {f : State → State} {s s' : State} (hs : s.inReset = false)
    (h : State.act t f s = .next s') (k : ∀ u, State.Ops true tx u (f u)) :
    ∃ b p pl, s.takesAt b ∧ State.Run pl tx { s with timebase := b, placed := p } s' :=
  State.act_run hs h fun u => ⟨true, .ops (k u)⟩

/-- The commands that act on the transaction in flight upstream. -/
def Instr.ofTransaction (c : Instr) : Bool :=
  match c with
  | .upstreamSelectFall _ | .read _ _ _ _ | .readWrap _ _ _ _ | .repeatModeRead _ _ _ _ | .write _ _ _ | .wrapSet _ _ | .sleep _
  | .wake _ | .linkClear _ | .unknownCommand _ _ | .linkViolation _ _ _ => true
  | _ => false

/-- Every command outside reset, but for the two of the reset pin, is a chain from its instant. -/
theorem exec_run {c : Instr} {s s' : State} (hs : s.inReset = false) (ha : ∀ t, c ≠ .resetAssert t)
    (hr : ∀ p, c ≠ .resetRelease p) (h : exec c s = .next s') :
    ∃ b p pl, s.takesAt b ∧ State.Run pl (Instr.ofTransaction c) { s with timebase := b, placed := p } s' := by
  cases c with
  | resetAssert t => exact absurd rfl (ha t)
  | resetRelease p => exact absurd rfl (hr p)
  | driverFaultActivation m t =>
    simp only [exec, execDriverFaultActivation, hs, Bool.false_eq_true, if_false, Host.Outcome.next.injEq] at h
    obtain ⟨b, p, ht, hb⟩ := s.atInstant_eq t
    rw [hb] at h
    exact ⟨b, p, false, State.takesAt_reached ht, h ▸ .ops (State.faultActivates_ops m _)⟩
  | driverFaultRelease m t =>
    simp only [exec, execDriverFaultRelease, hs, Bool.false_eq_true, if_false, Host.Outcome.next.injEq] at h
    obtain ⟨b, p, ht, hb⟩ := s.atInstant_eq t
    rw [hb] at h
    exact ⟨b, p, false, State.takesAt_reached ht, h ▸ .ops (State.onMotor_ops m _ (MotorUnit.Op.fault false _).ops)⟩
  | hallCodeChange m code t =>
    simp only [exec, execHallCodeChange, hs, Bool.false_eq_true, if_false, Host.Outcome.next.injEq] at h
    obtain ⟨b, p, ht, hb⟩ := s.atInstant_eq t
    rw [hb] at h
    exact ⟨b, p, false, State.takesAt_reached ht, h ▸ .ops (State.hallChanges_ops m code _)⟩
  | powerOnLinkClearCompletion t => exact State.act_ops hs h fun u => (State.Op.linkCleared u).ops
  | upstreamSelectFall opening => exact State.act_run hs h fun u => State.begins_run opening.bytes u
  | read addr mode n t => exact State.actStart_run hs h fun u => State.transact_run _ n u
  | readWrap addr mode n t => exact State.actStart_run hs h fun u => State.transact_run _ n u
  | repeatModeRead addr mode n t => exact State.actStart_run hs h fun u => State.transact_run _ n u
  | write addr data t => exact State.actStart_run hs h fun u => State.transact_run _ 0 u
  | wrapSet byte t => exact State.actStart_run hs h fun u => State.transact_run _ 0 u
  | sleep t => exact State.actStart_run hs h fun u => State.transact_run _ 0 u
  | wake t => exact State.actStart_run hs h fun u => State.transact_run _ 0 u
  | linkClear t => exact State.actStart_run hs h fun u => State.transact_run _ 0 u
  | unknownCommand bytes t => exact State.actStart_run hs h fun u => State.transact_run bytes 0 u
  | linkViolation first n t =>
    simp only [exec, execLinkViolation] at h
    exact State.act_ops hs h fun u => u.linkViolation_ops first n
  | start m t => exact State.actStart_run hs h fun u => ⟨true, .ops (u.start_ops m)⟩
  | stop m t =>
    simp only [exec, execStop] at h
    exact State.act_ops hs h fun u => State.onMotor_ops m u (MotorUnit.Op.stop _).ops
  | restart m t => exact State.act_ops hs h fun u => u.restart_ops m
  | commit m slot tag kind t => exact State.act_ops hs h fun u => u.commit_ops m slot tag kind
  | cancel m slot t => exact State.act_ops hs h fun u => u.cancel_ops m slot
  | clearCounts m t =>
    simp only [exec, execClearCounts] at h
    exact State.act_ops hs h fun u => State.onMotor_ops m u (MotorUnit.clearCounts_ops _ _)
  | softRestart t => exact State.act_ops hs h fun u => u.softRestart_ops
  | softRestartEffect t => exact State.act_ops hs h fun u => u.restartTakesEffect_ops
  | clearCountsDevice t => exact State.act_ops hs h fun u => u.clearDeviceCounts_ops
  | mapCommit t => exact State.act_ops hs h fun u => u.mapCommit_ops
  | logPop t => exact State.act_ops hs h fun u => (State.Op.popLog u).ops
  | logClearOverflow t => exact State.act_ops hs h fun u => (State.Op.clearOverflow u).ops
  | consumedWrite m v t => exact State.act_ops hs h fun u => u.writeConsumed_ops m v
  | stagingWordWrite entry v t =>
    simp only [exec, execStagingWordWrite] at h
    exact State.act_ops hs h fun u => u.takeStaging_ops entry _ v
  | attentionPendingWrite v t => exact State.act_ops hs h fun u => u.clearCauses_ops v
  | settingWordWrite off v t =>
    simp only [exec, execSettingWordWrite] at h
    exact State.actStart_run hs h fun u => ⟨_, .ops (.ite _ (u.takeWord_ops _ v) (.refl u))⟩
  | periodBoundary m t => exact State.act_placing hs h fun u => u.periodBoundary_ops m
  | gateEdge m leg t =>
    simp only [exec, execGateEdge] at h
    exact State.act_ops hs h fun u => State.onMotor_ops m u (MotorUnit.Op.gateEdge leg _).ops
  | deadTimeTurnOn m leg t =>
    simp only [exec, execDeadTimeTurnOn] at h
    exact State.act_ops hs h fun u => State.onMotor_ops m u (MotorUnit.Op.deadTimeEnds leg _).ops
  | stoppingComplete m t =>
    simp only [exec, execStoppingComplete] at h
    exact State.act_ops hs h fun u => State.onMotor_ops m u (MotorUnit.Op.completeStop _).ops
  | hallExamination m t => exact State.act_ops hs h fun u => u.examinationDue_ops m
  | commutation m t =>
    simp only [exec, execCommutation] at h
    exact State.act_ops hs h fun u => State.onMotor_ops m u (MotorUnit.commutationArrives_ops _ _)
  | sectorTimeout m t => exact State.act_ops hs h fun u => u.sectorTimeoutExpires_ops m
  | reservationStart t => exact State.act_ops hs h fun u => u.reservationStarts_ops
  | waitingReservationStart t => exact State.act_ops hs h fun u => u.startWaiting_ops
  | latestInstant t => exact State.act_ops hs h fun u => u.latestArrives_ops
  | resultRecord input tag value t => exact State.act_ops hs h fun u => State.readResult_ops _ u
  | converterTimeout t => exact State.act_ops hs h fun u => u.resultTimerFalls_ops
  | flushStart t => exact State.act_ops hs h fun u => u.chooseFlush_ops
  | flushCompletion t => exact State.act_ops hs h fun u => u.flushCompletes_ops
  | controllerWindowExpiry t => exact State.act_ops hs h fun u => (State.Op.windowExpires u).ops
  | wakeTimerExpiry t => exact State.act_ops hs h fun u => (State.Op.wakeExpires u).ops
  | frameDoneDue m t =>
    simp only [exec, execFrameDoneDue] at h
    exact State.act_ops hs h fun u => State.onMotor_ops m u (MotorUnit.recordDue_ops _ _)
  | staleTimerExpiry m t =>
    simp only [exec, execStaleTimerExpiry] at h
    exact State.act_ops hs h fun u => .ite _ (u.staleExpires_ops m) (.refl u)

end Sys2Proof.Machine
end

