-- ==== Sys2Proof/Laws/Step.lean ====
section
/-! SUPPORT. What a step is, case by case, and the rule by which a property is shown to hold after every step. -/
namespace Sys2Proof.Machine

/-- `act` outside reset. -/
theorem State.act_next {t : Instant} {f : State → State} {s : State} (h : s.inReset = false) :
    State.act t f s = .next (f (s.atInstant t)) := by
  simp [State.act, h]

/-- `act` in reset (R171). -/
theorem State.act_inReset {t : Instant} {f : State → State} {s : State} (h : s.inReset = true) :
    State.act t f s = .next s := by
  simp [State.act, h]

/-- `actStart` in reset (R171). -/
theorem State.actStart_inReset {t : Instant} {f : State → State} {s : State} (h : s.inReset = true) :
    State.actStart t f s = .next s := by
  simp [State.actStart, h]

/-- `actStart` where no START comes behind a boundary of a higher-numbered motor: the command is taken at its instant. -/
theorem State.actStart_next {t : Instant} {f : State → State} {s : State} (h : s.inReset = false)
    (hb : (s.atInstant t).startsBehind (f (s.atInstant t)) = false) : State.actStart t f s = .next (f (s.atInstant t)) := by
  simp [State.actStart, h, hb]

/-- `actStart` where a START comes behind: the command is taken one tick later. -/
theorem State.actStart_behind {t : Instant} {f : State → State} {s : State} (h : s.inReset = false)
    (hb : (s.atInstant t).startsBehind (f (s.atInstant t)) = true) :
    State.actStart t f s = .next (f ((s.atInstant t).moveTo ((s.atInstant t).timebase + 1))) := by
  simp [State.actStart, h, hb]

/-- A START comes behind where some motor goes from STOPPED to RUNNING with a placement above it. -/
theorem State.startsBehind_iff {s s1 : State} :
    s.startsBehind s1 = true ↔
      ∃ m, (s.motor m).channel.state = .stopped ∧ (s1.motor m).channel.state = .running ∧ s.placedAbove m = true := by
  simp only [State.startsBehind, List.any_eq_true, Bool.and_eq_true, decide_eq_true_eq, and_assoc]
  exact ⟨fun ⟨m, _, h⟩ => ⟨m, h⟩, fun ⟨m, h⟩ => ⟨m, by cases m <;> simp, h⟩⟩

/-- No START comes behind where no motor goes from STOPPED to RUNNING, or none that does has a placement above it. -/
theorem State.startsBehind_none {s s1 : State}
    (h : ∀ m, (s.motor m).channel.state = .stopped → (s1.motor m).channel.state = .running → s.placedAbove m = false) :
    s.startsBehind s1 = false := by
  rw [Bool.eq_false_iff, Ne, State.startsBehind_iff]
  exact fun ⟨m, h1, h2, h3⟩ => absurd ((h m h1 h2).symm.trans h3) (by decide)

/-- What a command that may give START does: it is taken at its instant, where no run begins behind a placement, and otherwise, for
some run that would, one tick later. -/
theorem State.actStart_cases {t : Instant} {f : State → State} {s s' : State} (hs : s.inReset = false)
    (h : State.actStart t f s = .next s') :
    (s' = f (s.atInstant t)
        ∧ ∀ m, (s.motor m).channel.state = .stopped → (s'.motor m).channel.state = .running → (s.atInstant t).placedAbove m = false)
      ∨ (s' = f ((s.atInstant t).moveTo ((s.atInstant t).timebase + 1))
        ∧ ∃ m, (s.motor m).channel.state = .stopped ∧ (s.atInstant t).placedAbove m = true) := by
  cases hb : (s.atInstant t).startsBehind (f (s.atInstant t)) with
  | false =>
    rw [State.actStart_next hs hb] at h
    cases h
    refine .inl ⟨rfl, fun m h1 h2 => ?_⟩
    cases hp : (s.atInstant t).placedAbove m with
    | false => rfl
    | true => rw [State.startsBehind_iff.mpr ⟨m, by simpa using h1, h2, hp⟩] at hb; cases hb
  | true =>
    rw [State.actStart_behind hs hb] at h
    cases h
    obtain ⟨m, h1, _, h3⟩ := State.startsBehind_iff.mp hb
    exact .inr ⟨rfl, m, by simpa using h1, h3⟩

/-- Raising an event changes the timebase, the record of who has placed, the queue and the count of free values alone. -/
theorem State.raiseOne_eq (s : State) (events : List Instr) :
    ∃ t p q k, s.raiseOne events = { s with timebase := t, placed := p, pending := q, freeCount := k } := by
  unfold State.raiseOne
  split
  · exact ⟨_, _, s.pending, s.freeCount, rfl⟩
  · exact ⟨s.timebase, s.placed, _, s.freeCount, rfl⟩
  · exact ⟨s.timebase, s.placed, _, _, rfl⟩

/-- An idle step changes the timebase, the record of who has placed, the queue and the count of free values alone. -/
theorem State.idle_eq (s : State) : ∃ t p q k, s.idle = { s with timebase := t, placed := p, pending := q, freeCount := k } := by
  unfold State.idle
  split
  · exact ⟨s.timebase, s.placed, s.pending, s.freeCount, rfl⟩
  · split
    · exact ⟨s.timebase, s.placed, _, s.freeCount, rfl⟩
    · exact s.raiseOne_eq s.nextEvents

/-- The event raised is one of those given. -/
theorem State.raiseOne_pending (s : State) {events : List Instr} (h : events ≠ []) :
    ∃ e ∈ events, ∃ k, s.raiseOne events = { s with pending := [e], freeCount := k } := by
  unfold State.raiseOne
  split
  · exact absurd rfl h
  · rename_i i
    exact ⟨i, List.mem_singleton_self i, s.freeCount, rfl⟩
  · rename_i i rest _
    have hk : Config.eventOrder s.freeCount % (rest.length + 1) < (i :: rest).length := Nat.mod_lt _ (Nat.succ_pos _)
    refine ⟨_, ?_, _, rfl⟩
    rw [List.getElem?_eq_getElem hk]
    exact List.getElem_mem hk

theorem mem_raiseWhen {b : Bool} {i e : Instr} : e ∈ raiseWhen b i ↔ b = true ∧ e = i := by
  cases b <;> simp [raiseWhen]

/-- The events that are no period boundaries are none. -/
theorem State.boundary_not_other (s : State) (m : Motor) (t : Instant) : .periodBoundary m t ∉ s.otherEvents := by
  simp [State.otherEvents, MotorUnit.events, MotorUnit.legEvents, State.sharedEvents, mem_raiseWhen]

/-- A period boundary that may come next has none of lower number before it (R76). -/
theorem State.boundary_first {s : State} {m k : Motor} (h : .periodBoundary m s.timebase ∈ s.nextEvents)
    (hk : k.number < m.number) : (s.motor k).boundaryDue s.timebase = false := by
  have h := (List.mem_append.mp h).resolve_right (s.boundary_not_other m s.timebase)
  revert h
  simp only [State.dueBoundaries, raiseWhen]
  cases m <;> cases k <;> first | exact absurd hk (by decide) | skip
  all_goals
    cases (s.motor .m0).boundaryDue s.timebase <;> cases (s.motor .m1).boundaryDue s.timebase <;>
      cases (s.motor .m2).boundaryDue s.timebase <;> simp

/-- An event that may come next is due. -/
theorem State.nextEvents_due {s : State} {e : Instr} (h : e ∈ s.nextEvents) : e ∈ s.dueEvents :=
  (List.mem_append.mp h).elim (fun h => List.mem_append.mpr (.inl (List.mem_of_mem_take h)))
    fun h => List.mem_append.mpr (.inr h)

/-- One of the events that are due may come next, where there are any. -/
theorem State.nextEvents_nil {s : State} : s.nextEvents = [] ↔ s.dueEvents = [] := by
  simp [State.nextEvents, State.dueEvents]

/-- What a command does: in reset it changes a pin's level or nothing, the reset pin sets power-on values, and otherwise it is
a chain of operations from its instant. -/
theorem exec_cases {c : Instr} {s s' : State} (h : exec c s = .next s') :
    (∃ t, c = .resetAssert t ∧ s.inReset = false ∧ s' = (s.atInstant t).assertReset)
      ∨ (∃ p, c = .resetRelease p ∧ s' = { s.powerOn p with inReset := false })
      ∨ (s.inReset = true ∧ State.Ops false (Instr.ofTransaction c) s s')
      ∨ (s.inReset = false ∧ ∃ b p pl, s.takesAt b ∧ State.Run pl (Instr.ofTransaction c) { s with timebase := b, placed := p } s') := by
  cases hr : s.inReset with
  | false =>
    by_cases ha : ∃ t, c = .resetAssert t
    · obtain ⟨t, rfl⟩ := ha
      simp only [exec, execResetAssert, State.act_next hr, Host.Outcome.next.injEq] at h
      exact .inl ⟨t, rfl, rfl, h.symm⟩
    · by_cases hp : ∃ p, c = .resetRelease p
      · obtain ⟨p, rfl⟩ := hp
        simp only [exec, execResetRelease, Host.Outcome.next.injEq] at h
        exact .inr (.inl ⟨p, rfl, h.symm⟩)
      · refine .inr (.inr (.inr ⟨rfl, ?_⟩))
        simpa only [hr] using exec_run hr (fun t e => ha ⟨t, e⟩) (fun p e => hp ⟨p, e⟩) h
  | true =>
    cases c with
    | resetRelease p =>
      simp only [exec, execResetRelease, Host.Outcome.next.injEq] at h
      exact .inr (.inl ⟨p, rfl, h.symm⟩)
    | driverFaultActivation m t =>
      simp only [exec, execDriverFaultActivation, hr, if_true, Host.Outcome.next.injEq] at h
      exact .inr (.inr (.inl ⟨rfl, h ▸ State.onMotor_ops m _ (MotorUnit.Op.fault true _).ops⟩))
    | driverFaultRelease m t =>
      simp only [exec, execDriverFaultRelease, hr, if_true, Host.Outcome.next.injEq] at h
      exact .inr (.inr (.inl ⟨rfl, h ▸ State.onMotor_ops m _ (MotorUnit.Op.fault false _).ops⟩))
    | hallCodeChange m k t =>
      simp only [exec, execHallCodeChange, hr, if_true, Host.Outcome.next.injEq] at h
      exact .inr (.inr (.inl ⟨rfl, h ▸ State.onMotor_ops m _ (MotorUnit.Op.hallCode k _).ops⟩))
    | _ =>
      refine .inr (.inr (.inl ⟨rfl, ?_⟩))
      have := (State.act_inReset (t := 0) (f := id) hr)
      simp only [exec, State.act, State.actStart, execPowerOnLinkClearCompletion, execUpstreamSelectFall, execRead, execReadWrap,
        execRepeatModeRead, execWrite, execWrapSet, execSleep, execWake, execLinkClear, execUnknownCommand,
        execLinkViolation, execStart, execStop, execRestart, execCommit, execCancel, execClearCounts, execSoftRestart,
        execSoftRestartEffect, execClearCountsDevice, execMapCommit, execLogPop, execLogClearOverflow, execConsumedWrite,
        execStagingWordWrite, execAttentionPendingWrite, execSettingWordWrite, execTransaction, execPeriodBoundary, execGateEdge,
        execDeadTimeTurnOn, execStoppingComplete, execHallExamination, execCommutation, execSectorTimeout,
        execReservationStart, execWaitingReservationStart, execLatestInstant, execResultRecord, execConverterTimeout,
        execFlushStart, execFlushCompletion, execControllerWindowExpiry, execWakeTimerExpiry, execFrameDoneDue,
        execStaleTimerExpiry, execResetAssert, hr, if_true, Host.Outcome.next.injEq] at h
      exact h ▸ State.Ops.refl s

/-- What a step does: an idle step, or the command at the front of the queue. -/
theorem step_cases {s s' : State} (h : step s = .next s') :
    (s.pending = [] ∧ s' = s.idle) ∨ ∃ c rest, s.pending = c :: rest ∧ exec c { s with pending := rest } = .next s' := by
  unfold step at h
  split at h
  · rename_i hp
    simp only [Host.Outcome.next.injEq] at h
    exact .inl ⟨hp, h.symm⟩
  · rename_i c rest hp
    exact .inr ⟨c, rest, hp, h⟩

/-- A property that does not speak of time and queue, that the reset pin sets, and that every operation keeps, is kept by
every command. -/
theorem exec_keeps {P : State → Prop} (ht : ∀ s t p q k, P s → P { s with timebase := t, placed := p, pending := q, freeCount := k })
    (ha : ∀ s, P s → P s.assertReset) (hr : ∀ s p, P s → P { s.powerOn p with inReset := false })
    (ho : ∀ {pl tx s t}, State.Op pl tx s t → P s → P t)
    (hc : ∀ (s : State) m n start data, ((s.motor m).slot n).state = .empty ∨ ((s.motor m).slot n).state = .inactive → P s →
      P (s.onMotor m fun u => u.onSlot n (PlanSlot.capture start data)))
    {c : Instr} {s s' : State} (h : exec c s = .next s') (hs : P s) : P s' := by
  have at_ (t : Instant) : P (s.atInstant t) := by
    obtain ⟨b, p, _, hb⟩ := s.atInstant_eq t
    rw [hb]
    exact ht s b p s.pending s.freeCount hs
  rcases exec_cases h with ⟨t, _, _, rfl⟩ | ⟨p, _, rfl⟩ | ⟨_, k⟩ | ⟨_, b, q, pl, _, k⟩
  · exact ha _ (at_ t)
  · exact hr s p hs
  · exact k.keeps ho hs
  · exact k.keeps ho hc (ht s b q s.pending s.freeCount hs)

/-- The same rule for a step. -/
theorem step_keeps {P : State → Prop} (ht : ∀ s t p q k, P s → P { s with timebase := t, placed := p, pending := q, freeCount := k })
    (ha : ∀ s, P s → P s.assertReset) (hr : ∀ s p, P s → P { s.powerOn p with inReset := false })
    (ho : ∀ {pl tx s t}, State.Op pl tx s t → P s → P t)
    (hc : ∀ (s : State) m n start data, ((s.motor m).slot n).state = .empty ∨ ((s.motor m).slot n).state = .inactive → P s →
      P (s.onMotor m fun u => u.onSlot n (PlanSlot.capture start data)))
    {s s' : State} (h : step s = .next s') (hs : P s) : P s' := by
  rcases step_cases h with ⟨_, rfl⟩ | ⟨c, rest, _, h⟩
  · obtain ⟨t, p, q, k, hi⟩ := s.idle_eq
    rw [hi]
    exact ht s t p q k hs
  · exact exec_keeps ht ha hr ho hc h (ht s s.timebase s.placed rest s.freeCount hs)

/-- The rule for a property of the three motors' blocks. -/
theorem step_keeps_motors {P : MotorUnit → Prop} (ha : ∀ f c, P (MotorUnit.reset f c))
    (hu : ∀ {now u v}, MotorUnit.Op now u v → P u → P v) (hsoft : ∀ now u, P u → P (u.softRestart now))
    (hstart : ∀ n u, P u → P (u.onFrames fun a => a.onHalf n Half.startBurst))
    (hend : ∀ now f u, P u → P (MotorUnit.flushed now f u))
    (hc : ∀ (u : MotorUnit) n start data, (u.slot n).state = .empty ∨ (u.slot n).state = .inactive → P u →
      P (u.onSlot n (PlanSlot.capture start data))) {s s' : State}
    (h : step s = .next s') (hs : ∀ m, P (s.motor m)) : ∀ m, P (s'.motor m) := by
  refine step_keeps (P := fun s => ∀ m, P (s.motor m)) ?_ ?_ ?_ ?_ ?_ h hs
  · intro s t p q k hs m
    have := hs m
    cases m <;> exact this
  · intro s _ m
    cases m <;> exact ha _ _
  · intro s p _ m
    cases m <;> exact ha _ _
  · intro pl tx s t o hs m
    cases o with
    | motor k s h =>
      rw [State.motor_setMotor]
      split
      · exact hu h (hs k)
      · exact hs m
    | softRestart s _ =>
      have : (s.softRestartNow).motor m = (s.motor m).softRestart s.timebase := by cases m <;> rfl
      rw [this]
      exact hsoft _ _ (hs m)
    | startFlush k n s _ _ =>
      have : (s.startFlush k n).motor m = (s.onMotor k (MotorUnit.onFrames (f := fun a => a.onHalf n Half.startBurst))).motor m := by
        cases m <;> rfl
      rw [this, State.motor_onMotor]
      split
      · exact hstart n _ (hs m)
      · exact hs m
    | endFlush f s _ =>
      unfold State.endFlush
      rw [State.motor_onMotor]
      have : ({ s with
          arbiter := { s.arbiter with
            state := s.freeLink, flight := none, windowTimer := s.device.windowExpiry s.timebase }
          ram := s.ram.store f.address f.content } : State).motor m = s.motor m := by cases m <;> rfl
      split
      · rw [this]; exact hend _ f _ (hs m)
      · rw [this]; exact hs m
    | _ =>
      have := hs m
      cases m <;>
        simp only [State.motor, State.popLog, State.clearLogOverflow, State.setInput, State.selectFalls, State.wakes,
          State.selectRises, State.windowExpires, State.wakeExpires, State.linkCleared] at this ⊢ <;>
        (first | exact this | (split <;> exact this))
  · intro s k n start data he hs m
    rw [State.motor_onMotor]
    split
    · rename_i e
      subst e
      exact hc _ n start data he (hs _)
    · exact hs m

end Sys2Proof.Machine
end

