-- ==== Sys2Proof/Laws/Legs.lean ====
section
/-! SUPPORT. What the operations on a motor do to its legs: a property of legs that a new command, a new drive and a due
turn-on keep is kept by every operation (R12 to R14). -/
namespace Sys2Proof.Machine

/-- A property of a leg that a new command, a new drive and a due turn-on keep. -/
structure LegRule (dead : Nat) (now : Instant) (P : LegName → Leg → Prop) : Prop where
  command : ∀ n c l, P n l → P n (Leg.setCommand dead now c l)
  drive : ∀ n d e l, P n l → P n { l with drive := d, nextEdge := e }
  turnOn : ∀ n l, timerDue l.turnOn now = true → P n l → P n l.turnOnNow

/-- The legs of a channel have a property. -/
def Channel.legsAll (P : LegName → Leg → Prop) (c : Channel) : Prop := P .leg0 c.leg0 ∧ P .leg1 c.leg1 ∧ P .leg2 c.leg2

theorem Channel.legsAll_iff {P : LegName → Leg → Prop} {c : Channel} : c.legsAll P ↔ ∀ n, P n (c.leg n) :=
  ⟨fun h n => by
      cases n
      · exact h.1
      · exact h.2.1
      · exact h.2.2, fun h => ⟨h .leg0, h .leg1, h .leg2⟩⟩

theorem Channel.legsAll_setLeg {P : LegName → Leg → Prop} {c : Channel} (n : LegName) {l : Leg} (h : c.legsAll P) (hl : P n l) :
    (c.setLeg n l).legsAll P := by
  cases n
  · exact ⟨hl, h.2.1, h.2.2⟩
  · exact ⟨h.1, hl, h.2.2⟩
  · exact ⟨h.1, h.2.1, hl⟩

theorem Channel.legsAll_leg {P : LegName → Leg → Prop} {c : Channel} (n : LegName) (h : c.legsAll P) : P n (c.leg n) :=
  Channel.legsAll_iff.1 h n

section
variable {dead : Nat} {now : Instant} {P : LegName → Leg → Prop}

theorem LegRule.follow (r : LegRule dead now P) (b : Instant) (period : Nat) (d : LegDrive) {n : LegName} {l : Leg}
    (h : P n l) : P n (Leg.follow dead now b period d l) := r.drive _ _ _ _ (r.command _ _ _ h)

theorem LegRule.park (r : LegRule dead now P) (c : LegCommand) {n : LegName} {l : Leg} (h : P n l) :
    P n (Leg.park dead now c l) := r.drive _ _ _ _ (r.command _ _ _ h)

theorem LegRule.takeEdge (r : LegRule dead now P) (b : Instant) (period : Nat) (e : LegEdge) {n : LegName} {l : Leg}
    (h : P n l) : P n (Leg.takeEdge dead now b period e l) := by
  unfold Leg.takeEdge
  dsimp only
  split <;> exact r.drive _ (Leg.setCommand dead now e.command l).drive _ _ (r.command _ _ _ h)

end

section
variable {now : Instant} {P : LegName → Leg → Prop} {u : MotorUnit}

theorem LegRule.driveLegs (r : LegRule u.settings.deadTime now P) (b : Instant) (d0 d1 d2 : LegDrive)
    (h : u.channel.legsAll P) : (u.driveLegs now b d0 d1 d2).channel.legsAll P :=
  ⟨r.follow b _ d0 h.1, r.follow b _ d1 h.2.1, r.follow b _ d2 h.2.2⟩

theorem LegRule.driveRoles (r : LegRule u.settings.deadTime now P) (b : Instant) (h : u.channel.legsAll P) :
    (u.driveRoles now b).channel.legsAll P := r.driveLegs b _ _ _ h

theorem LegRule.allOff (r : LegRule u.settings.deadTime now P) (h : u.channel.legsAll P) :
    (u.allOff now).channel.legsAll P := ⟨r.park _ h.1, r.park _ h.2.1, r.park _ h.2.2⟩

theorem LegRule.toSafeState (r : LegRule u.settings.deadTime now P) (h : u.channel.legsAll P) :
    (u.toSafeState now).channel.legsAll P := by
  unfold MotorUnit.toSafeState
  split
  · exact r.allOff h
  · exact ⟨r.park _ h.1, r.park _ h.2.1, r.park _ h.2.2⟩

theorem LegRule.setLegs (r : LegRule u.settings.deadTime now P) (b : Instant) (h : u.channel.legsAll P) :
    (u.setLegs now b).channel.legsAll P := by
  unfold MotorUnit.setLegs
  split
  · exact h
  · split
    · exact r.driveLegs (u := { u with channel := { u.channel with chop := _ } }) b _ _ _ h
    · exact r.driveLegs b _ _ _ h

theorem LegRule.gateEdge (r : LegRule u.settings.deadTime now P) (n : LegName) (h : u.channel.legsAll P) :
    (u.gateEdge now n).channel.legsAll P := by
  unfold MotorUnit.gateEdge
  split
  · split
    · exact Channel.legsAll_setLeg n h (r.takeEdge _ _ _ (Channel.legsAll_leg n h))
    · exact h
  · exact h

theorem LegRule.deadTimeEnds (r : LegRule u.settings.deadTime now P) (n : LegName) (h : u.channel.legsAll P) :
    (u.deadTimeEnds now n).channel.legsAll P := by
  unfold MotorUnit.deadTimeEnds
  split
  · rename_i hd
    exact Channel.legsAll_setLeg n h (r.turnOn _ _ hd (Channel.legsAll_leg n h))
  · exact h

theorem LegRule.refreshRoles (r : LegRule u.settings.deadTime now P) (h : u.channel.legsAll P) :
    (u.refreshRoles now).channel.legsAll P := by
  unfold MotorUnit.refreshRoles
  split
  · exact r.driveRoles _ h
  · exact h

theorem LegRule.tripFrames (h : u.channel.legsAll P) : (u.tripFrames now).channel.legsAll P := by
  unfold MotorUnit.tripFrames
  rw [MotorUnit.closeFrame_channel]
  exact h

theorem LegRule.trip (r : LegRule u.settings.deadTime now P) (c : TripCause) (i : Short) (h : u.channel.legsAll P) :
    (u.trip now c i).channel.legsAll P :=
  LegRule.tripFrames (u := (u.toSafeState now).stopCarrier.onTracker Tracker.leaveHall) (r.toSafeState h)

theorem MotorUnit.afterSetting_channel (now : Instant) (w : MotorWord) (u : MotorUnit) :
    (u.afterSetting now w).channel = u.channel := by
  unfold MotorUnit.afterSetting
  split <;> rfl

theorem MotorUnit.givePosition_channel (step : Nat) (r : SampleRequest) (u : MotorUnit) :
    (u.givePosition step r).channel = u.channel := by
  unfold MotorUnit.givePosition
  split <;> rfl

theorem MotorUnit.markSlid_channel (seq : Short) (p : Option Nat) (b : Bool) (u : MotorUnit) :
    (u.markSlid seq p b).channel = u.channel := by
  unfold MotorUnit.markSlid
  split <;> rfl

theorem LegRule.stoppingBoundary (r : LegRule u.settings.deadTime now P) (h : u.channel.legsAll P) :
    (u.stoppingBoundary now).channel.legsAll P := by
  have hs : ((u.setState .stopping).closeFrame now .stopped).settings = u.settings := by
    unfold MotorUnit.closeFrame
    split
    · rfl
    · dsimp only
      split <;> rfl
  have hc : ((u.setState .stopping).closeFrame now .stopped).channel = (u.setState .stopping).channel :=
    MotorUnit.closeFrame_channel _ _ _
  have h1 : ((u.setState .stopping).stopRun now).channel.legsAll P := by
    refine LegRule.allOff (u := (u.setState .stopping).closeFrame now .stopped) ?_ ?_
    · rw [hs]; exact r
    · rw [hc]; exact h
  unfold MotorUnit.stoppingBoundary
  dsimp only
  split
  · exact h1
  · exact h1

/-- What the rule keeps, every operation on the motor keeps. -/
theorem MotorUnit.Op.legs {v : MotorUnit} (r : LegRule u.settings.deadTime now P) (o : MotorUnit.Op now u v)
    (h : u.channel.legsAll P) : v.channel.legsAll P := by
  cases o with
  | refreshRoles => exact r.refreshRoles h
  | trip c i => exact r.trip c i h
  | setLegs b => exact r.setLegs b h
  | gateEdge n => exact r.gateEdge n h
  | deadTimeEnds n => exact r.deadTimeEnds n h
  | restart => exact r.allOff h
  | stoppingBoundary => exact r.stoppingBoundary h
  | givePosition step q => rw [MotorUnit.givePosition_channel]; exact h
  | markSlid q p b => rw [MotorUnit.markSlid_channel]; exact h
  | beginFrame => rw [MotorUnit.beginFrame_channel]; exact h
  | takeHalf n => rw [MotorUnit.takeHalf_channel]; exact h
  | overwrite n => rw [MotorUnit.takeHalf_channel]; exact h
  | closeFrame f => rw [MotorUnit.closeFrame_channel]; exact h
  | begin n => rw [MotorUnit.activateSlot_channel]; exact h
  | activate n => rw [MotorUnit.activateSlot_channel]; exact h
  | stop =>
    unfold MotorUnit.stop
    split <;> exact h
  | completeStop =>
    unfold MotorUnit.completeStop
    split <;> exact h
  | pend n => rw [MotorUnit.onSlot_channel]; exact h
  | retag n => rw [MotorUnit.onSlot_channel]; exact h
  | cancel n => rw [MotorUnit.onSlot_channel]; exact h
  | settings w => rw [MotorUnit.afterSetting_channel]; exact h
  | _ => exact h

end

/-- A safe leg stays safe (R14). -/
theorem LegRule.safe (dead : Nat) (now : Instant) : LegRule dead now (fun _ => Leg.safe) where
  command _ _ _ h := Leg.setCommand_safe _ _ _ h
  drive _ _ _ _ h := h
  turnOn _ _ _ h := Leg.turnOnNow_safe h

/-- A leg's last turn-off instants follow every operation (R14, R24). -/
theorem LegRule.turnOffs (dead : Nat) (now : Instant) (l0 : LegName → Leg) :
    LegRule dead now (fun n l => Leg.turnOffsKept now (l0 n) l) where
  command n c l h := by
    obtain ⟨h1, h2, h3, h4⟩ := h
    have k := Leg.setCommand_commanded dead now c l
    generalize Leg.setCommand dead now c l = l' at k
    obtain ⟨_, ks, kn⟩ := k
    by_cases e : c = l.command
    · obtain ⟨e1, e2, e3, e4, _⟩ := ks e
      exact ⟨by rw [e1, e3]; exact h1, by rw [e2, e4]; exact h2, by rw [e3]; exact h3, by rw [e4]; exact h4⟩
    · obtain ⟨e1, e2, _⟩ := kn e
      refine ⟨fun a _ => ?_, fun a _ => ?_, ?_, ?_⟩
      · rw [e1]; split
        · rfl
        · exact h1 a (by simp_all)
      · rw [e2]; split
        · rfl
        · exact h2 a (by simp_all)
      · rw [e1]; split
        · exact .inr rfl
        · exact h3
      · rw [e2]; split
        · exact .inr rfl
        · exact h4
  drive _ _ _ _ h := h
  turnOn n l _ h := by
    unfold Leg.turnOnNow
    obtain ⟨h1, h2, h3, h4⟩ := h
    split
    · exact ⟨nofun, h2, h3, h4⟩
    · exact ⟨h1, nofun, h3, h4⟩
    · exact ⟨h1, h2, h3, h4⟩

theorem MotorUnit.flushed_channel_legs {P : LegName → Leg → Prop} (now : Instant) (f : Flush) (u : MotorUnit)
    (h : u.channel.legsAll P) : (MotorUnit.flushed now f u).channel.legsAll P := by
  unfold MotorUnit.flushed MotorUnit.finalFlushed MotorUnit.completeStop
  dsimp only
  split
  · split <;> exact h
  · exact h

theorem LegRule.softRestart {now : Instant} {P : LegName → Leg → Prop} {u : MotorUnit} (r : LegRule u.settings.deadTime now P)
    (h : u.channel.legsAll P) : (u.softRestart now).channel.legsAll P := r.allOff h

end Sys2Proof.Machine
end

