-- ==== Sys2Proof/Laws/Channels.lean ====
section
/-! SUPPORT. The channel, its slots and its carrier stay together (R1, R8, R26): every operation on a motor keeps
`MotorUnit.channelSound`. -/
namespace Sys2Proof.Machine

/-- What `channelSound` speaks of, but for the legs. -/
def MotorUnit.phase (u : MotorUnit) : SlotState × SlotState × ChannelState × Option Instant :=
  (u.slotA.state, u.slotB.state, u.channel.state, u.channel.periodStart)

/-- A leg commands no side and has no edge to come. -/
def Leg.idle (l : Leg) : Prop := l.command = .off ∧ l.nextEdge = none

/-- Soundness carries over where the phase is the same, and the legs are idle if they were or must not be. -/
theorem MotorUnit.channelSound_congr {u v : MotorUnit} (hp : v.phase = u.phase)
    (hl : v.channel.atRest → u.channel.legsAll (fun _ => Leg.idle) → v.channel.legsAll (fun _ => Leg.idle)) (h : u.channelSound) :
    v.channelSound := by
  simp only [MotorUnit.phase, Prod.mk.injEq] at hp
  obtain ⟨ha, hb, hs, hc⟩ := hp
  obtain ⟨h1, h2, h3, h4, h5, h6⟩ := h
  have hr : v.channel.atRest → u.channel.atRest := by
    intro r
    unfold Channel.atRest at r ⊢
    rw [← hs, ← hc]
    exact r
  refine ⟨by rw [ha, hb]; exact h1, by rw [ha, hb]; exact h2, by rw [ha, hb, hc]; exact h3, by rw [hs, hc]; exact h4,
    by rw [hs, hc]; exact h5, fun r => ?_⟩
  exact Channel.legsAll_iff.1 (hl r (Channel.legsAll_iff.2 (h6 (hr r))))

theorem MotorUnit.channelSound_same {u v : MotorUnit} (hp : v.phase = u.phase) (hc : v.channel = u.channel)
    (h : u.channelSound) : v.channelSound :=
  MotorUnit.channelSound_congr hp (fun _ hl => by rw [hc]; exact hl) h

/-- While the carrier runs, the channel does not rest. -/
theorem MotorUnit.channelSound.not_atRest {u : MotorUnit} (h : u.channelSound) (hp : u.channel.periodStart.isSome = true) :
    ¬u.channel.atRest := by
  rintro (r | r)
  · have := h.2.2.2.2.1 hp
    rw [r] at this
    rcases this with k | k <;> cases k
  · rw [r.2] at hp
    cases hp

/-- An operation on the legs of a running carrier. -/
theorem MotorUnit.channelSound_running {u v : MotorUnit} (hp : v.phase = u.phase)
    (hs : u.channel.periodStart.isSome = true) (h : u.channelSound) : v.channelSound := by
  refine MotorUnit.channelSound_congr hp (fun r _ => absurd ?_ (h.not_atRest hs)) h
  simp only [MotorUnit.phase, Prod.mk.injEq] at hp
  unfold Channel.atRest at r ⊢
  rw [← hp.2.2.1, ← hp.2.2.2]
  exact r

theorem Leg.park_idle (dead : Nat) (now : Instant) (l : Leg) : (Leg.park dead now .off l).idle :=
  ⟨Leg.setCommand_command dead now .off l, rfl⟩

theorem MotorUnit.allOff_idle (now : Instant) (u : MotorUnit) : (u.allOff now).channel.legsAll (fun _ => Leg.idle) :=
  ⟨Leg.park_idle _ _ _, Leg.park_idle _ _ _, Leg.park_idle _ _ _⟩

theorem MotorUnit.onSlot_phase (u : MotorUnit) (n : SlotName) (f : PlanSlot → PlanSlot)
    (h : (f (u.slot n)).state = (u.slot n).state) : (u.onSlot n f).phase = u.phase := by
  cases n <;> simp_all [MotorUnit.phase, MotorUnit.onSlot, MotorUnit.setSlot, MotorUnit.slot]

theorem MotorUnit.closeFrame_phase (now : Instant) (flag : CloseFlag) (u : MotorUnit) :
    (u.closeFrame now flag).phase = u.phase := by
  unfold MotorUnit.closeFrame
  split
  · rfl
  · dsimp only
    split <;> rfl

theorem MotorUnit.beginFrame_phase (u : MotorUnit) : u.beginFrame.phase = u.phase := by
  unfold MotorUnit.beginFrame
  have ht (p : PlanSlot) : p.takeNextTag.state = p.state := by unfold PlanSlot.takeNextTag; split <;> rfl
  cases u.activeSlot with
  | none => rfl
  | some n => exact MotorUnit.onSlot_phase u n _ (ht _)

theorem MotorUnit.takeHalf_phase (n : HalfName) (u : MotorUnit) : (u.takeHalf n).phase = u.phase := by
  unfold MotorUnit.takeHalf
  dsimp only
  split <;> rfl

theorem MotorUnit.driveLegs_phase (now b : Instant) (d0 d1 d2 : LegDrive) (u : MotorUnit) :
    (u.driveLegs now b d0 d1 d2).phase = u.phase := rfl

theorem MotorUnit.setLegs_phase (now b : Instant) (u : MotorUnit) : (u.setLegs now b).phase = u.phase := by
  unfold MotorUnit.setLegs
  split
  · rfl
  · split <;> rfl

theorem Channel.setLeg_state (c : Channel) (n : LegName) (l : Leg) :
    (c.setLeg n l).state = c.state ∧ (c.setLeg n l).periodStart = c.periodStart := by cases n <;> exact ⟨rfl, rfl⟩

/-- Releasing leaves no slot ACTIVE or PENDING. -/
theorem PlanSlot.release_state (p : PlanSlot) : p.release.state ≠ .active ∧ p.release.state ≠ .pending := by
  unfold PlanSlot.release
  split <;> simp_all

/-- A motor with its slots released and its carrier stopped is sound in every state but RUNNING, if its legs are idle where the
channel rests. -/
theorem MotorUnit.channelSound_released {u : MotorUnit} (ha : u.slotA.state ≠ .active ∧ u.slotA.state ≠ .pending)
    (hb : u.slotB.state ≠ .active ∧ u.slotB.state ≠ .pending) (hp : u.channel.periodStart = none)
    (hs : u.channel.state ≠ .running) (hl : u.channel.atRest → u.channel.legsAll (fun _ => Leg.idle)) : u.channelSound :=
  ⟨fun k => ha.1 k.1, fun k => ha.2 k.1,
    ⟨fun k => (k.elim ha.1 hb.1).elim, fun k => by rw [hp] at k; cases k⟩,
    fun k => absurd k hs, fun k => (by rw [hp] at k; cases k), fun r => Channel.legsAll_iff.1 (hl r)⟩

theorem MotorUnit.trip_channel (now : Instant) (c : TripCause) (i : Short) (u : MotorUnit) :
    (u.trip now c i).channel =
      { (u.toSafeState now).channel with periodStart := none, state := .tripped, tripCause := c, tripInfo := i } := by
  have h := MotorUnit.closeFrame_channel now .tripped
    (((u.toSafeState now).stopCarrier.onTracker Tracker.leaveHall).onFrames fun a =>
      { a with half0 := a.half0.tripMissed, half1 := a.half1.tripMissed })
  show ({ (MotorUnit.closeFrame now .tripped _).channel with state := _, tripCause := _, tripInfo := _ } : Channel) = _
  rw [h]
  rfl

theorem MotorUnit.toSafeState_slots (now : Instant) (u : MotorUnit) :
    (u.toSafeState now).slotA = u.slotA ∧ (u.toSafeState now).slotB = u.slotB := by
  unfold MotorUnit.toSafeState
  split <;> exact ⟨rfl, rfl⟩

theorem MotorUnit.closeFrame_slots (now : Instant) (flag : CloseFlag) (u : MotorUnit) :
    (u.closeFrame now flag).slotA = u.slotA ∧ (u.closeFrame now flag).slotB = u.slotB := by
  unfold MotorUnit.closeFrame
  split
  · exact ⟨rfl, rfl⟩
  · dsimp only
    split <;> exact ⟨rfl, rfl⟩

theorem MotorUnit.trip_channelSound (now : Instant) (c : TripCause) (i : Short) (u : MotorUnit) :
    (u.trip now c i).channelSound := by
  have hc := u.trip_channel now c i
  refine MotorUnit.channelSound_released (PlanSlot.release_state _) (PlanSlot.release_state _) ?_ ?_ ?_
  · rw [hc]
  · rw [hc]; simp
  · intro r
    unfold Channel.atRest at r
    rw [hc] at r
    simp at r

theorem MotorUnit.stopRun_facts (now : Instant) (u : MotorUnit) :
    (u.stopRun now).channel.state = u.channel.state ∧ (u.stopRun now).channel.periodStart = none
      ∧ (u.stopRun now).channel.legsAll (fun _ => Leg.idle)
      ∧ ((u.stopRun now).slotA.state ≠ .active ∧ (u.stopRun now).slotA.state ≠ .pending)
      ∧ ((u.stopRun now).slotB.state ≠ .active ∧ (u.stopRun now).slotB.state ≠ .pending) := by
  refine ⟨?_, rfl, MotorUnit.allOff_idle now _, PlanSlot.release_state _, PlanSlot.release_state _⟩
  show (u.closeFrame now .stopped).channel.state = u.channel.state
  rw [MotorUnit.closeFrame_channel]

theorem MotorUnit.stoppingBoundary_channelSound (now : Instant) (u : MotorUnit) : (u.stoppingBoundary now).channelSound := by
  obtain ⟨hs, hp, hl, ha, hb⟩ := (u.setState .stopping).stopRun_facts now
  unfold MotorUnit.stoppingBoundary
  dsimp only
  split
  · exact MotorUnit.channelSound_released ha hb hp (by simp [MotorUnit.enterStopped]) fun _ => hl
  · exact MotorUnit.channelSound_released ha hb hp (by rw [hs]; simp [MotorUnit.setState]) fun _ => hl

theorem MotorUnit.softRestart_channelSound (now : Instant) (u : MotorUnit) : (u.softRestart now).channelSound :=
  MotorUnit.channelSound_released (by simp [MotorUnit.softRestart, PlanSlot.restart])
    (by simp [MotorUnit.softRestart, PlanSlot.restart]) rfl
    (by simp [MotorUnit.softRestart, MotorUnit.restartChannel, MotorUnit.enterStopped])
    fun _ => u.allOff_idle now

/-- A sound stopped or tripped motor has no ACTIVE slot and no carrier. -/
theorem MotorUnit.channelSound.stopped {u : MotorUnit} (h : u.channelSound)
    (hs : u.channel.state = .stopped ∨ u.channel.state = .tripped) :
    u.channel.periodStart = none ∧ u.slotA.state ≠ .active ∧ u.slotB.state ≠ .active := by
  have hn : u.channel.periodStart = none := by
    cases hp : u.channel.periodStart with
    | none => rfl
    | some b =>
      have := h.2.2.2.2.1 (by simp [hp])
      rcases hs with k | k <;> rw [k] at this <;> rcases this with j | j <;> cases j
  have ha : ¬(u.slotA.state = .active ∨ u.slotB.state = .active) := by
    intro k
    have := h.2.2.1.1 k
    rw [hn] at this
    cases this
  exact ⟨hn, fun k => ha (.inl k), fun k => ha (.inr k)⟩

/-- A stopping boundary passed, and its frame written: the channel is STOPPED. -/
theorem MotorUnit.completeStop_channelSound {u : MotorUnit} (h : u.channelSound) : u.completeStop.channelSound := by
  unfold MotorUnit.completeStop
  split
  · rename_i hd
    simp only [MotorUnit.stoppingDone, Bool.and_eq_true, decide_eq_true_eq, Option.isNone_iff_eq_none] at hd
    obtain ⟨⟨⟨hs, hp⟩, _⟩, _⟩ := hd
    obtain ⟨h1, h2, h3, _, _, h6⟩ := h
    refine ⟨h1, h2, h3, fun k => ?_, fun k => ?_, fun _ => h6 (.inr ⟨hs, hp⟩)⟩
    · simp [MotorUnit.enterStopped] at k
    · have : u.channel.periodStart.isSome = true := k
      rw [hp] at this
      cases this
  · exact h

/-- Activation of the PENDING slot in a running carrier. -/
theorem MotorUnit.activateSlot_channelSound {u : MotorUnit} (n : SlotName) (h : u.channelSound)
    (hr : u.channel.periodStart.isSome = true) (hn : (u.slot n).state = .pending) :
    (u.activateSlot n).channelSound := by
  obtain ⟨h1, h2, h3, h4, h5, h6⟩ := h
  have hc := MotorUnit.activateSlot_channel n u
  have ho : (u.slot n.other).state ≠ .pending := by
    cases n
    · exact fun k => h2 ⟨hn, k⟩
    · exact fun k => h2 ⟨k, hn⟩
  have hret : ((u.slot n.other).retire).state ≠ .active ∧ ((u.slot n.other).retire).state ≠ .pending := by
    unfold PlanSlot.retire
    split
    · simp
    · rename_i k; exact ⟨k, ho⟩
  have hs : ((u.activateSlot n).slot n).state = .active ∧ (u.activateSlot n).slot n.other = (u.slot n.other).retire := by
    cases n <;> exact ⟨rfl, rfl⟩
  unfold MotorUnit.channelSound
  rw [hc]
  cases n
  · have ha : (u.activateSlot .a).slotA.state = .active := hs.1
    have hb : (u.activateSlot .a).slotB = u.slotB.retire := hs.2
    rw [ha, hb]
    exact ⟨fun k => hret.1 k.2, fun k => hret.2 k.2, ⟨fun _ => hr, fun _ => .inl rfl⟩, h4, h5, h6⟩
  · have ha : (u.activateSlot .b).slotB.state = .active := hs.1
    have hb : (u.activateSlot .b).slotA = u.slotA.retire := hs.2
    rw [ha, hb]
    exact ⟨fun k => hret.1 k.1, fun k => hret.2 k.1, ⟨fun _ => hr, fun _ => .inr rfl⟩, h4, h5, h6⟩

/-- START of a stopped motor. -/
theorem MotorUnit.begin_channelSound {u : MotorUnit} (now : Instant) (n : SlotName) (h : u.channelSound)
    (hs : u.channel.state = .stopped) (hn : (u.slot n).state = .pending) :
    (((u.setState .running).startPeriod now).activateSlot n).channelSound := by
  obtain ⟨_, ha, hb⟩ := h.stopped (.inl hs)
  have ho : (u.slot n.other).state ≠ .active ∧ (u.slot n.other).state ≠ .pending := by
    cases n
    · exact ⟨hb, fun k => h.2.1 ⟨hn, k⟩⟩
    · exact ⟨ha, fun k => h.2.1 ⟨k, hn⟩⟩
  have hret : (u.slot n.other).retire = u.slot n.other := by
    unfold PlanSlot.retire
    rw [if_neg ho.1]
  have hc : (((u.setState .running).startPeriod now).activateSlot n).channel =
      { u.channel with state := .running, periodStart := some now } := by cases n <;> rfl
  unfold MotorUnit.channelSound
  rw [hc]
  have rest : (({ u.channel with state := .running, periodStart := some now } : Channel).atRest) → False := by
    intro k
    simp [Channel.atRest] at k
  cases n
  · have hb' : (((u.setState .running).startPeriod now).activateSlot .a).slotB = u.slotB.retire := rfl
    have hret' : u.slotB.retire = u.slotB := hret
    rw [hb', hret']
    exact ⟨fun k => ho.1 k.2, fun k => ho.2 k.2, ⟨fun _ => rfl, fun _ => .inl rfl⟩, fun _ => rfl, fun _ => .inl rfl,
      fun k => (rest k).elim⟩
  · have hb' : (((u.setState .running).startPeriod now).activateSlot .b).slotA = u.slotA.retire := rfl
    have hret' : u.slotA.retire = u.slotA := hret
    rw [hb', hret']
    exact ⟨fun k => ho.1 k.1, fun k => ho.2 k.1, ⟨fun _ => rfl, fun _ => .inr rfl⟩, fun _ => rfl, fun _ => .inl rfl,
      fun k => (rest k).elim⟩

/-- A slot's state changes to one that is not ACTIVE, and to PENDING only where the other is not. -/
theorem MotorUnit.onSlot_channelSound {u : MotorUnit} (n : SlotName) (f : PlanSlot → PlanSlot) (h : u.channelSound)
    (ha : (u.slot n).state ≠ .active) (hf : (f (u.slot n)).state ≠ .active)
    (hp : (f (u.slot n)).state = .pending → (u.slot n.other).state ≠ .pending) : (u.onSlot n f).channelSound := by
  obtain ⟨h1, h2, h3, h4, h5, h6⟩ := h
  cases n
  · refine ⟨fun k => hf k.1, fun k => hp k.1 k.2, ?_, h4, h5, h6⟩
    refine Iff.trans ⟨fun k => ?_, fun k => ?_⟩ h3
    · rcases k with k | k
      · exact absurd k hf
      · exact .inr k
    · rcases k with k | k
      · exact absurd k ha
      · exact .inr k
  · refine ⟨fun k => hf k.2, fun k => hp k.2 k.1, ?_, h4, h5, h6⟩
    refine Iff.trans ⟨fun k => ?_, fun k => ?_⟩ h3
    · rcases k with k | k
      · exact .inl k
      · exact absurd k hf
    · rcases k with k | k
      · exact .inl k
      · exact absurd k ha

/-- A capture keeps the channel sound (R27). -/
theorem MotorUnit.capture_channelSound {u : MotorUnit} (n : SlotName) (start : Nat) (data : List Byte)
    (he : (u.slot n).state = .empty ∨ (u.slot n).state = .inactive) (h : u.channelSound) :
    (u.onSlot n (PlanSlot.capture start data)).channelSound := by
  have hc : ((u.slot n).capture start data).state = (u.slot n).state
      ∨ ((u.slot n).capture start data).state = .inactive := by
    unfold PlanSlot.capture
    split
    · exact .inl rfl
    · dsimp only
      split
      · exact .inr rfl
      · exact .inl rfl
  refine MotorUnit.onSlot_channelSound n _ h ?_ ?_ ?_
  · rcases he with k | k <;> rw [k] <;> simp
  · rcases hc with k | k <;> rw [k]
    · rcases he with k | k <;> rw [k] <;> simp
    · simp
  · rcases hc with k | k <;> rw [k]
    · rcases he with k | k <;> rw [k] <;> simp
    · simp

theorem MotorUnit.gateEdge_channelSound {u : MotorUnit} (now : Instant) (n : LegName) (h : u.channelSound) :
    (u.gateEdge now n).channelSound := by
  unfold MotorUnit.gateEdge
  split
  · rename_i e b _ hb
    split
    · refine MotorUnit.channelSound_running ?_ (by simp [hb]) h
      simp [MotorUnit.phase, Channel.setLeg_state]
    · exact h
  · exact h

theorem MotorUnit.deadTimeEnds_channelSound {u : MotorUnit} (now : Instant) (n : LegName) (h : u.channelSound) :
    (u.deadTimeEnds now n).channelSound := by
  unfold MotorUnit.deadTimeEnds
  split
  · refine MotorUnit.channelSound_congr (by simp [MotorUnit.phase, Channel.setLeg_state]) (fun _ hl => ?_) h
    have hi : ∀ l : Leg, l.idle → l.turnOnNow.idle := by
      intro l k
      unfold Leg.turnOnNow
      split <;> exact k
    exact Channel.legsAll_setLeg n hl (hi _ (Channel.legsAll_leg n hl))
  · exact h

/-- Every operation on a motor keeps its channel sound. -/
theorem MotorUnit.Op.channelSound {now : Instant} {u v : MotorUnit} (o : MotorUnit.Op now u v) (h : u.channelSound) :
    v.channelSound := by
  cases o with
  | refreshRoles =>
    unfold MotorUnit.refreshRoles
    split
    · rename_i b _ hb
      exact MotorUnit.channelSound_running (u := u) rfl (by simp [hb]) h
    · exact h
  | trip c i => exact u.trip_channelSound now c i
  | setLegs b _ hs => exact MotorUnit.channelSound_running (MotorUnit.setLegs_phase _ _ _) (h.2.2.2.1 hs) h
  | gateEdge n => exact MotorUnit.gateEdge_channelSound now n h
  | deadTimeEnds n => exact MotorUnit.deadTimeEnds_channelSound now n h
  | restart _ hs =>
    obtain ⟨hn, ha, hb⟩ := h.stopped (.inr hs)
    refine ⟨h.1, h.2.1, ?_, ?_, ?_, fun _ => Channel.legsAll_iff.1 (u.allOff_idle now)⟩
    · exact h.2.2.1
    · intro k; simp [MotorUnit.enterStopped] at k
    · intro k
      have : u.channel.periodStart.isSome = true := k
      rw [hn] at this
      cases this
  | stoppingBoundary => exact u.stoppingBoundary_channelSound now
  | completeStop => exact MotorUnit.completeStop_channelSound h
  | begin n _ hs hn => exact MotorUnit.begin_channelSound now n h hs hn
  | activate n _ hr hn => exact MotorUnit.activateSlot_channelSound n h hr hn
  | stop =>
    unfold MotorUnit.stop
    split
    · rename_i hs
      have hp := h.2.2.2.1 hs
      refine ⟨h.1, h.2.1, h.2.2.1, fun k => ?_, fun _ => .inr rfl, fun k => ?_⟩
      · simp [MotorUnit.setState] at k
      · simp only [Channel.atRest, MotorUnit.setState] at k
        rcases k with k | k
        · cases k
        · rw [k.2] at hp; cases hp
    all_goals exact h
  | period b _ hp =>
    have hb := h.not_atRest hp
    refine ⟨h.1, h.2.1, ?_, fun _ => rfl, fun _ => h.2.2.2.2.1 hp, fun r => ?_⟩
    · exact ⟨fun _ => rfl, fun _ => h.2.2.1.2 hp⟩
    · have hst := h.2.2.2.2.1 hp
      simp only [Channel.atRest, MotorUnit.countPeriod, MotorUnit.startPeriod] at r
      rcases r with r | r
      · rw [r] at hst; rcases hst with k | k <;> cases k
      · cases r.2
  | pend n tag kind _ he ho =>
    refine MotorUnit.onSlot_channelSound n _ h ?_ (by simp [PlanSlot.pend]) (fun _ => ho)
    rcases he with k | k <;> rw [k] <;> simp
  | retag n tag => exact MotorUnit.channelSound_same (MotorUnit.onSlot_phase u n _ rfl) (by simp) h
  | cancel n =>
    unfold PlanSlot.cancel
    by_cases hp : (u.slot n).state = .pending
    · refine MotorUnit.onSlot_channelSound n _ h (by rw [hp]; simp) ?_ ?_ <;> simp [hp]
    · exact MotorUnit.channelSound_same (MotorUnit.onSlot_phase u n _ (by rw [if_neg hp])) (by simp) h
  | settings w =>
    refine MotorUnit.channelSound_same ?_ (MotorUnit.afterSetting_channel _ _ _) h
    unfold MotorUnit.afterSetting
    split <;> rfl
  | givePosition step q =>
    refine MotorUnit.channelSound_same ?_ (MotorUnit.givePosition_channel _ _ _) h
    unfold MotorUnit.givePosition
    split <;> rfl
  | markSlid q p b =>
    refine MotorUnit.channelSound_same ?_ (MotorUnit.markSlid_channel _ _ _ _) h
    unfold MotorUnit.markSlid
    split <;> rfl
  | beginFrame => exact MotorUnit.channelSound_same (MotorUnit.beginFrame_phase u) (by simp) h
  | takeHalf n => exact MotorUnit.channelSound_same (MotorUnit.takeHalf_phase n u) (by simp) h
  | overwrite n =>
    exact MotorUnit.channelSound_same (MotorUnit.takeHalf_phase n _) (by simp) h
  | closeFrame f => exact MotorUnit.channelSound_same (MotorUnit.closeFrame_phase _ f u) (by simp) h
  | _ => exact MotorUnit.channelSound_same rfl rfl h

theorem MotorUnit.flushed_channelSound {u : MotorUnit} (now : Instant) (f : Flush) (h : u.channelSound) :
    (MotorUnit.flushed now f u).channelSound := by
  unfold MotorUnit.flushed MotorUnit.finalFlushed
  dsimp only
  split
  · exact MotorUnit.completeStop_channelSound (MotorUnit.channelSound_same rfl rfl h)
  · exact MotorUnit.channelSound_same rfl rfl h

end Sys2Proof.Machine
end

