-- ==== Sys2Proof/Laws/Link.lean ====
section
/-! SUPPORT. The link: every operation keeps the arbiter, the timers of the link and select together (R139, R140, R148, R151). -/
namespace Sys2Proof.Machine

variable {pl tx : Bool}

/-- What `linkSound` speaks of. -/
def State.linkPart (s : State) : ArbiterState × Bool × Bool × Bool × Bool × Bool :=
  (s.arbiter.state, s.arbiter.flight.isSome, s.port.wakeTimer.isSome, s.port.linkClearDue.isSome, s.upstream.selectLow,
    s.decoder.refused)

theorem State.linkSound_congr {s t : State} (h : t.linkPart = s.linkPart) (hs : s.linkSound) : t.linkSound := by
  simp only [State.linkPart, Prod.mk.injEq] at h
  obtain ⟨h1, h2, h3, h4, h5, h6⟩ := h
  have hn : (t.port.linkClearDue = none) ↔ (s.port.linkClearDue = none) := by
    rw [← Option.not_isSome_iff_eq_none, ← Option.not_isSome_iff_eq_none, h4]
  unfold State.linkSound
  rw [h1, h2, h3, h4, h5, h6, hn]
  exact hs

theorem State.candidate_open {s : State} {m : Motor} (h : s.candidate = some m) :
    s.arbiter.state = .openLink ∧ s.port.state = .awake := by
  unfold State.candidate at h
  split at h
  · assumption
  · cases h

/-- Every operation keeps the link sound. -/
theorem State.Op.linkSound {s t : State} (o : State.Op pl tx s t) (h : s.linkSound) : t.linkSound := by
  obtain ⟨h1, h2, h3, h4, h5⟩ := h
  have h : s.linkSound := ⟨h1, h2, h3, h4, h5⟩
  have nofl {k : ArbiterState} (e : s.arbiter.state = k) (hk : k ≠ .flush) : s.arbiter.flight = none := by
    cases hf : s.arbiter.flight with
    | none => rfl
    | some f =>
      have := h1.1 (by simp [hf])
      rw [e] at this
      exact absurd this hk
  have nowk {k : ArbiterState} (e : s.arbiter.state = k) (hk : k ≠ .held) : s.port.wakeTimer = none := by
    cases hf : s.port.wakeTimer with
    | none => rfl
    | some f =>
      have := (h2 (by simp [hf])).1
      rw [e] at this
      exact absurd this hk
  have nolc {k : ArbiterState} (e : s.arbiter.state = k) (hk : k ≠ .held) : s.port.linkClearDue = none := by
    cases hf : s.port.linkClearDue with
    | none => rfl
    | some f =>
      have := h3 (by simp [hf])
      rw [e] at this
      exact absurd this hk
  have free (u : State) (hu : u.arbiter.state = if u.upstream.selectLow then .controller else .openLink)
      (hf : u.arbiter.flight = none) (hw : u.port.wakeTimer = none) (hl : u.port.linkClearDue = none) : u.linkSound := by
    unfold State.linkSound
    rw [hu, hf, hw, hl]
    cases u.upstream.selectLow <;> simp
  cases o with
  | selectFalls =>
    by_cases hs : s.upstream.selectLow = true
    · rw [show s.selectFalls = s from by simp [State.selectFalls, hs]]
      exact h
    · cases hr : s.ready with
      | true =>
        have hr' := hr
        simp only [State.ready, Bool.and_eq_true, Bool.or_eq_true, decide_eq_true_eq] at hr'
        have hk : s.arbiter.state ≠ .flush ∧ s.arbiter.state ≠ .held := by
          rcases hr'.2 with k | k <;> rw [k] <;> simp
        simp [State.linkSound, State.selectFalls, hs, hr, nofl rfl hk.1, nowk rfl hk.2, nolc rfl hk.2]
      | false =>
        have e : s.selectFalls.arbiter = s.arbiter ∧ s.selectFalls.port = s.port
            ∧ s.selectFalls.upstream.selectLow = true ∧ s.selectFalls.decoder.refused = true := by
          simp [State.selectFalls, hs, hr]
        unfold State.linkSound
        rw [e.1, e.2.1, e.2.2.1, e.2.2.2]
        exact ⟨h1, h2, h3, fun _ k => (by cases k), fun _ => rfl⟩
  | selectRises =>
    refine ⟨?_, fun k => ?_, fun k => ?_, ?_, ?_⟩
    · simp only [State.selectRises]
      split
      · rename_i hc
        rw [nofl hc (by simp)]
        simp
      · exact h1
    · have := h2 k
      simp [State.selectRises, this.1, this.2]
    · have := h3 k
      simp [State.selectRises, this]
    · intro k
      simp [State.selectRises] at k
    · intro k
      simp only [State.selectRises] at k
      split at k
      · cases k
      · rename_i hc
        exact absurd k hc
  | record d s hd => exact State.linkSound_congr (by simp [State.linkPart, hd]) h
  | wake _ hs hr =>
    have hc := h4 hs hr
    have hf := nofl hc (by simp)
    have hl := nolc hc (by simp)
    simp [State.linkSound, State.selectRises, State.wakes, hf, hl]
  | softRestart _ hf =>
    refine ⟨h1, h2, h3, fun hs hr => ?_, h5⟩
    simp only [State.softRestartNow, State.restartDecoder] at hr
    have hsel : s.upstream.selectLow = true := hs
    exact h4 hsel (by simpa [hsel] using hr)
  | startFlush m n _ hc hn =>
    have ho := (State.candidate_open hc).1
    have hw := nowk ho (by simp)
    have hl := nolc ho (by simp)
    have hsel : s.upstream.selectLow = true → s.decoder.refused = true := by
      intro k
      cases hr : s.decoder.refused with
      | true => rfl
      | false =>
        have := h4 k hr
        rw [ho] at this
        cases this
    unfold State.linkSound
    simp only [State.startFlush, State.onMotor_port, State.onMotor_upstream, State.onMotor_decoder, hw, hl]
    refine ⟨by simp, by simp, by simp, fun k j => ?_, by simp⟩
    rw [hsel k] at j
    cases j
  | endFlush f _ hf =>
    have ho := h1.1 (by simp [hf])
    have hw := nowk ho (by simp)
    have hl := nolc ho (by simp)
    refine free _ ?_ ?_ ?_ ?_
    · simp [State.endFlush, State.freeLink]
    · simp [State.endFlush]
    · simpa [State.endFlush] using hw
    · simpa [State.endFlush] using hl
  | windowExpires =>
    unfold State.windowExpires
    split
    · exact h
    · exact h
  | wakeExpires =>
    unfold State.wakeExpires
    split
    · rename_i hd
      have hw : s.port.wakeTimer.isSome = true := by
        cases hk : s.port.wakeTimer with
        | none => rw [hk] at hd; cases hd
        | some _ => rfl
      have hh := h2 hw
      exact free _ rfl (nofl hh.1 (by simp)) rfl hh.2
    · exact h
  | linkCleared =>
    unfold State.linkCleared
    split
    · rename_i hd
      have hw : s.port.linkClearDue.isSome = true := by
        cases hk : s.port.linkClearDue with
        | none => rw [hk] at hd; cases hd
        | some _ => rfl
      have hh := h3 hw
      refine free _ rfl (nofl hh (by simp)) ?_ rfl
      show s.port.wakeTimer = none
      cases hk : s.port.wakeTimer with
      | none => rfl
      | some _ =>
        have := (h2 (by simp [hk])).2
        rw [this] at hw
        cases hw
    · exact h
  | motor m =>
    exact State.linkSound_congr (by simp [State.linkPart]) h
  | _ => exact State.linkSound_congr rfl h

/-! ### The transaction in flight (R29, R159) -/

/-- Outside the commands of a transaction, an operation leaves the record and the upstream port while select is low. -/
theorem State.Op.stands {s t : State} (o : State.Op pl false s t) (hl : s.upstream.selectLow = true) :
    t.decoder = s.decoder ∧ t.upstream = s.upstream := by
  cases o <;> first
    | exact ⟨rfl, rfl⟩
    | simp [State.softRestartNow, State.restartDecoder, hl, State.startFlush, State.endFlush, State.windowExpires, State.wakeExpires,
        State.linkCleared]
      done
    | (unfold State.windowExpires; split <;> simp)
    | (unfold State.wakeExpires; split <;> simp)
    | (unfold State.linkCleared; split <;> simp)

/-- The same for a chain. -/
theorem State.Ops.stands {s t : State} (k : State.Ops pl false s t) (hl : s.upstream.selectLow = true) :
    t.decoder = s.decoder ∧ t.upstream = s.upstream := by
  induction k with
  | refl => exact ⟨rfl, rfl⟩
  | step _ o ih =>
    have := o.stands (by rw [ih.2]; exact hl)
    exact ⟨this.1.trans ih.1, this.2.trans ih.2⟩
/-- The same for what a command does. -/
theorem State.Run.stands {s t : State} (k : State.Run pl false s t) (hl : s.upstream.selectLow = true) :
    t.decoder = s.decoder ∧ t.upstream = s.upstream := by
  cases k with
  | ops k => exact k.stands hl
  | capture m n start data a k _ _ ht _ =>
    have h1 := k.stands hl
    have h2 := ht.stands (by rw [State.onMotor_upstream, h1.2]; exact hl)
    simp only [State.onMotor_decoder, State.onMotor_upstream] at h2
    exact ⟨h2.1.trans h1.1, h2.2.trans h1.2⟩

end Sys2Proof.Machine
end

