-- ==== Sys2Proof/Laws/Rings.lean ====
section
/-! SUPPORT. The ring counters: every operation on a motor keeps `MotorUnit.ringSound` and leaves a CLOSED half CLOSED
(R115, R127, R132). -/
namespace Sys2Proof.Machine

variable {pl tx : Bool}

/-- A half that holds the same frame, no further back than before: OPEN stays OPEN, CLOSED stays CLOSED, and a FINAL request
still means CLOSED. -/
def Half.Onward (h k : Half) : Prop :=
  k.taken = h.taken ∧ (h.state = .opened → k.state = .opened) ∧ (h.state = .closed → k.state = .closed)
    ∧ ((h.request = .finalFlush → h.state = .closed) → k.request = .finalFlush → k.state = .closed)

theorem Half.Onward.refl (h : Half) : h.Onward h := ⟨rfl, id, id, id⟩

theorem Half.Onward.trans {h k l : Half} (a : h.Onward k) (b : k.Onward l) : h.Onward l :=
  ⟨b.1.trans a.1, fun e => b.2.1 (a.2.1 e), fun e => b.2.2.1 (a.2.2.1 e), fun e => b.2.2.2 (a.2.2.2 e)⟩

/-- The same state and request. -/
theorem Half.Onward.same {h k : Half} (hs : k.state = h.state) (hr : k.request = h.request) : h.Onward k := by
  refine ⟨by simp [Half.taken, hs], by rw [hs]; exact id, by rw [hs]; exact id, by rw [hs, hr]; exact id⟩

theorem Half.raiseRequest_state (h : Half) : h.raiseRequest.state = h.state := by
  unfold Half.raiseRequest
  split
  · rfl
  · split
    · rfl
    · rfl
    · split <;> rfl
    · split <;> rfl

theorem Half.raiseRequest_onward (h : Half) : h.Onward h.raiseRequest := by
  have hs := h.raiseRequest_state
  refine ⟨by simp [Half.taken, hs], by rw [hs]; exact id, by rw [hs]; exact id, fun e => ?_⟩
  rw [hs]
  unfold Half.raiseRequest
  split
  · exact e
  · split
    · exact e
    · rename_i hc; exact fun _ => hc
    · split
      · intro k; cases k
      · exact e
    · split
      · intro k; cases k
      · exact e

theorem Half.settleClosing_onward (h : Half) : h.Onward h.settleClosing := by
  unfold Half.settleClosing
  split
  · rename_i hc
    refine ⟨by simp [Half.taken, hc.1], ?_, fun _ => rfl, fun _ _ => rfl⟩
    intro k
    rw [hc.1] at k
    cases k
  · exact .refl h

theorem Half.resolvePosition_onward (k : Nat) (r : Resolution) (h : Half) : h.Onward (h.resolvePosition k r) :=
  .trans (.trans (.same (k := { h with positions := h.positions.modify k (PositionRecord.resolve r) }) rfl rfl)
    (Half.settleClosing_onward _)) (Half.raiseRequest_onward _)

theorem Half.tripMissed_onward (h : Half) : h.Onward h.tripMissed := by
  unfold Half.tripMissed
  split
  · exact .refl h
  · exact .same rfl rfl
  · exact .trans (.trans (.same (k := h.missAll) rfl rfl) (Half.settleClosing_onward _)) (Half.raiseRequest_onward _)
  · exact .refl h

/-- A motor's rings stay sound, and its CLOSED halves CLOSED. -/
def MotorUnit.RingKept (u v : MotorUnit) : Prop :=
  v.ringSound ∧ ∀ n, (u.frames.half n).state = .closed → (v.frames.half n).state = .closed

/-- The counters and the depth are the same. -/
def MotorUnit.sameRing (u v : MotorUnit) : Prop :=
  v.settings.ringDepth = u.settings.ringDepth ∧ v.frames.assigned = u.frames.assigned
    ∧ v.frames.produced = u.frames.produced ∧ v.frames.consumed = u.frames.consumed

/-- Halves that go onward, under the same counters. -/
theorem MotorUnit.ringKept_onward {u v : MotorUnit} (hr : u.sameRing v)
    (hh : ∀ n, (u.frames.half n).Onward (v.frames.half n))
    (hf : ∀ f n, v.frames.openFrame = some f → f.storage = some n →
      ∃ g, u.frames.openFrame = some g ∧ g.storage = some n)
    (h : u.ringSound) : u.RingKept v := by
  obtain ⟨h1, h2, h3, h4, h5⟩ := h
  obtain ⟨r1, r2, r3, r4⟩ := hr
  have ht : v.frames.taken = u.frames.taken := by
    have a : v.frames.half0.taken = u.frames.half0.taken := (hh .half0).1
    have b : v.frames.half1.taken = u.frames.half1.taken := (hh .half1).1
    rw [FrameAssembler.taken, a, b]
    rfl
  have hfill : v.frames.fill = u.frames.fill := by simp [FrameAssembler.fill, r3, r4]
  refine ⟨⟨by rw [r1]; exact h1, by rw [r2, r3, ht]; exact h2, by rw [hfill, ht, r1]; exact h3, fun n => ?_, fun f n e k => ?_⟩,
    fun n => (hh n).2.2.1⟩
  · exact (hh n).2.2.2 (h4 n)
  · obtain ⟨g, hg, hk⟩ := hf f n e k
    exact (hh n).2.1 (h5 g n hg hk)

/-- The frames and the depth are the same. -/
theorem MotorUnit.ringKept_same {u v : MotorUnit} (hd : v.settings.ringDepth = u.settings.ringDepth)
    (hf : v.frames = u.frames) (h : u.ringSound) : u.RingKept v :=
  MotorUnit.ringKept_onward ⟨hd, by rw [hf], by rw [hf], by rw [hf]⟩ (fun n => by rw [hf]; exact .refl _)
    (fun f n e k => ⟨f, by rw [← hf]; exact e, k⟩) h

theorem FrameAssembler.half_onHalf (a : FrameAssembler) (n k : HalfName) (f : Half → Half) :
    (a.onHalf n f).half k = if k = n then f (a.half k) else a.half k := by
  cases n <;> cases k <;> rfl

theorem FrameAssembler.onHalf_rest (a : FrameAssembler) (n : HalfName) (f : Half → Half) :
    (a.onHalf n f).openFrame = a.openFrame ∧ (a.onHalf n f).nextSequence = a.nextSequence
      ∧ (a.onHalf n f).assigned = a.assigned ∧ (a.onHalf n f).produced = a.produced
      ∧ (a.onHalf n f).consumed = a.consumed ∧ (a.onHalf n f).dropRun = a.dropRun := by
  cases n <;> exact ⟨rfl, rfl, rfl, rfl, rfl, rfl⟩

/-- One half goes onward. -/
theorem MotorUnit.ringKept_onHalf {u v : MotorUnit} (n : HalfName) (f : Half → Half)
    (hd : v.settings.ringDepth = u.settings.ringDepth) (hv : v.frames = u.frames.onHalf n f)
    (ho : (u.frames.half n).Onward (f (u.frames.half n))) (h : u.ringSound) : u.RingKept v := by
  have r := u.frames.onHalf_rest n f
  refine MotorUnit.ringKept_onward ⟨hd, by rw [hv, r.2.2.1], by rw [hv, r.2.2.2.1], by rw [hv, r.2.2.2.2.1]⟩
    (fun k => ?_) (fun g k e s => ⟨g, by rw [hv, r.1] at e; exact e, s⟩) h
  rw [hv, FrameAssembler.half_onHalf]
  split
  · rename_i e; subst e; exact ho
  · exact .refl _

/-- One half changes, but neither its state nor its request. -/
theorem MotorUnit.ringKept_modify {u : MotorUnit} (n : HalfName) (f : Half → Half) (hs : ∀ h, (f h).state = h.state)
    (hr : ∀ h, (f h).request = h.request) (h : u.ringSound) : u.RingKept (u.onFrames fun a => a.onHalf n f) :=
  MotorUnit.ringKept_onHalf n f rfl rfl (.same (hs _) (hr _)) h

theorem MotorUnit.storeEntry_ringKept {u : MotorUnit} (q : Short) (p : Option Nat) (r : Resolution) (h : u.ringSound) :
    u.RingKept (u.onFrames (FrameAssembler.storeEntry q p r)) := by
  unfold FrameAssembler.storeEntry
  cases p with
  | none => exact MotorUnit.ringKept_same rfl rfl h
  | some k =>
    cases hn : u.frames.halfOf q with
    | none => exact MotorUnit.ringKept_same rfl (by simp [MotorUnit.onFrames, hn]) h
    | some n =>
      exact MotorUnit.ringKept_onHalf n _ rfl (by simp [MotorUnit.onFrames, hn]) (Half.resolvePosition_onward k r _) h

theorem MotorUnit.closeFrame_rings (now : Instant) (flag : CloseFlag) (u : MotorUnit) (h : u.ringSound) :
    u.RingKept (u.closeFrame now flag) := by
  unfold MotorUnit.closeFrame
  cases hf : u.frames.openFrame with
  | none => exact MotorUnit.ringKept_same rfl rfl h
  | some f =>
    dsimp only
    cases hs : f.storage with
    | none =>
      refine MotorUnit.ringKept_onward ⟨rfl, rfl, rfl, rfl⟩ (fun n => by cases n <;> exact .refl _) ?_ h
      intro g n e
      cases e
    | some n =>
      obtain ⟨h1, h2, h3, h4, h5⟩ := h
      have ho := h5 f n hf hs
      have hc : (Half.close flag f.full (u.frames.half n)).state ≠ .free
          ∧ ((Half.close flag f.full (u.frames.half n)).request = .finalFlush →
            (Half.close flag f.full (u.frames.half n)).state = .closed) := by
        have hr : (u.frames.half n).request ≠ .finalFlush := fun k => by
          have := h4 n k
          rw [ho] at this
          cases this
        unfold Half.close
        rw [Half.raiseRequest_state]
        refine ⟨?_, ?_⟩
        · dsimp only
          split <;> simp
        · intro k
          have := (Half.raiseRequest_onward { u.frames.half n with
            state := if (u.frames.half n).allResolved then .closed else .closing, closeFlag := flag, full := f.full }).2.2.2
            (fun j => absurd j hr) k
          rw [Half.raiseRequest_state] at this
          exact this
      have ht : (Half.close flag f.full (u.frames.half n)).taken = (u.frames.half n).taken := by
        simp [Half.taken, hc.1, ho]
      cases n
      · have hh : u.frames.half .half0 = u.frames.half0 := rfl
        rw [hh] at ht hc ho
        refine ⟨⟨h1, ?_, ?_, ?_, ?_⟩, ?_⟩
        · show (u.frames.assigned - u.frames.produced).toNat = (Half.close flag f.full u.frames.half0).taken + u.frames.half1.taken
          rw [ht]; exact h2
        · show u.frames.fill + ((Half.close flag f.full u.frames.half0).taken + u.frames.half1.taken) ≤ _
          rw [ht]; exact h3
        · intro k
          cases k
          · exact hc.2
          · exact h4 .half1
        · intro g k e
          cases e
        · intro k e
          cases k
          · have e' : u.frames.half0.state = .closed := e
            rw [ho] at e'
            cases e'
          · exact e
      · have hh : u.frames.half .half1 = u.frames.half1 := rfl
        rw [hh] at ht hc ho
        refine ⟨⟨h1, ?_, ?_, ?_, ?_⟩, ?_⟩
        · show (u.frames.assigned - u.frames.produced).toNat = u.frames.half0.taken + (Half.close flag f.full u.frames.half1).taken
          rw [ht]; exact h2
        · show u.frames.fill + (u.frames.half0.taken + (Half.close flag f.full u.frames.half1).taken) ≤ _
          rw [ht]; exact h3
        · intro k
          cases k
          · exact h4 .half0
          · exact hc.2
        · intro g k e
          cases e
        · intro k e
          cases k
          · exact e
          · have e' : u.frames.half1.state = .closed := e
            rw [ho] at e'
            cases e'

theorem MotorUnit.RingKept.trans {u v w : MotorUnit} (a : u.RingKept v) (b : v.RingKept w) : u.RingKept w :=
  ⟨b.1, fun n e => b.2 n (a.2 n e)⟩

theorem MotorUnit.tripFrames_rings (now : Instant) (u : MotorUnit) (h : u.ringSound) : u.RingKept (u.tripFrames now) := by
  have a : u.RingKept
      (u.onFrames fun a => { a with half0 := a.half0.tripMissed, half1 := a.half1.tripMissed }) := by
    refine MotorUnit.ringKept_onward ⟨rfl, rfl, rfl, rfl⟩ (fun n => ?_) (fun f n e k => ⟨f, e, k⟩) h
    cases n <;> exact Half.tripMissed_onward _
  exact a.trans (MotorUnit.closeFrame_rings now .tripped _ a.1)

theorem MotorUnit.beginFrame_frames (u : MotorUnit) :
    u.beginFrame.settings = u.settings ∧ u.beginFrame.frames.half0 = u.frames.half0
      ∧ u.beginFrame.frames.half1 = u.frames.half1 ∧ u.beginFrame.frames.assigned = u.frames.assigned
      ∧ u.beginFrame.frames.produced = u.frames.produced ∧ u.beginFrame.frames.consumed = u.frames.consumed
      ∧ u.beginFrame.frames.nextSequence = u.frames.nextSequence + 1
      ∧ u.beginFrame.frames.dropRun = u.frames.dropRun
      ∧ u.beginFrame.marks = { u.marks with unplacedLogged := false, fullLogged := false }
      ∧ ∃ f, u.beginFrame.frames.openFrame = some f ∧ f.storage = none ∧ f.sequence = u.frames.nextSequence
        ∧ f.periodsCovered = 1 ∧ f.countAtOpen = u.channel.periodCount ∧ f.closeFlag = .none ∧ f.ringSlot = none := by
  unfold MotorUnit.beginFrame MotorUnit.newFrame
  cases u.activeSlot with
  | none => simp
  | some n => cases n <;> simp [MotorUnit.onSlot, MotorUnit.setSlot]

theorem MotorUnit.beginFrame_rings (u : MotorUnit) (h : u.ringSound) : u.RingKept u.beginFrame := by
  obtain ⟨h1, h2, h3, h4, h5, h6, _, _, _, f, hf, hs, _⟩ := u.beginFrame_frames
  refine MotorUnit.ringKept_onward ⟨by rw [h1], h4, h5, h6⟩ (fun n => ?_) ?_ h
  · cases n
    · show u.frames.half0.Onward u.beginFrame.frames.half0
      rw [h2]; exact .refl _
    · show u.frames.half1.Onward u.beginFrame.frames.half1
      rw [h3]; exact .refl _
  · intro g n e k
    rw [hf] at e
    cases e
    rw [hs] at k
    cases k

/-- The half that a frame takes is FREE. -/
theorem FrameAssembler.freeHalf_state {a : FrameAssembler} {n : HalfName} (h : a.freeHalf = some n) :
    (a.half n).state = .free ∧ (n = .half1 → a.half0.state ≠ .free) := by
  unfold FrameAssembler.freeHalf at h
  split at h
  · rename_i k; cases h; exact ⟨k, fun e => by cases e⟩
  · split at h
    · rename_i k j; cases h; exact ⟨j, fun _ => k⟩
    · cases h

/-- Taking a FREE half, where the ring then still has its room. -/
theorem MotorUnit.takeHalf_rings {u : MotorUnit} {n : HalfName} (h : u.ringSound) (hn : (u.frames.half n).state = .free)
    (hr : u.frames.fill + u.frames.taken < u.settings.ringDepth) : u.RingKept (u.takeHalf n) := by
  unfold MotorUnit.takeHalf
  dsimp only
  cases hf : u.frames.openFrame with
  | none => exact MotorUnit.ringKept_same rfl rfl h
  | some f =>
    obtain ⟨h1, h2, h3, h4, h5⟩ := h
    have ht : u.frames.taken ≤ 1 := by
      unfold FrameAssembler.taken Half.taken
      cases n
      · have hn' : u.frames.half0.state = .free := hn
        rw [hn']
        simp only [if_true]
        split <;> omega
      · have hn' : u.frames.half1.state = .free := hn
        rw [hn']
        simp only [if_true]
        split <;> omega
    have hlt := u.frames.assigned.isLt
    have hlp := u.frames.produced.isLt
    have ha : (u.frames.assigned + 1 - u.frames.produced).toNat = u.frames.taken + 1 := by
      rw [BitVec.toNat_sub] at h2 ⊢
      rw [BitVec.toNat_add, show BitVec.toNat (1 : BitVec 32) = 1 from rfl]
      omega
    cases n
    · have hn' : u.frames.half0.state = .free := hn
      have ht0 : u.frames.half0.taken = 0 := by simp [Half.taken, hn']
      have htk : u.frames.taken = u.frames.half1.taken := by simp [FrameAssembler.taken, ht0]
      refine ⟨⟨h1, ?_, ?_, ?_, ?_⟩, ?_⟩
      · show (u.frames.assigned + 1 - u.frames.produced).toNat = 1 + u.frames.half1.taken
        rw [ha, htk]; omega
      · show u.frames.fill + (1 + u.frames.half1.taken) ≤ u.settings.ringDepth
        rw [htk] at hr; omega
      · intro k
        cases k
        · intro j
          simp [FrameAssembler.half, FrameAssembler.setHalf, OpenFrame.newHalf, Half.reset] at j
        · exact h4 .half1
      · intro g k e s
        simp only [Option.some.injEq] at e
        subst e
        simp only [Option.some.injEq] at s
        subst s
        rfl
      · intro k e
        cases k
        · have e' : u.frames.half0.state = .closed := e
          rw [hn'] at e'
          cases e'
        · exact e
    · have hn' : u.frames.half1.state = .free := hn
      have ht0 : u.frames.half1.taken = 0 := by simp [Half.taken, hn']
      have htk : u.frames.taken = u.frames.half0.taken := by simp [FrameAssembler.taken, ht0]
      refine ⟨⟨h1, ?_, ?_, ?_, ?_⟩, ?_⟩
      · show (u.frames.assigned + 1 - u.frames.produced).toNat = u.frames.half0.taken + 1
        rw [ha, htk]
      · show u.frames.fill + (u.frames.half0.taken + 1) ≤ u.settings.ringDepth
        rw [htk] at hr; omega
      · intro k
        cases k
        · exact h4 .half0
        · intro j
          simp [FrameAssembler.half, FrameAssembler.setHalf, OpenFrame.newHalf, Half.reset] at j
      · intro g k e s
        simp only [Option.some.injEq] at e
        subst e
        simp only [Option.some.injEq] at s
        subst s
        rfl
      · intro k e
        cases k
        · exact e
        · have e' : u.frames.half1.state = .closed := e
          rw [hn'] at e'
          cases e'

/-- Assigned − consumed is the fill and the halves taken. -/
theorem MotorUnit.ringSound.used {u : MotorUnit} (h : u.ringSound) :
    (u.frames.assigned - u.frames.consumed).toNat = u.frames.fill + u.frames.taken := by
  obtain ⟨h1, h2, h3, _, _⟩ := h
  have := u.frames.assigned.isLt
  have := u.frames.produced.isLt
  have := u.frames.consumed.isLt
  unfold FrameAssembler.fill at h3 ⊢
  rw [BitVec.toNat_sub] at h2 h3 ⊢
  rw [BitVec.toNat_sub]
  omega

theorem MotorUnit.overwrite_rings {u : MotorUnit} {n : HalfName} (now : Instant) (h : u.ringSound)
    (hn : u.frames.freeHalf = some n) (hr : u.ringHasRoom = false) : u.RingKept ((u.overwriteOldest now).takeHalf n) := by
  have hu := h.used
  have hfree := (FrameAssembler.freeHalf_state hn).1
  have hh := h
  obtain ⟨h1, h2, h3, h4, h5⟩ := h
  have ht : u.frames.taken ≤ 1 := by
    unfold FrameAssembler.taken Half.taken
    cases n
    · have hn' : u.frames.half0.state = .free := hfree
      rw [hn']
      simp only [if_true]
      split <;> omega
    · have hn' : u.frames.half1.state = .free := hfree
      rw [hn']
      simp only [if_true]
      split <;> omega
  simp only [MotorUnit.ringHasRoom, decide_eq_false_iff_not, Nat.not_lt] at hr
  have hfill : (u.overwriteOldest now).frames.fill + 1 = u.frames.fill := by
    show (u.frames.produced - (u.frames.consumed + 1)).toNat + 1 = (u.frames.produced - u.frames.consumed).toNat
    unfold FrameAssembler.fill at h3 hu
    have := u.frames.produced.isLt
    have := u.frames.consumed.isLt
    have hpos : 0 < (u.frames.produced - u.frames.consumed).toNat := by omega
    rw [BitVec.toNat_sub] at hpos ⊢
    rw [BitVec.toNat_sub, BitVec.toNat_add, show BitVec.toNat (1 : BitVec 32) = 1 from rfl]
    omega
  have hs : (u.overwriteOldest now).ringSound := by
    refine ⟨h1, h2, ?_, h4, h5⟩
    show (u.overwriteOldest now).frames.fill + u.frames.taken ≤ u.settings.ringDepth
    omega
  have a : u.RingKept (u.overwriteOldest now) := ⟨hs, fun n e => by cases n <;> exact e⟩
  refine a.trans (MotorUnit.takeHalf_rings hs hfree ?_)
  show (u.overwriteOldest now).frames.fill + u.frames.taken < u.settings.ringDepth
  omega

theorem MotorUnit.consume_rings {u : MotorUnit} (now : Instant) (v : Word) (h : u.ringSound)
    (hv : u.frames.mayConsume v = true) :
    u.RingKept ((u.onFrames fun a => { a with consumed := v }).countersChanged now) := by
  obtain ⟨h1, h2, h3, h4, h5⟩ := h
  refine ⟨⟨h1, h2, ?_, h4, h5⟩, fun n e => by cases n <;> exact e⟩
  simp only [FrameAssembler.mayConsume, decide_eq_true_eq] at hv
  show (u.frames.produced - v).toNat + u.frames.taken ≤ u.settings.ringDepth
  unfold FrameAssembler.fill at h3
  have := u.frames.produced.isLt
  have := u.frames.consumed.isLt
  have := v.isLt
  rw [BitVec.toNat_sub] at hv h3 ⊢
  rw [BitVec.toNat_sub] at hv
  omega

/-- With both halves FREE the counters may become 0 and the depth another. -/
theorem MotorUnit.zeroCounters_rings {u v : MotorUnit} (h : u.ringSound)
    (hb : u.frames.bothFree = true) (hd : 2 ≤ v.settings.ringDepth ∧ v.settings.ringDepth ≤ 256)
    (hf : v.frames = { u.frames with assigned := 0, produced := 0, consumed := 0 }) : u.RingKept v := by
  simp only [FrameAssembler.bothFree, Bool.and_eq_true, decide_eq_true_eq] at hb
  obtain ⟨h1, h2, h3, h4, h5⟩ := h
  have ht : v.frames.taken = 0 := by
    rw [hf]
    simp [FrameAssembler.taken, Half.taken, hb.1, hb.2]
  refine ⟨⟨hd, ?_, ?_, ?_, ?_⟩, ?_⟩
  · rw [ht, hf]
    simp
  · rw [ht, hf]
    simp [FrameAssembler.fill]
  · intro n e
    rw [hf] at e ⊢
    cases n
    · exact h4 .half0 e
    · exact h4 .half1 e
  · intro g n e k
    rw [hf] at e ⊢
    have := h5 g n e k
    cases n <;> exact this
  · intro n e
    rw [hf]
    cases n <;> exact e

theorem MotorUnit.setSettings_rings {now : Instant} {u : MotorUnit} {w : MotorWord} {v : Word} {st : MotorSettings}
    (h : u.ringSound) (hn : u.newSettings w v = some st) : u.RingKept ((u.setSettings st).afterSetting now w) := by
  have same (hd : st.ringDepth = u.settings.ringDepth) (hf : ((u.setSettings st).afterSetting now w).frames = u.frames)
      (hs : ((u.setSettings st).afterSetting now w).settings = st) :
      u.RingKept ((u.setSettings st).afterSetting now w) :=
    MotorUnit.ringKept_same (by rw [hs]; exact hd) hf h
  have zero (hw : w = .ringBase ∨ w = .ringStride ∨ w = .ringDepth) (hb : u.frames.bothFree = true)
      (hd : 2 ≤ st.ringDepth ∧ st.ringDepth ≤ 256) : u.RingKept ((u.setSettings st).afterSetting now w) := by
    refine MotorUnit.zeroCounters_rings h hb ?_ ?_
    · rcases hw with rfl | rfl | rfl <;> exact hd
    · rcases hw with rfl | rfl | rfl <;> rfl
  have hdp := h.1
  unfold MotorUnit.newSettings at hn
  cases w <;> simp only [Option.ite_none_right_eq_some, Option.some.injEq, Option.map_eq_some_iff, reduceCtorEq] at hn
  case ringBase => obtain ⟨hc, rfl⟩ := hn; exact zero (by simp) hc.2.2 hdp
  case ringStride => obtain ⟨hc, rfl⟩ := hn; exact zero (by simp) hc.2 hdp
  case ringDepth => obtain ⟨hc, rfl⟩ := hn; exact zero (by simp) hc.2.2.2 ⟨hc.1, hc.2.1⟩
  case frameDone => subst hn; exact same rfl rfl rfl
  case sectorMap k => obtain ⟨e, _, rfl⟩ := hn; exact same rfl rfl rfl
  case safeState =>
    split at hn
    · cases hn; exact same rfl rfl rfl
    · split at hn
      · cases hn; exact same rfl rfl rfl
      · cases hn
  case ringPolicy =>
    split at hn
    · cases hn; exact same rfl rfl rfl
    · split at hn
      · cases hn; exact same rfl rfl rfl
      · cases hn
  all_goals obtain ⟨_, rfl⟩ := hn; exact same rfl rfl rfl

/-! ### Every operation -/

theorem MotorUnit.setLegs_frames (now b : Instant) (u : MotorUnit) :
    (u.setLegs now b).frames = u.frames ∧ (u.setLegs now b).settings = u.settings
      ∧ (u.setLegs now b).attention = u.attention ∧ (u.setLegs now b).slotA = u.slotA
      ∧ (u.setLegs now b).slotB = u.slotB ∧ (u.setLegs now b).tracker = u.tracker
      ∧ (u.setLegs now b).hallCode = u.hallCode ∧ (u.setLegs now b).marks = u.marks := by
  unfold MotorUnit.setLegs
  split
  · simp
  · split <;> exact ⟨rfl, rfl, rfl, rfl, rfl, rfl, rfl, rfl⟩

theorem MotorUnit.toSafeState_rest (now : Instant) (u : MotorUnit) :
    (u.toSafeState now).frames = u.frames ∧ (u.toSafeState now).settings = u.settings
      ∧ (u.toSafeState now).attention = u.attention ∧ (u.toSafeState now).slotA = u.slotA
      ∧ (u.toSafeState now).slotB = u.slotB ∧ (u.toSafeState now).tracker = u.tracker
      ∧ (u.toSafeState now).hallCode = u.hallCode ∧ (u.toSafeState now).marks = u.marks := by
  unfold MotorUnit.toSafeState
  split <;> exact ⟨rfl, rfl, rfl, rfl, rfl, rfl, rfl, rfl⟩

theorem MotorUnit.trip_rings (now : Instant) (c : TripCause) (i : Short) {u : MotorUnit} (h : u.ringSound) :
    u.RingKept (u.trip now c i) := by
  have e := u.toSafeState_rest now
  have a : u.RingKept ((u.toSafeState now).stopCarrier.onTracker Tracker.leaveHall) :=
    MotorUnit.ringKept_same (by show (u.toSafeState now).settings.ringDepth = _; rw [e.2.1]) e.1 h
  have b := MotorUnit.tripFrames_rings now _ a.1
  exact (a.trans b).trans (MotorUnit.ringKept_same rfl rfl b.1)

theorem MotorUnit.stoppingBoundary_rings (now : Instant) {u : MotorUnit} (h : u.ringSound) :
    u.RingKept (u.stoppingBoundary now) := by
  have a : u.RingKept (u.setState .stopping) := MotorUnit.ringKept_same rfl rfl h
  have b := MotorUnit.closeFrame_rings now .stopped _ a.1
  have c := (a.trans b).trans (MotorUnit.ringKept_same (v := (u.setState .stopping).stopRun now) rfl rfl b.1)
  unfold MotorUnit.stoppingBoundary
  dsimp only
  split
  · exact c.trans (MotorUnit.ringKept_same rfl rfl c.1)
  · exact c

/-- Every operation on a motor keeps its rings. -/
theorem MotorUnit.Op.rings {now : Instant} {u v : MotorUnit} (o : MotorUnit.Op now u v) (h : u.ringSound) :
    u.RingKept v := by
  cases o with
  | storeEntry q p r => exact MotorUnit.storeEntry_ringKept q p r h
  | givePosition step q =>
    unfold MotorUnit.givePosition
    split
    · exact MotorUnit.ringKept_same rfl rfl h
    · exact MotorUnit.ringKept_modify _ _ (fun _ => rfl) (fun _ => rfl) h
  | markSlid q p b =>
    unfold MotorUnit.markSlid
    split
    · exact MotorUnit.ringKept_modify _ _ (fun _ => rfl) (fun _ => rfl) h
    · exact MotorUnit.ringKept_same rfl rfl h
  | openRecord f _ hf =>
    refine MotorUnit.ringKept_onward ⟨rfl, rfl, rfl, rfl⟩ (fun n => by cases n <;> exact .refl _) ?_ h
    intro g n e k
    simp only [MotorUnit.onFrames, FrameAssembler.onOpenFrame, Option.map_eq_some_iff] at e
    obtain ⟨g0, hg, rfl⟩ := e
    exact ⟨g0, hg, by rw [← hf g0]; exact k⟩
  | beginFrame => exact u.beginFrame_rings h
  | takeHalf n _ hn hr =>
    refine MotorUnit.takeHalf_rings h (FrameAssembler.freeHalf_state hn).1 ?_
    have := h.used
    simp only [MotorUnit.ringHasRoom, decide_eq_true_eq] at hr
    omega
  | overwrite n _ hn hr => exact MotorUnit.overwrite_rings now h hn hr
  | consume v _ hv => exact MotorUnit.consume_rings now v h hv
  | closeFrame f => exact MotorUnit.closeFrame_rings now f u h
  | trip c i => exact MotorUnit.trip_rings now c i h
  | setLegs b =>
    have e := u.setLegs_frames now b
    exact MotorUnit.ringKept_same (by rw [e.2.1]) e.1 h
  | stoppingBoundary => exact MotorUnit.stoppingBoundary_rings now h
  | settings w v st _ _ hn => exact MotorUnit.setSettings_rings h hn
  | refreshRoles =>
    unfold MotorUnit.refreshRoles
    split <;> exact MotorUnit.ringKept_same rfl rfl h
  | gateEdge n =>
    unfold MotorUnit.gateEdge
    split
    · split <;> exact MotorUnit.ringKept_same rfl rfl h
    · exact MotorUnit.ringKept_same rfl rfl h
  | deadTimeEnds n =>
    unfold MotorUnit.deadTimeEnds
    split <;> exact MotorUnit.ringKept_same rfl rfl h
  | begin n => cases n <;> exact MotorUnit.ringKept_same rfl rfl h
  | activate n => cases n <;> exact MotorUnit.ringKept_same rfl rfl h
  | stop =>
    unfold MotorUnit.stop
    split <;> exact MotorUnit.ringKept_same rfl rfl h
  | completeStop =>
    unfold MotorUnit.completeStop
    split <;> exact MotorUnit.ringKept_same rfl rfl h
  | pend n => cases n <;> exact MotorUnit.ringKept_same rfl rfl h
  | retag n => cases n <;> exact MotorUnit.ringKept_same rfl rfl h
  | cancel n => cases n <;> exact MotorUnit.ringKept_same rfl rfl h
  | dropRun =>
    refine MotorUnit.ringKept_onward ⟨rfl, rfl, rfl, rfl⟩ (fun n => ?_) (fun f n e k => ⟨f, e, k⟩) h
    cases n <;> exact .refl _
  | _ => exact MotorUnit.ringKept_same rfl rfl h

/-- A burst's start takes the request of its half. -/
theorem MotorUnit.startBurst_rings (n : HalfName) {u : MotorUnit} (h : u.ringSound) :
    u.RingKept (u.onFrames fun a => a.onHalf n Half.startBurst) := by
  refine MotorUnit.ringKept_onHalf n _ rfl rfl ?_ h
  exact ⟨rfl, id, id, fun _ k => by cases k⟩

/-- A burst's completion; a final one frees its CLOSED half and raises produced. -/
theorem MotorUnit.flushed_rings (now : Instant) (f : Flush) {u : MotorUnit} (h : u.ringSound)
    (hc : f.final = true → (u.frames.half f.half).state = .closed) : (MotorUnit.flushed now f u).ringSound := by
  have a : u.RingKept (u.onFrames fun a => a.onHalf f.half (Half.endBurst f.opensFrame f.entries)) :=
    MotorUnit.ringKept_onHalf f.half _ rfl rfl (.same rfl rfl) h
  unfold MotorUnit.flushed
  dsimp only
  split
  · rename_i hf
    have hcl := a.2 _ (hc hf)
    generalize u.onFrames (fun a => a.onHalf f.half (Half.endBurst f.opensFrame f.entries)) = w at a hcl
    obtain ⟨h1, h2, h3, h4, h5⟩ := a.1
    have := w.frames.assigned.isLt
    have := w.frames.produced.isLt
    have := w.frames.consumed.isLt
    have key : ∀ v : MotorUnit, v.settings.ringDepth = w.settings.ringDepth →
        v.frames = { w.frames.setHalf f.half Half.reset with produced := w.frames.produced + 1 } → v.ringSound := by
      intro v hd hv
      have ht : v.frames.taken + 1 = w.frames.taken := by
        rw [hv]
        unfold FrameAssembler.taken Half.taken
        generalize hk : f.half = k at hcl
        cases k
        · have hcl' : w.frames.half0.state = .closed := hcl
          simp [FrameAssembler.setHalf, Half.reset, hcl', Nat.add_comm]
          rfl
        · have hcl' : w.frames.half1.state = .closed := hcl
          simp [FrameAssembler.setHalf, Half.reset, hcl']
          rfl
      have hle : w.frames.taken ≤ 2 := by
        unfold FrameAssembler.taken Half.taken
        split <;> split <;> omega
      have hp : v.frames.produced = w.frames.produced + 1 := by rw [hv]
      have ha : v.frames.assigned = w.frames.assigned := by rw [hv]; cases f.half <;> rfl
      have hco : v.frames.consumed = w.frames.consumed := by rw [hv]; cases f.half <;> rfl
      have ho : v.frames.openFrame = w.frames.openFrame := by rw [hv]; cases f.half <;> rfl
      have hh : ∀ n, v.frames.half n = if n = f.half then Half.reset else w.frames.half n := by
        intro n
        rw [hv]
        cases f.half <;> cases n <;> rfl
      refine ⟨by rw [hd]; exact h1, ?_, ?_, ?_, ?_⟩
      · rw [hp, ha]
        rw [BitVec.toNat_sub] at h2 ⊢
        rw [BitVec.toNat_add, show BitVec.toNat (1 : BitVec 32) = 1 from rfl]
        omega
      · rw [hd]
        unfold FrameAssembler.fill at h3 ⊢
        rw [hp, hco]
        rw [BitVec.toNat_sub] at h3 ⊢
        rw [BitVec.toNat_add, show BitVec.toNat (1 : BitVec 32) = 1 from rfl]
        omega
      · intro n
        rw [hh]
        split
        · intro k; cases k
        · exact h4 n
      · intro g n e k
        rw [ho] at e
        have := h5 g n e k
        rw [hh]
        split
        · rename_i hn
          rw [hn, hcl] at this
          cases this
        · exact this
    have c : ∀ v : MotorUnit, v.completeStop.settings = v.settings ∧ v.completeStop.frames = v.frames := by
      intro v
      unfold MotorUnit.completeStop
      split <;> exact ⟨rfl, rfl⟩
    unfold MotorUnit.finalFlushed
    dsimp only
    exact key _ (by rw [(c _).1]; rfl) (by rw [(c _).2]; rfl)
  · generalize u.onFrames (fun a => a.onHalf f.half (Half.endBurst f.opensFrame f.entries)) = w at a
    exact (MotorUnit.ringKept_onHalf (u := w) (v := w.onFrames fun a => a.onHalf f.half Half.raiseRequest) f.half
      Half.raiseRequest rfl rfl (Half.raiseRequest_onward _) a.1).1

theorem MotorUnit.softRestart_rings (now : Instant) {u : MotorUnit} (h : u.ringSound) : (u.softRestart now).ringSound := by
  refine ⟨h.1, ?_, ?_, ?_, ?_⟩
  · simp [MotorUnit.softRestart, FrameAssembler.reset, FrameAssembler.taken, Half.taken, Half.reset]
  · simp [MotorUnit.softRestart, FrameAssembler.reset, FrameAssembler.taken, Half.taken, Half.reset, FrameAssembler.fill]
  · intro n k
    cases n <;> cases k
  · intro f n k
    cases k

/-- The half that a motor presents, presents a request. -/
theorem FrameAssembler.presented_request {a : FrameAssembler} {n : HalfName} (h : a.presented = some n) :
    (a.half n).request ≠ .none := by
  unfold FrameAssembler.presented at h
  split at h
  · cases h
  · rename_i h0 h1; cases h; simpa [FrameAssembler.half] using h0
  · rename_i h0 h1; cases h; simpa [FrameAssembler.half] using h1
  · rename_i h0 h1
    split at h
    · cases h; simpa [FrameAssembler.half] using h1
    · cases h; simpa [FrameAssembler.half] using h0

/-- Every operation keeps the rings sound. -/
theorem State.Op.ringsSound {s t : State} (o : State.Op pl tx s t) (h : s.ringsSound) : t.ringsSound := by
  obtain ⟨hl, hm, hf⟩ := h
  have hl' := o.linkSound hl
  have flight {t : State} (hm' : ∀ m, t.motor m = s.motor m) (hfl : t.arbiter.flight = s.arbiter.flight)
      (hl' : t.linkSound) : t.ringsSound :=
    ⟨hl', fun m => by rw [hm']; exact hm m, fun f e k => by rw [hm']; rw [hfl] at e; exact hf f e k⟩
  cases o with
  | motor m _ o =>
    have r := o.rings (hm m)
    refine ⟨hl', fun k => ?_, fun f e k => ?_⟩
    · rw [State.motor_setMotor]
      split
      · exact r.1
      · exact hm k
    · rw [State.setMotor_arbiter] at e
      have := hf f e k
      rw [State.motor_setMotor]
      split
      · rename_i hk
        rw [hk] at this
        exact r.2 _ this
      · exact this
  | softRestart _ hn =>
    refine ⟨hl', fun m => ?_, fun f e => ?_⟩
    · have : (s.softRestartNow).motor m = (s.motor m).softRestart s.timebase := by cases m <;> rfl
      rw [this]
      exact MotorUnit.softRestart_rings _ (hm m)
    · have e' : s.arbiter.flight = some f := e
      rw [hn] at e'
      cases e'
  | startFlush m n _ hc hn =>
    have em : ∀ k, (s.startFlush m n).motor k =
        (s.onMotor m (MotorUnit.onFrames (f := fun a => a.onHalf n Half.startBurst))).motor k := by
      intro k; cases k <;> rfl
    have r := MotorUnit.startBurst_rings n (hm m)
    refine ⟨hl', fun k => ?_, fun f e k => ?_⟩
    · rw [em, State.motor_onMotor]
      split
      · rename_i hk; subst hk; exact r.1
      · exact hm k
    · have e' : some ((s.motor m).flushOf m n s.port.repeatSet s.timebase) = some f := e
      simp only [Option.some.injEq] at e'
      subst e'
      have hr : ((s.motor m).frames.half n).request = .finalFlush := by
        simpa [MotorUnit.flushOf] using k
      have hcl := (hm m).2.2.2.1 n hr
      show (((s.startFlush m n).motor m).frames.half n).state = .closed
      rw [em, State.motor_onMotor_self]
      exact r.2 n hcl
  | endFlush f _ hn =>
    refine ⟨hl', fun k => ?_, fun g e => ?_⟩
    · unfold State.endFlush
      rw [State.motor_onMotor]
      split
      · rename_i hk
        have : (s.motor k).ringSound := hm k
        refine MotorUnit.flushed_rings _ f ?_ ?_
        · cases k <;> exact this
        · intro hfin
          have := hf f hn hfin
          rw [← hk] at this
          cases k <;> exact this
      · have := hm k
        cases k <;> exact this
    · have e' : (none : Option Flush) = some g := by
        have : (s.endFlush f).arbiter.flight = none := by simp [State.endFlush]
        rw [← this]; exact e
      cases e'
  | selectFalls =>
    refine flight (fun m => ?_) ?_ hl'
    · unfold State.selectFalls; split <;> cases m <;> rfl
    · unfold State.selectFalls
      split
      · rfl
      · dsimp only
        split <;> rfl
  | selectRises =>
    refine flight (fun m => by cases m <;> rfl) ?_ hl'
    simp only [State.selectRises]
    split <;> rfl
  | wake => exact flight (fun m => by cases m <;> rfl) rfl hl'
  | windowExpires =>
    refine flight (fun m => ?_) ?_ hl'
    · unfold State.windowExpires; split <;> cases m <;> rfl
    · unfold State.windowExpires; split <;> rfl
  | wakeExpires =>
    refine flight (fun m => ?_) ?_ hl'
    · unfold State.wakeExpires; split <;> cases m <;> rfl
    · unfold State.wakeExpires; split <;> rfl
  | linkCleared =>
    refine flight (fun m => ?_) ?_ hl'
    · unfold State.linkCleared; split <;> cases m <;> rfl
    · unfold State.linkCleared; split <;> rfl
  | _ => exact flight (fun m => by cases m <;> rfl) rfl hl'

end Sys2Proof.Machine
end

