-- ==== Sys2Proof/Laws/Settings.lean ====
section
/-! SUPPORT. The settings: an accepted word keeps a motor's settings in range, and no operation but a setting word changes
them; and the dead time between the turn-offs and turn-ons of a leg (R14, R176 to R178). -/
namespace Sys2Proof.Machine

variable {pl tx : Bool}

/-- A field of `len` bits is below 2 ^ len. -/
theorem field_lt (v : Word) (lo len : Nat) : field v lo len < 2 ^ len := (v.extractLsb' lo len).isLt

/-- An accepted setting word leaves the settings in range (R176, R177, R178). -/
theorem MotorUnit.newSettings_inRange {u : MotorUnit} {w : MotorWord} {v : Word} {st : MotorSettings}
    (h : u.settings.inRange) (hn : u.newSettings w v = some st) : st.inRange := by
  obtain ⟨h1, h2, h3, h4, h5, h6, h7, h8, h9, h10, h11, h12, h13, h14, h15, h16⟩ := h
  unfold MotorUnit.newSettings at hn
  cases w <;> simp only [Option.ite_none_right_eq_some, Option.some.injEq, Option.map_eq_some_iff, reduceCtorEq] at hn
  case carrierPeriod =>
    obtain ⟨hc, rfl⟩ := hn
    exact ⟨hc, h2, h3, h4, h5, h6, h7, h8, h9, h10, h11, h12, h13, h14, h15, h16⟩
  case minimumPulse =>
    obtain ⟨hc, rfl⟩ := hn
    exact ⟨h1, h2, hc.1, hc.2, h5, h6, h7, h8, h9, h10, h11, h12, h13, h14, h15, h16⟩
  case deadTime =>
    obtain ⟨hc, rfl⟩ := hn
    exact ⟨h1, hc.1, hc.2, h4, h5, h6, h7, h8, h9, h10, h11, h12, h13, h14, h15, h16⟩
  case safeState =>
    split at hn
    · cases hn; exact ⟨h1, h2, h3, h4, h5, h6, h7, h8, h9, h10, h11, h12, h13, h14, h15, h16⟩
    · split at hn
      · cases hn; exact ⟨h1, h2, h3, h4, h5, h6, h7, h8, h9, h10, h11, h12, h13, h14, h15, h16⟩
      · cases hn
  case frameInterval =>
    obtain ⟨hc, rfl⟩ := hn
    exact ⟨h1, h2, h3, h4, hc, h6, h7, h8, h9, h10, h11, h12, h13, h14, h15, h16⟩
  case ringLevels =>
    obtain ⟨hc, rfl⟩ := hn
    exact ⟨h1, h2, h3, h4, h5, h6, h7, h8, hc.2.2.1, hc.2.2.2, h11, h12, h13, h14, h15, h16⟩
  case ringBase =>
    obtain ⟨hc, rfl⟩ := hn
    refine ⟨h1, h2, h3, h4, h5, ?_, h7, h8, h9, h10, h11, h12, h13, h14, h15, h16⟩
    simp only [BitVec.toNat_ofNat]
    omega
  case ringStride =>
    obtain ⟨hc, rfl⟩ := hn
    exact ⟨h1, h2, h3, h4, h5, h6, hc.1, h8, h9, h10, h11, h12, h13, h14, h15, h16⟩
  case ringDepth =>
    obtain ⟨hc, rfl⟩ := hn
    exact ⟨h1, h2, h3, h4, h5, h6, h7, ⟨hc.1, hc.2.1⟩, h9, hc.2.2.1, h11, h12, h13, h14, h15, h16⟩
  case ringPolicy =>
    split at hn
    · cases hn; exact ⟨h1, h2, h3, h4, h5, h6, h7, h8, h9, h10, h11, h12, h13, h14, h15, h16⟩
    · split at hn
      · cases hn; exact ⟨h1, h2, h3, h4, h5, h6, h7, h8, h9, h10, h11, h12, h13, h14, h15, h16⟩
      · cases hn
  case frameDone =>
    subst hn
    refine ⟨h1, h2, h3, h4, h5, h6, h7, h8, h9, h10, ?_, h12, h13, h14, h15, h16⟩
    have := field_lt v 16 16
    show field v 16 16 ≤ 65535
    omega
  case minimumSector =>
    obtain ⟨hc, rfl⟩ := hn
    exact ⟨h1, h2, h3, h4, h5, h6, h7, h8, h9, h10, h11, hc, h13, h14, h15, h16⟩
  case predictionLimit =>
    obtain ⟨hc, rfl⟩ := hn
    exact ⟨h1, h2, h3, h4, h5, h6, h7, h8, h9, h10, h11, h12, hc, h14, h15, h16⟩
  case startTimeout =>
    obtain ⟨hc, rfl⟩ := hn
    exact ⟨h1, h2, h3, h4, h5, h6, h7, h8, h9, h10, h11, h12, h13, hc, h15, h16⟩
  case commutationDelay =>
    obtain ⟨hc, rfl⟩ := hn
    exact ⟨h1, h2, h3, h4, h5, h6, h7, h8, h9, h10, h11, h12, h13, h14, hc, h16⟩
  case staleTimeout =>
    obtain ⟨hc, rfl⟩ := hn
    exact ⟨h1, h2, h3, h4, h5, h6, h7, h8, h9, h10, h11, h12, h13, h14, h15, hc⟩
  case sectorMap k =>
    obtain ⟨e, _, rfl⟩ := hn
    exact ⟨h1, h2, h3, h4, h5, h6, h7, h8, h9, h10, h11, h12, h13, h14, h15, h16⟩

@[simp] theorem MotorUnit.afterSetting_settings (now : Instant) (w : MotorWord) (u : MotorUnit) :
    (u.afterSetting now w).settings = u.settings := by
  unfold MotorUnit.afterSetting
  split <;> rfl

theorem MotorUnit.closeFrame_settings (now : Instant) (flag : CloseFlag) (u : MotorUnit) :
    (u.closeFrame now flag).settings = u.settings := by
  unfold MotorUnit.closeFrame
  split
  · rfl
  · dsimp only
    split <;> rfl

theorem MotorUnit.trip_settings (now : Instant) (c : TripCause) (i : Short) (u : MotorUnit) :
    (u.trip now c i).settings = u.settings := by
  show (MotorUnit.tripFrames now _).settings = _
  unfold MotorUnit.tripFrames
  rw [MotorUnit.closeFrame_settings]
  exact (u.toSafeState_rest now).2.1

theorem MotorUnit.stoppingBoundary_settings (now : Instant) (u : MotorUnit) :
    (u.stoppingBoundary now).settings = u.settings := by
  have h := MotorUnit.closeFrame_settings now .stopped (u.setState .stopping)
  unfold MotorUnit.stoppingBoundary
  dsimp only
  split <;> exact h

theorem MotorUnit.takeHalf_settings (n : HalfName) (u : MotorUnit) : (u.takeHalf n).settings = u.settings := by
  unfold MotorUnit.takeHalf
  dsimp only
  split <;> rfl

/-- Only an accepted setting word changes a motor's settings. -/
theorem MotorUnit.Op.settings_cases {now : Instant} {u v : MotorUnit} (o : MotorUnit.Op now u v) :
    v.settings = u.settings
      ∨ ∃ w x, u.settingAllowed w = true ∧ u.newSettings w x = some v.settings ∧ v.channel = u.channel
          ∧ v.slotA = u.slotA ∧ v.slotB = u.slotB := by
  cases o with
  | settings w x st _ ha h =>
    refine .inr ⟨w, x, ha, by rw [MotorUnit.afterSetting_settings]; exact h, MotorUnit.afterSetting_channel _ _ _, ?_, ?_⟩ <;>
    · unfold MotorUnit.afterSetting
      split <;> rfl
  | refreshRoles => unfold MotorUnit.refreshRoles; split <;> exact .inl rfl
  | givePosition step q => unfold MotorUnit.givePosition; split <;> exact .inl rfl
  | markSlid q p b => unfold MotorUnit.markSlid; split <;> exact .inl rfl
  | beginFrame => exact .inl u.beginFrame_frames.1
  | takeHalf n => exact .inl (MotorUnit.takeHalf_settings n u)
  | overwrite n => exact .inl (MotorUnit.takeHalf_settings n _)
  | closeFrame f => exact .inl (MotorUnit.closeFrame_settings _ f u)
  | trip c i => exact .inl (MotorUnit.trip_settings _ c i u)
  | setLegs b => exact .inl (u.setLegs_frames now b).2.1
  | gateEdge n =>
    unfold MotorUnit.gateEdge
    split
    · split <;> exact .inl rfl
    · exact .inl rfl
  | deadTimeEnds n => unfold MotorUnit.deadTimeEnds; split <;> exact .inl rfl
  | begin n => cases n <;> exact .inl rfl
  | activate n => cases n <;> exact .inl rfl
  | stop => unfold MotorUnit.stop; split <;> exact .inl rfl
  | stoppingBoundary => exact .inl (MotorUnit.stoppingBoundary_settings now u)
  | completeStop => unfold MotorUnit.completeStop; split <;> exact .inl rfl
  | pend n => cases n <;> exact .inl rfl
  | retag n => cases n <;> exact .inl rfl
  | cancel n => cases n <;> exact .inl rfl
  | _ => exact .inl rfl

/-- Every operation keeps a motor's settings in range. -/
theorem MotorUnit.Op.inRange {now : Instant} {u v : MotorUnit} (o : MotorUnit.Op now u v) (h : u.settings.inRange) :
    v.settings.inRange := by
  rcases o.settings_cases with e | ⟨w, x, _, e, _⟩
  · rw [e]; exact h
  · exact MotorUnit.newSettings_inRange h e

theorem MotorUnit.flushed_settings (now : Instant) (f : Flush) (u : MotorUnit) :
    (MotorUnit.flushed now f u).settings = u.settings := by
  unfold MotorUnit.flushed MotorUnit.finalFlushed MotorUnit.completeStop
  dsimp only
  split
  · split <;> rfl
  · rfl

/-- The operations on the whole state, seen from one motor. -/
inductive MotorUnit.Seen (now : Instant) (u : MotorUnit) : MotorUnit → Prop where
  | same : MotorUnit.Seen now u u
  | op {v : MotorUnit} (o : MotorUnit.Op now u v) : MotorUnit.Seen now u v
  | softRestart : MotorUnit.Seen now u (u.softRestart now)
  | startBurst (n : HalfName) : MotorUnit.Seen now u (u.onFrames fun a => a.onHalf n Half.startBurst)
  | flushed (f : Flush) : MotorUnit.Seen now u (MotorUnit.flushed now f u)

/-- What an operation does to each motor. -/
theorem State.Op.seen {s t : State} (o : State.Op pl tx s t) (m : Motor) : (s.motor m).Seen s.timebase (t.motor m) := by
  cases o with
  | motor k s h =>
    rw [State.motor_setMotor]
    split
    · rename_i e; subst e; exact .op h
    · exact .same
  | softRestart s _ =>
    have : (s.softRestartNow).motor m = (s.motor m).softRestart s.timebase := by cases m <;> rfl
    rw [this]
    exact .softRestart
  | startFlush k n s _ _ =>
    have : (s.startFlush k n).motor m = (s.onMotor k (MotorUnit.onFrames (f := fun a => a.onHalf n Half.startBurst))).motor m := by
      cases m <;> rfl
    rw [this, State.motor_onMotor]
    split
    · exact .startBurst n
    · exact .same
  | endFlush f s _ =>
    unfold State.endFlush
    rw [State.motor_onMotor]
    have : ({ s with
        arbiter := { s.arbiter with
          state := s.freeLink, flight := none, windowTimer := s.device.windowExpiry s.timebase }
        ram := s.ram.store f.address f.content } : State).motor m = s.motor m := by cases m <;> rfl
    rw [this]
    split
    · exact .flushed f
    · exact .same
  | selectFalls =>
    have : (s.selectFalls).motor m = s.motor m := by unfold State.selectFalls; split <;> cases m <;> rfl
    rw [this]; exact .same
  | windowExpires =>
    have : (s.windowExpires).motor m = s.motor m := by unfold State.windowExpires; split <;> cases m <;> rfl
    rw [this]; exact .same
  | wakeExpires =>
    have : (s.wakeExpires).motor m = s.motor m := by unfold State.wakeExpires; split <;> cases m <;> rfl
    rw [this]; exact .same
  | linkCleared =>
    have : (s.linkCleared).motor m = s.motor m := by unfold State.linkCleared; split <;> cases m <;> rfl
    rw [this]; exact .same
  | _ => cases m <;> exact .same

theorem MotorUnit.Seen.inRange {now : Instant} {u v : MotorUnit} (o : u.Seen now v) (h : u.settings.inRange) :
    v.settings.inRange := by
  cases o with
  | same => exact h
  | op o => exact o.inRange h
  | softRestart => exact h
  | startBurst => exact h
  | flushed f => rw [MotorUnit.flushed_settings]; exact h

theorem MotorUnit.Seen.channelSound {now : Instant} {u v : MotorUnit} (o : u.Seen now v) (h : u.channelSound) :
    v.channelSound := by
  cases o with
  | same => exact h
  | op o => exact o.channelSound h
  | softRestart => exact u.softRestart_channelSound now
  | startBurst => exact MotorUnit.channelSound_same rfl rfl h
  | flushed f => exact MotorUnit.flushed_channelSound now f h

/-! ### Dead time (R14) -/

/-- A turn-on one dead time after an instant, once it is due, comes no less than the dead time after it. -/
theorem dead_elapsed {o now : Instant} {d : Nat} (hd : d ≤ 1000) (h : reached (after o d) now = true) :
    d ≤ elapsed o now := by
  unfold reached after at h
  unfold elapsed
  simp only [Bool.not_eq_true', BitVec.msb_eq_false_iff_two_mul_lt, BitVec.toNat_sub, BitVec.toNat_add,
    BitVec.toNat_ofNat] at h
  rw [BitVec.toNat_sub]
  have := o.isLt
  have := now.isLt
  omega

/-- A leg under dead time since a moment at which it was `l0`: a waiting turn-on is sound, and a side that is on was on then, or
has the dead time behind it. -/
def Leg.Kept (dead : Nat) (now : Instant) (l0 l : Leg) : Prop :=
  l.turnOnSound dead
    ∧ (l.highOn = true → l0.highOn = true ∨ l.command = .highSide ∧ dead ≤ elapsed l.lowOff now)
    ∧ (l.lowOn = true → l0.lowOn = true ∨ l.command = .lowSide ∧ dead ≤ elapsed l.highOff now)

theorem Leg.Kept.start {dead : Nat} {now : Instant} {l : Leg} (h : l.turnOnSound dead) : Leg.Kept dead now l l :=
  ⟨h, fun k => .inl k, fun k => .inl k⟩

theorem Leg.Kept.command {dead : Nat} {now : Instant} {l0 l : Leg} (c : LegCommand) (h : Leg.Kept dead now l0 l) :
    Leg.Kept dead now l0 (Leg.setCommand dead now c l) := by
  have hc := Leg.cut_off now l
  unfold Leg.setCommand
  split
  · exact h
  · split
    · refine ⟨fun due k => (by cases k), fun k => ?_, fun k => ?_⟩
      · rw [show ((l.cutHigh now).cutLow now).highOn = false from hc.1] at k; cases k
      · rw [show ((l.cutHigh now).cutLow now).lowOn = false from hc.2] at k; cases k
    · unfold Leg.turnOnLater
      split
      · rename_i hd
        refine ⟨fun due k => (by cases k), fun _ => .inr ⟨rfl, hd⟩, fun k => ?_⟩
        have k' : ((l.cutHigh now).cutLow now).lowOn = true := k
        rw [hc.2] at k'; cases k'
      · refine ⟨fun due k => ?_, fun k => ?_, fun k => ?_⟩
        · simp only [Option.some.injEq] at k
          exact ⟨by simp, k.symm⟩
        · rw [show ((l.cutHigh now).cutLow now).highOn = false from hc.1] at k; cases k
        · rw [show ((l.cutHigh now).cutLow now).lowOn = false from hc.2] at k; cases k
    · unfold Leg.turnOnLater
      split
      · rename_i hd
        refine ⟨fun due k => (by cases k), fun k => ?_, fun _ => .inr ⟨rfl, hd⟩⟩
        have k' : ((l.cutHigh now).cutLow now).highOn = true := k
        rw [hc.1] at k'; cases k'
      · refine ⟨fun due k => ?_, fun k => ?_, fun k => ?_⟩
        · simp only [Option.some.injEq] at k
          exact ⟨by simp, k.symm⟩
        · rw [show ((l.cutHigh now).cutLow now).highOn = false from hc.1] at k; cases k
        · rw [show ((l.cutHigh now).cutLow now).lowOn = false from hc.2] at k; cases k

theorem Leg.Kept.turnOn {dead : Nat} {now : Instant} {l0 l : Leg} (hd : dead ≤ 1000) (ht : timerDue l.turnOn now = true)
    (h : Leg.Kept dead now l0 l) : Leg.Kept dead now l0 l.turnOnNow := by
  obtain ⟨h1, h2, h3⟩ := h
  cases ho : l.turnOn with
  | none => rw [ho] at ht; cases ht
  | some due =>
    obtain ⟨hc, e⟩ := h1 due ho
    rw [ho] at ht
    have hr : reached due now = true := ht
    rw [e] at hr
    have hd' := dead_elapsed hd hr
    unfold Leg.otherOff at hd'
    unfold Leg.turnOnNow
    cases hk : l.command with
    | off => exact absurd hk hc
    | highSide =>
      rw [hk] at hd' h3
      refine ⟨fun d k => (by cases k), fun _ => .inr ⟨rfl, hd'⟩, fun k => ?_⟩
      rcases h3 k with j | j
      · exact .inl j
      · cases j.1
    | lowSide =>
      rw [hk] at hd' h2
      refine ⟨fun d k => (by cases k), fun k => ?_, fun _ => .inr ⟨rfl, hd'⟩⟩
      rcases h2 k with j | j
      · exact .inl j
      · cases j.1

theorem LegRule.kept {dead : Nat} (now : Instant) (l0 : LegName → Leg) (hd : dead ≤ 1000) :
    LegRule dead now (fun n => Leg.Kept dead now (l0 n)) where
  command _ c _ h := h.command c
  drive _ _ _ _ h := h
  turnOn _ _ ht h := h.turnOn hd ht

/-- A motor under dead time since a moment at which its legs were `l0`. -/
def MotorUnit.DeadKept (now : Instant) (l0 : LegName → Leg) (u : MotorUnit) : Prop :=
  u.channelSound ∧ u.settings.inRange ∧ u.channel.legsAll fun n => Leg.Kept u.settings.deadTime now (l0 n)

theorem MotorUnit.Seen.deadKept {now : Instant} {l0 : LegName → Leg} {u v : MotorUnit} (o : u.Seen now v)
    (h : u.DeadKept now l0) : v.DeadKept now l0 := by
  have hs := o.channelSound h.1
  have hr := o.inRange h.2.1
  refine ⟨hs, hr, ?_⟩
  have rule := LegRule.kept (dead := u.settings.deadTime) now l0 h.2.1.2.1
  cases o with
  | same => exact h.2.2
  | op o =>
    rcases o.settings_cases with e | ⟨w, x, ha, e, hc, _⟩
    · rw [e]
      exact o.legs rule h.2.2
    · by_cases hd : v.settings.deadTime = u.settings.deadTime
      · rw [hc, hd]
        exact h.2.2
      · have hw : u.channel.state = .stopped := by
          have hf : w.isFree = false := by
            cases hf : w.isFree with
            | false => rfl
            | true =>
              exfalso
              apply hd
              unfold MotorUnit.newSettings at e
              cases w <;> simp only [MotorWord.isFree, reduceCtorEq] at hf <;>
                simp only [Option.ite_none_right_eq_some, Option.some.injEq] at e <;>
                · obtain ⟨_, e⟩ := e
                  rw [← e]
          simpa [MotorUnit.settingAllowed, hf] using ha
        have hoff := h.1.2.2.2.2.2 (.inl hw)
        rw [hc]
        refine Channel.legsAll_iff.2 fun n => ?_
        have k := Channel.legsAll_leg n h.2.2
        have ho := (hoff n).1
        refine ⟨fun due e => absurd ho (k.1 due e).1, fun e => ?_, fun e => ?_⟩
        · rcases k.2.1 e with j | j
          · exact .inl j
          · rw [ho] at j; cases j.1
        · rcases k.2.2 e with j | j
          · exact .inl j
          · rw [ho] at j; cases j.1
  | softRestart => exact rule.softRestart h.2.2
  | startBurst => exact h.2.2
  | flushed f =>
    rw [MotorUnit.flushed_settings]
    exact MotorUnit.flushed_channel_legs now f u h.2.2

end Sys2Proof.Machine
end

