-- ==== Sys2Proof/Laws/Slots.lean ====
section
/-! SUPPORT. The captured copies: no operation changes one, and a capture changes that of its slot alone (R27, R28). -/
namespace Sys2Proof.Machine

variable {pl tx : Bool}

/-- The captured copies of a motor. -/
def MotorUnit.copies (u : MotorUnit) : Memory × Memory := (u.slotA.copy, u.slotB.copy)

theorem MotorUnit.copies_slot {u v : MotorUnit} (h : v.copies = u.copies) (n : SlotName) : (v.slot n).copy = (u.slot n).copy := by
  simp only [MotorUnit.copies, Prod.mk.injEq] at h
  cases n
  · exact h.1
  · exact h.2

theorem MotorUnit.onSlot_copies (u : MotorUnit) (n : SlotName) (f : PlanSlot → PlanSlot) (h : ∀ p, (f p).copy = p.copy) :
    (u.onSlot n f).copies = u.copies := by
  cases n <;> simp [MotorUnit.copies, MotorUnit.onSlot, MotorUnit.slot, MotorUnit.setSlot, h]

theorem PlanSlot.release_copy (p : PlanSlot) : p.release.copy = p.copy := by
  unfold PlanSlot.release
  split <;> rfl

theorem MotorUnit.releaseSlots_copies (u : MotorUnit) : u.releaseSlots.copies = u.copies := by
  simp [MotorUnit.copies, MotorUnit.releaseSlots, PlanSlot.release_copy]

theorem MotorUnit.copies_of_slots {u v : MotorUnit} (a : v.slotA = u.slotA) (b : v.slotB = u.slotB) : v.copies = u.copies := by
  simp [MotorUnit.copies, a, b]

theorem MotorUnit.takeHalf_copies (n : HalfName) (u : MotorUnit) : (u.takeHalf n).copies = u.copies := by
  unfold MotorUnit.takeHalf
  dsimp only
  split <;> rfl

/-- No operation changes a captured copy. -/
theorem MotorUnit.Op.copies {now : Instant} {u v : MotorUnit} (o : MotorUnit.Op now u v) : v.copies = u.copies := by
  cases o with
  | refreshRoles => unfold MotorUnit.refreshRoles; split <;> rfl
  | givePosition step q => unfold MotorUnit.givePosition; split <;> rfl
  | markSlid q p b => unfold MotorUnit.markSlid; split <;> rfl
  | beginFrame =>
    unfold MotorUnit.beginFrame
    dsimp only
    split
    · refine (MotorUnit.onSlot_copies _ _ _ fun p => ?_).trans ?_
      · unfold PlanSlot.takeNextTag; split <;> rfl
      · rfl
    · rfl
  | takeHalf n => exact MotorUnit.takeHalf_copies n u
  | overwrite n => exact MotorUnit.takeHalf_copies n _
  | closeFrame f => exact MotorUnit.copies_of_slots (u.closeFrame_slots now f).1 (u.closeFrame_slots now f).2
  | trip c i =>
    show (MotorUnit.releaseSlots _).copies = _
    rw [MotorUnit.releaseSlots_copies]
    have h1 := fun w : MotorUnit => w.closeFrame_slots now .tripped
    have h2 := u.toSafeState_slots now
    refine MotorUnit.copies_of_slots ?_ ?_
    · exact ((h1 _).1).trans h2.1
    · exact ((h1 _).2).trans h2.2
  | setLegs b => unfold MotorUnit.setLegs; (repeat' split) <;> rfl
  | gateEdge n =>
    unfold MotorUnit.gateEdge
    split
    · split <;> rfl
    · rfl
  | deadTimeEnds n => unfold MotorUnit.deadTimeEnds; split <;> rfl
  | begin n =>
    refine (MotorUnit.onSlot_copies _ _ _ fun p => ?_).trans
      ((MotorUnit.onSlot_copies ((u.setState .running).startPeriod now) n PlanSlot.activate fun p => rfl).trans rfl)
    unfold PlanSlot.retire; split <;> rfl
  | activate n =>
    refine (MotorUnit.onSlot_copies _ _ _ fun p => ?_).trans (MotorUnit.onSlot_copies _ _ _ fun p => rfl)
    unfold PlanSlot.retire; split <;> rfl
  | stop => unfold MotorUnit.stop; split <;> rfl
  | stoppingBoundary =>
    have h : ((u.setState .stopping).stopRun now).copies = u.copies := by
      show (MotorUnit.releaseSlots _).copies = _
      rw [MotorUnit.releaseSlots_copies]
      have h1 := (u.setState .stopping).closeFrame_slots now .stopped
      exact MotorUnit.copies_of_slots h1.1 h1.2
    unfold MotorUnit.stoppingBoundary
    dsimp only
    split <;> exact h
  | completeStop => unfold MotorUnit.completeStop; split <;> rfl
  | pend n => exact MotorUnit.onSlot_copies _ _ _ fun p => rfl
  | retag n => exact MotorUnit.onSlot_copies _ _ _ fun p => rfl
  | cancel n => exact MotorUnit.onSlot_copies _ _ _ fun p => by unfold PlanSlot.cancel; split <;> rfl
  | settings w =>
    unfold MotorUnit.afterSetting
    split <;> rfl
  | _ => rfl

theorem MotorUnit.flushed_copies (now : Instant) (f : Flush) (u : MotorUnit) :
    (MotorUnit.flushed now f u).copies = u.copies := by
  unfold MotorUnit.flushed MotorUnit.finalFlushed MotorUnit.completeStop
  dsimp only
  split
  · split <;> rfl
  · rfl

theorem MotorUnit.Seen.copies {now : Instant} {u v : MotorUnit} (o : u.Seen now v) : v.copies = u.copies := by
  cases o with
  | same => rfl
  | op o => exact o.copies
  | softRestart => rfl
  | startBurst => rfl
  | flushed f => exact u.flushed_copies now f

/-- No chain of operations changes a captured copy. -/
theorem State.Ops.copies {s t : State} (o : State.Ops pl tx s t) (m : Motor) : (t.motor m).copies = (s.motor m).copies := by
  induction o with
  | refl => rfl
  | step _ o ih => exact (o.seen m).copies.trans ih

/-- A slot that is neither EMPTY nor INACTIVE keeps its copy (R28). -/
theorem State.Run.guarded {s t : State} (r : State.Run pl tx s t) (m : Motor) (n : SlotName)
    (h : ((s.motor m).slot n).state ≠ .empty ∧ ((s.motor m).slot n).state ≠ .inactive) :
    ((t.motor m).slot n).copy = ((s.motor m).slot n).copy := by
  cases r with
  | ops k => exact MotorUnit.copies_slot (k.copies m) n
  | capture m' n' start data a _ ha he _ ht =>
    rw [ht m, State.motor_onMotor]
    split
    · rename_i e
      subst e
      rw [ha] at he ⊢
      cases n <;> cases n' <;> first
        | rfl
        | (exfalso; rcases he with k | k; exact h.1 k; exact h.2 k)
    · rw [ha]

/-! ### The canonical form (log 10) -/

/-- Both captured copies are canonical. -/
def MotorUnit.copiesWf (u : MotorUnit) : Prop := ∀ n, Memory.wf (u.slot n).copy = true

theorem MotorUnit.Seen.copiesWf {now : Instant} {u v : MotorUnit} (o : u.Seen now v) (h : u.copiesWf) : v.copiesWf := by
  intro n
  rw [MotorUnit.copies_slot o.copies n]
  exact h n

theorem MotorUnit.capture_copiesWf {u : MotorUnit} (n : SlotName) (start : Nat) (data : List Byte) (h : u.copiesWf) :
    (u.onSlot n (PlanSlot.capture start data)).copiesWf := by
  intro k
  cases n <;> cases k
  · exact PlanSlot.wf_capture start data (h .a)
  · exact h .b
  · exact h .a
  · exact PlanSlot.wf_capture start data (h .b)

/-- Only a store changes the bytes of the RAM. -/
theorem State.Op.ramWf {s t : State} (o : State.Op pl tx s t) (h : s.ram.cells.wf = true) : t.ram.cells.wf = true := by
  cases o with
  | ram r _ e => show r.cells.wf = true; rw [e]; exact h
  | store a data => exact Ram.wf_store a data h
  | endFlush f => simp only [State.endFlush, State.onMotor_ram]; exact Ram.wf_store _ _ h
  | startFlush m n =>
    have e : (s.startFlush m n).ram.cells = s.ram.cells := by
      unfold State.startFlush
      dsimp only
      split <;> simp
    rw [e]
    exact h
  | selectFalls => unfold State.selectFalls; split <;> exact h
  | windowExpires => unfold State.windowExpires; split <;> exact h
  | wakeExpires => unfold State.wakeExpires; split <;> exact h
  | linkCleared =>
    unfold State.linkCleared
    split
    · show s.ram.clearRepeat.cells.wf = true
      rw [Ram.clearRepeat_cells]
      exact h
    · exact h
  | motor m => simpa using h
  | _ => exact h

end Sys2Proof.Machine
end

