-- ==== Sys2Proof/Laws/Lists.lean ====
section
/-! SUPPORT. The bounded lists, and the settings of the part, under every operation: the Fault Log (R186), the calendar (R68,
R93), the frame-done records (R193), and the ranges of the device and input settings (R92, R96, R145, R167). -/
namespace Sys2Proof.Machine

variable {pl tx : Bool}

/-! ### The Fault Log -/

theorem State.Op.logBounded {s t : State} (o : State.Op pl tx s t) (h : s.log.bounded) : t.log.bounded := by
  cases o with
  | log e => exact FaultLog.add_bounded e h
  | popLog => exact State.popLog_bounded h
  | clearOverflow => exact State.clearLogOverflow_bounded h
  | softRestart => simp [State.softRestartNow, FaultLog.reset, FaultLog.bounded]
  | selectFalls => unfold State.selectFalls; split <;> exact h
  | windowExpires => unfold State.windowExpires; split <;> exact h
  | wakeExpires => unfold State.wakeExpires; split <;> exact h
  | linkCleared => unfold State.linkCleared; split <;> exact h
  | motor m => simpa using h
  | startFlush m n => simpa [State.startFlush] using h
  | endFlush f => simpa [State.endFlush] using h
  | _ => exact h

/-! ### The calendar -/

/-- How many reservations of a list are CONVERTING. -/
def convertingCount (l : List Reservation) : Nat := (l.filter Reservation.isConverting).length

theorem insertReservation_length (r : Reservation) : ∀ l, (insertReservation r l).length = l.length + 1
  | [] => rfl
  | q :: rest => by
    unfold insertReservation
    split
    · rfl
    · simp [insertReservation_length r rest]

theorem insertReservation_converting {r : Reservation} (hr : r.isConverting = false) :
    ∀ l, convertingCount (insertReservation r l) = convertingCount l
  | [] => by simp [insertReservation, convertingCount, hr]
  | q :: rest => by
    have ih := insertReservation_converting hr rest
    unfold insertReservation
    split
    · simp [convertingCount, List.filter_cons, hr]
    · simp only [convertingCount, List.filter_cons] at ih ⊢
      split <;> simp [ih]

theorem changeFirst_length (test : Reservation → Bool) (f : Reservation → Reservation) :
    ∀ l, (changeFirst test f l).length = l.length
  | [] => rfl
  | q :: rest => by
    unfold changeFirst
    split
    · rfl
    · simp [changeFirst_length test f rest]

/-- One change makes at most one more reservation CONVERTING. -/
theorem changeFirst_converting (test : Reservation → Bool) (f : Reservation → Reservation) :
    ∀ l, convertingCount (changeFirst test f l) ≤ convertingCount l + 1
  | [] => by simp [changeFirst, convertingCount]
  | q :: rest => by
    have ih := changeFirst_converting test f rest
    unfold changeFirst
    split
    · simp only [convertingCount, List.filter_cons]
      split <;> split <;> simp <;> omega
    · simp only [convertingCount, List.filter_cons] at ih ⊢
      split <;> simp <;> omega

/-- A change to a state that is not CONVERTING makes none more CONVERTING. -/
theorem changeFirst_not_converting (test : Reservation → Bool) (f : Reservation → Reservation)
    (hf : ∀ q, (f q).isConverting = false) : ∀ l, convertingCount (changeFirst test f l) ≤ convertingCount l
  | [] => by simp [changeFirst, convertingCount]
  | q :: rest => by
    have ih := changeFirst_not_converting test f hf rest
    unfold changeFirst
    split
    · simp only [convertingCount, List.filter_cons, hf, Bool.false_eq_true, if_false]
      split <;> simp
    · simp only [convertingCount, List.filter_cons] at ih ⊢
      split <;> simp <;> omega

theorem Reservation.orphan_converting (m : Motor) (r : Reservation) : (r.orphan m).isConverting = r.isConverting := by
  unfold Reservation.orphan
  split <;> rfl

theorem map_orphan_converting (m : Motor) : ∀ l : List Reservation, convertingCount (l.map (Reservation.orphan m)) = convertingCount l
  | [] => rfl
  | q :: rest => by
    have ih := map_orphan_converting m rest
    simp only [convertingCount, List.map_cons, List.filter_cons, Reservation.orphan_converting] at ih ⊢
    split <;> simp [ih]

theorem convertingCount_none {l : List Reservation} (h : l.find? Reservation.isConverting = none) : convertingCount l = 0 := by
  have : l.filter Reservation.isConverting = [] := by
    simpa [List.filter_eq_nil_iff, List.find?_eq_none] using h
  simp [convertingCount, this]

/-- Every operation on the calendar keeps it bounded. -/
theorem Calendar.Op.bounded {width : Nat} {c d : Calendar} (o : Calendar.Op width pl c d) (h : c.bounded) : d.bounded := by
  obtain ⟨h1, h2, h3⟩ := h
  cases o with
  | insert r _ _ _ hp hl =>
    have e := insertReservation_length r c.reservations
    refine ⟨Nat.le_max_right _ _, ?_, ?_⟩
    · simp only [e]
      omega
    · have := insertReservation_converting (r := r) (by simp [Reservation.isConverting, hp]) c.reservations
      show convertingCount _ ≤ 1
      rw [this]
      exact h3
  | remove l _ hl =>
    exact ⟨Nat.le_trans hl.length_le h1, h2, Nat.le_trans (hl.filter _).length_le h3⟩
  | orphan m =>
    refine ⟨by simpa using h1, h2, ?_⟩
    show convertingCount _ ≤ 1
    rw [map_orphan_converting]
    exact h3
  | convert test k _ hn =>
    refine ⟨by simpa [changeFirst_length] using h1, h2, ?_⟩
    have := changeFirst_converting test (Reservation.convert k) c.reservations
    rw [convertingCount_none hn] at this
    exact this
  | wait =>
    refine ⟨by simpa [changeFirst_length] using h1, h2, ?_⟩
    exact Nat.le_trans (changeFirst_not_converting _ _ (fun q => by simp [Reservation.isConverting]) _) h3
  | clearMark => exact ⟨Nat.le_refl _, Nat.le_trans h1 h2, h3⟩

theorem State.Op.calendarBounded {s t : State} (o : State.Op pl tx s t) (h : s.calendar.bounded) : t.calendar.bounded := by
  cases o with
  | calendar _ o => exact o.bounded h
  | softRestart =>
    have h2 := h.2.1
    simp [State.softRestartNow, Calendar.bounded, h2]
  | selectFalls => unfold State.selectFalls; split <;> exact h
  | windowExpires => unfold State.windowExpires; split <;> exact h
  | wakeExpires => unfold State.wakeExpires; split <;> exact h
  | linkCleared => unfold State.linkCleared; split <;> exact h
  | motor m => simpa using h
  | startFlush m n => simpa [State.startFlush] using h
  | endFlush f => simpa [State.endFlush] using h
  | _ => exact h

/-! ### The frame-done records -/

theorem MotorUnit.frameClosedEvent_records {u : MotorUnit} (now : Instant) (seq : Short) (h : u.attention.recordsSound) :
    (u.frameClosedEvent now seq).attention.recordsSound := by
  refine ⟨?_, MotorAttention.settleRecords_sound _⟩
  have h := h.1
  unfold MotorUnit.frameClosedEvent MotorAttention.settleRecords
  refine Nat.le_trans (List.length_filter_le _ _) ?_
  unfold MotorAttention.makeRoom
  dsimp only
  split
  · simp only [List.length_append, List.length_singleton]
    omega
  · simp only [List.length_append, List.length_drop, List.length_singleton]
    unfold recordCapacity at *
    omega

theorem MotorUnit.closeFrame_records {u : MotorUnit} (now : Instant) (flag : CloseFlag) (h : u.attention.recordsSound) :
    (u.closeFrame now flag).attention.recordsSound := by
  unfold MotorUnit.closeFrame
  split
  · exact h
  · dsimp only
    split
    · exact h
    · exact MotorUnit.frameClosedEvent_records _ _ h

/-- Every operation on a motor keeps its records sound. -/
theorem MotorUnit.Op.records {now : Instant} {u v : MotorUnit} (o : MotorUnit.Op now u v) (h : u.attention.recordsSound) :
    v.attention.recordsSound := by
  cases o with
  | attention a _ hl hm =>
    refine ⟨Nat.le_trans hl h.1, fun r hr => ?_⟩
    cases hmet : r.met
    · rfl
    · exact hmet.symm.trans (h.2 r (hm r hr hmet))
  | refreshRoles => unfold MotorUnit.refreshRoles; split <;> exact h
  | givePosition step q => unfold MotorUnit.givePosition; split <;> exact h
  | markSlid q p b => unfold MotorUnit.markSlid; split <;> exact h
  | beginFrame =>
    unfold MotorUnit.beginFrame
    dsimp only
    split
    · rename_i n _
      cases n <;> exact h
    · exact h
  | takeHalf n => unfold MotorUnit.takeHalf; dsimp only; split <;> exact h
  | overwrite n => unfold MotorUnit.takeHalf; dsimp only; split <;> exact h
  | closeFrame f => exact MotorUnit.closeFrame_records now f h
  | trip c i =>
    refine MotorUnit.closeFrame_records now .tripped ?_
    show (u.toSafeState now).attention.recordsSound
    rw [(u.toSafeState_rest now).2.2.1]
    exact h
  | setLegs b => unfold MotorUnit.setLegs; (repeat' split) <;> exact h
  | gateEdge n =>
    unfold MotorUnit.gateEdge
    split
    · split <;> exact h
    · exact h
  | deadTimeEnds n => unfold MotorUnit.deadTimeEnds; split <;> exact h
  | begin n => cases n <;> exact h
  | activate n => cases n <;> exact h
  | stop => unfold MotorUnit.stop; split <;> exact h
  | stoppingBoundary =>
    have k : ((u.setState .stopping).closeFrame now .stopped).attention.recordsSound := MotorUnit.closeFrame_records now _ h
    unfold MotorUnit.stoppingBoundary
    dsimp only
    split <;> exact k
  | completeStop => unfold MotorUnit.completeStop; split <;> exact h
  | pend n => cases n <;> exact h
  | retag n => cases n <;> exact h
  | cancel n => cases n <;> exact h
  | settings w =>
    unfold MotorUnit.afterSetting
    split <;> exact h
  | _ => exact h

theorem MotorUnit.Seen.records {now : Instant} {u v : MotorUnit} (o : u.Seen now v) (h : u.attention.recordsSound) :
    v.attention.recordsSound := by
  cases o with
  | same => exact h
  | op o => exact o.records h
  | softRestart => exact ⟨Nat.zero_le _, fun r hr => nomatch hr⟩
  | startBurst => exact h
  | flushed f =>
    unfold MotorUnit.flushed MotorUnit.finalFlushed MotorUnit.completeStop
    dsimp only
    have k (q : Short) : (MotorAttention.frameWrittenEvent q u.attention).recordsSound := by
      refine ⟨Nat.le_trans (List.length_filter_le _ _) ?_, MotorAttention.settleRecords_sound _⟩
      simpa using h.1
    split
    · split <;> exact k _
    · exact h

/-! ### The settings of the part (R92, R96, R145, R167) -/

/-- The device settings and the input records lie in their ranges. -/
def State.partInRange (s : State) : Prop :=
  (40 ≤ s.device.tConv ∧ s.device.tConv ≤ 320) ∧ s.device.controllerWindow ≤ 255
    ∧ (1 ≤ s.device.wakeTime ∧ s.device.wakeTime ≤ 255)
    ∧ ∀ r ∈ s.inputs.toList, r.tripCount ≤ 4 ∧ r.lowLimit.toNat ≤ r.highLimit.toNat

theorem State.Op.partInRange {s t : State} (o : State.Op pl tx s t) (h : s.partInRange) : t.partInRange := by
  obtain ⟨h1, h2, h3, h4⟩ := h
  cases o with
  | device d _ hd =>
    rcases hd with ⟨e, a, b⟩ | ⟨e, a⟩ | ⟨e, a, b⟩
    · refine ⟨⟨a, b⟩, ?_, ?_, h4⟩
      · show d.controllerWindow ≤ 255; rw [e]; exact h2
      · show 1 ≤ d.wakeTime ∧ d.wakeTime ≤ 255; rw [e]; exact h3
    · refine ⟨?_, a, ?_, h4⟩
      · show 40 ≤ d.tConv ∧ d.tConv ≤ 320; rw [e]; exact h1
      · show 1 ≤ d.wakeTime ∧ d.wakeTime ≤ 255; rw [e]; exact h3
    · refine ⟨?_, ?_, ⟨a, b⟩, h4⟩
      · show 40 ≤ d.tConv ∧ d.tConv ≤ 320; rw [e]; exact h1
      · show d.controllerWindow ≤ 255; rw [e]; exact h2
  | input i r _ hr =>
    refine ⟨h1, h2, h3, fun q hq => ?_⟩
    have hr' : r.tripCount ≤ 4 ∧ r.lowLimit.toNat ≤ r.highLimit.toNat := by
      rcases hr with k | ⟨c, e⟩
      · exact k
      · rw [e]
        exact h4 (s.inputRecord i) (Vector.mem_toList_iff.2 (Vector.getElem_mem _))
    have hq' : q ∈ (s.inputs.set i.toNat r).toList := hq
    rw [Vector.mem_toList_iff] at hq'
    rcases Vector.mem_or_eq_of_mem_set hq' with k | k
    · exact h4 q (Vector.mem_toList_iff.2 k)
    · rw [k]; exact hr'
  | softRestart =>
    refine ⟨h1, h2, h3, fun q hq => ?_⟩
    have hq' : q ∈ (s.inputs.map fun r => { r with consecutive := 0 }).toList := hq
    rw [Vector.mem_toList_iff, Vector.mem_map] at hq'
    obtain ⟨r, hr, e⟩ := hq'
    rw [← e]
    exact h4 r (Vector.mem_toList_iff.2 hr)
  | selectFalls => unfold State.selectFalls; split <;> exact ⟨h1, h2, h3, h4⟩
  | windowExpires => unfold State.windowExpires; split <;> exact ⟨h1, h2, h3, h4⟩
  | wakeExpires => unfold State.wakeExpires; split <;> exact ⟨h1, h2, h3, h4⟩
  | linkCleared => unfold State.linkCleared; split <;> exact ⟨h1, h2, h3, h4⟩
  | motor m => cases m <;> exact ⟨h1, h2, h3, h4⟩
  | startFlush m n => cases m <;> exact ⟨h1, h2, h3, h4⟩
  | endFlush f => unfold State.endFlush State.onMotor; cases f.motor <;> exact ⟨h1, h2, h3, h4⟩
  | _ => exact ⟨h1, h2, h3, h4⟩

end Sys2Proof.Machine
end

