-- ==== Sys2Proof/Laws/Calendar.lean ====
section
/-! SUPPORT. The intervals of the Sample Calendar under every operation (R68, R71): a chain that places makes reservations
only where they overlap none, with the conversion time unchanged; every other chain only removes some. -/
namespace Sys2Proof.Machine

variable {pl tx : Bool}

/-! ### Starts -/

/-- The start instants of the calendar, in list order. -/
def Calendar.starts (c : Calendar) : List Instant := c.reservations.map Reservation.start

theorem Calendar.apart_iff {w : Nat} {c : Calendar} :
    c.apart w ↔ c.starts.Pairwise fun a b => w ≤ elapsed a b ∧ w ≤ elapsed b a := by
  simp only [Calendar.apart, Calendar.starts, List.pairwise_map]
  exact Iff.rfl

theorem Calendar.ordered_iff {c : Calendar} : c.ordered ↔ c.starts.Pairwise fun a b => instantBefore a b = true := by
  simp [Calendar.ordered, Calendar.starts, List.pairwise_map]

theorem Calendar.near_iff {c : Calendar} {now : Instant} :
    c.near now ↔ ∀ a ∈ c.starts, (offsetFrom now a).natAbs < 2 ^ 30 := by
  simp [Calendar.near, Calendar.starts]

theorem changeFirst_starts {test : Reservation → Bool} {f : Reservation → Reservation} (hf : ∀ q, (f q).start = q.start) :
    ∀ l, (changeFirst test f l).map Reservation.start = l.map Reservation.start
  | [] => rfl
  | q :: rest => by
    unfold changeFirst
    split
    · simp [hf]
    · simp [changeFirst_starts hf rest]

theorem insertReservation_mem {r q : Reservation} : ∀ {l}, q ∈ insertReservation r l ↔ q = r ∨ q ∈ l
  | [] => by simp [insertReservation]
  | p :: rest => by
    unfold insertReservation
    split
    · simp
    · simp only [List.mem_cons, insertReservation_mem (l := rest)]
      exact or_left_comm

/-- What a symmetric relation of the new reservation to all the others gives, in any order. -/
theorem insertReservation_pairwise {R : Reservation → Reservation → Prop} (hsymm : ∀ a b, R a b → R b a) {r : Reservation} :
    ∀ {l}, (∀ q ∈ l, R r q) → l.Pairwise R → (insertReservation r l).Pairwise R
  | [], _, _ => by simp [insertReservation]
  | p :: rest, h, hl => by
    rw [List.pairwise_cons] at hl
    unfold insertReservation
    split
    · exact List.pairwise_cons.2 ⟨h, List.pairwise_cons.2 hl⟩
    · refine List.pairwise_cons.2 ⟨fun q hq => ?_, insertReservation_pairwise hsymm (fun q hq => h q (by simp [hq])) hl.2⟩
      rcases insertReservation_mem.1 hq with rfl | hq
      · exact hsymm _ _ (h p (by simp))
      · exact hl.1 q hq

/-! ### The order of near instants -/

theorem offsetFrom_eq_bmod (a b : Instant) : offsetFrom a b = ((b.toNat : Int) - a.toNat).bmod (2 ^ 32) := by
  rw [offsetFrom, BitVec.toInt_sub, BitVec.toInt_eq_toNat_bmod, BitVec.toInt_eq_toNat_bmod, Int.sub_bmod_bmod, Int.bmod_sub_bmod]

theorem instantBefore_iff (a b : Instant) : instantBefore a b = true ↔ offsetFrom b a < 0 := by
  rw [instantBefore, offsetFrom, BitVec.msb_eq_toInt]
  simp

/-- Near an instant, an instant lies before another exactly where its signed distance is the smaller. -/
theorem instantBefore_near {now a b : Instant} (ha : (offsetFrom now a).natAbs < 2 ^ 30)
    (hb : (offsetFrom now b).natAbs < 2 ^ 30) : instantBefore a b = true ↔ offsetFrom now a < offsetFrom now b := by
  have e : a - b = (a - now) - (b - now) := by
    apply BitVec.eq_of_toNat_eq
    bv_omega
  have k : offsetFrom b a = offsetFrom now a - offsetFrom now b := by
    unfold offsetFrom at *
    rw [e, BitVec.toInt_sub]
    rw [Int.bmod_eq_of_le] <;> omega
  rw [instantBefore_iff, k]
  omega

theorem offsetFrom_inj {now a b : Instant} (h : offsetFrom now a = offsetFrom now b) : a = b := by
  have := BitVec.eq_of_toInt_eq h
  bv_omega

/-- Into a list that is ordered near an instant, a start that the list does not hold goes in order. -/
theorem insertReservation_ordered {now : Instant} {r : Reservation} (hr : (offsetFrom now r.start).natAbs < 2 ^ 30) :
    ∀ {l}, (∀ q ∈ l, (offsetFrom now q.start).natAbs < 2 ^ 30 ∧ q.start ≠ r.start) →
      l.Pairwise (fun p q => instantBefore p.start q.start = true) →
      (insertReservation r l).Pairwise fun p q => instantBefore p.start q.start = true
  | [], _, _ => by simp [insertReservation]
  | p :: rest, h, hl => by
    rw [List.pairwise_cons] at hl
    have hp := h p (by simp)
    unfold insertReservation
    split
    · rename_i hrp
      refine List.pairwise_cons.2 ⟨fun q hq => ?_, List.pairwise_cons.2 hl⟩
      rcases List.mem_cons.1 hq with rfl | hq'
      · exact hrp
      · have hq2 := h q hq
        rw [instantBefore_near hr hp.1] at hrp
        have := (instantBefore_near hp.1 hq2.1).1 (hl.1 q hq')
        exact (instantBefore_near hr hq2.1).2 (by omega)
    · rename_i hrp
      refine List.pairwise_cons.2
        ⟨fun q hq => ?_, insertReservation_ordered hr (fun q hq => h q (by simp [hq])) hl.2⟩
      rcases insertReservation_mem.1 hq with rfl | hq
      · rw [instantBefore_near hr hp.1] at hrp
        have hne : offsetFrom now p.start ≠ offsetFrom now q.start := fun e => hp.2 (offsetFrom_inj e)
        exact (instantBefore_near hp.1 hr).2 (by omega)
      · exact hl.1 q hq

/-! ### A placed interval -/

/-- Intervals that do not overlap as offsets from a boundary do not overlap as instants (R71). -/
theorem freeAt_apart {w o : Nat} {b q : Instant} (hw : w ≤ 320) (ho : o < 65536)
    (h : (o : Int) + w ≤ offsetFrom b q ∨ offsetFrom b q + w ≤ (o : Int)) :
    w ≤ elapsed (after b o) q ∧ w ≤ elapsed q (after b o) := by
  unfold offsetFrom elapsed after at *
  have hx := BitVec.toInt_lt (x := q - b)
  have hy := BitVec.le_toInt (x := q - b)
  rw [BitVec.toInt_eq_toNat_cond] at *
  have e1 : q - (b + BitVec.ofNat 32 o) = (q - b) - BitVec.ofNat 32 o := by
    apply BitVec.eq_of_toNat_eq
    bv_omega
  have e2 : (b + BitVec.ofNat 32 o) - q = BitVec.ofNat 32 o - (q - b) := by
    apply BitVec.eq_of_toNat_eq
    bv_omega
  rw [e1, e2]
  generalize q - b = x at *
  have := x.isLt
  rw [BitVec.toNat_sub, BitVec.toNat_sub, BitVec.toNat_ofNat, Nat.mod_eq_of_lt (by omega : o < 2 ^ 32)]
  split at h <;> constructor <;> omega

/-- What an operation on the calendar does to the intervals: the placing one keeps them apart, the others keep some of the
starts. -/
theorem Calendar.Op.intervals {w : Nat} {c d : Calendar} (o : Calendar.Op w pl c d) :
    (pl = false → d.starts.Sublist c.starts)
      ∧ (pl = true → w ≤ 320 →
          (∀ a ∈ c.starts, a ∈ d.starts) ∧ (c.apart w → d.apart w)
            ∧ ∀ now, 0 < w → d.near now → c.ordered → d.ordered) := by
  cases o with
  | insert r b o c hp hl hs ho hf =>
    refine ⟨by simp, fun _ hw => ?_⟩
    have key : ∀ q ∈ c.reservations, Reservation.apart w r q := by
      intro q hq
      simp only [freeAt, List.all_map, List.all_eq_true, Function.comp, Bool.or_eq_true, decide_eq_true_eq] at hf
      have := freeAt_apart (b := b) (q := q.start) hw ho (hf q hq)
      rw [Reservation.apart, hs]
      exact this
    refine ⟨fun a ha => ?_, fun hc => ?_, fun now hw0 hn hc => ?_⟩
    · simp only [Calendar.starts, List.mem_map] at ha ⊢
      obtain ⟨q, hq, e⟩ := ha
      exact ⟨q, insertReservation_mem.2 (.inr hq), e⟩
    · exact insertReservation_pairwise (fun a b h => ⟨h.2, h.1⟩) key hc
    · refine insertReservation_ordered (now := now) (hn r (insertReservation_mem.2 (.inl rfl))) (fun q hq => ⟨hn q (insertReservation_mem.2 (.inr hq)), fun e => ?_⟩) hc
      have := (key q hq).1
      rw [e] at this
      simp [elapsed] at this
      omega
  | remove l _ h => exact ⟨fun _ => h.map _, by simp⟩
  | orphan m c =>
    refine ⟨fun _ => ?_, by simp⟩
    have : (c.reservations.map (Reservation.orphan m)).map Reservation.start = c.reservations.map Reservation.start := by
      rw [List.map_map]
      refine List.map_congr_left fun q _ => ?_
      simp only [Function.comp, Reservation.orphan]
      split <;> rfl
    simp [Calendar.starts, this]
  | convert test k c h =>
    refine ⟨fun _ => ?_, by simp⟩
    simp [Calendar.starts, changeFirst_starts (f := Reservation.convert k) (fun q => rfl)]
  | wait c =>
    refine ⟨fun _ => ?_, by simp⟩
    simp [Calendar.starts, changeFirst_starts (f := fun q => { q with state := .waiting }) (fun q => rfl)]
  | clearMark c => exact ⟨fun _ => List.Sublist.refl _, by simp⟩

/-! ### Whole chains -/

/-- Between two states, the calendar's intervals do what an operation does to them. -/
def State.intervalsTo (pl : Bool) (s t : State) : Prop :=
  (pl = false → t.calendar.starts.Sublist s.calendar.starts)
    ∧ (pl = true → s.device.tConv ≤ 320 → t.device.tConv = s.device.tConv
        ∧ (∀ a ∈ s.calendar.starts, a ∈ t.calendar.starts)
        ∧ (s.calendar.apart s.device.tConv → t.calendar.apart t.device.tConv)
        ∧ ∀ now, 0 < s.device.tConv → t.calendar.near now → s.calendar.ordered → t.calendar.ordered)

theorem State.intervalsTo_same {s t : State} (hc : t.calendar = s.calendar) (hd : t.device = s.device) :
    State.intervalsTo pl s t := by
  refine ⟨fun _ => hc ▸ List.Sublist.refl _, fun _ _ => ⟨by rw [hd], by rw [hc]; exact fun _ h => h, by rw [hc, hd]; exact id, ?_⟩⟩
  rw [hc]
  exact fun _ _ _ h => h

theorem State.intervalsTo.trans {s t u : State} (h : State.intervalsTo pl s t) (k : State.intervalsTo pl t u) :
    State.intervalsTo pl s u := by
  refine ⟨fun e => (k.1 e).trans (h.1 e), fun e hw => ?_⟩
  obtain ⟨a1, a2, a3, a4⟩ := h.2 e hw
  obtain ⟨b1, b2, b3, b4⟩ := k.2 e (by rw [a1]; exact hw)
  refine ⟨b1.trans a1, fun a ha => b2 a (a2 a ha), fun hs => b3 (a3 hs), fun now h0 hn hs => ?_⟩
  refine b4 now (by rw [a1]; exact h0) hn (a4 now h0 ?_ hs)
  rw [Calendar.near_iff] at hn ⊢
  exact fun a ha => hn a (b2 a ha)

theorem State.Op.intervals {s t : State} (o : State.Op pl tx s t) : State.intervalsTo pl s t := by
  cases o with
  | calendar s o =>
    refine ⟨o.intervals.1, fun e hw => ⟨rfl, ?_⟩⟩
    exact o.intervals.2 e hw
  | device d s h => exact ⟨fun _ => List.Sublist.refl _, by simp⟩
  | softRestart s h => exact ⟨fun _ => List.nil_sublist _, by simp⟩
  | selectFalls => unfold State.selectFalls; split <;> exact State.intervalsTo_same rfl rfl
  | windowExpires => unfold State.windowExpires; split <;> exact State.intervalsTo_same rfl rfl
  | wakeExpires => unfold State.wakeExpires; split <;> exact State.intervalsTo_same rfl rfl
  | linkCleared => unfold State.linkCleared; split <;> exact State.intervalsTo_same rfl rfl
  | motor m => exact State.intervalsTo_same (by simp) (by cases m <;> rfl)
  | startFlush m n => exact State.intervalsTo_same (by simp [State.startFlush]) (by cases m <;> rfl)
  | endFlush f =>
    refine State.intervalsTo_same (by simp [State.endFlush]) ?_
    unfold State.endFlush State.onMotor
    cases f.motor <;> rfl
  | _ => exact State.intervalsTo_same rfl rfl

theorem State.Ops.intervals {s t : State} (k : State.Ops pl tx s t) : State.intervalsTo pl s t := by
  induction k with
  | refl => exact State.intervalsTo_same rfl rfl
  | step _ o ih => exact ih.trans o.intervals

theorem State.Run.intervals {s t : State} (k : State.Run pl tx s t) : State.intervalsTo pl s t := by
  cases k with
  | ops k => exact k.intervals
  | capture m n start data a k _ _ ht _ =>
    have : State.intervalsTo pl a (a.onMotor m fun u => u.onSlot n (PlanSlot.capture start data)) :=
      State.intervalsTo_same (by simp) (by cases m <;> rfl)
    exact (k.intervals.trans this).trans ht.intervals

/-- What a step does to the calendar: it is emptied by the reset pin, or its intervals do what the operations do to them. -/
theorem step_intervals {s s' : State} (h : step s = .next s') :
    s'.calendar = { reservations := [], highWater := s'.calendar.highWater }
      ∨ ∃ pl a, a.calendar = s.calendar ∧ a.device = s.device ∧ State.intervalsTo pl a s' := by
  rcases step_cases h with ⟨_, rfl⟩ | ⟨c, rest, _, h⟩
  · obtain ⟨t, p, q, k, hi⟩ := s.idle_eq
    rw [hi]
    exact .inr ⟨true, s, rfl, rfl, State.intervalsTo_same rfl rfl⟩
  · rcases exec_cases h with ⟨t, _, _, rfl⟩ | ⟨p, _, rfl⟩ | ⟨_, k⟩ | ⟨_, t, p, pl, _, k⟩
    · exact .inl rfl
    · exact .inl rfl
    · exact .inr ⟨false, _, rfl, rfl, k.intervals⟩
    · exact .inr ⟨pl, _, rfl, rfl, k.intervals⟩

end Sys2Proof.Machine
end

