-- ==== Sys2Proof/WellFormed.lean ====
section
/-! DEFINITION. Which commands the outside world can give: the shapes of a transaction (R155, R157), and a word write at
an aligned offset (00 "Part-window access"). -/
namespace Sys2Proof

/-- A read's operands fit together: no mode byte without an address, no data without a mode byte (R155). -/
def readShape (addr : Option Addr) (mode : Option Byte) (n : Nat) : Bool :=
  (addr.isSome || mode.isNone) && (mode.isSome || n == 0)

/-- The bytes that are UNKNOWN_COMMAND's: none, those of an unknown first byte (R157), and WRAP-SET, SLEEP, WAKE or
LINK-CLEAR with bytes after its own, which the rows of these commands do not carry (R159, log 16). -/
def unknownShape : List Byte → Bool
  | [] => true
  | b :: rest =>
    match linkCommandOf b with
    | none => true
    | some .wrapSet => decide (2 ≤ rest.length)
    | some .sleep | some .wake | some .linkClear => decide (1 ≤ rest.length)
    | some .read | some .readWrap | some .write => false

/-- The check on a command. Rows without a condition of their own are well formed with any operands. -/
def Instr.wf : Instr → Bool
  | .read addr mode n _ => readShape addr mode n
  | .readWrap addr mode n _ => readShape addr mode n
  | .repeatModeRead addr mode n _ => readShape addr mode n
  | .write addr data _ => addr.isSome || data.isEmpty
  | .unknownCommand bytes _ => unknownShape bytes
  | .settingWordWrite off _ _ => off.toNat % 4 == 0
  | .resetAssert _ => true
  | .resetRelease _ => true
  | .powerOnLinkClearCompletion _ => true
  | .upstreamSelectFall _ => true
  | .wrapSet _ _ => true
  | .sleep _ => true
  | .wake _ => true
  | .linkClear _ => true
  | .linkViolation _ _ _ => true
  | .start _ _ => true
  | .stop _ _ => true
  | .restart _ _ => true
  | .commit _ _ _ _ _ => true
  | .cancel _ _ _ => true
  | .clearCounts _ _ => true
  | .softRestart _ => true
  | .softRestartEffect _ => true
  | .clearCountsDevice _ => true
  | .mapCommit _ => true
  | .logPop _ => true
  | .logClearOverflow _ => true
  | .consumedWrite _ _ _ => true
  | .stagingWordWrite _ _ _ => true
  | .attentionPendingWrite _ _ => true
  | .periodBoundary _ _ => true
  | .gateEdge _ _ _ => true
  | .deadTimeTurnOn _ _ _ => true
  | .stoppingComplete _ _ => true
  | .driverFaultActivation _ _ => true
  | .driverFaultRelease _ _ => true
  | .hallCodeChange _ _ _ => true
  | .hallExamination _ _ => true
  | .commutation _ _ => true
  | .sectorTimeout _ _ => true
  | .reservationStart _ => true
  | .waitingReservationStart _ => true
  | .latestInstant _ => true
  | .resultRecord _ _ _ _ => true
  | .converterTimeout _ => true
  | .flushStart _ => true
  | .flushCompletion _ => true
  | .controllerWindowExpiry _ => true
  | .wakeTimerExpiry _ => true
  | .frameDoneDue _ _ => true
  | .staleTimerExpiry _ _ => true

end Sys2Proof
end

