-- ==== Sys2Proof/Laws/PerInstr.lean ====
section
/-! SUPPORT. What each command's check asks, command by command (R155, R157, 00 "Part-window access"). -/

/-- A read's operands fit together: data only after a mode byte, a mode byte only after an address (R155). -/
def Sys2Proof.Laws.Shape.Fits (addr : Option Sys2Proof.Addr) (mode : Option Sys2Proof.Byte) (n : Nat) : Prop :=
  (addr = none → mode = none) ∧ (mode = none → n = 0)

/-- The bytes after a first byte are no row's of their own: the first byte is unknown (R157), or it is WRAP-SET, SLEEP,
WAKE or LINK-CLEAR with bytes after its own (R159, log 16). -/
def Sys2Proof.Laws.Shape.Unlisted (c : Option Sys2Proof.LinkCommand) (rest : List Sys2Proof.Byte) : Prop :=
  c = none ∨ c = some .wrapSet ∧ 2 ≤ rest.length
    ∨ (c = some .sleep ∨ c = some .wake ∨ c = some .linkClear) ∧ rest ≠ []

/-- A command is well formed exactly where its operands fit together; most commands have no operands that could not. -/
def Sys2Proof.Laws.Shape.Statement (i : Sys2Proof.Instr) : Prop :=
  i.wf = true ↔
    match i with
    | .read addr mode n _ => Sys2Proof.Laws.Shape.Fits addr mode n
    | .readWrap addr mode n _ => Sys2Proof.Laws.Shape.Fits addr mode n
    | .repeatModeRead addr mode n _ => Sys2Proof.Laws.Shape.Fits addr mode n
    | .write addr data _ => addr = none → data = []
    | .unknownCommand bytes _ => ∀ b rest, bytes = b :: rest → Sys2Proof.Laws.Shape.Unlisted (Sys2Proof.linkCommandOf b) rest
    | .settingWordWrite off _ _ => off.toNat % 4 = 0
    | _ => True

theorem Sys2Proof.Laws.Shape.fits_iff (addr : Option Sys2Proof.Addr) (mode : Option Sys2Proof.Byte) (n : Nat) :
    Sys2Proof.readShape addr mode n = true ↔ Sys2Proof.Laws.Shape.Fits addr mode n := by
  cases addr <;> cases mode <;> simp [Sys2Proof.readShape, Sys2Proof.Laws.Shape.Fits]

theorem Sys2Proof.Laws.Shape.resetAssert (t : Sys2Proof.Instant) :
    Sys2Proof.Laws.Shape.Statement (.resetAssert t) := iff_of_true rfl trivial

theorem Sys2Proof.Laws.Shape.resetRelease (straps : BitVec 2) :
    Sys2Proof.Laws.Shape.Statement (.resetRelease straps) := iff_of_true rfl trivial

theorem Sys2Proof.Laws.Shape.powerOnLinkClearCompletion (t : Sys2Proof.Instant) :
    Sys2Proof.Laws.Shape.Statement (.powerOnLinkClearCompletion t) := iff_of_true rfl trivial

theorem Sys2Proof.Laws.Shape.upstreamSelectFall (opening : Sys2Proof.Opening) :
    Sys2Proof.Laws.Shape.Statement (.upstreamSelectFall opening) := iff_of_true rfl trivial

theorem Sys2Proof.Laws.Shape.read (addr : Option Sys2Proof.Addr) (mode : Option Sys2Proof.Byte) (n : Nat) (t : Sys2Proof.Instant) :
    Sys2Proof.Laws.Shape.Statement (.read addr mode n t) := Sys2Proof.Laws.Shape.fits_iff addr mode n

theorem Sys2Proof.Laws.Shape.readWrap (addr : Option Sys2Proof.Addr) (mode : Option Sys2Proof.Byte) (n : Nat) (t : Sys2Proof.Instant) :
    Sys2Proof.Laws.Shape.Statement (.readWrap addr mode n t) := Sys2Proof.Laws.Shape.fits_iff addr mode n

theorem Sys2Proof.Laws.Shape.repeatModeRead (addr : Option Sys2Proof.Addr) (mode : Option Sys2Proof.Byte) (n : Nat) (t : Sys2Proof.Instant) :
    Sys2Proof.Laws.Shape.Statement (.repeatModeRead addr mode n t) := Sys2Proof.Laws.Shape.fits_iff addr mode n

theorem Sys2Proof.Laws.Shape.write (addr : Option Sys2Proof.Addr) (data : List Sys2Proof.Byte) (t : Sys2Proof.Instant) :
    Sys2Proof.Laws.Shape.Statement (.write addr data t) := by
  cases addr <;> simp [Sys2Proof.Laws.Shape.Statement, Sys2Proof.Instr.wf]

theorem Sys2Proof.Laws.Shape.wrapSet (byte : Option Sys2Proof.Byte) (t : Sys2Proof.Instant) :
    Sys2Proof.Laws.Shape.Statement (.wrapSet byte t) := iff_of_true rfl trivial

theorem Sys2Proof.Laws.Shape.sleep (t : Sys2Proof.Instant) :
    Sys2Proof.Laws.Shape.Statement (.sleep t) := iff_of_true rfl trivial

theorem Sys2Proof.Laws.Shape.wake (t : Sys2Proof.Instant) :
    Sys2Proof.Laws.Shape.Statement (.wake t) := iff_of_true rfl trivial

theorem Sys2Proof.Laws.Shape.linkClear (t : Sys2Proof.Instant) :
    Sys2Proof.Laws.Shape.Statement (.linkClear t) := iff_of_true rfl trivial

theorem Sys2Proof.Laws.Shape.unknownCommand (bytes : List Sys2Proof.Byte) (t : Sys2Proof.Instant) :
    Sys2Proof.Laws.Shape.Statement (.unknownCommand bytes t) := by
  cases bytes with
  | nil => simp [Sys2Proof.Laws.Shape.Statement, Sys2Proof.Instr.wf, Sys2Proof.unknownShape]
  | cons b rest =>
    simp [Sys2Proof.Laws.Shape.Statement, Sys2Proof.Instr.wf, Sys2Proof.unknownShape, Sys2Proof.Laws.Shape.Unlisted]
    cases Sys2Proof.linkCommandOf b with
    | none => simp
    | some c => cases c <;> simp [Nat.one_le_iff_ne_zero, List.length_eq_zero_iff]

theorem Sys2Proof.Laws.Shape.linkViolation (first : Option Sys2Proof.Byte) (n : Nat) (t : Sys2Proof.Instant) :
    Sys2Proof.Laws.Shape.Statement (.linkViolation first n t) := iff_of_true rfl trivial

theorem Sys2Proof.Laws.Shape.start (m : Sys2Proof.Motor) (t : Sys2Proof.Instant) :
    Sys2Proof.Laws.Shape.Statement (.start m t) := iff_of_true rfl trivial

theorem Sys2Proof.Laws.Shape.stop (m : Sys2Proof.Motor) (t : Sys2Proof.Instant) :
    Sys2Proof.Laws.Shape.Statement (.stop m t) := iff_of_true rfl trivial

theorem Sys2Proof.Laws.Shape.restart (m : Sys2Proof.Motor) (t : Sys2Proof.Instant) :
    Sys2Proof.Laws.Shape.Statement (.restart m t) := iff_of_true rfl trivial

theorem Sys2Proof.Laws.Shape.commit (m : Sys2Proof.Motor) (slot : Sys2Proof.SlotName) (tag : Sys2Proof.Byte) (kind : Sys2Proof.ActivationKind) (t : Sys2Proof.Instant) :
    Sys2Proof.Laws.Shape.Statement (.commit m slot tag kind t) := iff_of_true rfl trivial

theorem Sys2Proof.Laws.Shape.cancel (m : Sys2Proof.Motor) (slot : Sys2Proof.SlotName) (t : Sys2Proof.Instant) :
    Sys2Proof.Laws.Shape.Statement (.cancel m slot t) := iff_of_true rfl trivial

theorem Sys2Proof.Laws.Shape.clearCounts (m : Sys2Proof.Motor) (t : Sys2Proof.Instant) :
    Sys2Proof.Laws.Shape.Statement (.clearCounts m t) := iff_of_true rfl trivial

theorem Sys2Proof.Laws.Shape.softRestart (t : Sys2Proof.Instant) :
    Sys2Proof.Laws.Shape.Statement (.softRestart t) := iff_of_true rfl trivial

theorem Sys2Proof.Laws.Shape.softRestartEffect (t : Sys2Proof.Instant) :
    Sys2Proof.Laws.Shape.Statement (.softRestartEffect t) := iff_of_true rfl trivial

theorem Sys2Proof.Laws.Shape.clearCountsDevice (t : Sys2Proof.Instant) :
    Sys2Proof.Laws.Shape.Statement (.clearCountsDevice t) := iff_of_true rfl trivial

theorem Sys2Proof.Laws.Shape.mapCommit (t : Sys2Proof.Instant) :
    Sys2Proof.Laws.Shape.Statement (.mapCommit t) := iff_of_true rfl trivial

theorem Sys2Proof.Laws.Shape.logPop (t : Sys2Proof.Instant) :
    Sys2Proof.Laws.Shape.Statement (.logPop t) := iff_of_true rfl trivial

theorem Sys2Proof.Laws.Shape.logClearOverflow (t : Sys2Proof.Instant) :
    Sys2Proof.Laws.Shape.Statement (.logClearOverflow t) := iff_of_true rfl trivial

theorem Sys2Proof.Laws.Shape.consumedWrite (m : Sys2Proof.Motor) (v : Sys2Proof.Word) (t : Sys2Proof.Instant) :
    Sys2Proof.Laws.Shape.Statement (.consumedWrite m v t) := iff_of_true rfl trivial

theorem Sys2Proof.Laws.Shape.stagingWordWrite (entry : Fin 8) (v : Sys2Proof.Word) (t : Sys2Proof.Instant) :
    Sys2Proof.Laws.Shape.Statement (.stagingWordWrite entry v t) := iff_of_true rfl trivial

theorem Sys2Proof.Laws.Shape.attentionPendingWrite (v : Sys2Proof.Word) (t : Sys2Proof.Instant) :
    Sys2Proof.Laws.Shape.Statement (.attentionPendingWrite v t) := iff_of_true rfl trivial

theorem Sys2Proof.Laws.Shape.settingWordWrite (off : BitVec 12) (v : Sys2Proof.Word) (t : Sys2Proof.Instant) :
    Sys2Proof.Laws.Shape.Statement (.settingWordWrite off v t) := by
  simp [Sys2Proof.Laws.Shape.Statement, Sys2Proof.Instr.wf]

theorem Sys2Proof.Laws.Shape.periodBoundary (m : Sys2Proof.Motor) (t : Sys2Proof.Instant) :
    Sys2Proof.Laws.Shape.Statement (.periodBoundary m t) := iff_of_true rfl trivial

theorem Sys2Proof.Laws.Shape.gateEdge (m : Sys2Proof.Motor) (leg : Sys2Proof.LegName) (t : Sys2Proof.Instant) :
    Sys2Proof.Laws.Shape.Statement (.gateEdge m leg t) := iff_of_true rfl trivial

theorem Sys2Proof.Laws.Shape.deadTimeTurnOn (m : Sys2Proof.Motor) (leg : Sys2Proof.LegName) (t : Sys2Proof.Instant) :
    Sys2Proof.Laws.Shape.Statement (.deadTimeTurnOn m leg t) := iff_of_true rfl trivial

theorem Sys2Proof.Laws.Shape.stoppingComplete (m : Sys2Proof.Motor) (t : Sys2Proof.Instant) :
    Sys2Proof.Laws.Shape.Statement (.stoppingComplete m t) := iff_of_true rfl trivial

theorem Sys2Proof.Laws.Shape.driverFaultActivation (m : Sys2Proof.Motor) (t : Sys2Proof.Instant) :
    Sys2Proof.Laws.Shape.Statement (.driverFaultActivation m t) := iff_of_true rfl trivial

theorem Sys2Proof.Laws.Shape.driverFaultRelease (m : Sys2Proof.Motor) (t : Sys2Proof.Instant) :
    Sys2Proof.Laws.Shape.Statement (.driverFaultRelease m t) := iff_of_true rfl trivial

theorem Sys2Proof.Laws.Shape.hallCodeChange (m : Sys2Proof.Motor) (code : Sys2Proof.HallCode) (t : Sys2Proof.Instant) :
    Sys2Proof.Laws.Shape.Statement (.hallCodeChange m code t) := iff_of_true rfl trivial

theorem Sys2Proof.Laws.Shape.hallExamination (m : Sys2Proof.Motor) (t : Sys2Proof.Instant) :
    Sys2Proof.Laws.Shape.Statement (.hallExamination m t) := iff_of_true rfl trivial

theorem Sys2Proof.Laws.Shape.commutation (m : Sys2Proof.Motor) (t : Sys2Proof.Instant) :
    Sys2Proof.Laws.Shape.Statement (.commutation m t) := iff_of_true rfl trivial

theorem Sys2Proof.Laws.Shape.sectorTimeout (m : Sys2Proof.Motor) (t : Sys2Proof.Instant) :
    Sys2Proof.Laws.Shape.Statement (.sectorTimeout m t) := iff_of_true rfl trivial

theorem Sys2Proof.Laws.Shape.reservationStart (t : Sys2Proof.Instant) :
    Sys2Proof.Laws.Shape.Statement (.reservationStart t) := iff_of_true rfl trivial

theorem Sys2Proof.Laws.Shape.waitingReservationStart (t : Sys2Proof.Instant) :
    Sys2Proof.Laws.Shape.Statement (.waitingReservationStart t) := iff_of_true rfl trivial

theorem Sys2Proof.Laws.Shape.latestInstant (t : Sys2Proof.Instant) :
    Sys2Proof.Laws.Shape.Statement (.latestInstant t) := iff_of_true rfl trivial

theorem Sys2Proof.Laws.Shape.resultRecord (input : Sys2Proof.InputNumber) (tag : Sys2Proof.ConverterTag) (value : BitVec 12) (t : Sys2Proof.Instant) :
    Sys2Proof.Laws.Shape.Statement (.resultRecord input tag value t) := iff_of_true rfl trivial

theorem Sys2Proof.Laws.Shape.converterTimeout (t : Sys2Proof.Instant) :
    Sys2Proof.Laws.Shape.Statement (.converterTimeout t) := iff_of_true rfl trivial

theorem Sys2Proof.Laws.Shape.flushStart (t : Sys2Proof.Instant) :
    Sys2Proof.Laws.Shape.Statement (.flushStart t) := iff_of_true rfl trivial

theorem Sys2Proof.Laws.Shape.flushCompletion (t : Sys2Proof.Instant) :
    Sys2Proof.Laws.Shape.Statement (.flushCompletion t) := iff_of_true rfl trivial

theorem Sys2Proof.Laws.Shape.controllerWindowExpiry (t : Sys2Proof.Instant) :
    Sys2Proof.Laws.Shape.Statement (.controllerWindowExpiry t) := iff_of_true rfl trivial

theorem Sys2Proof.Laws.Shape.wakeTimerExpiry (t : Sys2Proof.Instant) :
    Sys2Proof.Laws.Shape.Statement (.wakeTimerExpiry t) := iff_of_true rfl trivial

theorem Sys2Proof.Laws.Shape.frameDoneDue (m : Sys2Proof.Motor) (t : Sys2Proof.Instant) :
    Sys2Proof.Laws.Shape.Statement (.frameDoneDue m t) := iff_of_true rfl trivial

theorem Sys2Proof.Laws.Shape.staleTimerExpiry (m : Sys2Proof.Motor) (t : Sys2Proof.Instant) :
    Sys2Proof.Laws.Shape.Statement (.staleTimerExpiry m t) := iff_of_true rfl trivial
end

