-- ==== Sys2Proof/Laws/Placement.lean ====
section
/-! SUPPORT. What placing the samples of a step, and opening a frame, can do: only the motor's own frames, its marks, the
calendar and the log change (R70 to R75, R117 to R120). -/
namespace Sys2Proof.Machine

/-! ### Halves and open frames -/

/-- A half after entries and positions: its frame and close flag stand; a CLOSING half may have become CLOSED. -/
def Half.Fed (h k : Half) : Prop :=
  k.closeFlag = h.closeFlag ∧ k.sequence = h.sequence ∧ k.tag = h.tag ∧ k.ringSlot = h.ringSlot
    ∧ (k.state = h.state ∨ h.state = .closing ∧ k.state = .closed)

theorem Half.Fed.refl (h : Half) : h.Fed h := ⟨rfl, rfl, rfl, rfl, .inl rfl⟩

theorem Half.Fed.trans {h k l : Half} (a : h.Fed k) (b : k.Fed l) : h.Fed l := by
  obtain ⟨a1, a2, a3, a4, a5⟩ := a
  obtain ⟨b1, b2, b3, b4, b5⟩ := b
  refine ⟨b1.trans a1, b2.trans a2, b3.trans a3, b4.trans a4, ?_⟩
  rcases a5 with a5 | a5
  · rw [← a5]; exact b5
  · rcases b5 with b5 | b5
    · exact .inr ⟨a5.1, b5.trans a5.2⟩
    · rw [a5.2] at b5; cases b5.1

theorem Half.Fed.left {h k : Half} (a : h.Fed k) (hs : h.state = .closed ∨ h.state = .closing) :
    k.state = .closed ∨ k.state = .closing := by
  rcases a.2.2.2.2 with e | e
  · rw [e]; exact hs
  · exact .inl e.2

theorem Half.raiseRequest_fed (h : Half) : h.Fed h.raiseRequest := by
  unfold Half.raiseRequest
  split
  · exact .refl h
  · split
    · exact .refl h
    · exact .refl h
    all_goals split <;> exact .refl h

theorem Half.resolvePosition_fed (k : Nat) (r : Resolution) (h : Half) : h.Fed (h.resolvePosition k r) := by
  refine .trans ?_ (Half.raiseRequest_fed _)
  unfold Half.settleClosing
  split
  · rename_i e; exact ⟨rfl, rfl, rfl, rfl, .inr ⟨e.1, rfl⟩⟩
  · exact .refl h

/-- An open-frame record that only its FULL marks have changed. -/
def OpenFrame.same (f g : OpenFrame) : Prop := g = { f with full := g.full, fullLogged := g.fullLogged }

/-! ### One motor -/

/-- What placing samples changes in its motor: positions and entries of the halves, the FULL marks of the open frame, the
Calendar's marks; nothing else. -/
def MotorUnit.Fed (u v : MotorUnit) : Prop :=
  v = { u with frames := v.frames, marks := v.marks }
    ∧ v.frames = { u.frames with openFrame := v.frames.openFrame, half0 := v.frames.half0, half1 := v.frames.half1 }
    ∧ (∀ n, (u.frames.half n).Fed (v.frames.half n))
    ∧ (u.frames.openFrame = none → v.frames.openFrame = none)
    ∧ ∀ f, u.frames.openFrame = some f → ∃ g, v.frames.openFrame = some g ∧ f.same g

theorem MotorUnit.Fed.refl (u : MotorUnit) : u.Fed u :=
  ⟨rfl, rfl, fun _ => .refl _, id, fun f h => ⟨f, h, rfl⟩⟩

theorem MotorUnit.Fed.trans {u v w : MotorUnit} (a : u.Fed v) (b : v.Fed w) : u.Fed w := by
  obtain ⟨a1, a2, a3, a4, a5⟩ := a
  obtain ⟨b1, b2, b3, b4, b5⟩ := b
  refine ⟨?_, ?_, fun n => (a3 n).trans (b3 n), fun h => b4 (a4 h), fun f h => ?_⟩
  · rw [b1, a1]
  · rw [b2, a2]
  · obtain ⟨g, hg, e⟩ := a5 f h
    obtain ⟨k, hk, e'⟩ := b5 g hg
    refine ⟨k, hk, ?_⟩
    unfold OpenFrame.same at e e' ⊢
    rw [e', e]

theorem MotorUnit.Fed.of_halves {u v : MotorUnit} (h1 : v = { u with frames := v.frames, marks := v.marks })
    (h2 : v.frames = { u.frames with half0 := v.frames.half0, half1 := v.frames.half1 })
    (h3 : ∀ n, (u.frames.half n).Fed (v.frames.half n)) : u.Fed v := by
  have e : v.frames.openFrame = u.frames.openFrame := by rw [h2]
  refine ⟨h1, ?_, h3, fun h => by rw [e]; exact h, fun f h => ⟨f, by rw [e]; exact h, rfl⟩⟩
  rw [h2]

theorem MotorUnit.onHalf_fed (u : MotorUnit) (n : HalfName) (f : Half → Half) (h : (u.frames.half n).Fed (f (u.frames.half n))) :
    u.Fed (u.onFrames fun a => a.onHalf n f) := by
  cases n
  · exact .of_halves rfl rfl fun k => by cases k with | half0 => exact h | half1 => exact .refl _
  · exact .of_halves rfl rfl fun k => by cases k with | half0 => exact .refl _ | half1 => exact h

theorem MotorUnit.storeEntry_fed (u : MotorUnit) (q : Short) (p : Option Nat) (r : Resolution) :
    u.Fed (u.onFrames (FrameAssembler.storeEntry q p r)) := by
  cases p with
  | none => exact .refl u
  | some k =>
    cases hn : u.frames.halfOf q with
    | none =>
      have : u.onFrames (FrameAssembler.storeEntry q (some k) r) = u := by
        simp [MotorUnit.onFrames, FrameAssembler.storeEntry, hn]
      rw [this]
      exact .refl u
    | some n =>
      have : u.onFrames (FrameAssembler.storeEntry q (some k) r) = u.onFrames fun a => a.onHalf n (Half.resolvePosition k r) := by
        simp [MotorUnit.onFrames, FrameAssembler.storeEntry, hn]
      rw [this]
      exact u.onHalf_fed n _ (Half.resolvePosition_fed k r _)

theorem MotorUnit.givePosition_fed (u : MotorUnit) (step : Nat) (r : SampleRequest) : u.Fed (u.givePosition step r) := by
  unfold MotorUnit.givePosition
  split
  · exact .refl u
  · exact u.onHalf_fed _ _ (.refl _)

theorem MotorUnit.markSlid_fed (u : MotorUnit) (q : Short) (p : Option Nat) (b : Bool) : u.Fed (u.markSlid q p b) := by
  unfold MotorUnit.markSlid
  split
  · exact u.onHalf_fed _ _ (.refl _)
  · exact .refl u

theorem MotorUnit.markFull_fed (u : MotorUnit) :
    u.Fed (u.onFrames (FrameAssembler.onOpenFrame fun f => { f with full := true, fullLogged := true })) := by
  refine ⟨rfl, rfl, fun n => by cases n <;> exact .refl _, fun h => ?_, fun f h =>
    ⟨{ f with full := true, fullLogged := true }, ?_, rfl⟩⟩
  · simp [MotorUnit.onFrames, FrameAssembler.onOpenFrame, h]
  · simp [MotorUnit.onFrames, FrameAssembler.onOpenFrame, h]

/-! ### The state -/

/-- What placing samples of the motor `m` changes in the state. -/
def State.Fed (m : Motor) (s t : State) : Prop :=
  t = { s with m0 := t.m0, m1 := t.m1, m2 := t.m2, calendar := t.calendar, log := t.log }
    ∧ (∀ k, k ≠ m → t.motor k = s.motor k) ∧ (s.motor m).Fed (t.motor m)

theorem State.Fed.refl (m : Motor) (s : State) : State.Fed m s s := ⟨rfl, fun _ _ => rfl, .refl _⟩

theorem State.Fed.trans {m : Motor} {s t u : State} (a : State.Fed m s t) (b : State.Fed m t u) : State.Fed m s u :=
  ⟨by rw [b.1, a.1], fun k h => (b.2.1 k h).trans (a.2.1 k h), a.2.2.trans b.2.2⟩

theorem State.onMotor_fed (m : Motor) (s : State) (f : MotorUnit → MotorUnit) (h : (s.motor m).Fed (f (s.motor m))) :
    State.Fed m s (s.onMotor m f) := by
  refine ⟨by cases m <;> rfl, fun k hk => ?_, by rw [State.motor_onMotor_self]; exact h⟩
  rw [State.motor_onMotor, if_neg hk]

theorem State.logMotor_fed (m k : Motor) (s : State) (c : LogCode) (i : Short) : State.Fed m s (s.logMotor k c i) :=
  ⟨rfl, fun j _ => by cases j <;> rfl, by cases m <;> exact .refl _⟩

theorem State.calendar_fed (m : Motor) (s : State) (c : Calendar) : State.Fed m s { s with calendar := c } :=
  ⟨rfl, fun j _ => by cases j <;> rfl, by cases m <;> exact .refl _⟩

theorem State.overCapacity_fed (s : State) (m : Motor) (step index : Nat) : State.Fed m s (s.overCapacity m step index) := by
  unfold State.overCapacity
  refine .trans ?_ (State.onMotor_fed m _ _ (MotorUnit.markFull_fed _))
  split
  · exact .refl m s
  · exact State.logMotor_fed m m s _ _

theorem State.missRequest_fed (s : State) (c : PlacementContext) (full : Bool) :
    State.Fed c.motor s (s.missRequest c full) := by
  unfold State.missRequest
  dsimp only
  have h1 : State.Fed c.motor s (s.storeEntry c.motor c.sequence c.position missed) :=
    State.onMotor_fed _ s _ (MotorUnit.storeEntry_fed _ _ _ _)
  refine .trans (.trans h1 ?_) (State.onMotor_fed _ _ _ (.of_halves rfl rfl fun _ => .refl _))
  split
  · exact .refl _ _
  · exact State.logMotor_fed _ _ _ _ _

theorem State.placeAt_fed (s : State) (c : PlacementContext) (r : SampleRequest) (full : Bool) :
    State.Fed c.motor s (s.placeAt c r full).1 := by
  unfold State.placeAt
  split
  · exact s.missRequest_fed c true
  · split
    · exact .trans (State.calendar_fed _ s _) (State.onMotor_fed _ _ _ (MotorUnit.markSlid_fed _ _ _ _))
    · exact s.missRequest_fed c false

theorem State.placeOne_fed (m : Motor) (b : Instant) (step index : Nat) (r : SampleRequest) (sf : State × Bool) :
    State.Fed m sf.1 (State.placeOne m b step index r sf).1 := by
  unfold State.placeOne
  dsimp only
  split
  · exact State.overCapacity_fed _ _ _ _
  · generalize hc : PlacementContext.mk m b step index _ _ _ = c
    have := State.placeAt_fed sf.1 c r sf.2
    rw [← hc] at this ⊢
    exact this
  · refine .trans (State.onMotor_fed m sf.1 _ (MotorUnit.givePosition_fed _ step r)) ?_
    generalize hc : PlacementContext.mk m b step index _ _ _ = c
    have := State.placeAt_fed (sf.1.onMotor m (MotorUnit.givePosition step r)) c r sf.2
    rw [← hc] at this ⊢
    exact this

theorem State.placeFrom_fed (m : Motor) (b : Instant) (step : Nat) :
    ∀ (l : List SampleRequest) (index : Nat) (sf : State × Bool), State.Fed m sf.1 (State.placeFrom m b step index l sf).1
  | [], _, sf => .refl m sf.1
  | r :: rest, index, sf =>
    .trans (State.placeOne_fed m b step index r sf) (State.placeFrom_fed m b step rest (index + 1) _)

/-- The record of who has placed takes the motor, or stands (R76, log 27). -/
theorem State.notePlacement_noted (s : State) (m : Motor) (b : Instant) : s.placementNoted (s.notePlacement m b) m b := by
  have h := State.placedAbove_false (s := s) (m := m)
  unfold State.placementNoted State.notePlacement
  dsimp only
  rw [← h]
  split
  · rename_i c; exact ⟨fun _ => rfl, fun n => absurd c n⟩
  · rename_i c; exact ⟨fun n => absurd n c, fun _ => rfl⟩

/-- Placing the samples of a step notes who has placed, and beside that changes the motor's frames and marks, the calendar and the log
alone (R70, R76). -/
theorem State.placeStep_fed (s : State) (m : Motor) (b : Instant) (h : (s.motor m).activePlan.isSome = true) :
    State.Fed m (s.notePlacement m b) (s.placeStep m b) := by
  unfold State.placeStep
  split
  · rename_i e; rw [e] at h; cases h
  · exact State.placeFrom_fed m b _ _ 0 (_, false)

/-- Placing the samples of a step notes who has placed, also as seen from an earlier state of the same instant and record (R76). -/
theorem State.placeStep_noted {s a : State} {m : Motor} (b : Instant) (h : (s.motor m).activePlan.isSome = true)
    (ht : s.timebase = a.timebase) (hp : s.placed = a.placed) : a.placementNoted (s.placeStep m b) m b := by
  have e : (s.placeStep m b).placed = (s.notePlacement m b).placed := by rw [(s.placeStep_fed m b h).1]
  have n := s.notePlacement_noted m b
  unfold State.placementNoted at n ⊢
  rwa [ht, hp, ← e] at n

/-- Placing the samples of a step leaves the motor's attention causes (R70). -/
theorem State.placeStep_attention (s : State) (m : Motor) (b : Instant) :
    ((s.placeStep m b).motor m).attention = (s.motor m).attention := by
  cases h : (s.motor m).activePlan with
  | none => simp [State.placeStep, h]
  | some c =>
    rw [(s.placeStep_fed m b (by rw [h]; rfl)).2.2.1]
    simp

/-! ### Opening a frame -/

/-- What opening a frame changes in its motor, beside the frames: the tag of the active slot, the Calendar's marks and the
attention causes that the counters drive (R117 to R120). -/
def MotorUnit.Opened (u v : MotorUnit) : Prop :=
  v = { u with slotA := v.slotA, slotB := v.slotB, marks := v.marks, frames := v.frames, attention := v.attention }
    ∧ (∀ n, v.slot n = if u.activeSlot = some n then (u.slot n).takeNextTag else u.slot n)
    ∧ v.frames.nextSequence = u.frames.nextSequence + 1 ∧ v.frames.produced = u.frames.produced
    ∧ (∀ n, (u.frames.half n).state ≠ .free → v.frames.half n = u.frames.half n)
    ∧ ∃ f, v.frames.openFrame = some f ∧ f.sequence = u.frames.nextSequence ∧ f.countAtOpen = u.channel.periodCount
        ∧ f.periodsCovered = 1 ∧ f.closeFlag = .none
        ∧ f.tag = match u.activeSlot with | some n => (u.slot n).takeNextTag.tag | none => 0

theorem MotorUnit.beginFrame_opened (u : MotorUnit) : u.Opened u.beginFrame := by
  have hslot : ∀ (n : SlotName) (w : MotorUnit), w = u.onSlot n PlanSlot.takeNextTag →
      w.activeSlot = u.activeSlot := by
    intro n w e
    have hs : ∀ p : PlanSlot, p.takeNextTag.state = p.state := by
      intro p; unfold PlanSlot.takeNextTag; split <;> rfl
    subst e
    cases n
    · show (if u.slotA.takeNextTag.state = .active then some SlotName.a else if u.slotB.state = .active then some .b else none) = _
      rw [hs]
      rfl
    · show (if u.slotA.state = .active then some SlotName.a else if u.slotB.takeNextTag.state = .active then some .b else none) = _
      rw [hs]
      rfl
  unfold MotorUnit.beginFrame
  cases h : u.activeSlot with
  | none =>
    refine ⟨rfl, fun n => ?_, rfl, rfl, fun n _ => by cases n <;> rfl, _, rfl, rfl, rfl, rfl, rfl, ?_⟩
    · cases n <;> simp [MotorUnit.slot, h]
    · simp [MotorUnit.newFrame, MotorUnit.activeTag, h]
  | some k =>
    have hk := hslot k _ rfl
    refine ⟨by cases k <;> rfl, fun n => ?_, by cases k <;> rfl, by cases k <;> rfl, fun n _ => by cases k <;> cases n <;> rfl, _, rfl,
      by cases k <;> rfl, by cases k <;> rfl, rfl, rfl, ?_⟩
    · cases n <;> cases k <;> simp [MotorUnit.onSlot, MotorUnit.setSlot, MotorUnit.slot, h]
    · simp only [MotorUnit.newFrame, MotorUnit.activeTag, hk, h]
      cases k <;> rfl

theorem MotorUnit.freeHalf_half {u : MotorUnit} {n k : HalfName} (h : u.frames.freeHalf = some n)
    (hk : (u.frames.half k).state ≠ .free) : k ≠ n := by
  intro e
  subst e
  unfold FrameAssembler.freeHalf at h
  split at h
  · cases h; rename_i e; exact hk e
  · split at h
    · cases h; rename_i e; exact hk e
    · cases h

/-- A frame that has opened takes a FREE half. -/
theorem MotorUnit.Opened.takeHalf {u v : MotorUnit} (a : u.Opened v) (n : HalfName) (hf : v.frames.freeHalf = some n) :
    u.Opened (v.takeHalf n) := by
  obtain ⟨a1, a2, a3, a4, a5, f, b1, b2, b3, b4, b5, b6⟩ := a
  have e : v.takeHalf n =
      { v with frames :=
          { (v.frames.setHalf n (f.newHalf (v.frames.assigned.toNat % v.settings.ringDepth))) with
            openFrame := some { f with storage := some n, ringSlot := some (v.frames.assigned.toNat % v.settings.ringDepth) }
            assigned := v.frames.assigned + 1
            dropRun := false } } := by
    unfold MotorUnit.takeHalf
    rw [b1]
  rw [e]
  refine ⟨by rw [a1], fun k => ?_, by cases n <;> exact a3, by cases n <;> exact a4, fun k hk => ?_, _, rfl, b2, b3, b4, b5, b6⟩
  · rw [← a2 k]; cases k <;> rfl
  · have h1 := a5 k hk
    have h2 : (v.frames.half k).state ≠ .free := by rw [h1]; exact hk
    have h3 := MotorUnit.freeHalf_half hf h2
    rw [← h1]
    cases n <;> cases k <;> first | rfl | exact absurd rfl h3

/-- Frames and attention that change without touching what a frame opening gives. -/
theorem MotorUnit.Opened.onward {u v w : MotorUnit} (a : u.Opened v)
    (h : w = { v with frames := w.frames, attention := w.attention })
    (hf : w.frames = { v.frames with consumed := w.frames.consumed, dropRun := w.frames.dropRun }) : u.Opened w := by
  obtain ⟨a1, a2, a3, a4, a5, f, b⟩ := a
  have hh : ∀ k, w.frames.half k = v.frames.half k := fun k => by rw [hf]; cases k <;> rfl
  refine ⟨by rw [h, a1], fun k => ?_, by rw [hf]; exact a3, by rw [hf]; exact a4, fun k hk => by rw [hh]; exact a5 k hk, f, by rw [hf]; exact b.1, b.2⟩
  rw [← a2 k, h]
  cases k <;> rfl

/-- Opening a frame changes its motor's frames, the tag of its active slot, its marks and causes, and the log alone (R117). -/
theorem State.openFrame_opened (s : State) (m : Motor) :
    (s.motor m).Opened ((s.openFrame m).motor m) ∧ (∀ k, k ≠ m → (s.openFrame m).motor k = s.motor k)
      ∧ s.openFrame m = { s with m0 := (s.openFrame m).m0, m1 := (s.openFrame m).m1, m2 := (s.openFrame m).m2,
                                 log := (s.openFrame m).log } := by
  have h1 := (s.motor m).beginFrame_opened
  have other : ∀ {t : State} {f : MotorUnit → MotorUnit} (k : Motor), k ≠ m → (t.onMotor m f).motor k = t.motor k := by
    intro t f k hk
    rw [State.motor_onMotor, if_neg hk]
  unfold State.openFrame
  dsimp only
  split
  · refine ⟨by rw [State.logMotor_motor, State.motor_onMotor_self]; exact h1, fun k hk => ?_, by cases m <;> rfl⟩
    rw [State.logMotor_motor, other k hk]
  · rename_i n hn
    rw [State.motor_onMotor_self] at hn
    split
    · refine ⟨?_, fun k hk => ?_, by cases m <;> rfl⟩
      · rw [State.motor_onMotor_self, State.motor_onMotor_self]
        exact h1.takeHalf n hn
      · rw [other k hk, other k hk]
    · split
      · unfold State.dropFrame
        dsimp only
        split
        · refine ⟨?_, fun k hk => ?_, by cases m <;> rfl⟩
          · rw [State.motor_onMotor_self, State.motor_onMotor_self]
            exact h1.onward rfl rfl
          · rw [other k hk, other k hk]
        · refine ⟨?_, fun k hk => ?_, by cases m <;> rfl⟩
          · rw [State.motor_onMotor_self, State.logMotor_motor, State.motor_onMotor_self]
            exact h1.onward rfl rfl
          · rw [other k hk, State.logMotor_motor, other k hk]
      · unfold State.overwriteOldest
        refine ⟨?_, fun k hk => ?_, by cases m <;> rfl⟩
        · rw [State.motor_onMotor_self, State.logMotor_motor, State.motor_onMotor_self, State.motor_onMotor_self]
          exact (h1.onward (w := MotorUnit.overwriteOldest _ _) rfl rfl).takeHalf n hn
        · rw [other k hk, State.logMotor_motor, other k hk, other k hk]

end Sys2Proof.Machine
end

