-- ==== Sys2Proof/Laws/Reset.lean ====
section
/-! SUPPORT. The power-on values of one motor meet its properties, and what a change of legs leaves. -/
namespace Sys2Proof.Machine

theorem MotorUnit.reset_channelSound (f : Bool) (c : HallCode) : (MotorUnit.reset f c).channelSound := by
  refine ⟨by simp [MotorUnit.reset, PlanSlot.reset], by simp [MotorUnit.reset, PlanSlot.reset],
    by simp [MotorUnit.reset, PlanSlot.reset, Channel.reset], by simp [MotorUnit.reset, Channel.reset],
    by simp [MotorUnit.reset, Channel.reset], ?_⟩
  intro _ n
  cases n <;> simp [MotorUnit.reset, Channel.reset, Channel.leg, Leg.reset]

theorem MotorUnit.reset_ringSound (f : Bool) (c : HallCode) : (MotorUnit.reset f c).ringSound := by
  simp [MotorUnit.reset, MotorUnit.ringSound, MotorSettings.reset, FrameAssembler.reset, FrameAssembler.taken, Half.taken,
    Half.reset, FrameAssembler.fill]
  intro n
  cases n <;> simp [FrameAssembler.half]

theorem MotorUnit.reset_inRange (f : Bool) (c : HallCode) : (MotorUnit.reset f c).settings.inRange := by
  simp [MotorUnit.reset, MotorSettings.reset, MotorSettings.inRange]

theorem MotorUnit.reset_deadKept (f : Bool) (c : HallCode) (now : Instant) (l0 : LegName → Leg) :
    (MotorUnit.reset f c).DeadKept now l0 := by
  refine ⟨MotorUnit.reset_channelSound f c, MotorUnit.reset_inRange f c, ?_⟩
  simp [MotorUnit.reset, Channel.reset, Channel.legsAll, Leg.Kept, Leg.reset, Leg.turnOnSound]

/-- What setting the legs of a step leaves (R10 claim 4). -/
theorem MotorUnit.setLegs_rest (now b : Instant) (u : MotorUnit) :
    u.setLegs now b = { u with channel := (u.setLegs now b).channel }
      ∧ (u.setLegs now b).channel.state = u.channel.state
      ∧ (u.setLegs now b).channel.periodStart = u.channel.periodStart
      ∧ (u.setLegs now b).channel.periodCount = u.channel.periodCount
      ∧ (u.setLegs now b).channel.stepIndex = u.channel.stepIndex
      ∧ (u.setLegs now b).channel.tripCause = u.channel.tripCause
      ∧ (u.setLegs now b).channel.driveSector = u.channel.driveSector := by
  unfold MotorUnit.setLegs
  split
  · simp
  · split <;> exact ⟨rfl, rfl, rfl, rfl, rfl, rfl, rfl⟩

/-- The ACTIVE slot, where the other is not ACTIVE. -/
theorem MotorUnit.activeSlot_of {u : MotorUnit} {n : SlotName} (h : (u.slot n).state = .active)
    (h2 : (u.slot n.other).state ≠ .active) : u.activeSlot = some n := by
  cases n <;> simp_all [MotorUnit.slot, SlotName.other, MotorUnit.activeSlot, MotorUnit.slotIn]

/-- The PENDING slot, where the other is not PENDING. -/
theorem MotorUnit.pendingSlot_of {u : MotorUnit} {n : SlotName} (h : (u.slot n).state = .pending)
    (h2 : (u.slot n.other).state ≠ .pending) : u.pendingSlot = some n := by
  cases n <;> simp_all [MotorUnit.slot, SlotName.other, MotorUnit.pendingSlot, MotorUnit.slotIn]

/-- No PENDING slot. -/
theorem MotorUnit.pendingSlot_none {u : MotorUnit} {n : SlotName} (h : (u.slot n).state ≠ .pending)
    (h2 : (u.slot n.other).state ≠ .pending) : u.pendingSlot = none := by
  cases n <;> simp_all [MotorUnit.slot, SlotName.other, MotorUnit.pendingSlot, MotorUnit.slotIn]

end Sys2Proof.Machine
end

