-- ==== Sys2Proof/Laws/Words.lean ====
section
/-! SUPPORT. Where a word of the part window stands (11.3), a word as a command (R175, R176), and why no word but START's waits
for a clear instant (R76, log 27). -/
namespace Sys2Proof.Machine

/-- The byte offset of word `w` of a motor block, as the command's operand. -/
theorem motorWord_offset (m : Motor) (w : Nat) (h : w < 256) :
    (BitVec.ofNat 12 (256 * (m.number + 1) + w)).toNat = 256 * (m.number + 1) + w := by
  cases m <;> simp [Motor.number] <;> omega

/-- The word at an offset of a motor block (11.3). -/
theorem wordAt_motor (m : Motor) (w : Nat) (h : w < 256) :
    wordAt (256 * (m.number + 1) + w) = .motorBlock m (motorWordAt w) := by
  have h2 : (256 * (m.number + 1) + w) % 256 = w := by cases m <;> simp [Motor.number] <;> omega
  have h1 : (256 * (m.number + 1) + w) / 256 = m.number + 1 := by cases m <;> simp [Motor.number] <;> omega
  unfold wordAt
  rw [h1, h2]
  cases m <;> rfl

/-! ### Words and START (R76, log 27) -/

/-- A boundary leaves a STOPPED motor. -/
theorem State.ownBoundary_stopped {s : State} {m k : Motor} (h : (s.motor m).channel.state = .stopped) :
    (s.ownBoundary k).motor m = s.motor m := by
  by_cases e : m = k
  · subst e
    unfold State.ownBoundary
    split
    · rfl
    · split
      · simp [h]
      · rfl
  · exact State.ownBoundary_other e s

theorem State.foldBoundaries_stopped {m : Motor} (j : Motor) (b : Instant) : ∀ (l : List Motor) (s : State),
    (s.motor m).channel.state = .stopped →
      (l.foldl (fun s k => if s.boundaryBefore j b k then s.ownBoundary k else s) s).motor m = s.motor m
  | [], _, _ => rfl
  | k :: rest, s, h => by
    have e : (if s.boundaryBefore j b k then s.ownBoundary k else s).motor m = s.motor m := by
      split
      · exact State.ownBoundary_stopped h
      · rfl
    exact (State.foldBoundaries_stopped j b rest _ (by rw [e]; exact h)).trans e

/-- START of one motor leaves the other STOPPED motors. -/
theorem State.start_stopped {s : State} {m k : Motor} (h : (s.motor m).channel.state = .stopped) (e : m ≠ k) :
    (s.start k).motor m = s.motor m := by
  unfold State.start
  split
  · rfl
  · split
    · unfold State.takeStart
      dsimp only
      rw [State.placeStep_other e, State.motor_onMotor_ne _ _ e, State.openFrame_other e, State.motor_onMotor_ne _ _ e]
      exact State.foldBoundaries_stopped k _ _ s h
    · rfl

/-- Every motor that is RUNNING in the second state is so in the first. -/
def State.quiet (s t : State) : Prop := ∀ m, (t.motor m).channel.state = .running → (s.motor m).channel.state = .running

theorem State.quiet.trans {s t u : State} (h : s.quiet t) (k : t.quiet u) : s.quiet u := fun m e => h m (k m e)

theorem State.quiet_same {s t : State} (h : ∀ m, (t.motor m).channel = (s.motor m).channel) : s.quiet t := by
  intro m hs
  rwa [h m] at hs

theorem State.quiet_onMotor (s : State) (k : Motor) (f : MotorUnit → MotorUnit)
    (h : (f (s.motor k)).channel.state = .running → (s.motor k).channel.state = .running) : s.quiet (s.onMotor k f) := by
  intro m hs
  rw [State.motor_onMotor] at hs
  split at hs
  · rename_i e; subst e; exact h hs
  · exact hs

theorem State.logMotor_quiet (s : State) (m : Motor) (c : LogCode) (i : Short) : s.quiet (s.logMotor m c i) :=
  State.quiet_same fun _ => by rw [State.logMotor_motor]

theorem State.refuseDeviceWord_quiet (s : State) (off : Nat) : s.quiet (s.refuseDeviceWord off) :=
  State.quiet_same fun k => by cases k <;> rfl

theorem State.takeDeviceCommand_quiet (s : State) (off : Nat) (v : Word) : s.quiet (s.takeDeviceCommand off v) := by
  unfold State.takeDeviceCommand
  split
  · unfold State.softRestart
    split
    · exact State.quiet_same fun k => by cases k <;> rfl
    · intro m h
      have : ((s.softRestartNow).motor m).channel.state = .stopped := by cases m <;> rfl
      rw [this] at h; cases h
  · exact State.quiet_same fun k => by cases k <;> rfl
  · unfold State.mapCommit
    (repeat' split) <;> exact State.quiet_same fun k => by cases k <;> rfl
  · exact s.refuseDeviceWord_quiet off

theorem State.takeMotorCommand_quiet (s : State) (m : Motor) (off : Nat) (v : Word) (h : motorCommandOf v ≠ some .start) :
    s.quiet (s.takeMotorCommand m off v) := by
  unfold State.takeMotorCommand
  split
  · exact absurd (by assumption) h
  · refine s.quiet_onMotor m _ fun e => ?_
    unfold MotorUnit.stop at e
    split at e <;> simp_all
  · unfold State.restart
    split
    · exact s.logMotor_quiet _ _ _
    · exact s.quiet_onMotor m _ fun e => by simp [MotorUnit.enterStopped] at e
  · unfold State.commit State.commitFresh
    (repeat' split) <;>
      first
      | exact s.logMotor_quiet _ _ _
      | exact s.quiet_onMotor m _ fun e => by simpa using e
  · exact s.quiet_onMotor m _ fun e => by simpa using e
  · exact s.quiet_onMotor m _ fun e => by simpa [MotorUnit.clearCounts, MotorUnit.setNarrow] using e
  · exact s.logMotor_quiet _ _ _

/-- No word but START's makes a STOPPED motor RUNNING. -/
theorem State.takeWord_quiet {s : State} {off : Nat} {v : Word}
    (h : ∀ m, wordAt off = .motorBlock m .command → motorCommandOf v ≠ some .start) : s.quiet (s.takeWord off v) := by
  have device {t : State} (e0 : t.m0 = s.m0) (e1 : t.m1 = s.m1) (e2 : t.m2 = s.m2) : s.quiet t :=
    State.quiet_same fun k => by cases k <;> simp [State.motor, e0, e1, e2]
  unfold State.takeWord
  split
  · unfold State.takeTConv; split <;> exact device rfl rfl rfl
  · unfold State.takeControllerWindow; split <;> exact device rfl rfl rfl
  · unfold State.takeWakeTime; split <;> exact device rfl rfl rfl
  · unfold State.takeInput; split <;> exact device rfl rfl rfl
  · unfold State.takeStaging; split <;> exact device rfl rfl rfl
  · exact device rfl rfl rfl
  · exact State.quiet_same fun k => by cases k <;> rfl
  · exact device (by simp [State.popLog]) (by simp [State.popLog]) (by simp [State.popLog])
  · exact device rfl rfl rfl
  · exact s.takeDeviceCommand_quiet off v
  · rename_i m w e
    unfold State.takeMotorWord
    split
    · unfold State.writeConsumed
      dsimp only
      split
      · split
        · exact device rfl rfl rfl
        · rw [State.onMotor_onMotor]
          exact s.quiet_onMotor m _ fun e => by simpa [MotorUnit.countersChanged, MotorUnit.onFrames] using e
      · exact s.logMotor_quiet _ _ _
    · exact s.takeMotorCommand_quiet m off v (h m e)
    all_goals first
      | exact device rfl rfl rfl
      | (unfold State.takeMotorSetting
         dsimp only
         split
         · refine s.quiet_onMotor m _ fun e => ?_
           rw [MotorUnit.afterSetting_channel] at e
           simpa [MotorUnit.setSettings] using e
         · exact s.logMotor_quiet _ _ _)
  all_goals exact device rfl rfl rfl

/-- Where no STOPPED motor becomes RUNNING, a command is taken at its instant. -/
theorem State.actStart_quiet {t : Instant} {f : State → State} {s : State} (hs : s.inReset = false)
    (h : (s.atInstant t).quiet (f (s.atInstant t))) : State.actStart t f s = .next (f (s.atInstant t)) :=
  State.actStart_next hs (State.startsBehind_none fun m h1 h2 => absurd (h1.symm.trans (h m h2)) (by decide))

/-- An aligned word of the part window that is not START's, as a command (R173). -/
theorem exec_word (s : State) (off : BitVec 12) (v : Word) (t : Instant) (hs : s.inReset = false) (h4 : off.toNat % 4 = 0)
    (h : ∀ m, wordAt off.toNat = .motorBlock m .command → motorCommandOf v ≠ some .start) :
    exec (.settingWordWrite off v t) s = .next ((s.atInstant t).takeWord off.toNat v) := by
  simp only [exec, execSettingWordWrite, if_pos h4]
  exact State.actStart_quiet hs (State.takeWord_quiet h)

/-- A word of a motor block that is not START's, as a command (R173). -/
theorem exec_motorWord (s : State) (m : Motor) (w : Nat) (v : Word) (t : Instant) (hs : s.inReset = false) (h : w < 256)
    (h4 : w % 4 = 0) (hn : motorWordAt w = .command → motorCommandOf v ≠ some .start) :
    exec (.settingWordWrite (BitVec.ofNat 12 (256 * (m.number + 1) + w)) v t) s =
      .next ((s.atInstant t).takeMotorWord m (motorWordAt w) (256 * (m.number + 1) + w) v) := by
  have e : (BitVec.ofNat 12 (256 * (m.number + 1) + w)).toNat % 4 = 0 := by
    rw [motorWord_offset m w h]
    cases m <;> simp [Motor.number] <;> omega
  rw [exec_word s _ v t hs e, motorWord_offset m w h, State.takeWord, wordAt_motor m w h]
  intro k hk
  rw [motorWord_offset m w h, wordAt_motor m w h] at hk
  injection hk with _ hk
  exact hn hk

/-- A START word of a motor block is START (R179). -/
theorem exec_startWord (s : State) (m : Motor) (v : Word) (t : Instant) (hv : motorCommandOf v = some .start) :
    exec (.settingWordWrite (BitVec.ofNat 12 (256 * (m.number + 1) + 0x5C)) v t) s = exec (.start m t) s := by
  have e : (256 * (m.number + 1) + 0x5C) % 4 = 0 := by cases m <;> rfl
  have f : (fun u : State => u.takeWord (256 * (m.number + 1) + 0x5C) v) = State.start m := by
    funext u
    rw [State.takeWord, wordAt_motor m 0x5C (by decide)]
    show u.takeMotorCommand m _ v = _
    simp [State.takeMotorCommand, hv]
  simp only [exec, execSettingWordWrite, motorWord_offset m 0x5C (by decide), if_pos e, execStart, f]

/-- The Decoder's record at a select fall with READY high (R140, R159). -/
def State.openRecord (s : State) : Decoder :=
  { Decoder.idle with
    phase := if s.upstream.repeatState.isSome then .address else .command
    repeatPrefixDue := s.upstream.repeatState.isSome && !s.port.repeatSet }

/-- A transaction that begins with READY high, before its first byte (R140, R159). -/
theorem State.opens_taken {s : State} (hr : s.ready = true) (hl : s.upstream.selectLow = false) :
    s.opens =
      { s with
        upstream := { s.upstream with selectLow := true, readData := [] }
        port := { s.port with issued := [] }
        arbiter := { s.arbiter with state := .controller }
        decoder := s.openRecord } := by
  simp [State.opens, State.selectFalls, State.clearTraces, State.openRecord, hl, hr, Decoder.idle]

/-- A transaction that begins with READY high is its bytes between the select fall and the select rise. -/
theorem State.transact_taken {s : State} (hr : s.ready = true) (hl : s.upstream.selectLow = false) (bytes : List Byte) (n : Nat) :
    s.transact bytes n = (s.opens.takeBytes bytes).completes.selectRises := by
  simp [State.transact, State.opens_taken hr hl, State.openRecord, Decoder.idle]

/-- A transaction that goes on is the rest of its bytes, to the select rise. -/
theorem State.transact_goesOn {s : State} (hl : s.upstream.selectLow = true) (hr : s.decoder.refused = false) (bytes : List Byte)
    (n : Nat) : s.transact bytes n = (s.takeBytes (bytes.drop s.decoder.count)).completes.selectRises := by
  simp [State.transact, State.opens, hl, hr]

@[simp] theorem State.atInstant_ready (s : State) (t : Instant) : (s.atInstant t).ready = s.ready := by
  simp [State.ready]

/-! ### The whole words of a write (R164, R174) -/

/-- The byte of a row that a write leaves, after its first byte (R164). -/
theorem rowByte_cons (off : Nat) (b : Byte) (rest : List Byte) (x : Nat) (hx : x < 256) :
    rowByte off (b :: rest) x = (rowByte (off + 1) rest x).or (if x = off % 256 then some b else none) := by
  unfold rowByte
  dsimp only
  rw [List.length_cons]
  by_cases h : x = off % 256
  · rw [if_pos h]
    have e0 : (x + 256 - off % 256) % 256 = 0 := by omega
    have e1 : (x + 256 - (off + 1) % 256) % 256 = 255 := by omega
    rw [e0, e1]
    by_cases hn : 256 ≤ rest.length
    · have e2 : 0 + 256 * ((rest.length + 1 - 1 - 0) / 256) = 255 + 256 * ((rest.length - 1 - 255) / 256) + 1 := by omega
      rw [e2, List.getElem?_cons_succ, List.getElem?_eq_getElem (by omega)]
      rfl
    · have e2 : 0 + 256 * ((rest.length + 1 - 1 - 0) / 256) = 0 := by omega
      rw [e2, List.getElem?_eq_none (l := rest) (by omega)]
      rfl
  · rw [if_neg h]
    have e1 : (x + 256 - off % 256) % 256 = (x + 256 - (off + 1) % 256) % 256 + 1 := by omega
    rw [e1]
    generalize (x + 256 - (off + 1) % 256) % 256 = f
    have e2 : f + 1 + 256 * ((rest.length + 1 - 1 - (f + 1)) / 256) = f + 256 * ((rest.length - 1 - f) / 256) + 1 := by omega
    rw [e2, List.getElem?_cons_succ, Option.or_none]

/-- Where the bytes of a write to a row stand, the last written first (R164). -/
theorem collectBytes_lookup (x : Nat) (hx : x < 256) : ∀ (data : List Byte) (off : Nat) (acc : List (Nat × Byte)),
    (collectBytes off data acc).lookup x = (rowByte off data x).or (acc.lookup x)
  | [], off, acc => by simp [collectBytes, rowByte]
  | b :: rest, off, acc => by
    rw [collectBytes, collectBytes_lookup x hx rest (off + 1), rowByte_cons off b rest x hx, Option.or_assoc, List.lookup_cons]
    by_cases h : x = off % 256
    · rw [if_pos h, beq_iff_eq.2 h]; simp
    · rw [if_neg h, beq_eq_false_iff_ne.2 h]; simp

theorem filterMap_same {α β : Type} {g h : α → Option β} : ∀ {l : List α}, (∀ i ∈ l, g i = h i) → l.filterMap g = l.filterMap h
  | [], _ => rfl
  | a :: rest, hl => by
    rw [List.filterMap_cons, List.filterMap_cons, hl a List.mem_cons_self,
      filterMap_same fun i hi => hl i (List.mem_cons_of_mem a hi)]

/-- The whole words of a part-window write are those of its row (R164, R174). -/
theorem wholeWords_eq (row start : Nat) (data : List Byte) :
    (wholeWords row (collectBytes start data [])).map (fun w => (BitVec.ofNat 12 w.1, w.2)) = rowWords row start data := by
  unfold wholeWords rowWords
  rw [List.map_filterMap]
  refine filterMap_same fun k hk => ?_
  have hk : k < 64 := by simpa using hk
  rw [wholeWord, collectBytes_lookup _ (by omega), collectBytes_lookup _ (by omega), collectBytes_lookup _ (by omega),
    collectBytes_lookup _ (by omega)]
  simp only [List.lookup_nil, Option.or_none]
  cases rowByte start data (4 * k) <;> cases rowByte start data (4 * k + 1) <;> cases rowByte start data (4 * k + 2) <;>
    cases rowByte start data (4 * k + 3) <;> rfl

end Sys2Proof.Machine
end

