-- ==== Sys2Proof/Laws/Transactions.lean ====
section
/-! SUPPORT. Transactions by their bytes (R155, R159): the bytes of an address, the read view, that bytes which count in two goes
count as one after another, and what the bytes of each kind of transaction come to. -/
namespace Sys2Proof.Machine

/-! ### Addresses and the read view -/

/-- Three bytes of an address join to it (R155). -/
theorem joinAddr_addrBytes (a : Addr) :
    joinAddr (BitVec.ofNat 8 (a.toNat / 65536)) (BitVec.ofNat 8 (a.toNat / 256)) (BitVec.ofNat 8 a.toNat) = a := by
  apply BitVec.eq_of_toNat_eq
  have := a.isLt
  simp only [joinAddr, BitVec.toNat_ofNat]
  omega

/-- The first three bytes of an address are it. -/
theorem addrOf_addrBytes (a : Addr) : addrOf (addrBytes a) = some a := congrArg some (joinAddr_addrBytes a)

/-- Where byte `i` of a WRITE stands (R156). -/
@[simp] theorem rowStep_toNat (a : Addr) (i : Nat) : (rowStep a i).toNat = a.toNat / 256 * 256 + (a.toNat % 256 + i) % 256 := by
  have := a.isLt
  simp only [rowStep, BitVec.toNat_ofNat]
  omega

@[simp] theorem rowStep_zero (a : Addr) : rowStep a 0 = a := by
  apply BitVec.eq_of_toNat_eq
  rw [rowStep_toNat]
  omega

/-- The read view shows the part window (R163). -/
theorem viewByte_partView (s : State) {off : Nat} (h : off < 4096) : viewByte s.partView off = s.readByte off := by
  unfold viewByte State.partView State.readByte
  have e : off - off % 4 = 4 * (off / 4) := by omega
  rw [e, List.getElem?_map, List.getElem?_range (by omega)]
  rfl

/-! ### Bytes that count in two goes -/

/-- A write of a row depends on its offset within the row alone. -/
theorem Memory.writeRow_same (row : Nat) : ∀ (data : List Byte) (o o' : Nat) (m : Memory), o % 256 = o' % 256 →
    Memory.writeRow row o data m = Memory.writeRow row o' data m
  | [], _, _, _, _ => rfl
  | b :: rest, o, o', m, h => by
    unfold Memory.writeRow
    rw [h, Memory.writeRow_same row rest (o + 1) (o' + 1) _ (by omega)]

/-- Bytes written in two goes. -/
theorem Memory.writeRow_append (row : Nat) : ∀ (x y : List Byte) (o : Nat) (m : Memory),
    Memory.writeRow row o (x ++ y) m = Memory.writeRow row (o + x.length) y (Memory.writeRow row o x m)
  | [], _, _, _ => rfl
  | b :: rest, y, o, m => by
    simp only [List.cons_append, Memory.writeRow, List.length_cons]
    rw [Memory.writeRow_append row rest y (o + 1), Nat.add_right_comm o 1, Nat.add_assoc o]

/-- The same for the RAM (R159). -/
theorem Ram.store_append (r : Ram) (a : Addr) (i : Nat) (x y : List Byte) :
    r.store (rowStep a i) (x ++ y) = (r.store (rowStep a i) x).store (rowStep a (i + x.length)) y := by
  unfold Ram.store
  cases h : r.listens with
  | false => simp [h]
  | true =>
    have h' : Ram.listens { r with cells := Memory.writeRow ((rowStep a i).toNat / 256) ((rowStep a i).toNat % 256) x r.cells } = true := h
    simp only [if_true, h', Memory.writeRow_append]
    have e1 : (rowStep a (i + x.length)).toNat / 256 = (rowStep a i).toNat / 256 := by simp only [rowStep_toNat]; omega
    rw [e1, Memory.writeRow_same _ y _ ((rowStep a (i + x.length)).toNat % 256) _ (by simp only [rowStep_toNat]; omega)]

/-- The same for a part-window write (R164). -/
theorem collectBytes_append : ∀ (x y : List Byte) (o : Nat) (acc : List (Nat × Byte)),
    collectBytes o (x ++ y) acc = collectBytes (o + x.length) y (collectBytes o x acc)
  | [], _, _, _ => rfl
  | b :: rest, y, o, acc => by
    simp only [List.cons_append, collectBytes, List.length_cons]
    rw [collectBytes_append rest y (o + 1), Nat.add_right_comm o 1, Nat.add_assoc o]

/-- The same for a captured copy (R27). -/
theorem PlanSlot.capture_append (p : PlanSlot) (a : Addr) (i : Nat) (x y : List Byte) :
    p.capture ((rowStep a i).toNat % 256) (x ++ y)
      = (p.capture ((rowStep a i).toNat % 256) x).capture ((rowStep a (i + x.length)).toNat % 256) y := by
  cases x with
  | nil => cases y <;> rfl
  | cons b x =>
    cases y with
    | nil => simp [PlanSlot.capture]
    | cons c y =>
      unfold PlanSlot.capture
      rw [List.cons_append]
      dsimp only
      rw [← List.cons_append, Memory.writeRow_append,
        Memory.writeRow_same 0 (c :: y) _ ((rowStep a (i + (b :: x).length)).toNat % 256) _ (by simp only [rowStep_toNat]; omega)]
      congr 1
      split <;> simp_all

/-- Data bytes of a read one after another. -/
theorem State.dataBytes_append (s : State) (i m n : Nat) :
    s.dataBytes i m ++ s.dataBytes (i + m) n = s.dataBytes i (m + n) := by
  unfold State.dataBytes
  split
  · rw [← List.map_append, List.range'_append_1]
  · rfl

/-- Byte times of a read one after another (R155, R163). -/
theorem State.readOn_add (s : State) (x y : Nat) :
    (s.readOn (x + y)).onDecoder (Decoder.counted (x + y))
      = (((s.readOn x).onDecoder (Decoder.counted x)).readOn y).onDecoder (Decoder.counted y) := by
  by_cases h2 : s.decoder.offset + x < turnaroundBytes
  · have e : s.readOn x = s := by simp [State.readOn, h2]
    rw [e]
    by_cases h1 : s.decoder.offset + (x + y) < turnaroundBytes
    · have h3 : (s.onDecoder (Decoder.counted x)).decoder.offset + y < turnaroundBytes := by
        show s.decoder.offset + x + y < turnaroundBytes
        omega
      rw [State.readOn, if_pos h1, State.readOn, if_pos h3]
      simp [State.onDecoder, Decoder.counted, Nat.add_assoc]
    · have h3 : ¬(s.onDecoder (Decoder.counted x)).decoder.offset + y < turnaroundBytes := by
        show ¬s.decoder.offset + x + y < turnaroundBytes
        omega
      rw [State.readOn, if_neg h1, State.readOn, if_neg h3]
      have e1 : s.decoder.offset - turnaroundBytes = 0 := by omega
      have e2 : (s.onDecoder (Decoder.counted x)).decoder.offset - turnaroundBytes = 0 := by
        show s.decoder.offset + x - turnaroundBytes = 0
        omega
      have e3 : (s.onDecoder (Decoder.counted x)).decoder.offset + y = s.decoder.offset + (x + y) := Nat.add_assoc ..
      have e4 (n : Nat) : (s.onDecoder (Decoder.counted x)).takeView.dataBytes 0 n = s.takeView.dataBytes 0 n := rfl
      simp only [e1, e2, e3, e4]
      simp [State.onDecoder, State.takeView, Decoder.counted, Nat.add_assoc]
      rfl
  · have h1 : ¬s.decoder.offset + (x + y) < turnaroundBytes := by omega
    rw [State.readOn, if_neg h1]
    generalize hu : (s.readOn x).onDecoder (Decoder.counted x) = u
    have eo : u.decoder.offset = s.decoder.offset + x := by
      rw [← hu, State.readOn, if_neg h2]; rfl
    have h3 : ¬u.decoder.offset + y < turnaroundBytes := by rw [eo]; omega
    have eu : u.takeView = u := by
      rw [← hu, State.readOn, if_neg h2]
      simp [State.onDecoder, State.takeView, Decoder.counted]
    have ed (i n : Nat) : u.dataBytes i n = s.takeView.dataBytes i n := by
      rw [← hu, State.readOn, if_neg h2]; rfl
    rw [State.readOn, if_neg h3]
    simp only [eu, ed, eo]
    have el : s.decoder.offset + x - turnaroundBytes = s.decoder.offset - turnaroundBytes
        + (s.decoder.offset + x - turnaroundBytes - (s.decoder.offset - turnaroundBytes)) := by omega
    have := s.takeView.dataBytes_append (s.decoder.offset - turnaroundBytes)
      (s.decoder.offset + x - turnaroundBytes - (s.decoder.offset - turnaroundBytes))
      (s.decoder.offset + x + y - turnaroundBytes - (s.decoder.offset + x - turnaroundBytes))
    rw [← el] at this
    have en : s.decoder.offset + x - turnaroundBytes - (s.decoder.offset - turnaroundBytes)
          + (s.decoder.offset + x + y - turnaroundBytes - (s.decoder.offset + x - turnaroundBytes))
        = s.decoder.offset + (x + y) - turnaroundBytes - (s.decoder.offset - turnaroundBytes) := by omega
    rw [en] at this
    rw [← this, ← hu, State.readOn, if_neg h2]
    simp [State.onDecoder, Decoder.counted, Nat.add_assoc]

/-- Bytes on the memory port one after another. -/
theorem State.issue_append (s : State) (x y : List Byte) : s.issue (x ++ y) = (s.issue x).issue y := by
  simp [State.issue, List.append_assoc]

/-- Data bytes of a forwarded WRITE one after another (R159). -/
theorem State.passData_append (s : State) (a : Addr) (i : Nat) (x y : List Byte) :
    s.passData (rowStep a i) (x ++ y) = (s.passData (rowStep a i) x).passData (rowStep a (i + x.length)) y := by
  unfold State.passData
  dsimp only
  rw [State.issue_append]
  simp only [State.issue_ram, Ram.store_append]
  rfl

/-- The same for the copies of a motor. -/
theorem MotorUnit.capture_append (u : MotorUnit) (n : SlotName) (a : Addr) (i : Nat) (x y : List Byte) :
    u.onSlot n (PlanSlot.capture ((rowStep a i).toNat % 256) (x ++ y))
      = (u.onSlot n (PlanSlot.capture ((rowStep a i).toNat % 256) x)).onSlot n
          (PlanSlot.capture ((rowStep a (i + x.length)).toNat % 256) y) := by
  cases n
  · exact congrArg (fun p => { u with slotA := p }) (u.slotA.capture_append a i x y)
  · exact congrArg (fun p => { u with slotB := p }) (u.slotB.capture_append a i x y)

/-- A capture leaves a slot that is EMPTY or INACTIVE one of the two. -/
theorem PlanSlot.capture_open {p : PlanSlot} (start : Nat) (x : List Byte) (h : p.state = .empty ∨ p.state = .inactive) :
    (p.capture start x).state = .empty ∨ (p.capture start x).state = .inactive := by
  unfold PlanSlot.capture
  split
  · exact h
  · rcases h with h | h <;> simp [h]

/-- Data bytes of a WRITE of class CAPTURE, where the slot is EMPTY or INACTIVE (R27). -/
theorem State.writeOn_capture {s : State} {a : Addr} {m : Motor} {n : SlotName} (ha : s.decoder.address = some a)
    (hd : s.decoder.decision = some (.capture m n))
    (h : ((s.motor m).slot n).state = .empty ∨ ((s.motor m).slot n).state = .inactive) (x : List Byte) :
    s.writeOn x = (s.passData (rowStep a s.decoder.offset) x).onMotor m fun v =>
      v.onSlot n (PlanSlot.capture ((rowStep a s.decoder.offset).toNat % 256) x) := by
  rcases h with h | h <;> simp only [State.writeOn, ha, hd, h]

/-- Data bytes of a WRITE of class CAPTURE, where the slot is PENDING or ACTIVE (R28). -/
theorem State.writeOn_guarded {s : State} {a : Addr} {m : Motor} {n : SlotName} (ha : s.decoder.address = some a)
    (hd : s.decoder.decision = some (.capture m n))
    (h : ¬(((s.motor m).slot n).state = .empty ∨ ((s.motor m).slot n).state = .inactive)) (x : List Byte) : s.writeOn x = s := by
  simp only [State.writeOn, ha, hd]
  split <;> simp_all

/-- Data bytes of a WRITE one after another (R159, R164). -/
theorem State.writeOn_append (s : State) (x y : List Byte) :
    (s.writeOn (x ++ y)).onDecoder (Decoder.counted (x.length + y.length))
      = (((s.writeOn x).onDecoder (Decoder.counted x.length)).writeOn y).onDecoder (Decoder.counted y.length) := by
  have stays (h : ∀ k z, (s.onDecoder (Decoder.counted k)).writeOn z = s.onDecoder (Decoder.counted k)) :
      (s.writeOn (x ++ y)).onDecoder (Decoder.counted (x.length + y.length))
        = (((s.writeOn x).onDecoder (Decoder.counted x.length)).writeOn y).onDecoder (Decoder.counted y.length) := by
    have h0 (z : List Byte) : s.writeOn z = s := h 0 z
    rw [h0, h0, h]
    simp [State.onDecoder, Decoder.counted, Nat.add_assoc]
  match ha : s.decoder.address, hd : s.decoder.decision with
  | none, _ => exact stays fun k z => by simp only [State.writeOn, State.onDecoder, Decoder.counted, ha]
  | some a, none => exact stays fun k z => by simp only [State.writeOn, State.onDecoder, Decoder.counted, ha, hd]
  | some a, some .forwarded => exact stays fun k z => by simp only [State.writeOn, State.onDecoder, Decoder.counted, ha, hd]
  | some a, some .withheld => exact stays fun k z => by simp only [State.writeOn, State.onDecoder, Decoder.counted, ha, hd]
  | some a, some (.guardedPlan m n) =>
    exact stays fun k z => by simp only [State.writeOn, State.onDecoder, Decoder.counted, ha, hd]
  | some a, some (.guardedResult m) =>
    exact stays fun k z => by simp only [State.writeOn, State.onDecoder, Decoder.counted, ha, hd]
  | some a, some .pass =>
    simp only [State.writeOn, ha, hd, State.passData_append]
    simp [State.onDecoder, Decoder.counted, State.passData, ha, hd, State.issue, Nat.add_assoc]
  | some a, some .partWindow =>
    simp [State.writeOn, State.onDecoder, Decoder.counted, ha, hd, collectBytes_append, Nat.add_assoc]
  | some a, some (.capture m n) =>
    by_cases h : ((s.motor m).slot n).state = .empty ∨ ((s.motor m).slot n).state = .inactive
    · rw [State.writeOn_capture ha hd h, State.writeOn_capture ha hd h]
      have hm : ((((s.passData (rowStep a s.decoder.offset) x).onMotor m fun v =>
          v.onSlot n (PlanSlot.capture ((rowStep a s.decoder.offset).toNat % 256) x)).onDecoder (Decoder.counted x.length)).motor m)
            = (s.motor m).onSlot n (PlanSlot.capture ((rowStep a s.decoder.offset).toNat % 256) x) := by cases m <;> rfl
      rw [State.writeOn_capture (a := a) (m := m) (n := n)]
      · rw [State.passData_append]
        simp only [MotorUnit.capture_append]
        cases m <;> simp [State.onMotor, State.setMotor, State.motor, State.passData, State.issue, State.onDecoder, Decoder.counted,
          Nat.add_assoc]
      · cases m <;> exact ha
      · cases m <;> exact hd
      · rw [hm]
        cases n <;> exact PlanSlot.capture_open _ x h
    · exact stays fun k z =>
        State.writeOn_guarded (s := s.onDecoder (Decoder.counted k)) (a := a) (m := m) (n := n) ha hd (by cases m <;> exact h) z

/-- Bytes after a WRAP-SET one after another (R158). -/
theorem State.takeWrapBytes_append (s : State) (x y : List Byte) (hx : x ≠ []) :
    (s.takeWrapBytes (x ++ y)).onDecoder (Decoder.counted (x.length + y.length))
      = (((s.takeWrapBytes x).onDecoder (Decoder.counted x.length)).takeWrapBytes y).onDecoder (Decoder.counted y.length) := by
  obtain ⟨b, rest, rfl⟩ := List.exists_cons_of_ne_nil hx
  have go (r : State) (hr : r.decoder = s.decoder) (e : ∀ z, s.takeWrapBytes (b :: z) = r.issue (b :: z)) :
      (s.takeWrapBytes (b :: rest ++ y)).onDecoder (Decoder.counted ((b :: rest).length + y.length))
        = (((s.takeWrapBytes (b :: rest)).onDecoder (Decoder.counted (b :: rest).length)).takeWrapBytes y).onDecoder
            (Decoder.counted y.length) := by
    rw [List.cons_append, e, e]
    have late : ((r.issue (b :: rest)).onDecoder (Decoder.counted (b :: rest).length)).takeWrapBytes y
        = ((r.issue (b :: rest)).onDecoder (Decoder.counted (b :: rest).length)).issue y := by
      simp [State.takeWrapBytes, State.onDecoder, Decoder.counted]
    rw [late]
    simp [State.onDecoder, Decoder.counted, State.issue, Nat.add_assoc]
  by_cases h : s.decoder.offset = 0
  · cases hw : wrapSettingOf b with
    | none => exact go s rfl fun z => by simp [State.takeWrapBytes, h, hw]
    | some w =>
      exact go { s with upstream := { s.upstream with wrap := w },
                        ram := if s.ram.listens then { s.ram with wrap := w } else s.ram } rfl
        fun z => by simp only [State.takeWrapBytes, h, hw, if_true, List.head?_cons, Option.bind_some]; rfl
  · exact go s rfl fun z => by simp [State.takeWrapBytes, h]

/-- Bytes after another command one after another. -/
theorem State.passOn_append (s : State) (x y : List Byte) :
    (s.passOn (x ++ y)).onDecoder (Decoder.counted (x.length + y.length))
      = (((s.passOn x).onDecoder (Decoder.counted x.length)).passOn y).onDecoder (Decoder.counted y.length) := by
  unfold State.passOn
  by_cases h : s.decoder.decision = some .forwarded
  · simp [h, State.onDecoder, Decoder.counted, State.issue, Nat.add_assoc]
  · simp [h, State.onDecoder, Decoder.counted, Nat.add_assoc]

/-- Data pass without a change of the command, and end in the data phase or where they began. -/
theorem State.takeData_record (s : State) (x : List Byte) :
    (s.takeData x).decoder.command = s.decoder.command
      ∧ ((s.takeData x).decoder.phase = .data ∨ (s.takeData x).decoder.phase = s.decoder.phase) := by
  have view : s.takeView.decoder.command = s.decoder.command ∧ s.takeView.decoder.phase = .data := ⟨rfl, rfl⟩
  have read (n : Nat) : ((s.readOn n).onDecoder (Decoder.counted x.length)).decoder.command = s.decoder.command
      ∧ (((s.readOn n).onDecoder (Decoder.counted x.length)).decoder.phase = .data
        ∨ ((s.readOn n).onDecoder (Decoder.counted x.length)).decoder.phase = s.decoder.phase) := by
    unfold State.readOn
    dsimp only
    split
    · exact ⟨rfl, .inr rfl⟩
    · exact ⟨rfl, .inl rfl⟩
  have pass : ((s.passOn x).onDecoder (Decoder.counted x.length)).decoder.command = s.decoder.command
      ∧ (((s.passOn x).onDecoder (Decoder.counted x.length)).decoder.phase = .data
        ∨ ((s.passOn x).onDecoder (Decoder.counted x.length)).decoder.phase = s.decoder.phase) := by
    unfold State.passOn
    split <;> exact ⟨rfl, .inr rfl⟩
  unfold State.takeData
  dsimp only
  split
  · unfold State.writeOn
    (repeat' split) <;> simp [State.onDecoder, Decoder.counted, State.passData]
  · unfold State.takeWrapBytes
    dsimp only
    split <;> exact ⟨rfl, .inr rfl⟩
  all_goals first | exact read _ | exact pass | exact ⟨rfl, .inr rfl⟩

/-- Bytes after the header one after another. -/
theorem State.takeData_append (s : State) (x y : List Byte) (hx : x ≠ []) :
    s.takeData (x ++ y) = (s.takeData x).takeData y := by
  have hc := (s.takeData_record x).1
  unfold State.takeData at hc ⊢
  dsimp only at hc ⊢
  rw [hc]
  cases h : s.decoder.command with
  | none => simp [State.onDecoder, Decoder.counted, Nat.add_assoc]
  | some k =>
    cases k with
    | unknown => simp only [List.length_append]; exact s.passOn_append x y
    | repeated k => simp only [List.length_append]; exact s.readOn_add _ _
    | known c =>
      cases c <;> simp only [List.length_append]
      · exact s.readOn_add _ _
      · exact s.readOn_add _ _
      · exact s.writeOn_append x y
      · exact s.takeWrapBytes_append x y hx
      · exact s.passOn_append x y
      · exact s.passOn_append x y
      · exact s.passOn_append x y

/-- Bytes that count in two goes count as one after another. -/
theorem State.takeBytes_append : ∀ (x y : List Byte) (s : State), s.takeBytes (x ++ y) = (s.takeBytes x).takeBytes y
  | [], _, _ => rfl
  | b :: rest, y, s => by
    have data (h : s.decoder.phase = .data ∨ s.decoder.phase = .turnaround ∨ s.decoder.phase = .idle) :
        s.takeBytes (b :: rest ++ y) = (s.takeBytes (b :: rest)).takeBytes y := by
      have e (z : List Byte) : s.takeBytes (b :: z) = s.takeData (b :: z) := by
        rcases h with h | h | h <;> simp [State.takeBytes, h]
      rw [List.cons_append, e, e]
      cases y with
      | nil => simp [State.takeBytes]
      | cons c y =>
        rw [← List.cons_append, State.takeData_append s (b :: rest) (c :: y) (by simp)]
        have := (s.takeData_record (b :: rest)).2
        have hp : (s.takeData (b :: rest)).decoder.phase = .data ∨ (s.takeData (b :: rest)).decoder.phase = .turnaround
            ∨ (s.takeData (b :: rest)).decoder.phase = .idle := by
          rcases this with k | k
          · exact .inl k
          · rw [k]; exact h
        rcases hp with hp | hp | hp <;> simp [State.takeBytes, hp]
    match h : s.decoder.phase with
    | .command | .address | .mode =>
      simp only [List.cons_append, State.takeBytes, h]
      exact State.takeBytes_append rest y _
    | .data => exact data (.inl h)
    | .turnaround => exact data (.inr (.inl h))
    | .idle => exact data (.inr (.inr h))

/-! ### Headers -/

/-- After the header, the bytes of a transaction are its data. -/
theorem State.takeBytes_data {s : State} (h : s.decoder.phase = .data ∨ s.decoder.phase = .turnaround ∨ s.decoder.phase = .idle)
    {bytes : List Byte} (hb : bytes ≠ []) : s.takeBytes bytes = s.takeData bytes := by
  cases bytes with
  | nil => exact absurd rfl hb
  | cons b rest => rcases h with h | h | h <;> simp [State.takeBytes, h]

/-- The state at a completed address, after the command byte `c` (R159). -/
def State.atAddress (s : State) (c : LinkCommand) (a : Addr) : State :=
  s.onDecoder fun d =>
    { d with phase := .address, command := some (.known c), count := 4, addressBytes := addrBytes a, address := some a }

/-- The record of a transaction that has its command byte still to come. -/
def Decoder.fresh (d : Decoder) : Prop := d.phase = .command ∧ d.count = 0 ∧ d.addressBytes = []

/-- A byte before the data of a transaction counts by itself. -/
theorem State.takeBytes_header {s : State} (h : s.decoder.phase = .command ∨ s.decoder.phase = .address ∨ s.decoder.phase = .mode)
    (b : Byte) (rest : List Byte) : s.takeBytes (b :: rest) = (s.takeByte b).takeBytes rest := by
  rcases h with h | h | h <;> simp [State.takeBytes, h]

/-- A READ, READ-WRAP or WRITE up to its third address byte (R155, R159). -/
theorem State.takeBytes_addressed {s : State} (h : s.decoder.fresh) {c : LinkCommand} (hc : c = .read ∨ c = .readWrap ∨ c = .write)
    (a : Addr) (rest : List Byte) :
    s.takeBytes (c.code :: (addrBytes a ++ rest)) =
      (match c with
        | .read => (s.atAddress .read a).forwardRead .read a
        | .readWrap => (s.atAddress .readWrap a).forwardRead .readWrap a
        | _ => (s.atAddress .write a).classifyWrite a).takeBytes rest := by
  obtain ⟨hp, hn, hb⟩ := h
  have e : joinAddr (BitVec.ofNat 8 (a.toNat / 65536)) (BitVec.ofNat 8 (a.toNat / 256)) (BitVec.ofNat 8 a.toNat) = a :=
    joinAddr_addrBytes a
  generalize h0 : BitVec.ofNat 8 (a.toNat / 65536) = b0 at e
  generalize h1 : BitVec.ofNat 8 (a.toNat / 256) = b1 at e
  generalize h2 : BitVec.ofNat 8 a.toNat = b2 at e
  have ea : addrBytes a = [b0, b1, b2] := by rw [addrBytes, h0, h1, h2]
  rw [ea]
  have k1 : s.takeByte c.code = s.onDecoder fun d =>
      { d with phase := .address, command := some (.known c), count := 1 } := by
    rcases hc with rfl | rfl | rfl <;>
      simp [State.takeByte, hp, hn, State.takeCommandByte, linkCommandOf, LinkCommand.code, State.onDecoder]
  simp only [List.cons_append, List.nil_append]
  have part (u : State) (l : List Byte) (b : Byte) (hu : u.decoder.phase = .address) (hk : u.decoder.command = some (.known c))
      (hl : u.decoder.addressBytes = l) (hs : l.length < 2) :
      u.takeByte b = u.onDecoder fun d => { d with count := d.count + 1, addressBytes := l ++ [b], address := none } := by
    have ho : addrOf (l ++ [b]) = none := by
      match l, hs with
      | [], _ => rfl
      | [_], _ => rfl
    simp [State.takeByte, hu, State.takeAddressByte, State.onDecoder, hl, ho, hk]
  have k2 := part (s.onDecoder fun d => { d with phase := .address, command := some (.known c), count := 1 }) [] b0 rfl rfl hb
    (by simp)
  have k3 := part ((s.onDecoder fun d => { d with phase := .address, command := some (.known c), count := 1 }).onDecoder fun d =>
    { d with count := d.count + 1, addressBytes := [] ++ [b0], address := none }) [b0] b1 rfl rfl rfl (by simp)
  rw [State.takeBytes_header (.inl hp), k1, State.takeBytes_header (.inr (.inl rfl)), k2, State.takeBytes_header (.inr (.inl rfl)),
    k3, State.takeBytes_header (.inr (.inl rfl))]
  congr 1
  rcases hc with rfl | rfl | rfl <;>
    simp [State.takeByte, State.takeAddressByte, State.onDecoder, addrOf, e, Decoder.readKind, State.atAddress, ea]

/-- A repeat-mode read up to its third address byte (R150, R157). -/
theorem State.takeBytes_repeated {s : State} {k : ReadKind} (hp : s.decoder.phase = .address) (hc : s.decoder.command = none)
    (hn : s.decoder.count = 0) (hb : s.decoder.addressBytes = []) (hk : s.upstream.repeatState = some k) (a : Addr)
    (rest : List Byte) :
    s.takeBytes (addrBytes a ++ rest) =
      ((s.onDecoder fun d =>
        { d with command := some (.repeated k), count := 3, addressBytes := addrBytes a, address := some a }).forwardRead k a).takeBytes
        rest := by
  have e : joinAddr (BitVec.ofNat 8 (a.toNat / 65536)) (BitVec.ofNat 8 (a.toNat / 256)) (BitVec.ofNat 8 a.toNat) = a :=
    joinAddr_addrBytes a
  generalize h0 : BitVec.ofNat 8 (a.toNat / 65536) = b0 at e
  generalize h1 : BitVec.ofNat 8 (a.toNat / 256) = b1 at e
  generalize h2 : BitVec.ofNat 8 a.toNat = b2 at e
  have ea : addrBytes a = [b0, b1, b2] := by rw [addrBytes, h0, h1, h2]
  rw [ea]
  simp only [List.cons_append, List.nil_append]
  have k1 : s.takeByte b0 = s.onDecoder fun d =>
      { d with command := some (.repeated k), count := 1, addressBytes := [b0], address := none } := by
    simp [State.takeByte, hp, hc, hn, hb, hk, State.takeAddressByte, State.onDecoder, addrOf]
  have k2 : (s.takeByte b0).takeByte b1 = s.onDecoder fun d =>
      { d with command := some (.repeated k), count := 2, addressBytes := [b0, b1], address := none } := by
    rw [k1]
    simp [State.takeByte, hp, State.takeAddressByte, State.onDecoder, addrOf]
  have p1 : (s.takeByte b0).decoder.phase = .address := by rw [k1]; exact hp
  have p2 : ((s.takeByte b0).takeByte b1).decoder.phase = .address := by rw [k2]; exact hp
  rw [State.takeBytes_header (.inr (.inl hp)), State.takeBytes_header (.inr (.inl p1)), State.takeBytes_header (.inr (.inl p2)), k2]
  congr 1
  simp [State.takeByte, hp, State.takeAddressByte, State.onDecoder, addrOf, e, Decoder.readKind]

/-- The mode byte of a read, and what follows it (R155, R163). -/
theorem State.takeBytes_mode {s : State} {k : ReadKind} (hp : s.decoder.phase = .mode) (hk : s.decoder.readKind = some k) (b : Byte)
    {rest : List Byte} (hr : rest ≠ []) :
    s.takeBytes (b :: rest) = (s.takeByte b).takeData rest := by
  have hk' : (s.onDecoder fun d => { d with count := d.count + 1 }).decoder.readKind = some k := hk
  have e : s.takeByte b = State.takeModeByte b (s.onDecoder fun d => { d with count := d.count + 1 }) := by
    unfold State.takeByte
    simp only [hp]
  rw [State.takeBytes_header (.inr (.inr hp))]
  refine State.takeBytes_data (.inr (.inl ?_)) hr
  rw [e, State.takeModeByte, hk']
  rfl

/-! ### What bytes leave of the record, and the words a WRITE hands on (R159, R164, R174) -/

/-- Data pass without a change of what the record says of the transaction (R159). -/
theorem State.takeData_stands (s : State) (x : List Byte) :
    (s.takeData x).decoder.command = s.decoder.command ∧ (s.takeData x).decoder.address = s.decoder.address
      ∧ (s.takeData x).decoder.decision = s.decoder.decision ∧ (s.takeData x).window = s.window := by
  have read (n : Nat) (d : Decoder) (h : d = (s.readOn n).decoder) :
      d.command = s.decoder.command ∧ d.address = s.decoder.address ∧ d.decision = s.decoder.decision := by
    subst h
    unfold State.readOn
    dsimp only
    split <;> exact ⟨rfl, rfl, rfl⟩
  have readw (n : Nat) : (s.readOn n).window = s.window := by
    unfold State.readOn
    dsimp only
    split <;> rfl
  unfold State.takeData
  dsimp only
  split
  · unfold State.writeOn
    (repeat' split) <;> simp [State.onDecoder, Decoder.counted, State.passData]
  · unfold State.takeWrapBytes
    dsimp only
    split <;> exact ⟨rfl, rfl, rfl, rfl⟩
  all_goals first
    | exact ⟨(read _ _ rfl).1, (read _ _ rfl).2.1, (read _ _ rfl).2.2, readw _⟩
    | (unfold State.passOn; split <;> exact ⟨rfl, rfl, rfl, rfl⟩)
    | exact ⟨rfl, rfl, rfl, rfl⟩

/-- Bytes in the data of a transaction leave what the record says of it (R159). -/
theorem State.takeBytes_stands {s : State} (h : s.decoder.phase = .data) (x : List Byte) :
    (s.takeBytes x).decoder.command = s.decoder.command ∧ (s.takeBytes x).decoder.address = s.decoder.address
      ∧ (s.takeBytes x).decoder.decision = s.decoder.decision ∧ (s.takeBytes x).window = s.window := by
  cases x with
  | nil => exact ⟨rfl, rfl, rfl, rfl⟩
  | cons b rest =>
    rw [State.takeBytes_data (.inl h) (by simp)]
    exact s.takeData_stands _

/-- A read stays one, and hands on no word (R159, R164). -/
theorem State.takeByte_read {s : State} {k : ReadKind} (hk : s.decoder.readKind = some k)
    (hp : s.decoder.phase = .address ∨ s.decoder.phase = .mode)
    (hd : s.decoder.decision ≠ some .partWindow) (b : Byte) :
    (s.takeByte b).decoder.readKind = some k ∧ (s.takeByte b).decoder.phase ≠ .command
      ∧ (s.takeByte b).decoder.decision ≠ some .partWindow := by
  have hc : ∃ c, s.decoder.command = some c := by
    cases h : s.decoder.command with
    | none => simp [Decoder.readKind, h] at hk
    | some c => exact ⟨c, rfl⟩
  obtain ⟨c, hc⟩ := hc
  unfold State.takeByte
  rcases hp with hp | hp
  · rw [hp]
    dsimp only
    generalize hu : (s.onDecoder fun d => { d with count := d.count + 1 }) = u
    have uk : u.decoder.readKind = some k := by rw [← hu]; exact hk
    have uc : u.decoder.command = some c := by rw [← hu]; exact hc
    have ud : u.decoder.decision ≠ some .partWindow := by rw [← hu]; exact hd
    have up : u.decoder.phase = .address := by rw [← hu]; exact hp
    unfold State.takeAddressByte
    dsimp only
    generalize hv : (u.onDecoder fun d =>
      { d with
        command := d.command.or (u.upstream.repeatState.map .repeated)
        addressBytes := d.addressBytes ++ [b]
        address := addrOf (d.addressBytes ++ [b]) }) = v
    have vk : v.decoder.readKind = some k := by
      rw [← hv, ← uk]
      simp [State.onDecoder, Decoder.readKind, uc]
    have vp : v.decoder.phase = .address := by rw [← hv]; exact up
    have vd : v.decoder.decision ≠ some .partWindow := by rw [← hv]; exact ud
    rw [vk]
    split
    · exact ⟨vk, by rw [vp]; decide, vd⟩
    · rename_i a k' _ e
      cases e
      exact ⟨vk, by simp [State.forwardRead, State.onDecoder], by simp [State.forwardRead, State.onDecoder]⟩
    · rename_i e; cases e
  · rw [hp]
    dsimp only
    generalize hu : (s.onDecoder fun d => { d with count := d.count + 1 }) = u
    have uk : u.decoder.readKind = some k := by rw [← hu]; exact hk
    have ud : u.decoder.decision ≠ some .partWindow := by rw [← hu]; exact hd
    unfold State.takeModeByte
    rw [uk]
    exact ⟨uk, by simp [State.onDecoder], ud⟩

/-- Bytes of a read hand on no word. -/
theorem State.takeBytes_read_hands : ∀ (x : List Byte) {s : State} {k : ReadKind}, s.decoder.readKind = some k →
    s.decoder.phase ≠ .command → s.decoder.decision ≠ some .partWindow → (s.takeBytes x).handed = []
  | [], s, k, _, _, hd => by
    unfold State.takeBytes State.handed
    split
    · rename_i h; exact absurd h hd
    · rfl
  | b :: rest, s, k, hk, hp, hd => by
    unfold State.takeBytes
    have data : (s.takeData (b :: rest)).handed = [] := by
      have := s.takeData_stands (b :: rest)
      unfold State.handed
      rw [this.2.2.1]
      split
      · rename_i h; exact absurd h hd
      · rfl
    match hq : s.decoder.phase with
    | .command => exact absurd hq hp
    | .data | .turnaround | .idle => exact data
    | .address =>
      have := State.takeByte_read hk (.inl hq) hd b
      exact State.takeBytes_read_hands rest this.1 this.2.1 this.2.2
    | .mode =>
      have := State.takeByte_read hk (.inr hq) hd b
      exact State.takeBytes_read_hands rest this.1 this.2.1 this.2.2

/-- The record of a WRITE that has been classified (R159, R164). -/
theorem State.classifyWrite_decoder (s : State) (a : Addr) :
    (s.classifyWrite a).decoder = { s.decoder with phase := .data, decision := some (s.classify (a.toNat / 256)) }
      ∧ (s.classifyWrite a).window = s.window := by
  unfold State.classifyWrite
  dsimp only
  split <;> rename_i e <;> simp [State.onDecoder, e]

/-- A WRITE is to the part window by its row alone (R164). -/
theorem State.classify_partWindow {s : State} {row : Nat} : s.classify row = .partWindow ↔ inPartWindow s.window.position row = true := by
  unfold State.classify
  split
  · simp_all
  · rename_i h
    refine ⟨fun k => ?_, fun k => absurd k h⟩
    (repeat' split at k) <;> cases k

/-- The words that a part-window write has collected, whole (R164, R174). -/
theorem State.takeBytes_write_hands {s : State} (h : s.decoder.fresh) (hw : s.decoder.writeWords = []) (ho : s.decoder.offset = 0)
    (a : Addr) (data : List Byte) :
    (s.takeBytes (LinkCommand.code .write :: (addrBytes a ++ data))).handed =
      if inPartWindow s.window.position (a.toNat / 256) = true then
        wholeWords (a.toNat / 256 - windowFirstRow s.window.position) (collectBytes (a.toNat % 256) data [])
      else [] := by
  rw [State.takeBytes_addressed h (.inr (.inr rfl))]
  dsimp only
  obtain ⟨hd, hwin⟩ := (s.atAddress .write a).classifyWrite_decoder a
  generalize hu : (s.atAddress .write a).classifyWrite a = u at hd hwin
  have hs := State.takeBytes_stands (s := u) (by rw [hd]) data
  have hda : u.decoder.address = some a := by rw [hd]; rfl
  have hwin' : u.window = s.window := hwin
  by_cases hp : inPartWindow s.window.position (a.toNat / 256) = true
  · have hc : u.decoder.decision = some .partWindow := by
      rw [hd]
      exact congrArg some (State.classify_partWindow.2 hp)
    have hwd : (u.takeBytes data).decoder.writeWords = collectBytes (a.toNat % 256) data [] := by
      have h0 : u.decoder.writeWords = [] := by rw [hd]; exact hw
      have h1 : u.decoder.offset = 0 := by rw [hd]; exact ho
      cases data with
      | nil => exact h0
      | cons b rest =>
        rw [State.takeBytes_data (.inl (by rw [hd])) (by simp)]
        have hk : u.decoder.command = some (.known .write) := by rw [hd]; rfl
        simp [State.takeData, hk, State.writeOn, hda, hc, State.onDecoder, Decoder.counted, h0, h1]
    unfold State.handed
    rw [hs.2.1, hs.2.2.1, hda, hc, hs.2.2.2, hwin', if_pos hp, hwd]
  · have hc : u.decoder.decision ≠ some .partWindow := by
      rw [hd]
      intro e
      exact hp (State.classify_partWindow.1 (Option.some.inj e))
    unfold State.handed
    rw [hs.2.1, hs.2.2.1, hda, if_neg hp]
    split
    · rename_i e; exact absurd e hc
    · rfl

/-- A list of three bytes or more begins with those of an address. -/
theorem exists_addrBytes (b0 b1 b2 : Byte) : ∃ a, addrBytes a = [b0, b1, b2] := by
  refine ⟨joinAddr b0 b1 b2, ?_⟩
  have h0 := b0.isLt
  have h1 := b1.isLt
  have h2 := b2.isLt
  simp only [addrBytes, joinAddr, BitVec.toNat_ofNat, List.cons.injEq, and_true]
  refine ⟨BitVec.eq_of_toNat_eq ?_, BitVec.eq_of_toNat_eq ?_, BitVec.eq_of_toNat_eq ?_⟩ <;> simp only [BitVec.toNat_ofNat] <;> omega

/-- A byte names WRITE only as its code (11.4). -/
theorem linkCommandOf_write {b : Byte} (h : linkCommandOf b = some .write) : b = LinkCommand.code .write := by
  unfold linkCommandOf at h
  (repeat' split at h) <;> first | assumption | cases h

/-- Words are handed on only by a WRITE to the part window, given from its command byte on (R159, R164, R174). -/
theorem State.handed_fresh {s : State} (hr : s.ready = true) (hl : s.upstream.selectLow = false) {bytes : List Byte} {w : Nat × Word}
    (h : w ∈ (s.opens.takeBytes bytes).handed) :
    ∃ a data, s.upstream.repeatState = none ∧ bytes = LinkCommand.code .write :: (addrBytes a ++ data)
      ∧ inPartWindow s.window.position (a.toNat / 256) = true
      ∧ w ∈ wholeWords (a.toNat / 256 - windowFirstRow s.window.position) (collectBytes (a.toNat % 256) data []) := by
  have ho := State.opens_taken hr hl
  have noWord {u : State} (hd : u.decoder.decision ≠ some .partWindow) : u.handed = [] := by
    unfold State.handed
    split
    · rename_i e; exact absurd e hd
    · rfl
  have read {u : State} {k : ReadKind} (e : u.decoder.readKind = some k) (hp : u.decoder.phase = .address)
      (hd : u.decoder.decision = none) (x : List Byte) : (u.takeBytes x).handed = [] :=
    State.takeBytes_read_hands x e (by rw [hp]; decide) (by rw [hd]; decide)
  generalize hu : s.opens = u at h
  rw [hu] at ho
  cases bytes with
  | nil => rw [State.takeBytes, noWord (by rw [ho]; simp [State.openRecord, Decoder.idle])] at h; cases h
  | cons b rest =>
    cases hk : s.upstream.repeatState with
    | some k =>
      have hp : u.decoder.phase = .address := by rw [ho]; simp [State.openRecord, hk]
      have hc : u.decoder.command = none := by rw [ho]; rfl
      have hd : u.decoder.decision = none := by rw [ho]; rfl
      have hb : u.decoder.addressBytes = [] := by rw [ho]; rfl
      have hr' : u.upstream.repeatState = some k := by rw [ho]; exact hk
      have e : u.takeByte b = u.onDecoder fun d =>
          { d with count := d.count + 1, command := some (.repeated k), addressBytes := [b], address := none } := by
        simp [State.takeByte, hp, State.takeAddressByte, State.onDecoder, hc, hr', hb, addrOf]
      rw [State.takeBytes_header (.inr (.inl hp)), e] at h
      have := read (u := u.onDecoder fun d =>
          { d with count := d.count + 1, command := some (.repeated k), addressBytes := [b], address := none }) (k := k) rfl hp hd rest
      rw [this] at h
      cases h
    | none =>
      have hp : u.decoder.phase = .command := by rw [ho]; simp [State.openRecord, hk]
      have hf : u.decoder.fresh := ⟨hp, by rw [ho]; rfl, by rw [ho]; rfl⟩
      have hd : u.decoder.decision = none := by rw [ho]; rfl
      have other {v : State} (hq : v.decoder.phase = .data) (hn : v.decoder.decision ≠ some .partWindow)
          (e : u.takeByte b = v) : False := by
        rw [State.takeBytes_header (.inl hp), e, noWord (by rw [(State.takeBytes_stands hq rest).2.2.1]; exact hn)] at h
        cases h
      have byte : u.takeByte b = State.takeCommandByte b (u.onDecoder fun d => { d with count := d.count + 1 }) := by
        simp [State.takeByte, hp]
      unfold State.takeCommandByte at byte
      match hl : linkCommandOf b with
      | none =>
        rw [hl] at byte
        exact (other rfl (by simp [State.forwardCommand, State.onDecoder]) byte).elim
      | some .wrapSet | some .wake | some .linkClear =>
        rw [hl] at byte
        exact (other rfl (by simp [State.forwardCommand, State.onDecoder]) byte).elim
      | some .sleep =>
        rw [hl] at byte
        dsimp only at byte
        unfold State.decideSleep at byte
        split at byte
        · exact (other rfl (by simp [State.forwardCommand, State.onDecoder]) byte).elim
        · exact (other rfl (by simp [State.onDecoder]) byte).elim
      | some .read =>
        rw [hl] at byte
        rw [State.takeBytes_header (.inl hp), byte] at h
        dsimp only at h
        generalize hv : State.onDecoder _ _ = v at h
        have hr : v.decoder.readKind = some .read := by rw [← hv]; rfl
        rw [read hr (by rw [← hv]; rfl) (by rw [← hv]; exact hd)] at h
        cases h
      | some .readWrap =>
        rw [hl] at byte
        rw [State.takeBytes_header (.inl hp), byte] at h
        dsimp only at h
        generalize hv : State.onDecoder _ _ = v at h
        have hr : v.decoder.readKind = some .readWrap := by rw [← hv]; rfl
        rw [read hr (by rw [← hv]; rfl) (by rw [← hv]; exact hd)] at h
        cases h
      | some .write =>
        have hb := linkCommandOf_write hl
        subst hb
        have short {x : List Byte} (hx : (u.takeBytes x).decoder.decision = none) (e : w ∈ (u.takeBytes x).handed) : False := by
          rw [noWord (by rw [hx]; decide)] at e
          cases e
        obtain ⟨_, hn, hab⟩ := hf
        match rest with
        | [] =>
          refine (short ?_ h).elim
          simp [State.takeBytes, State.takeByte, hp, State.takeCommandByte, linkCommandOf, LinkCommand.code, State.onDecoder, hd]
        | [x] =>
          refine (short ?_ h).elim
          simp [State.takeBytes, State.takeByte, hp, State.takeCommandByte, linkCommandOf, LinkCommand.code, State.onDecoder, hd,
            State.takeAddressByte, hab, addrOf]
        | [x, y] =>
          refine (short ?_ h).elim
          simp [State.takeBytes, State.takeByte, hp, State.takeCommandByte, linkCommandOf, LinkCommand.code, State.onDecoder, hd,
            State.takeAddressByte, hab, addrOf]
        | x :: y :: z :: data =>
          obtain ⟨a, ha⟩ := exists_addrBytes x y z
          have e : (x :: y :: z :: data) = addrBytes a ++ data := by rw [ha]; rfl
          rw [e, State.takeBytes_write_hands ⟨hp, hn, hab⟩ (by rw [ho]; rfl) (by rw [ho]; rfl)] at h
          have ew : u.window = s.window := by rw [ho]
          rw [ew] at h
          split at h
          · rename_i hw
            exact ⟨a, data, rfl, by rw [e], hw, h⟩
          · cases h
/-! ### Transactions and START (R76, log 27) -/

/-- The word that carries START stands in a motor block (11.3). -/
theorem startWord_of_wordAt {off : Nat} {v : Word} {m : Motor} (h : wordAt off = .motorBlock m .command)
    (hv : motorCommandOf v = some .start) : startWord (BitVec.ofNat 12 off) v := by
  have hc {x : Nat} (e : motorWordAt x = .command) : x = 0x5C := by
    unfold motorWordAt at e
    (repeat' split at e) <;> first | rfl | cases e
  have hm : off / 256 = m.number + 1 ∧ motorWordAt (off % 256) = .command := by
    unfold wordAt at h
    split at h
    · unfold deviceWordAt at h
      (repeat' split at h) <;> cases h
    all_goals first
      | (injection h with h1 h2; subst h1; exact ⟨by assumption, h2⟩)
      | cases h
  have h5 := hc hm.2
  have : off = 256 * (m.number + 1) + 0x5C := by omega
  refine ⟨m, by rw [this], ?_⟩
  unfold motorCommandOf at hv
  (repeat' split at hv) <;> first | assumption | cases hv

/-- Words none of which is START's make no motor RUNNING (R174, R182). -/
theorem State.takeWords_quiet : ∀ (words : List (Nat × Word)) (s : State),
    (∀ w ∈ words, ¬startWord (BitVec.ofNat 12 w.1) w.2) → s.quiet (s.takeWords words)
  | [], _, _ => fun _ h => h
  | (off, v) :: rest, s, h => by
    have h1 : s.quiet (s.takeWord off v) :=
      State.takeWord_quiet fun m e hv => h (off, v) List.mem_cons_self (startWord_of_wordAt e hv)
    unfold State.takeWords
    split
    · exact h1
    · exact h1.trans (State.takeWords_quiet rest _ fun w hw => h w (List.mem_cons_of_mem _ hw))

/-- Bytes of a transaction make no motor RUNNING. -/
theorem State.Takes.quiet {s t : State} (h : State.Takes s t) : s.quiet t := by
  cases h with
  | moves h => exact State.quiet_same fun m => by rw [h.motors m]
  | capture m n start data a f h he hr hc ht =>
    subst ht
    refine State.quiet_same fun k => ?_
    have e : ((a.onMotor m fun u => u.onSlot n (PlanSlot.capture start data)).onDecoder f).motor k
        = (a.onMotor m fun u => u.onSlot n (PlanSlot.capture start data)).motor k := by cases k <;> rfl
    rw [e, State.motor_onMotor, ← h.motors k]
    split
    · rename_i e; subst e; cases n <;> rfl
    · rfl

/-- A select rise whose words are not START's makes no motor RUNNING. -/
theorem State.completes_quiet {s : State} (h : ∀ w ∈ s.handed, ¬startWord (BitVec.ofNat 12 w.1) w.2) :
    s.quiet s.completes.selectRises := by
  have same {t : State} (e : ∀ m, (t.motor m).channel = (s.motor m).channel) : s.quiet t := State.quiet_same e
  have rise (t : State) (m : Motor) : t.selectRises.motor m = t.motor m := by cases m <;> rfl
  have h1 : s.quiet { s with decoder := Decoder.idle, ram := s.decoder.endsOn s.ram } := same fun m => by cases m <;> rfl
  unfold State.completes
  dsimp only
  split
  · intro m hm
    rw [rise] at hm
    exact h1 m (State.takeWords_quiet _ _ h m hm)
  all_goals
    refine same fun m => ?_
    rw [rise]
    (repeat' split) <;> cases m <;> first | rfl | (unfold State.clearsRepeat; split <;> rfl)

/-- A transaction whose words are not START's makes no motor RUNNING. -/
theorem State.transact_quiet {s : State} {bytes : List Byte} {n : Nat}
    (h : s.opens.decoder.refused = false → ∀ w ∈ (s.opens.takeBytes (bytes.drop s.opens.decoder.count)).handed,
      ¬startWord (BitVec.ofNat 12 w.1) w.2) : s.quiet (s.transact bytes n) := by
  have h0 : s.quiet s.opens := State.quiet_same fun m => by rw [s.opens_motor m]
  unfold State.transact
  dsimp only
  split
  · exact h0.trans (State.quiet_same fun m => by cases m <;> rfl)
  · rename_i hr
    exact h0.trans ((State.takeBytes_takes _ _).quiet.trans (State.completes_quiet (h (by simpa using hr))))

/-- A command of a transaction's row is the transaction of its bytes (R155, R157). -/
theorem exec_transaction {c : Instr} {bytes : List Byte} {t : Instant} (hb : transactionBytes c = some bytes)
    (ht : instantOf c = some t) : ∃ n, ∀ s, exec c s = State.actStart t (State.transact bytes n) s := by
  cases c <;> cases hb <;> cases ht <;> exact ⟨_, fun _ => rfl⟩

/-- A transaction is taken at its instant, where it does not give START. -/
theorem exec_transaction_quiet {s : State} {c : Instr} {bytes : List Byte} {t : Instant} (hs : s.inReset = false)
    (hb : transactionBytes c = some bytes) (ht : instantOf c = some t) (hc : ¬s.givesStart c) :
    ∃ n, exec c s = .next ((s.atInstant t).transact bytes n) := by
  obtain ⟨n, hn⟩ := exec_transaction hb ht
  refine ⟨n, (hn s).trans (State.actStart_quiet hs (State.transact_quiet fun hr w hw hv => hc ?_))⟩
  have gives (h : s.upstream.selectLow = false ∧ s.bytesGiveStart bytes
      ∨ s.upstream.selectLow = true ∧ s.decoder.refused = false ∧ (s.atInstant t).recordGivesStart bytes) : s.givesStart c := by
    cases c <;> cases hb <;> exact ⟨_, _, rfl, ht, h⟩
  refine gives ?_
  cases hl : s.upstream.selectLow with
  | false =>
    have hl' : (s.atInstant t).upstream.selectLow = false := by simpa using hl
    have hr' : (s.atInstant t).ready = true := by
      cases e : (s.atInstant t).ready with
      | true => rfl
      | false => simp [State.opens, State.selectFalls, hl, e] at hr
    rw [State.opens_taken hr' hl'] at hw
    rw [show (s.atInstant t).openRecord.count = 0 from rfl, List.drop_zero, ← State.opens_taken hr' hl'] at hw
    obtain ⟨a, data, h1, h2, h3, h4⟩ := State.handed_fresh hr' hl' hw
    refine .inl ⟨rfl, a, data, by simpa using h1, h2, by simpa using h3, (BitVec.ofNat 12 w.1, w.2), ?_, hv⟩
    rw [← wholeWords_eq]
    exact List.mem_map.2 ⟨w, by simpa using h4, rfl⟩
  | true =>
    have e : (s.atInstant t).opens = s.atInstant t := by simp [State.opens, hl]
    rw [e] at hw hr
    exact .inr ⟨rfl, by simpa using hr, w, hw, hv⟩
/-- A transaction in flight, whose words are not START's, is the rest of its bytes at its instant, to the select rise. -/
theorem exec_inFlight {s : State} {c : Instr} {bytes : List Byte} {t : Instant} (hf : s.inFlight)
    (hb : transactionBytes c = some bytes) (ht : instantOf c = some t)
    (hq : ∀ w ∈ ((s.atInstant t).takeBytes (bytes.drop s.decoder.count)).handed, ¬startWord (BitVec.ofNat 12 w.1) w.2) :
    exec c s = .next (((s.atInstant t).takeBytes (bytes.drop s.decoder.count)).completes.selectRises) := by
  obtain ⟨h1, h2, h3, h4⟩ := hf
  obtain ⟨n, hn⟩ := exec_transaction hb ht
  have e : (s.atInstant t).opens = s.atInstant t := by simp [State.opens, h2]
  rw [hn, State.actStart_quiet h1]
  · rw [State.transact_goesOn (by simpa using h2) (by simpa using h3)]; simp
  · refine State.transact_quiet fun _ w hw => hq w ?_
    rw [e] at hw
    simpa using hw

/-! ### Transactions in two goes (R140, R159, log 13) -/

/-- Every byte that counts is counted. -/
theorem State.takeByte_count (s : State) (b : Byte) : (s.takeByte b).decoder.count = s.decoder.count + 1 := by
  generalize hu : (s.onDecoder fun d => { d with count := d.count + 1 }) = u
  have hc : u.decoder.count = s.decoder.count + 1 := by rw [← hu]; rfl
  rw [← hc]
  unfold State.takeByte
  rw [hu]
  dsimp only
  split
  · unfold State.takeCommandByte
    split
    · rfl
    · dsimp only
      split <;> first | rfl | (unfold State.decideSleep; split <;> rfl)
  · unfold State.takeAddressByte
    dsimp only
    split
    · rfl
    · rfl
    · rw [(State.classifyWrite_decoder _ _).1]; rfl
  · unfold State.takeModeByte
    split <;> rfl
  all_goals rfl

theorem State.takeData_count (s : State) (x : List Byte) : (s.takeData x).decoder.count = s.decoder.count + x.length := by
  have read (n : Nat) : (s.readOn n).decoder.count = s.decoder.count := by
    unfold State.readOn
    dsimp only
    split <;> rfl
  unfold State.takeData
  show _ + x.length = _
  congr 1
  split
  · unfold State.writeOn
    (repeat' split) <;> simp [State.onDecoder, State.passData]
  · unfold State.takeWrapBytes
    dsimp only
    split <;> rfl
  all_goals first
    | exact read _
    | (unfold State.passOn; split <;> rfl)
    | rfl

theorem State.takeBytes_count : ∀ (x : List Byte) (s : State), (s.takeBytes x).decoder.count = s.decoder.count + x.length
  | [], _ => rfl
  | b :: rest, s => by
    unfold State.takeBytes
    split <;>
      first
      | (rw [State.takeBytes_count rest, State.takeByte_count, List.length_cons]; omega)
      | exact s.takeData_count _

/-- A transaction whose first bytes have come with its select fall goes on to its select rise as it does at once. -/
theorem State.transact_begins {s : State} (hr : s.ready = true) (hl : s.upstream.selectLow = false) (first rest : List Byte) (n : Nat) :
    (s.begins first).transact (first ++ rest) n = s.transact (first ++ rest) n := by
  have ho := State.opens_taken hr hl
  have h0 : s.opens.decoder.refused = false ∧ s.opens.decoder.count = 0 ∧ s.opens.upstream.selectLow = true := by
    rw [ho]; exact ⟨rfl, rfl, rfl⟩
  have hb : s.begins first = s.opens.takeBytes first := by simp [State.begins, h0.1]
  have hs := (State.takeBytes_takes first s.opens).select
  rw [hb, State.transact_goesOn (hs.1.trans h0.2.2) (hs.2.trans h0.1), State.takeBytes_count, h0.2.1, State.transact_taken hr hl]
  rw [Nat.zero_add, List.drop_left, State.takeBytes_append]

/-- The same state at another instant, for which another motor may have placed. -/
def State.atTime (i : Instant) (p : Option Motor) (s : State) : State := { s with timebase := i, placed := p }

/-- A byte of a WRITE after its command byte does the same at another instant. -/
theorem State.takeByte_time {s : State} (hk : s.decoder.command = some (.known .write)) (hp : s.decoder.phase ≠ .command)
    (i : Instant) (p : Option Motor) (b : Byte) :
    (s.atTime i p).takeByte b = (s.takeByte b).atTime i p ∧ (s.takeByte b).decoder.command = some (.known .write)
      ∧ (s.takeByte b).decoder.phase ≠ .command := by
  have write (u : State) (a : Addr) : (u.atTime i p).classifyWrite a = (u.classifyWrite a).atTime i p := by
    have e : (u.atTime i p).classify (a.toNat / 256) = u.classify (a.toNat / 256) := by
      unfold State.classify
      have hm (m : Motor) : (u.atTime i p).motor m = u.motor m := by cases m <;> rfl
      simp only [hm]
      rfl
    unfold State.classifyWrite
    dsimp only
    rw [e]
    split <;> rfl
  unfold State.takeByte
  dsimp only
  rw [show (s.atTime i p).decoder = s.decoder from rfl]
  match h : s.decoder.phase with
  | .command => exact absurd h hp
  | .turnaround | .data | .idle => exact ⟨rfl, hk, by show s.decoder.phase ≠ _; rw [h]; decide⟩
  | .mode =>
    have e : (s.onDecoder fun d => { d with count := d.count + 1 }).decoder.readKind = none := by
      simp [State.onDecoder, Decoder.readKind, hk]
    have e' : ((s.atTime i p).onDecoder fun d => { d with count := d.count + 1 }).decoder.readKind = none := e
    simp only [State.takeModeByte, e, e']
    exact ⟨rfl, hk, by show s.decoder.phase ≠ _; rw [h]; decide⟩
  | .address =>
    dsimp only
    unfold State.takeAddressByte
    dsimp only
    generalize hu : (s.onDecoder fun d => { d with count := d.count + 1 }) = u
    have hu' : ((s.atTime i p).onDecoder fun d => { d with count := d.count + 1 }) = u.atTime i p := by rw [← hu]; rfl
    have uk : u.decoder.command = some (.known .write) := by rw [← hu]; exact hk
    have up : u.decoder.phase = .address := by rw [← hu]; exact h
    rw [hu']
    generalize hv : (u.onDecoder fun d =>
      { d with
        command := d.command.or (u.upstream.repeatState.map .repeated)
        addressBytes := d.addressBytes ++ [b]
        address := addrOf (d.addressBytes ++ [b]) }) = v
    have hv' : ((u.atTime i p).onDecoder fun d =>
      { d with
        command := d.command.or ((u.atTime i p).upstream.repeatState.map .repeated)
        addressBytes := d.addressBytes ++ [b]
        address := addrOf (d.addressBytes ++ [b]) }) = v.atTime i p := by rw [← hv]; rfl
    have vk : v.decoder.command = some (.known .write) := by rw [← hv]; simp [State.onDecoder, uk]
    have vp : v.decoder.phase = .address := by rw [← hv]; exact up
    have vr : v.decoder.readKind = none := by simp [Decoder.readKind, vk]
    rw [hv', show (v.atTime i p).decoder = v.decoder from rfl, vr]
    cases v.decoder.address with
    | none => exact ⟨rfl, vk, by rw [vp]; decide⟩
    | some a =>
      refine ⟨write v a, ?_, ?_⟩
      · rw [(v.classifyWrite_decoder a).1]; exact vk
      · rw [(v.classifyWrite_decoder a).1]; intro h; cases h

/-- Bytes of a WRITE after its command byte do the same at another instant. -/
theorem State.takeBytes_time : ∀ (x : List Byte) {s : State}, s.decoder.command = some (.known .write) → s.decoder.phase ≠ .command →
    ∀ i p, (s.atTime i p).takeBytes x = (s.takeBytes x).atTime i p
  | [], _, _, _, _, _ => rfl
  | b :: rest, s, hk, hp, i, p => by
    have data : (s.atTime i p).takeData (b :: rest) = (s.takeData (b :: rest)).atTime i p := by
      unfold State.takeData
      rw [show (s.atTime i p).decoder = s.decoder from rfl, hk]
      dsimp only
      unfold State.writeOn
      rw [show (s.atTime i p).decoder = s.decoder from rfl]
      split
      · rfl
      · rename_i m n _ _
        have hm : (s.atTime i p).motor m = s.motor m := by cases m <;> rfl
        dsimp only
        rw [hm]
        split <;> first | rfl | (cases m <;> rfl)
      · rfl
      · rfl
    have := State.takeByte_time hk hp i p b
    unfold State.takeBytes
    rw [show (s.atTime i p).decoder = s.decoder from rfl]
    split
    · rw [this.1]; exact State.takeBytes_time rest this.2.1 this.2.2 i p
    · rw [this.1]; exact State.takeBytes_time rest this.2.1 this.2.2 i p
    · rw [this.1]; exact State.takeBytes_time rest this.2.1 this.2.2 i p
    all_goals exact data

/-- The opening of a WRITE does the same at another instant (R159). -/
theorem State.begins_time {s : State} (hr : s.ready = true) (hl : s.upstream.selectLow = false) (hk : s.upstream.repeatState = none)
    {first rest x : List Byte} (e : first ++ rest = LinkCommand.code .write :: x) (i : Instant) (p : Option Motor) :
    (s.atTime i p).begins first = (s.begins first).atTime i p := by
  have ho := State.opens_taken hr hl
  have ho' : (s.atTime i p).opens = s.opens.atTime i p := by
    rw [State.opens_taken (s := s.atTime i p) hr hl, ho]; rfl
  have h0 : s.opens.decoder.refused = false := by rw [ho]; rfl
  have h1 : (s.opens.atTime i p).decoder.refused = false := h0
  simp only [State.begins, ho', h0, h1, Bool.false_eq_true, if_false]
  cases first with
  | nil => rfl
  | cons b first =>
    have eb : b = LinkCommand.code .write := by simpa using (List.cons.inj e).1
    subst eb
    have hp : s.opens.decoder.phase = .command := by rw [ho]; simp [State.openRecord, hk]
    have hb (u : State) (hu : u.decoder.phase = .command) : u.takeByte (LinkCommand.code .write) = u.onDecoder fun d =>
        { d with count := d.count + 1, command := some (.known .write), phase := .address } := by
      simp [State.takeByte, hu, State.takeCommandByte, linkCommandOf, LinkCommand.code, State.onDecoder]
    rw [State.takeBytes_header (.inl hp), State.takeBytes_header (s := s.opens.atTime i p) (.inl hp), hb _ hp, hb (s.opens.atTime i p) hp]
    generalize hu : (s.opens.onDecoder fun d =>
        { d with count := d.count + 1, command := some (.known .write), phase := .address }) = u
    have hu' : ((s.opens.atTime i p).onDecoder fun d =>
        { d with count := d.count + 1, command := some (.known .write), phase := .address }) = u.atTime i p := by rw [← hu]; rfl
    rw [hu']
    exact State.takeBytes_time first (by rw [← hu]; rfl) (by rw [← hu]; intro h; cases h) i p

/-- Two states at which a transaction does the same at every instant take it at the same instant (log 27). -/
theorem State.actStart_congr {s s' : State} {t : Instant} {f : State → State} (hs : s.inReset = false) (hs' : s'.inReset = false)
    (ht : (s'.atInstant t).timebase = (s.atInstant t).timebase) (hp : (s'.atInstant t).placed = (s.atInstant t).placed)
    (hm : ∀ m, ((s'.atInstant t).motor m).channel = ((s.atInstant t).motor m).channel)
    (hf : f (s'.atInstant t) = f (s.atInstant t))
    (hl : ¬(s.atInstant t).quiet (f (s.atInstant t)) → ∀ i p, f ((s'.atInstant t).atTime i p) = f ((s.atInstant t).atTime i p)) :
    State.actStart t f s' = State.actStart t f s := by
  unfold State.actStart
  simp only [hs, hs', Bool.false_eq_true, if_false]
  rw [hf]
  generalize s.atInstant t = u at *
  generalize s'.atInstant t = v at *
  have hb : v.startsBehind (f u) = u.startsBehind (f u) := by
    unfold State.startsBehind State.placedAbove
    simp only [hm, hp]
  rw [hb]
  cases h : u.startsBehind (f u) with
  | false => rfl
  | true =>
    have hq : ¬u.quiet (f u) := by
      intro q
      rw [State.startsBehind_none fun m h1 h2 => absurd (h1.symm.trans (q m h2)) (by decide)] at h
      cases h
    have move (w : State) : w.moveTo (u.timebase + 1) = w.atTime (u.timebase + 1) (if u.timebase + 1 = w.timebase then w.placed else none) := rfl
    simp only [if_true, ht, move, hp]
    exact congrArg Host.Outcome.next (hl hq _ _)

end Sys2Proof.Machine
end

