-- ==== Sys2Proof/Laws/Trips.lean ====
section
/-! SUPPORT. The close of a frame and the frame-done records (R114, R193), and everything that trip entry does to a motor, to its
halves and to the calendar (R19, R87, R124). -/
namespace Sys2Proof.Machine

/-! ### The frame-done records (R193) -/

/-- The frame-closed event adds its record (R193). -/
theorem MotorUnit.frameClosedEvent_recorded (u : MotorUnit) (f : OpenFrame) {h : HalfName} (hs : f.storage = some h) (now : Instant) :
    u.closeRecorded (u.frameClosedEvent now f.sequence) f now := by
  refine ⟨fun _ _ hr => ?_, fun k => absurd (hs.symm.trans k) (by simp)⟩
  have hm : ∀ r ∈ u.attention.records, r.met = false := hr.2
  have hd : ∀ r ∈ u.attention.records.drop 1, r.met = false := fun r h => hm r (List.mem_of_mem_drop h)
  have keep {l : List FrameDoneRecord} (h : ∀ r ∈ l, r.met = false) : (l.filter fun r => !r.met) = l :=
    List.filter_eq_self.2 fun r k => by simp [h r k]
  have none_ {l : List FrameDoneRecord} (h : ∀ r ∈ l, r.met = false) : l.any FrameDoneRecord.met = false := by
    simpa using h
  unfold MotorUnit.frameClosedEvent MotorAttention.settleRecords MotorAttention.makeRoom recordCapacity
  by_cases hl : u.attention.records.length < 8
  · have hl' : ¬8 ≤ u.attention.records.length := by omega
    simp only [hl, hl', if_true, decide_false, Bool.false_eq_true, if_false, List.any_append, List.filter_append, keep hm, none_ hm]
    by_cases h0 : u.settings.frameDoneDelay = 0 <;> cases hmode : u.settings.frameDoneMode <;>
      simp [h0, FrameDoneRecord.met]
  · have hl' : 8 ≤ u.attention.records.length := by omega
    simp only [hl, hl', if_false, decide_true, if_true, List.any_append, List.filter_append, keep hd, none_ hd]
    by_cases h0 : u.settings.frameDoneDelay = 0 <;> cases hmode : u.settings.frameDoneMode <;>
      simp [h0, FrameDoneRecord.met]

/-- The frame-done records are of a motor's attention and settings alone. -/
theorem MotorUnit.closeRecorded_congr {u v u' v' : MotorUnit} {f : OpenFrame} {now : Instant} (ha : v.attention = u.attention)
    (hs : v.settings = u.settings) (hd : v'.attention.frameDone = u'.attention.frameDone)
    (hr : v'.attention.records = u'.attention.records) (h : u.closeRecorded u' f now) : v.closeRecorded v' f now := by
  unfold MotorUnit.closeRecorded at h ⊢
  rw [ha, hs, hd, hr]
  exact h

/-- The close of a frame adds its record where it has storage (R114, R193). -/
theorem MotorUnit.closeFrame_recorded {u : MotorUnit} {f : OpenFrame} (hf : u.frames.openFrame = some f) (now : Instant)
    (flag : CloseFlag) : u.closeRecorded (u.closeFrame now flag) f now := by
  unfold MotorUnit.closeFrame
  rw [hf]
  dsimp only
  cases hs : f.storage with
  | none => exact ⟨fun h k => absurd (hs.symm.trans k) (by simp), fun _ => ⟨rfl, rfl⟩⟩
  | some n => exact MotorUnit.closeRecorded_congr rfl rfl rfl rfl (MotorUnit.frameClosedEvent_recorded _ f hs now)

/-- What else a close leaves: the attention causes but FRAME_DONE, and all of them where no frame is open. -/
theorem MotorUnit.closeFrame_attention (now : Instant) (flag : CloseFlag) (u : MotorUnit) :
    ((u.closeFrame now flag).attention =
        { u.attention with frameDone := (u.closeFrame now flag).attention.frameDone,
                           records := (u.closeFrame now flag).attention.records })
      ∧ (u.frames.openFrame = none → u.closeFrame now flag = u) := by
  unfold MotorUnit.closeFrame
  cases hf : u.frames.openFrame with
  | none => exact ⟨rfl, fun _ => rfl⟩
  | some f =>
    refine ⟨?_, fun k => absurd k (by simp)⟩
    dsimp only
    cases f.storage with
    | none => rfl
    | some n =>
      simp only [MotorUnit.frameClosedEvent, MotorAttention.settleRecords, MotorAttention.makeRoom, MotorUnit.onFrames_attention]
      by_cases hl : u.attention.records.length < recordCapacity <;> simp only [hl, if_true, if_false]

/-- A close leaves the settings, the marks and the tracker. -/
theorem MotorUnit.closeFrame_others (now : Instant) (flag : CloseFlag) (u : MotorUnit) :
    (u.closeFrame now flag).settings = u.settings ∧ (u.closeFrame now flag).marks = u.marks
      ∧ (u.closeFrame now flag).tracker = u.tracker := by
  unfold MotorUnit.closeFrame
  (repeat' split) <;> exact ⟨rfl, rfl, rfl⟩

/-- The opening of a frame leaves the frame-done records: OVERWRITE drives the ring causes alone (R119). -/
theorem State.openFrame_records (s : State) (m : Motor) :
    ((s.openFrame m).motor m).attention.frameDone = (s.motor m).attention.frameDone
      ∧ ((s.openFrame m).motor m).attention.records = (s.motor m).attention.records
      ∧ ((s.openFrame m).motor m).settings = (s.motor m).settings := by
  have begins (u : MotorUnit) : u.beginFrame.attention = u.attention ∧ u.beginFrame.settings = u.settings := by
    unfold MotorUnit.beginFrame
    dsimp only
    split <;> simp
  have takes (u : MotorUnit) (n : HalfName) : (u.takeHalf n).attention = u.attention ∧ (u.takeHalf n).settings = u.settings := by
    unfold MotorUnit.takeHalf
    dsimp only
    split <;> exact ⟨rfl, rfl⟩
  have b := begins (s.motor m)
  unfold State.openFrame
  dsimp only
  split
  · simp [b]
  · rename_i n _
    split
    · simp [takes, b]
    · split
      · unfold State.dropFrame
        split <;> simp [b]
      · simp [State.overwriteOldest, MotorUnit.overwriteOldest, MotorUnit.countersChanged, takes, b]

/-- Where a frame closes and another opens, the closing one has added its record (R10 claim 3, R193). -/
theorem State.renewFrame_recorded {s : State} {m : Motor} {f : OpenFrame} (hf : (s.motor m).frames.openFrame = some f)
    (flag : CloseFlag) : (s.motor m).closeRecorded ((s.renewFrame m flag).motor m) f s.timebase := by
  have o := (s.onMotor m (MotorUnit.closeFrame s.timebase flag)).openFrame_records m
  have e : (s.onMotor m (MotorUnit.closeFrame s.timebase flag)).motor m = (s.motor m).closeFrame s.timebase flag := by
    simp
  rw [e] at o
  exact MotorUnit.closeRecorded_congr rfl rfl o.1 o.2.1 (MotorUnit.closeFrame_recorded hf s.timebase flag)

/-- The legs and the requests of a step leave the attention causes (R10 claims 4 and 5). -/
theorem State.setStepAt_attention (s : State) (m : Motor) (b : Instant) :
    ((s.setStepAt m b).motor m).attention = (s.motor m).attention := by
  unfold State.setStepAt
  rw [State.placeStep_attention]
  simp [(MotorUnit.setLegs_frames _ _ _).2.2.1]

/-- The stopping boundary adds the frame's record (R5 item 3, R193). -/
theorem MotorUnit.stoppingBoundary_recorded {u : MotorUnit} {f : OpenFrame} (hf : u.frames.openFrame = some f) (now : Instant) :
    u.closeRecorded (u.stoppingBoundary now) f now := by
  have h : (u.setState .stopping).frames.openFrame = some f := hf
  have e : (u.stoppingBoundary now).attention = ((u.setState .stopping).closeFrame now .stopped).attention := by
    unfold MotorUnit.stoppingBoundary
    dsimp only
    split <;> rfl
  exact MotorUnit.closeRecorded_congr rfl rfl (congrArg MotorAttention.frameDone e) (congrArg MotorAttention.records e)
    (MotorUnit.closeFrame_recorded h now .stopped)

/-- The frame-written event of a sequence (R193). -/
theorem MotorAttention.frameWrittenEvent_recorded {a : MotorAttention} (h : a.recordsSound) (seq : Short) :
    a.writtenRecorded (a.frameWrittenEvent seq) seq := by
  obtain ⟨_, hm⟩ := h
  have each (r : FrameDoneRecord) (hr : r ∈ a.records) :
      (if r.sequence = seq then { r with written := true } else r : FrameDoneRecord).met
        = (decide (r.sequence = seq) && match r.mode with
            | .written | .either => true
            | .both => r.delayOver
            | .delay => false) := by
    have h := hm r hr
    unfold FrameDoneRecord.met at h ⊢
    by_cases e : r.sequence = seq
    · cases k : r.mode <;> simp_all
    · cases k : r.mode <;> simp_all
  refine ⟨?_, ?_⟩
  · simp only [MotorAttention.frameWrittenEvent, MotorAttention.settleRecords, List.any_map]
    congr 1
    rw [Bool.eq_iff_iff, List.any_eq_true, List.any_eq_true]
    exact ⟨fun ⟨r, hr, k⟩ => ⟨r, hr, (each r hr).symm.trans k⟩, fun ⟨r, hr, k⟩ => ⟨r, hr, (each r hr).trans k⟩⟩
  · simp only [MotorAttention.frameWrittenEvent, MotorAttention.settleRecords, List.filter_map]
    congr 1
    exact List.filter_congr fun r hr => congrArg not (each r hr)

/-! ### Positions that are MISSED (R19, R85, R87, R124) -/

/-- A half after entries of status MISSED: a position that was resolved stands, and only what is wholly resolved has closed. -/
def Half.Missed (h k : Half) : Prop :=
  k.positions.map (PositionRecord.resolve missed) = h.positions.map (PositionRecord.resolve missed)
    ∧ (h.allResolved = true → k.positions = h.positions) ∧ k.closeFlag = h.closeFlag
    ∧ (k.state = h.state ∨ h.state = .closing ∧ k.state = .closed ∧ k.allResolved = true)

/-- A resolved position stands (R122). -/
theorem PositionRecord.resolve_of {p : PositionRecord} (r : Resolution) (h : p.resolved = true) : PositionRecord.resolve r p = p := by
  simp [PositionRecord.resolve, h]

/-- A position that has been resolved is resolved. -/
theorem PositionRecord.resolve_resolved (p : PositionRecord) (r : Resolution) : (PositionRecord.resolve r p).resolved = true := by
  unfold PositionRecord.resolve
  split
  · assumption
  · rfl

/-- Positions that are all resolved stand through a marking. -/
theorem map_missed {l : List PositionRecord} (h : l.all PositionRecord.resolved = true) : l.map (PositionRecord.resolve missed) = l := by
  conv => rhs; rw [← List.map_id l]
  refine List.map_congr_left fun p hp => ?_
  rw [List.all_eq_true] at h
  exact PositionRecord.resolve_of missed (h p hp)

/-- After a marking every position is resolved. -/
theorem all_missed (l : List PositionRecord) : (l.map (PositionRecord.resolve missed)).all PositionRecord.resolved = true := by
  simp only [List.all_map, List.all_eq_true]
  intro p _
  exact PositionRecord.resolve_resolved p missed

theorem Half.Missed.refl (h : Half) : h.Missed h := ⟨rfl, fun _ => rfl, rfl, .inl rfl⟩

theorem Half.Missed.trans {h k l : Half} (a : h.Missed k) (b : k.Missed l) : h.Missed l := by
  obtain ⟨a1, a2, a3, a4⟩ := a
  obtain ⟨b1, b2, b3, b4⟩ := b
  refine ⟨b1.trans a1, fun hr => ?_, b3.trans a3, ?_⟩
  · have e := a2 hr
    refine (b2 ?_).trans e
    unfold Half.allResolved
    rw [e]
    exact hr
  · rcases a4 with e | ⟨e1, e2, e3⟩
    · rcases b4 with f | ⟨f1, f2, f3⟩
      · exact .inl (f.trans e)
      · exact .inr ⟨e ▸ f1, f2, f3⟩
    · rcases b4 with f | ⟨f1, _, _⟩
      · refine .inr ⟨e1, f.trans e2, ?_⟩
        unfold Half.allResolved at e3 ⊢
        rw [b2 e3]
        exact e3
      · exact absurd (e2.symm.trans f1) (by simp)

theorem Half.raiseRequest_rest (h : Half) :
    h.raiseRequest.positions = h.positions ∧ h.raiseRequest.closeFlag = h.closeFlag ∧ h.raiseRequest.state = h.state := by
  unfold Half.raiseRequest
  (repeat' split) <;> exact ⟨rfl, rfl, rfl⟩

/-- One entry MISSED. -/
theorem Half.resolvePosition_missed (k : Nat) (h : Half) : h.Missed (h.resolvePosition k missed) := by
  have e := Half.raiseRequest_rest ({ h with positions := h.positions.modify k (PositionRecord.resolve missed) } : Half).settleClosing
  unfold Half.resolvePosition Half.Missed
  have hp : ({ h with positions := h.positions.modify k (PositionRecord.resolve missed) } : Half).settleClosing.positions
      = h.positions.modify k (PositionRecord.resolve missed) := by
    unfold Half.settleClosing
    split <;> rfl
  have twice (p : PositionRecord) : PositionRecord.resolve missed (PositionRecord.resolve missed p) = PositionRecord.resolve missed p :=
    PositionRecord.resolve_of _ (PositionRecord.resolve_resolved p missed)
  refine ⟨?_, fun hr => ?_, ?_, ?_⟩
  · rw [e.1, hp]
    refine List.ext_getElem? fun i => ?_
    simp only [List.getElem?_map, List.getElem?_modify]
    cases h.positions[i]? with
    | none => rfl
    | some p => by_cases hk : k = i <;> simp [hk, twice]
  · rw [e.1, hp]
    refine List.ext_getElem? fun i => ?_
    simp only [List.getElem?_modify]
    cases hq : h.positions[i]? with
    | none => rfl
    | some p =>
      have : p.resolved = true := by
        unfold Half.allResolved at hr
        rw [List.all_eq_true] at hr
        exact hr p (List.mem_of_getElem? hq)
      by_cases hk : k = i <;> simp [hk, PositionRecord.resolve, this]
  · rw [e.2.1]
    unfold Half.settleClosing
    split <;> rfl
  · have ha : Half.allResolved (Half.raiseRequest ({ h with positions := h.positions.modify k (PositionRecord.resolve missed) } : Half).settleClosing)
        = (h.positions.modify k (PositionRecord.resolve missed)).all PositionRecord.resolved := by
      unfold Half.allResolved
      rw [e.1, hp]
    rw [e.2.2, ha]
    unfold Half.settleClosing
    split
    · rename_i c
      exact .inr ⟨c.1, rfl, c.2⟩
    · exact .inl rfl

/-- A motor after entries of status MISSED. -/
def MotorUnit.Missed (u v : MotorUnit) : Prop :=
  v = { u with frames := v.frames }
    ∧ v.frames = { u.frames with half0 := v.frames.half0, half1 := v.frames.half1 }
    ∧ ∀ n, (u.frames.half n).Missed (v.frames.half n)

theorem MotorUnit.Missed.refl (u : MotorUnit) : u.Missed u := ⟨rfl, rfl, fun _ => .refl _⟩

theorem MotorUnit.Missed.trans {u v w : MotorUnit} (a : u.Missed v) (b : v.Missed w) : u.Missed w := by
  obtain ⟨a1, a2, a3⟩ := a
  obtain ⟨b1, b2, b3⟩ := b
  refine ⟨?_, ?_, fun n => (a3 n).trans (b3 n)⟩
  · rw [b1, a1]
  · rw [b2, a2]

theorem MotorUnit.storeEntry_missed (u : MotorUnit) (q : Short) (p : Option Nat) :
    u.Missed (u.onFrames (FrameAssembler.storeEntry q p missed)) := by
  cases p with
  | none => exact .refl u
  | some k =>
    cases hn : u.frames.halfOf q with
    | none =>
      have : u.onFrames (FrameAssembler.storeEntry q (some k) missed) = u := by
        simp [MotorUnit.onFrames, FrameAssembler.storeEntry, hn]
      rw [this]
      exact .refl u
    | some n =>
      have : u.onFrames (FrameAssembler.storeEntry q (some k) missed)
          = u.onFrames fun a => a.onHalf n (Half.resolvePosition k missed) := by
        simp [MotorUnit.onFrames, FrameAssembler.storeEntry, hn]
      rw [this]
      have h := Half.resolvePosition_missed k (u.frames.half n)
      cases n
      · exact ⟨rfl, rfl, fun j => by cases j with | half0 => exact h | half1 => exact .refl _⟩
      · exact ⟨rfl, rfl, fun j => by cases j with | half0 => exact .refl _ | half1 => exact h⟩

/-- What changes the blocks of motors alone, twice. -/
theorem State.motors_trans {s t u : State} (a : t = { s with m0 := t.m0, m1 := t.m1, m2 := t.m2 })
    (b : u = { t with m0 := u.m0, m1 := u.m1, m2 := u.m2 }) : u = { s with m0 := u.m0, m1 := u.m1, m2 := u.m2 } := by
  rw [b, a]

/-- What changes the blocks of motors and the calendar alone, twice. -/
theorem State.tripped_trans {s t u : State} {k l : Calendar} (a : t = { s with m0 := t.m0, m1 := t.m1, m2 := t.m2, calendar := k })
    (b : u = { t with m0 := u.m0, m1 := u.m1, m2 := u.m2, calendar := l }) :
    u = { s with m0 := u.m0, m1 := u.m1, m2 := u.m2, calendar := u.calendar } := by
  rw [b, a]

/-- Entries MISSED for the reservations of a list. -/
theorem State.missAll_spec : ∀ (l : List Reservation) (s : State),
    (∀ m, (s.motor m).Missed ((l.foldl (fun s r => s.resolve r missed) s).motor m))
      ∧ (∀ m, (∀ r ∈ l, r.motor ≠ m) → (l.foldl (fun s r => s.resolve r missed) s).motor m = s.motor m)
      ∧ l.foldl (fun s r => s.resolve r missed) s =
        { s with m0 := (l.foldl (fun s r => s.resolve r missed) s).m0, m1 := (l.foldl (fun s r => s.resolve r missed) s).m1,
                 m2 := (l.foldl (fun s r => s.resolve r missed) s).m2 }
  | [], s => ⟨fun m => .refl _, fun _ _ => rfl, rfl⟩
  | r :: rest, s => by
    obtain ⟨h1, h2, h3⟩ := State.missAll_spec rest (s.resolve r missed)
    have one (m : Motor) : (s.resolve r missed).motor m =
        if m = r.motor then (s.motor m).onFrames (FrameAssembler.storeEntry r.sequence r.position missed) else s.motor m := by
      unfold State.resolve State.storeEntry
      rw [State.motor_onMotor]
    refine ⟨fun m => .trans ?_ (h1 m), fun m hm => (h2 m fun q hq => hm q (.tail _ hq)).trans ?_, State.motors_trans ?_ h3⟩
    · rw [one m]
      split
      · exact MotorUnit.storeEntry_missed _ _ _
      · exact .refl _
    · rw [one m, if_neg fun e => hm r (.head _) e.symm]
    · unfold State.resolve State.storeEntry
      cases r.motor <;> rfl

/-- The removal of reservations (R85, R87): the list, what the entries do to the motors they are of, and that nothing else changes. -/
theorem State.removeMissed_spec (s : State) (test : Reservation → Bool) :
    (∀ m, (s.motor m).Missed ((s.removeMissed test).motor m))
      ∧ (∀ m, (∀ r ∈ s.calendar.reservations, test r = true → r.motor ≠ m) → (s.removeMissed test).motor m = s.motor m)
      ∧ s.removeMissed test =
        { s with m0 := (s.removeMissed test).m0, m1 := (s.removeMissed test).m1, m2 := (s.removeMissed test).m2,
                 calendar := { s.calendar with reservations := s.calendar.reservations.filter fun r => !test r } } := by
  obtain ⟨h1, h2, h3⟩ := State.missAll_spec (s.calendar.reservations.filter test)
    (s.setReservations (s.calendar.reservations.filter fun r => !test r))
  refine ⟨fun m => ?_, fun m hm => ?_, h3⟩
  · have := h1 m
    cases m <;> exact this
  · have := h2 m fun r hr => hm r (List.mem_filter.1 hr).1 (List.mem_filter.1 hr).2
    cases m <;> exact this

/-! ### Trip entry (R19) -/

/-- The halves of a motor at trip entry, after the entries of its reservations (R19 items 3 to 5, R124). -/
theorem Half.tripMissed_tripped {h k : Half} (a : h.Missed k) : h.tripped k.tripMissed := by
  obtain ⟨a1, a2, a3, a4⟩ := a
  have e (l : List PositionRecord) : l.map (PositionRecord.resolve missed) = l.map fun p =>
      if p.resolution = none then { p with resolution := some { status := .missed, value := 0 } } else p := by
    refine List.map_congr_left fun p _ => ?_
    cases hp : p.resolution <;> simp [PositionRecord.resolve, PositionRecord.resolved, hp, missed]
  have settled : k.state = .closing → (Half.raiseRequest k.missAll.settleClosing).positions = k.positions.map (PositionRecord.resolve missed)
      ∧ (Half.raiseRequest k.missAll.settleClosing).state = .closed := by
    intro hc
    have r := Half.raiseRequest_rest k.missAll.settleClosing
    have all : k.missAll.allResolved = true := all_missed k.positions
    have : k.missAll.settleClosing = { k.missAll with state := .closed } := by
      unfold Half.settleClosing
      rw [if_pos ⟨hc, all⟩]
    rw [r.1, r.2.2, this]
    exact ⟨rfl, rfl⟩
  unfold Half.tripped
  rw [← e, ← a1]
  unfold Half.tripMissed
  refine ⟨fun hs => ?_, fun hs => ?_, fun hs hr => ?_⟩
  · rcases a4 with f | ⟨f1, f2, f3⟩
    · rcases hs with hs | hs
      · rw [f, hs]; rfl
      · rw [f, hs]; exact (settled (f.trans hs)).1
    · rw [f2]
      exact (map_missed f3).symm
  · rcases a4 with f | ⟨f1, f2, f3⟩
    · rw [f, hs]; exact (settled (f.trans hs)).2
    · rw [f2]; exact f2
  · rcases a4 with f | ⟨f1, _, _⟩
    · rw [f, hs]; exact ⟨f.trans hs, a2 hr⟩
    · exact absurd (hs.symm.trans f1) (by simp)

/-- The close of the open frame keeps what trip entry says of a half, and closes an OPEN one with the flag. -/
theorem Half.tripped_close {h k : Half} (flag : CloseFlag) (full : Bool) (a : h.tripped k) :
    h.tripped (k.close flag full)
      ∧ (h.state = .opened → (k.close flag full).state = .closed ∧ (k.close flag full).closeFlag = flag) := by
  obtain ⟨a1, a2, a3⟩ := a
  have r := Half.raiseRequest_rest { k with state := if k.allResolved then .closed else .closing, closeFlag := flag, full := full }
  have all (hs : h.state = .opened ∨ h.state = .closing) : k.allResolved = true := by
    unfold Half.allResolved
    rw [a1 hs, List.all_map, List.all_eq_true]
    intro p _
    cases hp : p.resolution <;> simp [PositionRecord.resolved, hp]
  unfold Half.tripped Half.close
  rw [r.1, r.2.2, r.2.1]
  refine ⟨⟨a1, fun hs => by rw [all (.inr hs)]; rfl, fun hs hr => ?_⟩, fun hs => ⟨by rw [all (.inl hs)]; rfl, rfl⟩⟩
  have e := (a3 hs hr).2
  refine ⟨?_, e⟩
  have : k.allResolved = true := by
    unfold Half.allResolved at hr ⊢
    rw [e]
    exact hr
  rw [this]
  rfl

/-- The frames after a close, which are of the frames before it alone (R114). -/
theorem MotorUnit.closeFrame_frames (now : Instant) (flag : CloseFlag) (u : MotorUnit) :
    (u.closeFrame now flag).frames =
      match u.frames.openFrame with
      | none => u.frames
      | some f =>
        match f.storage with
        | none => { u.frames with openFrame := none }
        | some n => ({ u.frames with openFrame := none } : FrameAssembler).onHalf n (Half.close flag f.full) := by
  unfold MotorUnit.closeFrame
  cases u.frames.openFrame with
  | none => rfl
  | some f =>
    dsimp only
    cases f.storage <;> rfl

/-- The frames of a motor through trip entry, after the entries of its reservations (R19 items 4 and 5, R124). -/
theorem MotorUnit.tripFrames_frames {u v : MotorUnit} (a : u.Missed v) (now : Instant) :
    (v.tripFrames now).frames =
        { u.frames with openFrame := none, half0 := (v.tripFrames now).frames.half0, half1 := (v.tripFrames now).frames.half1 }
      ∧ (∀ n, (u.frames.half n).tripped ((v.tripFrames now).frames.half n))
      ∧ ∀ f n, u.frames.openFrame = some f → f.storage = some n → (u.frames.half n).state = .opened →
        ((v.tripFrames now).frames.half n).state = .closed ∧ ((v.tripFrames now).frames.half n).closeFlag = .tripped := by
  obtain ⟨_, a2, a3⟩ := a
  have ho : v.frames.openFrame = u.frames.openFrame := by rw [a2]
  have base (n : HalfName) : (u.frames.half n).tripped (v.frames.half n).tripMissed := Half.tripMissed_tripped (a3 n)
  have e : (v.tripFrames now).frames = _ := MotorUnit.closeFrame_frames now .tripped _
  rw [e]
  simp only [MotorUnit.onFrames]
  rw [ho]
  cases hf : u.frames.openFrame with
  | none =>
    refine ⟨?_, fun n => by cases n with | half0 => exact base .half0 | half1 => exact base .half1, fun f n k => absurd k (by simp)⟩
    dsimp only
    rw [a2]
  | some f =>
    dsimp only
    cases hs : f.storage with
    | none =>
      refine ⟨?_, fun n => by cases n with | half0 => exact base .half0 | half1 => exact base .half1, fun g n k e => ?_⟩
      · dsimp only
        rw [a2]
      · cases k
        exact absurd (hs.symm.trans e) (by simp)
    | some j =>
      have closed := Half.tripped_close .tripped f.full (base j)
      have at_ (n : HalfName) : (FrameAssembler.onHalf { v.frames with
            openFrame := none, half0 := v.frames.half0.tripMissed, half1 := v.frames.half1.tripMissed } j
              (Half.close .tripped f.full)).half n
          = if n = j then (v.frames.half n).tripMissed.close .tripped f.full else (v.frames.half n).tripMissed := by
        cases n <;> cases j <;> rfl
      dsimp only
      refine ⟨?_, fun n => ?_, fun g n k e hst => ?_⟩
      · cases j <;> simp only [FrameAssembler.onHalf, FrameAssembler.setHalf, FrameAssembler.half] <;> rw [a2]
      · rw [at_ n]
        split
        · rename_i e
          subst e
          exact closed.1
        · exact base n
      · cases k
        have : n = j := Option.some.inj (e.symm.trans hs)
        subst this
        rw [at_ n, if_pos rfl]
        exact closed.2 hst

/-- A release, as the rule gives it (R47). -/
theorem PlanSlot.release_released (p : PlanSlot) : p.released p.release := by
  unfold PlanSlot.released PlanSlot.release
  cases h : p.state <;> simp

/-- Everything that trip entry does to a motor's own blocks, after the entries of its reservations (R19). -/
theorem MotorUnit.trip_entered {u v : MotorUnit} (a : u.Missed v) (now : Instant) (c : TripCause) (i : Short) :
    u.tripEntered (v.trip now c i) c i now := by
  have hu : v = { u with frames := v.frames } := a.1
  have hch : v.channel = u.channel := by rw [hu]
  have hst : v.settings = u.settings := by rw [hu]
  have hat : v.attention = u.attention := by rw [hu]
  have hof : v.frames.openFrame = u.frames.openFrame := by rw [a.2.1]
  have rest := v.toSafeState_rest now
  let w := (v.toSafeState now).stopCarrier.onTracker Tracker.leaveHall
  let x := w.onFrames fun a => { a with half0 := a.half0.tripMissed, half1 := a.half1.tripMissed }
  have hx : x.frames.openFrame = u.frames.openFrame := by
    show (v.toSafeState now).frames.openFrame = _
    rw [rest.1, hof]
  have hxa : x.attention = u.attention := by
    show (v.toSafeState now).attention = _
    rw [rest.2.2.1, hat]
  have hxs : x.settings = u.settings := by
    show (v.toSafeState now).settings = _
    rw [rest.2.1, hst]
  have fr : (v.trip now c i).frames = (v.tripFrames now).frames := by
    have e1 : (v.trip now c i).frames = _ := x.closeFrame_frames now .tripped
    have e2 : (v.tripFrames now).frames = _ := MotorUnit.closeFrame_frames now .tripped _
    have ex : x.frames = { v.frames with half0 := v.frames.half0.tripMissed, half1 := v.frames.half1.tripMissed } := by
      show ({ (v.toSafeState now).frames with
        half0 := (v.toSafeState now).frames.half0.tripMissed, half1 := (v.toSafeState now).frames.half1.tripMissed } : FrameAssembler) = _
      rw [rest.1]
    rw [e1, e2, ex]
    rfl
  obtain ⟨f1, f2, f3⟩ := MotorUnit.tripFrames_frames a now
  have ch := v.trip_channel now c i
  have safe : u.inSafeState (v.toSafeState now) now := by
    have := v.toSafeState_inSafeState now
    unfold MotorUnit.inSafeState at this ⊢
    rw [hch, hst] at this
    exact this
  have legs : ∀ n, (v.trip now c i).channel.leg n = (v.toSafeState now).channel.leg n := fun n => by
    rw [ch]
    cases n <;> rfl
  have same : (v.toSafeState now).channel.periodCount = u.channel.periodCount
      ∧ (v.toSafeState now).channel.stepIndex = u.channel.stepIndex
      ∧ (v.toSafeState now).channel.narrowCount = u.channel.narrowCount := by
    rw [← hch]
    unfold MotorUnit.toSafeState
    split <;> exact ⟨rfl, rfl, rfl⟩
  have slots : (v.trip now c i).slotA = u.slotA.release ∧ (v.trip now c i).slotB = u.slotB.release := by
    have sl := x.closeFrame_slots now .tripped
    refine ⟨?_, ?_⟩
    · show (x.closeFrame now .tripped).slotA.release = _
      rw [sl.1]
      show (v.toSafeState now).slotA.release = _
      rw [rest.2.2.2.1, hu]
    · show (x.closeFrame now .tripped).slotB.release = _
      rw [sl.2]
      show (v.toSafeState now).slotB.release = _
      rw [rest.2.2.2.2.1, hu]
  have others : (v.trip now c i).settings = u.settings ∧ (v.trip now c i).marks = u.marks
      ∧ (v.trip now c i).tracker = u.tracker.leaveHall := by
    have k := x.closeFrame_others now .tripped
    refine ⟨?_, ?_, ?_⟩
    · exact k.1.trans hxs
    · refine k.2.1.trans ?_
      show (v.toSafeState now).marks = _
      rw [rest.2.2.2.2.2.2.2, hu]
    · refine k.2.2.trans ?_
      show (v.toSafeState now).tracker.leaveHall = _
      rw [rest.2.2.2.2.2.1, hu]
  refine ⟨by rw [ch], by rw [ch], by rw [ch], by rw [ch], by rw [ch]; exact same.1, by rw [ch]; exact same.2.1,
    by rw [ch]; exact same.2.2, others.1, others.2.1, ?_, ?_, by rw [others.2.2]; rfl, ?_, by rw [fr, f1], by rw [fr, f1],
    by rw [fr, f1], by rw [fr, f1], by rw [fr, f1], by rw [fr]; exact f2, by rw [fr]; exact f3, ?_, ?_, ?_⟩
  · intro n
    rw [legs n]
    exact safe n
  · intro hsafe hoff n
    rw [legs n]
    have := (v.allOff_legsOff now (hch ▸ hsafe)).1 n
    unfold MotorUnit.toSafeState
    rw [hst, hoff]
    exact this
  · intro n
    cases n
    · show u.slotA.released (v.trip now c i).slotA
      rw [slots.1]
      exact u.slotA.release_released
    · show u.slotB.released (v.trip now c i).slotB
      rw [slots.2]
      exact u.slotB.release_released
  · intro f hf
    exact MotorUnit.closeRecorded_congr hxa.symm hxs.symm rfl rfl (MotorUnit.closeFrame_recorded (hx.trans hf) now .tripped)
  · have := (x.closeFrame_attention now .tripped).1
    rw [hxa] at this
    show ({ (x.closeFrame now .tripped).attention with tripped := true } : MotorAttention) = _
    rw [this]
    rfl
  · intro hn
    show ({ (x.closeFrame now .tripped).attention with tripped := true } : MotorAttention) = _
    rw [(x.closeFrame_attention now .tripped).2 (hx.trans hn), hxa]

/-- A reservation list after one motor's trip entry (R19 item 3, R87). -/
theorem tripsLeave_one (m : Motor) (l : List Reservation) :
    ((l.filter fun r => !Reservation.ahead m r).map (Reservation.orphan m)) = tripsLeave (fun k => decide (k = m)) l := by
  unfold tripsLeave
  have e : (l.filter fun r => !Reservation.ahead m r) = l.filter fun r => !decide (r.motor = m) || decide (r.state = .converting) := by
    refine List.filter_congr fun r _ => ?_
    unfold Reservation.ahead Reservation.isConverting
    cases decide (r.motor = m) <;> simp
  rw [e]
  refine List.map_congr_left fun r hr => ?_
  have := (List.mem_filter.1 hr).2
  unfold Reservation.orphan Reservation.isConverting
  by_cases hm : r.motor = m
  · have hc : r.state = .converting := by simpa [hm] using this
    simp [hm, hc]
  · simp [hm]

/-- Trip entry of a motor: its own blocks, from before or after entries MISSED, its reservations, and that nothing else changes (R19). -/
theorem State.tripEntry_entered (s : State) (m : Motor) (c : TripCause) (i : Short) :
    (∀ u : MotorUnit, u.Missed (s.motor m) → u.tripEntered ((s.tripEntry m c i).motor m) c i s.timebase)
      ∧ (∀ k, k ≠ m → (s.tripEntry m c i).motor k = s.motor k)
      ∧ s.tripEntry m c i =
        { s with m0 := (s.tripEntry m c i).m0, m1 := (s.tripEntry m c i).m1, m2 := (s.tripEntry m c i).m2,
                 calendar := { s.calendar with
                   reservations := tripsLeave (fun k => decide (k = m)) s.calendar.reservations } } := by
  obtain ⟨h1, h2, h3⟩ := s.removeMissed_spec (Reservation.ahead m)
  have hm (k : Motor) : ((s.removeMissed (Reservation.ahead m)).setReservations
      ((s.removeMissed (Reservation.ahead m)).calendar.reservations.map (Reservation.orphan m))).motor k =
        (s.removeMissed (Reservation.ahead m)).motor k := by cases k <;> rfl
  unfold State.tripEntry
  refine ⟨fun u hu => ?_, fun k hk => ?_, ?_⟩
  · rw [State.motor_onMotor, if_pos rfl, hm m]
    exact MotorUnit.trip_entered (hu.trans (h1 m)) _ c i
  · rw [State.motor_onMotor, if_neg hk, hm k]
    refine h2 k fun r _ hr e => hk ?_
    simp only [Reservation.ahead, Bool.and_eq_true, decide_eq_true_eq] at hr
    exact e.symm.trans hr.1
  · rw [← tripsLeave_one]
    have : (s.removeMissed (Reservation.ahead m)).calendar =
        { s.calendar with reservations := s.calendar.reservations.filter fun r => !Reservation.ahead m r } := by rw [h3]
    dsimp only
    rw [h3]
    cases m <;> rfl

/-- The motor is RUNNING or STOPPING: a trip cause reaches it (R17). -/
def State.tripReaches (s : State) (m : Motor) : Bool :=
  decide ((s.motor m).channel.state = .running) || decide ((s.motor m).channel.state = .stopping)

/-- The list after the trip entry of no motor. -/
theorem tripsLeave_none (l : List Reservation) : tripsLeave (fun _ => false) l = l := by
  simp [tripsLeave]

/-- The list after the trip entry of some motors and then of others. -/
theorem tripsLeave_or (p q : Motor → Bool) (l : List Reservation) :
    tripsLeave q (tripsLeave p l) = tripsLeave (fun m => p m || q m) l := by
  induction l with
  | nil => rfl
  | cons r rest ih =>
    unfold tripsLeave at ih ⊢
    simp only [List.filter_cons]
    cases hp : p r.motor <;> cases hq : q r.motor <;> cases hc : decide (r.state = .converting) <;>
      simp_all

/-- A trip cause reaches one motor (R17 to R19). -/
theorem State.trip_entered (s : State) (m : Motor) (c : TripCause) (i : Short) :
    (s.tripReaches m = true → ∀ u : MotorUnit, u.Missed (s.motor m) → u.tripEntered ((s.trip m c i).motor m) c i s.timebase)
      ∧ (∀ k, (k = m → s.tripReaches m = false) → (s.trip m c i).motor k = s.motor k)
      ∧ s.trip m c i =
        { s with m0 := (s.trip m c i).m0, m1 := (s.trip m c i).m1, m2 := (s.trip m c i).m2,
                 calendar := { s.calendar with
                   reservations := tripsLeave (fun k => decide (k = m) && s.tripReaches m) s.calendar.reservations } } := by
  have e : s.trip m c i = if s.tripReaches m then s.tripEntry m c i else s := by
    unfold State.trip State.tripReaches
    cases (s.motor m).channel.state <;> rfl
  have entry := s.tripEntry_entered m c i
  cases h : s.tripReaches m with
  | true =>
    rw [e, h, if_pos rfl]
    refine ⟨fun _ => entry.1, fun k hk => entry.2.1 k fun e => absurd (hk e) (by simp), ?_⟩
    simp only [Bool.and_true]
    exact entry.2.2
  | false =>
    rw [e, h, if_neg (by simp)]
    refine ⟨fun k => absurd k (by simp), fun _ _ => rfl, ?_⟩
    simp only [Bool.and_false, tripsLeave_none]

/-- A trip cause reaches every motor (R18, R100). -/
theorem State.tripAll_entered (s : State) (c : TripCause) (i : Short) :
    (∀ m, s.tripReaches m = true → ∀ u : MotorUnit, u.Missed (s.motor m) → u.tripEntered ((s.tripAll c i).motor m) c i s.timebase)
      ∧ (∀ m, s.tripReaches m = false → (s.tripAll c i).motor m = s.motor m)
      ∧ s.tripAll c i =
        { s with m0 := (s.tripAll c i).m0, m1 := (s.tripAll c i).m1, m2 := (s.tripAll c i).m2,
                 calendar := { s.calendar with reservations := tripsLeave s.tripReaches s.calendar.reservations } } := by
  obtain ⟨a1, a2, a3⟩ := s.trip_entered .m0 c i
  obtain ⟨b1, b2, b3⟩ := (s.trip .m0 c i).trip_entered .m1 c i
  obtain ⟨c1, c2, c3⟩ := ((s.trip .m0 c i).trip .m1 c i).trip_entered .m2 c i
  have ta : (s.trip .m0 c i).timebase = s.timebase := by rw [a3]
  have tb : ((s.trip .m0 c i).trip .m1 c i).timebase = s.timebase := by rw [b3]; exact ta
  have ra (m : Motor) (h : m ≠ .m0) : (s.trip .m0 c i).tripReaches m = s.tripReaches m := by
    unfold State.tripReaches
    rw [a2 m fun e => absurd e h]
  have rb : ((s.trip .m0 c i).trip .m1 c i).tripReaches .m2 = s.tripReaches .m2 := by
    rw [← ra .m2 (by decide)]
    unfold State.tripReaches
    rw [b2 .m2 fun e => absurd e (by decide)]
  have last (m : Motor) (h : m ≠ .m2) : (s.tripAll c i).motor m = ((s.trip .m0 c i).trip .m1 c i).motor m :=
    c2 m fun e => absurd e h
  have first (m : Motor) (h : m ≠ .m0) : (s.trip .m0 c i).motor m = s.motor m := a2 m fun e => absurd e h
  refine ⟨fun m hm => ?_, fun m hm => ?_, ?_⟩
  · cases m with
    | m0 =>
      rw [last .m0 (by decide), b2 .m0 fun e => absurd e (by decide)]
      exact a1 hm
    | m1 =>
      have := b1 ((ra .m1 (by decide)).trans hm)
      rw [first .m1 (by decide), ta] at this
      rw [last .m1 (by decide)]
      exact this
    | m2 =>
      have := c1 (rb.trans hm)
      rw [b2 .m2 fun e => absurd e (by decide), first .m2 (by decide), tb] at this
      exact this
  · cases m with
    | m0 => rw [last .m0 (by decide), b2 .m0 fun e => absurd e (by decide), a2 .m0 fun _ => hm]
    | m1 => rw [last .m1 (by decide), b2 .m1 fun _ => (ra .m1 (by decide)).trans hm, first .m1 (by decide)]
    | m2 => exact (c2 .m2 fun _ => rb.trans hm).trans ((b2 .m2 fun e => absurd e (by decide)).trans (first .m2 (by decide)))
  · have la : (s.trip .m0 c i).calendar =
        { s.calendar with reservations := tripsLeave (fun k => decide (k = .m0) && s.tripReaches .m0) s.calendar.reservations } := by
      rw [a3]
    have lb : ((s.trip .m0 c i).trip .m1 c i).calendar =
        { s.calendar with reservations := tripsLeave (fun k => decide (k = .m0) && s.tripReaches .m0
          || decide (k = .m1) && s.tripReaches .m1) s.calendar.reservations } := by
      rw [b3]
      dsimp only
      rw [la, ra .m1 (by decide), tripsLeave_or]
    have lc : (s.tripAll c i).calendar = { s.calendar with reservations := tripsLeave s.tripReaches s.calendar.reservations } := by
      show (State.trip _ .m2 c i).calendar = _
      rw [c3]
      dsimp only
      rw [lb, rb, tripsLeave_or]
      congr 2
      funext k
      cases k <;> simp
    rw [← lc]
    exact State.tripped_trans (State.tripped_trans a3 b3) c3

end Sys2Proof.Machine
end

