-- ==== Sys2Proof/Tests/Slice0.lean ====
section
/-! SUPPORT. The model's own tests: the checks on commands, the spec's worked examples, one step of each command, and for
every statement that has hypotheses a state that meets them. -/
namespace Sys2Proof.Tests
open Sys2Proof.Machine

-- One theorem after the other: each waits for the kernel to take the one before it, and many that wait need many threads.
set_option Elab.async false

/-! ### States to test on -/

/-- The state a command leads to. -/
def run (c : Instr) (s : State) : State :=
  match exec c s with
  | .next t => t
  | .fault f => nomatch f
  | .refused _ => State.reset

/-- The block after its power-on LINK-CLEAR: the link is OPEN. -/
def ready : State :=
  { State.reset with arbiter := { Arbiter.reset with state := .openLink }, port := MemoryPort.reset none }

/-- Changes the blocks of M0. -/
def edit (s : State) (f : MotorUnit → MotorUnit) : State := { s with m0 := f s.m0 }

/-- The bytes of a record from its words, with the check value computed (R33). -/
def record (length : Nat) (words : List Nat) : Memory :=
  let check := (65536 - words.sum % 65536) % 65536
  Memory.writeRow 0 0 ((words ++ [check, length]).flatMap fun w => [BitVec.ofNat 8 w, BitVec.ofNat 8 (w / 256)]) []

/-- The one-step plan of 11.1, with a drive mode and an end action (0 REPEAT_LAST, 1 LOOP, 2 END_STOP). -/
def plan (mode endAction : Nat) : Memory :=
  record 32 [288, mode + 256 * endAction, 771, 257, 1000, 4000, 2000, 3000, 0, 0, 258, 2500, 2400, 2700]

/-- A two-step PLAN plan with end action LOOP. -/
def plan2 : Memory :=
  record 48 [560, 256, 771, 257, 1000, 4000, 2000, 3000, 0, 0, 258, 2500, 2400, 2700, 0, 0, 0, 0, 0, 0, 0, 0]

/-- A slot in a state, with a copy. -/
def slotIn (st : SlotState) (c : Memory) : PlanSlot := { PlanSlot.reset with copy := c, state := st, tag := 7 }

/-- The sector map of section 3.2. -/
def map32 : Vector SectorEntry 6 :=
  #v[⟨.chop, .low, .float, 3⟩, ⟨.float, .chop, .low, 6⟩, ⟨.chop, .float, .low, 2⟩, ⟨.low, .float, .chop, 5⟩,
     ⟨.float, .low, .chop, 1⟩, ⟨.low, .chop, .float, 4⟩]

/-- M0 may START: a PENDING slot, its input, and a RESULT window of rows 0 to 15 for its ring. -/
def startable (c : Memory) : State :=
  let s := edit ready fun u => { u with slotA := slotIn .pending c, settings := { u.settings with sectorMap := map32 }, hallCode := 1 }
  { s.setInput 2 { InputRecord.reset with owner := .motor .m0 } with
    window := { s.window with active := Vector.replicate 8 { bound := 16, kind := .result, motor := .m0 } } }

/-- M0 runs from instant 0, its frame 0 open in half 0 after one period. -/
def running (c : Memory) : State :=
  edit (startable c) fun u =>
    { u with
      channel := { u.channel with state := .running, periodStart := some 0 }
      slotA := slotIn .active c
      tracker := { u.tracker with state := .tracking, sector := some 1, reference := .start, timeout := some 20480 }
      frames := { u.frames with
        openFrame := some
          { sequence := 0, tag := 7, countAtOpen := 0, periodsCovered := 1, storage := some .half0, ringSlot := some 0,
            closeFlag := .none, full := false, fullLogged := false }
        half0 := { Half.reset with state := .opened }
        nextSequence := 1
        assigned := 1 } }

/-- A reservation of M0 on I2 at instant 100. -/
def reservation (st : ReservationState) : Reservation :=
  { motor := .m0, input := 2, start := 100, target := 100, latest := 200, slid := false, position := none, sequence := 0,
    stepIndex := 0, period := 0, purpose := 1, state := st, tag := if st = .converting then some 5 else none, orphaned := false }

/-- A calendar of reservations. -/
def withReservations (s : State) (l : List Reservation) : State := { s with calendar := { reservations := l, highWater := l.length } }

/-- A converter whose timer falls at 320 with a failure count. -/
def withTimer (s : State) (failures : Nat) : State :=
  { s with converter := { s.converter with failures := failures, resultTimer := some 320, requestTag := 6 } }

/-- A CLOSED half with its FINAL request and two resolved positions. -/
def closedHalf : Half :=
  let p : PositionRecord :=
    { input := 2, purpose := 1, stepIndex := 0, period := 0, slid := false, resolution := some { status := .ok, value := 7 } }
  { Half.reset with state := .closed, positions := [p, p], request := .finalFlush }

/-- M0 presents a FINAL request. -/
def presenting : State :=
  edit ready fun u => { u with frames := { u.frames with half0 := closedHalf, assigned := 1, nextSequence := 1 } }

/-- The final flush of M0 is in flight. -/
def flying : State := run (.flushStart 0) presenting

/-- The plan window of M0 stands at rows 16 and 17, after its RESULT rows. -/
def mapped (s : State) : State :=
  { s with window := { s.window with active := #v[
      ⟨16, .result, .m0⟩, ⟨18, .plan, .m0⟩, ⟨18, .pass, .m0⟩, ⟨18, .pass, .m0⟩, ⟨18, .pass, .m0⟩, ⟨18, .pass, .m0⟩,
      ⟨18, .pass, .m0⟩, ⟨18, .pass, .m0⟩] } }

/-- The transaction refused: select fell with READY low. -/
def violated : State := run (.upstreamSelectFall ⟨[], 0⟩) State.reset

/-! ### The checks on commands (WellFormed) -/

theorem test_wf_read : Instr.wf (.read none (some 0) 0 0) = false ∧ Instr.wf (.read (some 0) none 1 0) = false
    ∧ Instr.wf (.read (some 0) (some 0) 9 0) = true := by decide
theorem test_wf_readWrap : Instr.wf (.readWrap none (some 0) 0 0) = false := by decide
theorem test_wf_repeatModeRead : Instr.wf (.repeatModeRead (some 5) none 2 0) = false := by decide
theorem test_wf_write : Instr.wf (.write none [1] 0) = false ∧ Instr.wf (.write none [] 0) = true := by decide
theorem test_wf_unknownCommand : Instr.wf (.unknownCommand [0x2A] 0) = false ∧ Instr.wf (.unknownCommand [0x00] 0) = true
    ∧ Instr.wf (.unknownCommand [0x5C] 0) = false ∧ Instr.wf (.unknownCommand [0x5C, 9] 0) = true
    ∧ Instr.wf (.unknownCommand [0x4D, 2] 0) = false ∧ Instr.wf (.unknownCommand [0x4D, 2, 9] 0) = true := by decide
theorem test_wf_settingWordWrite : Instr.wf (.settingWordWrite 0x102 0 0) = false ∧ Instr.wf (.settingWordWrite 0x104 0 0) = true := by
  decide

/-- No row of the table gives bits: no word spells a command. -/
theorem test_decodeTableWord : decodeTableWord 8 0x1A = none := rfl

/-! ### Worked examples of the spec -/

/-- The check value of 11.1 is 46106, the bytes 0x1A and 0xB4, and the plan passes all five tests. -/
theorem test_check_value : planShort (plan 0 1) 28 = 46106 ∧ Memory.read (plan 0 1) 28 = 0x1A ∧ Memory.read (plan 0 1) 29 = 0xB4
    ∧ (startable (plan 0 1)).validateSlot .m0 .a = none := by decide +kernel

/-- A wrong check value is PLAN_CHECK with the sum obtained (R35). -/
theorem test_check_fault : validate .m0 MotorSettings.reset (fun _ => .shared) (Memory.write (plan 0 1) 28 0x1B) =
    some ⟨.planCheck, 1⟩ := by decide +kernel

/-- The sector map of 3.2 is valid. -/
theorem test_map_valid : ({ MotorSettings.reset with sectorMap := map32 }).mapValid = true := by decide +kernel

/-- Section 4.2: request 0 at 1460; then request 1 at 840, and at 1460 had request 0 not been there; request 2 nowhere. -/
theorem test_find_start :
    findStart 160 [1000, 1300] 900 1500 1100 = some 1460 ∧ findStart 160 [1000, 1300, 1460] 0 1700 1150 = some 840
      ∧ findStart 160 [1000, 1300] 0 1700 1150 = some 1460 ∧ findStart 160 [1000, 1300, 1460, 840] 900 1400 1000 = none := by
  decide +kernel

/-- Section 10.1: a trip-class entry takes the place of the newest non-trip entry in a full log; a non-trip one is lost. -/
theorem test_log_overflow :
    let e (c : LogCode) : LogEntry := ⟨c, .motor .m0, 0, 0⟩
    let full : FaultLog := { entries := List.replicate 15 (e .hallReverse) ++ [e .settingRefused], overflow := false, discarded := 0 }
    (full.add (e .hallReverse)) = { full with overflow := true, discarded := 1 }
      ∧ (full.add (e .limitTrip)).entries = List.replicate 15 (e .hallReverse) ++ [e .limitTrip] := by
  decide +kernel

/-- Chapter 07: a WRITE of 40 bytes with a LINK-CLEAR before it takes 182 ticks, one of 20 bytes 102, one of 8 bytes 48. -/
theorem test_flush_ticks :
    let f (clear : Bool) (n : Nat) : Nat := (if clear then 6 else 0) + 4 * (4 + n)
    f true 40 = 182 ∧ f true 20 = 102 ∧ f false 8 = 48
      ∧ ({ presenting with port := { presenting.port with repeatSet := true } }.chooseFlush.arbiter.flight.map Flush.due) =
          some (BitVec.ofNat 32 (f true 24)) := by decide +kernel

/-- The map of 8.3 passes MAP_COMMIT's checks, and fails at entry 2 with bound 261. -/
theorem test_map_commit :
    let e (b : Nat) (k : RowKind) (m : Motor) : MapEntry := ⟨b, k, m⟩
    let staging (b : Nat) : Vector MapEntry 8 := #v[e 256 .pass .m0, e 258 .plan .m0, e b .plan .m1, e 262 .plan .m2, e 272 .result .m0,
      e 276 .result .m1, e 280 .result .m2, e 280 .pass .m0]
    let commit (b : Nat) : State := run (.mapCommit 0) { ready with window := { ready.window with staging := staging b } }
    (commit 260).window.active = staging 260 ∧ (commit 260).log.entries = []
      ∧ (commit 261).log.entries = [⟨.mapInvalid, .device, 2, 0⟩] := by decide +kernel

/-- Section 8.4: READ-WRAP of 8 bytes from 0x3FF01C with wrap 32 runs on at 0x3FF000. -/
theorem test_wrap_address : readAddress .readWrap .wrap32 0x3FF01C 3 = 0x3FF01F ∧ readAddress .readWrap .wrap32 0x3FF01C 4 = 0x3FF000
    ∧ readAddress .read .wrap32 0xFFFFFC 4 = 0 := by decide +kernel

/-! ### One step of each command -/

theorem test_resetAssert : (run (.resetAssert 9) (running (plan 0 1))).inReset = true
    ∧ (run (.resetAssert 9) (running (plan 0 1))).m0.channel.state = .stopped := by decide +kernel
theorem test_resetRelease : (run (.resetRelease 2) ready).window.position = 2 ∧ (run (.resetRelease 2) ready).arbiter.state = .held := by
  decide +kernel
theorem test_powerOnLinkClearCompletion : (run (.powerOnLinkClearCompletion 4) State.reset).ready = true := by decide +kernel
theorem test_upstreamSelectFall : (run (.upstreamSelectFall ⟨[], 0⟩) ready).arbiter.state = .controller ∧ violated.decoder.refused = true := by
  decide +kernel
theorem test_read : (run (.read (some 5) (some 0) 2 0) { ready with ram := { ready.ram with cells := [(5, 9), (6, 8)] } }).upstream.readData = [9, 8] := by
  decide +kernel
theorem test_readWrap : (run (.readWrap (some 15) (some 0x96) 2 0)
    { ready with
      ram := { ready.ram with cells := [(0, 8), (15, 9)], wrap := .wrap16 }
      upstream := { ready.upstream with wrap := .wrap16 } }).upstream =
    { selectLow := false, repeatState := some .readWrap, wrap := .wrap16, readData := [9, 8] } := by decide +kernel
theorem test_repeatModeRead : (run (.repeatModeRead (some 5) (some 0) 1 0)
    { ready with upstream := { ready.upstream with repeatState := some .read } }).port.issued = [[0x1A, 0, 0, 5, 0]] := by
  decide +kernel
theorem test_write : (run (.write (some 0x1001) [3] 0) (mapped ready)).m0.slotA = { PlanSlot.reset with copy := [(1, 3)], state := .inactive }
    ∧ (run (.write (some 0x1001) [3] 0) (mapped ready)).ram.cells = [(0x1001, 3)] := by decide +kernel
theorem test_wrapSet : (run (.wrapSet (some 2) 0) ready).upstream.wrap = .wrap32 := by decide +kernel
/-- A forwarded command shows every byte from its command byte on, one that ends early as far as it went; a withheld SLEEP shows none
(R155, R159). -/
theorem test_forwarded_bytes :
    let shown (c : Instr) (s : State) : List (List Byte) := (run c s).port.issued
    shown (.wrapSet none 0) ready = [[0x4D]] ∧ (run (.wrapSet none 0) ready).upstream = ready.upstream
      ∧ shown (.unknownCommand [0x4D, 2, 9] 0) ready = [[0x4D, 2, 9]]
      ∧ (run (.unknownCommand [0x4D, 2, 9] 0) ready).upstream.wrap = .wrap32
      ∧ shown (.unknownCommand [0x5C, 9] 0) ready = [[0x5C, 9]] ∧ shown (.unknownCommand [0x5E, 9] 0) ready = [[0x5E, 9]]
      ∧ shown (.unknownCommand [0x7E, 9] 0) ready = [[0x7E, 9]] ∧ shown (.unknownCommand [0x5C, 9] 0) (running (plan 0 1)) = []
      ∧ shown (.write none [] 0) ready = [] := by decide +kernel
theorem test_sleep : (run (.sleep 0) ready).port.state = .asleep ∧ (run (.sleep 0) (running (plan 0 1))).log.entries =
    [⟨.sleepRefused, .device, 1, 0⟩] := by decide +kernel
theorem test_wake : (run (.wake 0) ready).port.wakeTimer = some 8192 ∧ (run (.wake 0) ready).arbiter.state = .held := by decide +kernel
theorem test_linkClear : (run (.linkClear 0) { ready with port := { ready.port with repeatSet := true } }).port.repeatSet = false := by
  decide +kernel
theorem test_unknownCommand : (run (.unknownCommand [0, 1] 0) ready).port.issued = [[0, 1]] := by decide +kernel
theorem test_linkViolation : (run (.linkViolation (some 0x1A) 2 0) State.reset).upstream.readData = [0xFF, 0xFF]
    ∧ (run (.linkViolation (some 0x1A) 2 0) State.reset).log.entries = [⟨.linkViolation, .device, 0x011A, 0⟩] := by decide +kernel
theorem test_start : (run (.start .m0 0) (startable (plan 0 1))).m0.channel.state = .running
    ∧ (run (.start .m0 0) ready).log.entries = [⟨.startRefused, .motor .m0, 2, 0⟩] := by decide +kernel
theorem test_stop : (run (.stop .m0 0) (running (plan 0 1))).m0.channel.state = .stopping := by decide +kernel
theorem test_restart : (run (.restart .m0 0) (edit ready fun u => { u with channel := { u.channel with state := .tripped } })).m0.channel.state =
    .stopped := by decide +kernel
theorem test_commit : (run (.commit .m0 .a 9 .next 0) (edit (startable (plan 0 1)) fun u => { u with slotA := slotIn .inactive (plan 0 1) })).m0.slotA =
    { slotIn .pending (plan 0 1) with tag := 9 } := by decide +kernel
theorem test_cancel : (run (.cancel .m0 .a 0) (startable (plan 0 1))).m0.slotA.state = .inactive := by decide +kernel
theorem test_clearCounts : (run (.clearCounts .m0 0) (edit ready fun u => { u with marks := { u.marks with unplaced := 3 } })).m0.marks.unplaced = 0 := by
  decide +kernel
theorem test_softRestart : (run (.softRestart 0) (running (plan 0 1))).m0.slotA.state = .inactive := by decide +kernel
theorem test_softRestartEffect : (run (.softRestartEffect 0) { running (plan 0 1) with restartWaiting := true }).m0.channel.state = .stopped := by
  decide +kernel
theorem test_clearCountsDevice : (run (.clearCountsDevice 0) { ready with calendar := { reservations := [], highWater := 5 } }).calendar.highWater = 0 := by
  decide +kernel
theorem test_logPop : (run (.logPop 0) { ready with log := { entries := [⟨.frameLost, .motor .m0, 0, 0⟩], overflow := false, discarded := 0 } }).log =
    FaultLog.reset := by decide +kernel
theorem test_logClearOverflow : (run (.logClearOverflow 0) { ready with log := { entries := [], overflow := true, discarded := 4 } }).log =
    FaultLog.reset := by decide +kernel
theorem test_consumedWrite : (run (.consumedWrite .m0 3 0) (edit ready fun u => { u with frames := { u.frames with assigned := 4, produced := 4 } })).m0.frames.consumed =
    3 := by decide +kernel
theorem test_consumedWrite_refused :
    (run (.consumedWrite .m0 2 0) (edit ready fun u => { u with frames := { u.frames with assigned := 5, produced := 4, consumed := 3 } })).log.entries =
      [⟨.consumeRefused, .motor .m0, 2, 0⟩] := by decide +kernel
theorem test_stagingWordWrite : (run (.stagingWordWrite 1 0x01200005 0) ready).window.staging.get 1 = ⟨5, .result, .m1⟩ := by decide +kernel
theorem test_attentionPendingWrite :
    (run (.attentionPendingWrite 1 0) (edit ready fun u => { u with attention := { u.attention with frameDone := true, tripped := true } })).m0.attention =
      { MotorAttention.reset with tripped := true } := by decide +kernel
theorem test_settingWordWrite : (run (.settingWordWrite 0x100 6000 0) ready).m0.settings.carrierPeriod = 6000
    ∧ (run (.settingWordWrite 0x100 999 0) ready).log.entries = [⟨.settingRefused, .motor .m0, 0x100, 0⟩] := by decide +kernel
theorem test_periodBoundary : (run (.periodBoundary .m0 5000) (running (plan 0 1))).m0.channel.periodCount = 1 := by decide +kernel
/-- Section 1.6: the rise edge at 1200 turns the low side off, and the high side waits for 1280. -/
theorem test_gateEdge :
    (run (.gateEdge .m0 .leg0 1200) (edit (running (plan 0 1)) fun u => { u with channel := { u.channel with
      leg0 := { Leg.reset with command := .lowSide, drive := .pulse 1200 3800, lowOn := true, nextEdge := some ⟨1200, .highSide⟩ } } })).m0.channel.leg0 =
    { Leg.reset with
      command := .highSide, drive := .pulse 1200 3800, lowOff := 1200, turnOn := some 1280,
      nextEdge := some ⟨3800, .lowSide⟩ } := by decide +kernel
theorem test_deadTimeTurnOn : (run (.deadTimeTurnOn .m0 .leg0 1280) (edit ready fun u => { u with channel := { u.channel with
      leg0 := { Leg.reset with command := .highSide, turnOn := some 1280 } } })).m0.channel.leg0.highOn = true := by decide +kernel
theorem test_stoppingComplete : (run (.stoppingComplete .m0 0) (edit ready fun u => { u with channel := { u.channel with state := .stopping } })).m0.channel.state =
    .stopped := by decide +kernel
theorem test_driverFaultActivation : (run (.driverFaultActivation .m0 0) (running (plan 0 1))).m0.channel.tripCause = .driverFault := by decide +kernel
theorem test_driverFaultRelease : (run (.driverFaultRelease .m0 0) (edit ready fun u => { u with channel := { u.channel with faultActive := true } })).m0.channel.faultActive =
    false := by decide +kernel
/-- Section 3.6: code 3 at 9000 is an edge, and its commutation stands at 9300 with a delay of 300. -/
theorem test_hallCodeChange :
    (run (.hallCodeChange .m0 3 9000) (edit (running (plan 1 1)) fun u => { u with settings := { u.settings with commutationDelay := 300, startTimeout := 20 } })).m0.tracker =
    { state := .tracking, sector := some 3, lastEdge := 9000, reference := .edge, duration := none, measured := 0, predictions := 0,
      examination := none, scheduled := some { due := 9300, target := 3 }, timeout := some 29480 } := by decide +kernel
theorem test_hallExamination : (run (.hallExamination .m0 400) (edit (running (plan 1 1)) fun u => { u with tracker := { u.tracker with examination := some 400 } })).m0.tracker.examination =
    none := by decide +kernel
theorem test_commutation : (run (.commutation .m0 300) (edit (running (plan 1 1)) fun u => { u with tracker := { u.tracker with scheduled := some ⟨300, 3⟩ } })).m0.channel.driveSector =
    some 3 := by decide +kernel
/-- Section 3.6: the timeout at 30000 with two durations measured predicts sector 4. -/
theorem test_sectorTimeout :
    (run (.sectorTimeout .m0 30000) (edit (running (plan 1 1)) fun u => { u with
      settings := { u.settings with commutationDelay := 300 }
      tracker := { u.tracker with sector := some 6, lastEdge := 20000, reference := .edge, duration := some 5000, measured := 2, timeout := some 30000 } })).m0.tracker =
    { state := .predicting, sector := some 4, lastEdge := 30000, reference := .prediction, duration := some 5000, measured := 2,
      predictions := 1, examination := none, scheduled := some { due := 30300, target := 4 }, timeout := some 40000, overtaken := some 20000 } := by decide +kernel
theorem test_reservationStart : (run (.reservationStart 100) (withReservations ready [reservation .placed])).converter.requestSent = some 0x20 := by
  decide +kernel
theorem test_waitingReservationStart : (run (.waitingReservationStart 100) (withReservations ready [reservation .waiting])).converter.resultTimer =
    some 420 := by decide +kernel
theorem test_latestInstant : (run (.latestInstant 200) (withReservations ready [reservation .waiting])).calendar.reservations = [] := by decide +kernel
theorem test_resultRecord : (run (.resultRecord 2 5 7 100) (withTimer (withReservations ready [reservation .converting]) 1)).converter.failures = 0 := by
  decide +kernel
theorem test_converterTimeout : (run (.converterTimeout 320) (withTimer (withReservations ready [reservation .converting]) 0)).log.entries =
    [⟨.converterTimeout, .motor .m0, 0x0205, 0⟩] := by decide +kernel
theorem test_flushStart : flying.arbiter.state = .flush ∧ flying.arbiter.pointer = .m1 := by decide +kernel
theorem test_flushCompletion : (run (.flushCompletion 112) flying).m0.frames.produced = 1 ∧ (run (.flushCompletion 112) flying).ready = true := by
  decide +kernel
theorem test_controllerWindowExpiry : (run (.controllerWindowExpiry 512) { ready with arbiter := { ready.arbiter with windowTimer := some 512 } }).arbiter.windowTimer =
    none := by decide +kernel
theorem test_wakeTimerExpiry : (run (.wakeTimerExpiry 8192) (run (.wake 0) ready)).port.state = .awake := by decide +kernel
theorem test_frameDoneDue : (run (.frameDoneDue .m0 50) (edit ready fun u => { u with attention := { u.attention with records :=
      [{ sequence := 0, mode := .delay, due := 50, delayOver := false, written := false }] } })).m0.attention.frameDone = true := by decide +kernel
theorem test_staleTimerExpiry : (run (.staleTimerExpiry .m0 50) (edit ready fun u => { u with attention := { u.attention with staleTimer := some 50 } })).m0.attention.ringStale =
    true := by decide +kernel
/-- The power-on LINK-CLEAR is raised at tick 4, and an idle step before it is a tick (log 3). -/
theorem test_idle : State.reset.idle.timebase = 1 ∧ ({ State.reset with timebase := 4 }).idle.pending = [.powerOnLinkClearCompletion 4] := by
  decide +kernel
/-- A record falls due at the instant at which the arbiter may choose: the choice comes first, and the due instant after it (R154). -/
def choosing : State := edit presenting fun u => { u with attention := { u.attention with records :=
  [{ sequence := 9, mode := .delay, due := 0, delayOver := false, written := false }] } }
theorem test_idle_choice : choosing.dueEvents = [.frameDoneDue .m0 0] ∧ choosing.idle.pending = [.flushStart 0]
    ∧ ({ run (.flushStart 0) choosing with pending := [] }).idle.pending = [.frameDoneDue .m0 0] := by decide +kernel

/-! ### States that meet the hypotheses of the statements -/

/-- M0 runs the one-step PLAN plan that loops. -/
def going : State := running (plan 0 1)

/-- Of the boundaries of one instant, M0's alone may come next (R76). -/
theorem test_boundaries : let s := { going with m1 := going.m0, timebase := 5000 }
    (.periodBoundary .m1 5000) ∈ s.dueEvents ∧ (.periodBoundary .m0 5000) ∈ s.nextEvents ∧ (.periodBoundary .m1 5000) ∉ s.nextEvents := by
  decide +kernel

/-- M0 runs the one-step HALL plan that loops. -/
def hallGoing : State := running (plan 1 1)

/-- The channel of M0 in a state. -/
def inState (s : State) (c : ChannelState) : State := edit s fun u => { u with channel := { u.channel with state := c } }

/-- A tripped M0. -/
def tripped : State := inState ready .tripped

/-- The low side of M0's leg 0 went off at 1200, and its high side waits for 1280. -/
def switching : State :=
  { edit going (fun u => { u with channel := { u.channel with leg0 := { Leg.reset with
      command := .highSide, drive := .pulse 1200 3800, lowOff := 1200, turnOn := some 1280, nextEdge := some ⟨3800, .lowSide⟩ } } }) with
    timebase := 1200 }

/-- One command waits. -/
def ask (s : State) (c : Instr) : State := { s with pending := [c] }

/-- A statement about all motors from one about each. -/
theorem forallMotor {P : Motor → Prop} (h : P .m0 ∧ P .m1 ∧ P .m2) (m : Motor) : P m := by
  cases m
  · exact h.1
  · exact h.2.1
  · exact h.2.2

/-- A statement about all legs from one about each. -/
theorem forallLeg {P : LegName → Prop} (h : P .leg0 ∧ P .leg1 ∧ P .leg2) (l : LegName) : P l := by
  cases l
  · exact h.1
  · exact h.2.1
  · exact h.2.2

/-- A statement about both slots from one about each. -/
theorem forallSlot {P : SlotName → Prop} (h : P .a ∧ P .b) (n : SlotName) : P n := by
  cases n
  · exact h.1
  · exact h.2

/-- A statement about both halves from one about each. -/
theorem forallHalf {P : HalfName → Prop} (h : P .half0 ∧ P .half1) (n : HalfName) : P n := by
  cases n
  · exact h.1
  · exact h.2

/-- The settings after reset are in range, and so are M0's with the map of 3.2. -/
theorem settingsFine : MotorSettings.reset.inRange := by simp [MotorSettings.inRange, MotorSettings.reset]
theorem settingsFine_map : ({ MotorSettings.reset with sectorMap := map32 }).inRange := settingsFine

/-! ### A step, the invariants and reset -/

theorem witness_StepTakesTheFrontCommand : (ask going (.logPop 0)).pending = .logPop 0 :: [] := rfl
theorem witness_EmptyQueueTicksOrRaisesDueEvents :
    (State.reset.pending = [] ∧ State.reset.inReset = false ∧ State.reset.candidate = none ∧ State.reset.dueEvents = [])
      ∧ (choosing.pending = [] ∧ choosing.inReset = false ∧ choosing.candidate ≠ none)
      ∧ ((run (.resetAssert 0) ready).pending = [] ∧ (run (.resetAssert 0) ready).inReset = true)
      ∧ ({ State.reset with timebase := 4 }).candidate = none ∧ ({ State.reset with timebase := 4 }).dueEvents ≠ [] := by decide +kernel
theorem witness_EveryCommandAnswersAndTimeNeverRunsBack : reached ready.timebase 0 = true
    ∧ reached ({ ready with timebase := 5 }).timebase 4 = false ∧ instantOf (.resetRelease 2) = none
    ∧ (instantOf (.logPop 9) = some 9 ∧ ready.inReset = false ∧ ¬ready.givesStart (.logPop 9)
      ∧ ∃ s', exec (.logPop 9) ready = .next s' ∧ s'.timebase = 9)
    ∧ ((run (.resetAssert 0) ready).inReset = true ∧ ∃ s', exec (.logPop 9) (run (.resetAssert 0) ready) = .next s')
    ∧ ∃ s', exec (.resetRelease 2) { ready with timebase := 5 } = .next s' ∧ s'.timebase = 0 :=
  ⟨by decide +kernel, by decide +kernel, rfl, ⟨rfl, by decide +kernel, (by rintro ⟨_, _, h, _⟩; cases h), _, rfl, by decide +kernel⟩,
    ⟨by decide +kernel, _, rfl⟩, _, rfl, rfl⟩
theorem witness_AssertedResetTakesNoCommand : (run (.resetAssert 0) going).inReset = true
    ∧ (∀ straps, Instr.logPop 0 ≠ .resetRelease straps) ∧ (∀ m t, Instr.logPop 0 ≠ .driverFaultActivation m t)
    ∧ (∀ m t, Instr.logPop 0 ≠ .driverFaultRelease m t) ∧ (∀ m code t, Instr.logPop 0 ≠ .hallCodeChange m code t) :=
  ⟨by decide +kernel, nofun, nofun, nofun, nofun⟩
theorem witness_EveryStepKeepsGatesSafe : (ask switching (.deadTimeTurnOn .m0 .leg0 1280)).gatesSafe
    ∧ ∃ s', step (ask switching (.deadTimeTurnOn .m0 .leg0 1280)) = .next s' :=
  ⟨forallMotor (by unfold Channel.safe Leg.safe; decide +kernel), _, rfl⟩
theorem witness_EveryStepKeepsChannelsSound : (ask switching (.deadTimeTurnOn .m0 .leg0 1280)).channelsSound
    ∧ ∃ s', step (ask switching (.deadTimeTurnOn .m0 .leg0 1280)) = .next s' := by
  refine ⟨fun m => ⟨?_, ?_, ?_, ?_, ?_, ?_⟩, _, rfl⟩
  iterate 5 revert m; exact forallMotor (by decide +kernel)
  intro h l
  revert m
  refine forallMotor ⟨fun h => ?_, fun _ => ?_, fun _ => ?_⟩
  · unfold Channel.atRest at h
    exact absurd h (by decide +kernel)
  · revert l; exact forallLeg (by decide +kernel)
  · revert l; exact forallLeg (by decide +kernel)
theorem witness_EveryStepKeepsDeadTime : (ask switching (.deadTimeTurnOn .m0 .leg0 1280)).turnOnsSound
    ∧ (∀ t, (ask switching (.deadTimeTurnOn .m0 .leg0 1280)).pending.head? ≠ some (.resetAssert t))
    ∧ (∀ straps, (ask switching (.deadTimeTurnOn .m0 .leg0 1280)).pending.head? ≠ some (.resetRelease straps))
    ∧ ∃ s', step (ask switching (.deadTimeTurnOn .m0 .leg0 1280)) = .next s' := by
  refine ⟨⟨witness_EveryStepKeepsChannelsSound.1, fun m => ⟨?_, fun n => ?_⟩⟩, nofun, nofun, _, rfl⟩
  · revert m; exact forallMotor ⟨settingsFine_map, settingsFine, settingsFine⟩
  · intro due h
    cases m <;> cases n <;> first | (cases h; done) | (cases h; decide +kernel)
/-- A high side that is on at 2000 takes the instant of what ends it as its last turn-off: a trip to either safe state, a stopping
boundary, SOFT_RESTART; an idle side keeps its own (R14, R24). -/
theorem test_turn_off_instants :
    let legs (low : Bool) (st : ChannelState) : State := edit going fun u => { u with
      settings := { u.settings with safeState := if low then .lowBrake else .allOff }
      channel := { u.channel with state := st, leg0 := { Leg.reset with command := .highSide, highOn := true, lowOff := 1200 } } }
    let offs (c : Instr) (s : State) : Instant × Instant :=
      ((run c s).m0.channel.leg0.highOff, (run c s).m0.channel.leg0.lowOff)
    offs (.driverFaultActivation .m0 2000) (legs false .running) = (2000, 1200)
      ∧ offs (.driverFaultActivation .m0 2000) (legs true .running) = (2000, 1200)
      ∧ (run (.driverFaultActivation .m0 2000) (legs true .running)).m0.channel.leg0.turnOn = some 2080
      ∧ offs (.periodBoundary .m0 5000) (legs false .stopping) = (5000, 1200)
      ∧ offs (.softRestart 2000) (legs false .running) = (2000, 1200)
      ∧ offs (.restart .m0 2000) (inState (edit (legs false .tripped) fun u => { u with frames := FrameAssembler.reset }) .tripped) =
          (2000, 1200) := by decide +kernel
theorem witness_EveryStepKeepsLinkSound : (ask flying (.flushCompletion 112)).linkSound
    ∧ ∃ s', step (ask flying (.flushCompletion 112)) = .next s' :=
  ⟨by unfold State.linkSound; decide +kernel, _, rfl⟩
theorem witness_EveryStepKeepsRingCounters : (ask flying (.flushCompletion 112)).ringsSound
    ∧ ∃ s', step (ask flying (.flushCompletion 112)) = .next s' := by
  refine ⟨⟨witness_EveryStepKeepsLinkSound.1, fun m => ⟨?_, ?_, ?_, ?_, ?_⟩, ?_⟩, _, rfl⟩
  iterate 3 revert m; exact forallMotor (by decide +kernel)
  · intro n; revert n; revert m; exact forallMotor ⟨forallHalf (by decide +kernel), forallHalf (by decide +kernel), forallHalf (by decide +kernel)⟩
  · revert m; exact forallMotor ⟨nofun, nofun, nofun⟩
  · intro f hf _
    cases hf
    decide +kernel
theorem witness_EveryStepKeepsListsBounded :
    let full : FaultLog := { entries := List.replicate 16 ⟨.hallReverse, .motor .m0, 0, 0⟩, overflow := true, discarded := 255 }
    let s := ask (edit { withReservations ready (reservation .converting :: List.replicate 9 (reservation .placed)) with log := full }
      fun u => { u with attention := { u.attention with
        records := List.replicate 8 { sequence := 0, mode := .delay, due := 50, delayOver := false, written := false } } })
      (.stop .m0 0)
    s.log.bounded ∧ s.calendar.bounded ∧ s.recordsSound ∧ ∃ s', step s = .next s' :=
  ⟨by unfold FaultLog.bounded; decide +kernel, by unfold Calendar.bounded; decide +kernel, forallMotor (by unfold MotorAttention.recordsSound; decide +kernel), _, rfl⟩
/-- Two reservations at 100 and at `second`, while M0 may START. -/
def twoAhead (second : Instant) : State :=
  withReservations (startable (plan 0 1)) [reservation .placed, { reservation .placed with start := second }]

/-- Intervals of 160 ticks that touch are apart, and a tick closer they are not; START at 0 places one more between them and they
stay apart and in order; T_CONV may grow with one reservation. -/
theorem witness_CalendarIntervals :
    (∀ m, ((twoAhead 260).motor m).settings.inRange) ∧ (40 ≤ (twoAhead 260).device.tConv ∧ (twoAhead 260).device.tConv ≤ 320)
      ∧ (twoAhead 260).calendar.apart 160 ∧ ¬(twoAhead 259).calendar.apart 160 ∧ (twoAhead 260).calendar.ordered
      ∧ (let s' := run (.start .m0 0) (twoAhead 5000)
         s'.calendar.reservations.map Reservation.start = [100, 2500, 5000] ∧ s'.calendar.apart s'.device.tConv
           ∧ s'.calendar.ordered ∧ s'.calendar.near s'.timebase)
      ∧ (let s := withReservations ready [reservation .converting]
         s.calendar.reservations.length ≤ 1 ∧ (run (.settingWordWrite 0 320 0) s).device.tConv = 320) := by
  refine ⟨forallMotor ⟨settingsFine_map, settingsFine, settingsFine⟩, ?_⟩
  unfold Calendar.apart Calendar.ordered Calendar.near Reservation.apart
  decide +kernel
theorem witness_EveryStepKeepsSettingsAndMemory :
    let s := ask going (.settingWordWrite 0x100 6000 0)
    s.settingsInRange ∧ s.memoryCanonical ∧ ∃ s', step s = .next s' :=
  ⟨⟨forallMotor ⟨settingsFine_map, settingsFine, settingsFine⟩, by decide +kernel⟩,
    ⟨by decide +kernel, forallMotor ⟨forallSlot (by decide +kernel), forallSlot (by decide +kernel), forallSlot (by decide +kernel)⟩⟩, _, rfl⟩
theorem witness_GuardedSlotKeepsItsCopy :
    ((startable (plan 0 1)).motor .m0).slotA.state = .pending ∧ (going.motor .m0).slotA.state = .active
      ∧ (∀ t, Instr.write (some 0x1001) [3] 0 ≠ .resetAssert t) ∧ (∀ straps, Instr.write (some 0x1001) [3] 0 ≠ .resetRelease straps)
      ∧ ∃ s', exec (.write (some 0x1001) [3] 0) (mapped going) = .next s' :=
  ⟨by decide +kernel, by decide +kernel, nofun, nofun, _, rfl⟩
theorem witness_ResetPinSetsPowerOnValues :
    let waking := run (.wake 0) (run (.sleep 0) ready)
    let cleared := run (.flushStart 0) { presenting with port := { presenting.port with repeatSet := true } }
    -- a SLEEP, a WAKE and a LINK-CLEAR whose command byte has counted, and a LINK-CLEAR in repeat mode (R155, R156)
    let ended (s : State) (b : Byte) : Ram := (run (.resetAssert 9) (run (.upstreamSelectFall ⟨[b], 0⟩) s)).ram
    let slept := run (.sleep 0) ready
    let repeats := { ready with ram := { ready.ram with repeatMode := true } }
    let repeated := { repeats with
      upstream := { ready.upstream with repeatState := some .read }, port := { ready.port with repeatSet := true } }
    (going.inReset = false ∧ going.arbiter.flight = none ∧ going.port.state ≠ .waking)
      ∧ ((ended ready 0x5C).asleep = true ∧ (ended going 0x5C).asleep = false ∧ (ended slept 0x5E).asleep = false
        ∧ slept.ram.asleep = true ∧ (ended repeats 0x7E).repeatMode = false ∧ (ended repeated 0x7E).repeatMode = false
        ∧ (ended repeated 0x7F).repeatMode = true)
      ∧ (waking.arbiter.flight = none ∧ waking.port.state = .waking ∧ waking.ram.asleep = true
        ∧ (run (.resetAssert 9) waking).ram.asleep = false ∧ (run (.resetRelease 0) waking).ram.asleep = false)
      ∧ (flying.arbiter.flight.map Flush.writeStart = some 0 ∧ reached 0 (flying.atInstant 50).timebase = true
        ∧ (run (.resetAssert 27) flying).ram.cells.length ≤ 2 ∧ (run (.resetAssert 112) flying).ram ≠ flying.ram)
      ∧ (cleared.arbiter.flight.map Flush.writeStart = some 6 ∧ reached 6 (cleared.atInstant 5).timebase = false
        ∧ (run (.resetAssert 5) cleared).ram = cleared.ram) := by decide +kernel
theorem witness_SoftRestartResetsTheBlocksTogether :
    (going.inReset = false ∧ going.gatesSafe ∧ going.arbiter.flight = none)
      ∧ (flying.inReset = false ∧ flying.arbiter.flight ≠ none ∧ flying.restartWaiting = false)
      ∧ ({ going with restartWaiting := true }).restartWaiting = true
      ∧ (let s := run (.softRestart 8) flying
         s.inReset = false ∧ s.gatesSafe ∧ s.restartWaiting = true
           ∧ (∃ f, s.arbiter.flight = some f ∧ reached f.due (s.atInstant 112).timebase = true)
           ∧ (run (.flushCompletion 112) s).m0.frames.produced = 0 ∧ (run (.flushCompletion 112) s).restartWaiting = false) :=
  ⟨⟨by decide +kernel, forallMotor (by unfold Channel.safe Leg.safe; decide +kernel), by decide +kernel⟩, by decide +kernel, rfl,
    by decide +kernel, forallMotor (by unfold Channel.safe Leg.safe; decide +kernel), by decide +kernel, ⟨_, rfl, by decide +kernel⟩,
    by decide +kernel⟩

/-- The record of a transaction stands through SOFT_RESTART while select is low, and is IDLE where it is high (R29, R172, log 29). -/
theorem test_restart_decoder :
    let s := run (.upstreamSelectFall ⟨[0x2A, 0x00, 0x10], 0⟩) ready
    (run (.softRestart 0) violated).decoder = violated.decoder ∧ (run (.softRestart 0) s).decoder = s.decoder ∧ s.decoder.count = 3
      ∧ (run (.softRestart 0) { s with upstream := { s.upstream with selectLow := false } }).decoder = Decoder.idle := by decide +kernel

/-! ### The Fault Log, the attention causes and the counts -/

theorem witness_LogTakesAnEntryByItsClass :
    let warn : LogEntry := ⟨.hallReverse, .motor .m0, 0, 0⟩
    let trip : LogEntry := ⟨.limitTrip, .motor .m0, 0, 0⟩
    let l (e : List LogEntry) (o : Bool) : FaultLog := { entries := e, overflow := o, discarded := o.toNat }
    ((l (List.replicate 15 warn) false).overflow = false ∧ (l (List.replicate 15 warn) false).entries.length < 16)
      ∧ 16 ≤ (l (List.replicate 16 warn) false).entries.length ∧ (l [] true).overflow = true
      ∧ warn.code.tripClass = false ∧ trip.code.tripClass = true
      ∧ (l [warn, trip] true).entries = [] ++ warn :: [trip] ∧ (∀ y ∈ [trip], y.code.tripClass = true)
      ∧ ∀ y ∈ (l (List.replicate 16 trip) false).entries, y.code.tripClass = true := by decide +kernel
theorem witness_LogPopAndClearCountsDoTheirPartAlone :
    let e : LogEntry := ⟨.frameLost, .motor .m0, 0, 0⟩
    ready.inReset = false ∧ ({ ready with log := { entries := [e], overflow := false, discarded := 0 } }).log.entries = e :: []
      ∧ ready.log.entries = [] := by decide +kernel
theorem witness_ClearOverflowClearsFlagAndCount :
    let s (n : Nat) : State := { ready with log := { entries := List.replicate n ⟨.frameLost, .motor .m0, 0, 0⟩, overflow := true, discarded := 1 } }
    (s 15).inReset = false ∧ (s 15).log.entries.length < 16 ∧ (s 16).log.entries.length = 16 := by decide +kernel
theorem witness_ResetsEmptyTheFaultLog :
    let s := { flying with restartWaiting := true }
    (ready.inReset = false ∧ ready.arbiter.flight = none ∧ ({ ready with restartWaiting := true }).restartWaiting = true)
      ∧ (s.inReset = false ∧ s.restartWaiting = true ∧ ∃ f, s.arbiter.flight = some f ∧ reached f.due (s.atInstant 112).timebase = true)
      ∧ (tripped.m0.channel.state = .tripped ∧ tripped.m0.channel.faultActive = false ∧ tripped.m0.frames.half0.state = .free
          ∧ tripped.m0.frames.half1.state = .free) :=
  ⟨by decide +kernel, ⟨by decide +kernel, rfl, _, rfl, by decide +kernel⟩, by decide +kernel⟩
theorem witness_LatchedCausesAreClearedAndRaised :
    let r (m : FrameDoneMode) (w : Bool) : FrameDoneRecord := { sequence := 0, mode := m, due := 50, delayOver := false, written := w }
    let s (l : List FrameDoneRecord) : State := edit ready fun u => { u with attention := { u.attention with records := l, staleTimer := some 50 } }
    (∀ m ∈ [FrameDoneMode.written, .delay, .either, .both],
        (s [r m false]).m0.attention.records = [] ++ r m false :: [] ∧ (r m false).met = false ∧ (r m false).delayOver = false
          ∧ reached (r m false).due ((s []).atInstant 50).timebase = true)
      ∧ (r .both true).met = false
      ∧ (∀ q ∈ (s [r .delay false]).m0.attention.records, q.delayOver = true ∨ reached q.due ((s []).atInstant 49).timebase = false)
      ∧ (s []).m0.attention.staleTimer = some 50 ∧ reached 50 ((s []).atInstant 50).timebase = true
      ∧ reached 50 ((s []).atInstant 49).timebase = false ∧ ready.m0.attention.staleTimer = none := by decide +kernel
theorem witness_ConsumedWriteGivesBackSlots :
    let f : FrameAssembler := { FrameAssembler.reset with assigned := 4, produced := 3, consumed := 1 }
    ready.inReset = false ∧ ((3 : Word) - f.consumed).toNat ≤ (f.produced - f.consumed).toNat ∧ (3 : Word) ≠ f.consumed
      ∧ (1 : Word) = f.consumed ∧ (f.produced - f.consumed).toNat < ((4 : Word) - f.consumed).toNat
      ∧ (f.produced - f.consumed).toNat < ((0 : Word) - f.consumed).toNat := by decide +kernel

/-! ### The part window -/

theorem witness_StagedMapIsCheckedAtMapCommit :
    let s (e : MapEntry) : State := { ready with window := { ready.window with staging := Vector.replicate 8 e } }
    (65536 % 2 ^ 17 ≤ 65536 ∧ 65536 / 2 ^ 20 % 4 = 0 ∧ 65536 / 2 ^ 24 % 4 = Motor.number .m0)
      ∧ (0x02265536 / 2 ^ 20 % 4 = 2 ∧ 0x02265536 / 2 ^ 24 % 4 = Motor.number .m2) ∧ 0x00100000 / 2 ^ 20 % 4 = 1
      ∧ 65536 < 65537 % 2 ^ 17 ∧ 0x00300000 / 2 ^ 20 % 4 = 3 ∧ 0x03000000 / 2 ^ 24 % 4 = 3
      ∧ (∀ m, (ready.motor m).channel.state = .stopped)
      ∧ (∀ i, MapEntry.passes (fun i => (s ⟨2, .plan, .m0⟩).window.staging.get i) i)
      ∧ ¬ MapEntry.passes (fun i => (s ⟨3, .plan, .m0⟩).window.staging.get i) 0
      ∧ (∃ m, (going.motor m).channel.state ≠ .stopped) := by
  refine ⟨by decide, by decide, by decide, by decide, by decide, by decide, forallMotor (by decide +kernel), ?_, ?_, .m0, by decide +kernel⟩
  · unfold MapEntry.passes; decide +kernel
  · unfold MapEntry.passes; decide +kernel
theorem witness_GuardedMotorWordsNeedAStoppedMotor :
    (ready.inReset = false ∧ (ready.motor .m0).channel.state = .stopped)
      ∧ (going.inReset = false ∧ (going.motor .m0).channel.state ≠ .stopped)
      ∧ (∀ n < 4, ∃ mode : FrameDoneMode, mode.number = n % 4)
      ∧ LegRole.number .chop = 0x3A % 4 ∧ LegRole.number .chop = 0x3A / 4 % 4 ∧ 0x3A / 16 % 4 = 3 := by
  refine ⟨by decide +kernel, by decide +kernel, ?_, by decide⟩
  intro n h
  match n, h with
  | 0, _ => exact ⟨.written, rfl⟩
  | 1, _ => exact ⟨.delay, rfl⟩
  | 2, _ => exact ⟨.either, rfl⟩
  | 3, _ => exact ⟨.both, rfl⟩
theorem witness_RingWordsNeedFreeHalvesAndClearCounters :
    ready.inReset = false ∧ ready.settingsInRange ∧ (ready.motor .m0).channel.state = .stopped
      ∧ (ready.m0.frames.half0.state = .free ∧ ready.m0.frames.half1.state = .free)
      ∧ (16776960 < 2 ^ 24 ∧ 16776960 % 256 = 0) ∧ 256 ∈ [16, 32, 64, 128, 256] ∧ 257 ∉ [16, 32, 64, 128, 256]
      ∧ ready.m0.settings.ringHigh ≤ 8 ∧ 7 < ready.m0.settings.ringHigh
      ∧ (presenting.m0.channel.state = .stopped
          ∧ ¬(presenting.m0.frames.half0.state = .free ∧ presenting.m0.frames.half1.state = .free)) :=
  ⟨by decide +kernel, ⟨forallMotor ⟨settingsFine, settingsFine, settingsFine⟩, by decide +kernel⟩, by decide +kernel⟩
theorem witness_FreeAndDeviceWordsFollowTheirGuards :
    (ready.inReset = false ∧ ∀ m, (ready.motor m).channel.state = .stopped)
      ∧ (¬∀ m, (going.motor m).channel.state = .stopped) ∧ (40 ≤ 320 ∧ 320 ≤ 320) ∧ 320 < 321
      ∧ (InputOwner.number .unused = 0x24FFF000 / 2 ^ 24 % 8 ∧ 0x24FFF000 / 2 ^ 27 % 8 ≤ 4 ∧ 0x24FFF000 % 2 ^ 12 ≤ 0x24FFF000 / 2 ^ 12 % 2 ^ 12)
      ∧ (4 < 0x05000000 / 2 ^ 24 % 8) ∧ (4 < 0x28000000 / 2 ^ 27 % 8) ∧ 0x1000 / 2 ^ 12 % 2 ^ 12 < 0x1002 % 2 ^ 12 :=
  ⟨⟨by decide +kernel, forallMotor (by decide +kernel)⟩, fun h => absurd (h .m0) (by decide +kernel), by decide, by decide, by decide, by decide,
    by decide, by decide⟩
theorem witness_CommandWordsCarryTheirCommands : ready.inReset = false ∧ (∀ c : Fin 16, (BitVec.ofFin (c.castLE (by decide)) : Word).toNat % 16 = c.val)
    ∧ 0x60 % 4 = 0 ∧ 0xFC % 4 = 0 ∧ 0xFFC < 0x1000 := by decide +kernel
theorem witness_WordsReadBackAndShowTheState :
    let s : State := { ready with log := { entries := [⟨.frameLost, .motor .m0, 0, 0⟩], overflow := false, discarded := 0 }, enables := 0x1000 }
    (ready.inReset = false ∧ ready.m0.channel.state = .stopped ∧ 1000 ≤ (40000 : Word).toNat ∧ (40000 : Word).toNat ≤ 40000)
      ∧ s.log.bounded ∧ s.calendar.bounded ∧ s.converter.failures ≤ 3 ∧ s.log.entries = ⟨.frameLost, .motor .m0, 0, 0⟩ :: []
      ∧ ready.log.bounded ∧ ready.log.entries = [] ∧ s.attentionOutput = true := by
  unfold FaultLog.bounded Calendar.bounded; decide +kernel

/-- The bounds of every word's range, and the fields of the multi-field words at their limits. -/
theorem witness_WordsReadBackAndShowTheState_ranges :
    let st := MotorSettings.reset
    (ready.m0.settings = st ∧ ready.m0.frames.half0.state = .free ∧ ready.m0.frames.half1.state = .free
        ∧ ready.m0.channel.state = .stopped ∧ ready.m1.channel.state = .stopped ∧ ready.m2.channel.state = .stopped)
      ∧ (st.deadTime ≤ (80 : Word).toNat ∧ (4000 : Word).toNat ≤ 4000) ∧ (80 : Word).toNat ≤ st.minimumPulse
      ∧ ((0xFFFF00 : Word).toNat < 2 ^ 24 ∧ (0xFFFF00 : Word).toNat % 256 = 0) ∧ (256 : Word).toNat ∈ [16, 32, 64, 128, 256]
      ∧ (2 ≤ (8 : Word).toNat ∧ st.ringHigh ≤ (8 : Word).toNat ∧ (256 : Word).toNat ≤ 256)
      ∧ (let n := (0x000F0010 : Word).toNat
         1 ≤ n % 2 ^ 9 ∧ n % 2 ^ 9 ≤ 256 ∧ n / 2 ^ 16 % 2 ^ 8 < n % 2 ^ 9 ∧ n % 2 ^ 9 ≤ st.ringDepth)
      ∧ (let n := (0x72A : Word).toNat
         n % 4 ≠ 3 ∧ n / 4 % 4 ≠ 3 ∧ n / 16 % 4 ≠ 3)
      ∧ ((0 : Word) - ready.m0.frames.consumed).toNat ≤ (ready.m0.frames.produced - ready.m0.frames.consumed).toNat
      ∧ (let n := (0x24FFF000 : Word).toNat
         n / 2 ^ 24 % 8 ≤ 4 ∧ n / 2 ^ 27 % 8 ≤ 4 ∧ n % 2 ^ 12 ≤ n / 2 ^ 12 % 2 ^ 12)
      ∧ (let n := (0x02210000 : Word).toNat
         n % 2 ^ 17 ≤ 65536 ∧ n / 2 ^ 20 % 4 ≠ 3 ∧ n / 2 ^ 24 % 4 ≠ 3)
      ∧ (∀ i : Fin 16, (ready.inputs.get i).consecutive ≤ 3 ∧ (ready.inputs.get i).tripCount ≤ 4)
      ∧ ((going.m0.slot .a).state = .active ∧ (going.m0.slot (SlotName.other .a)).state ≠ .active
        ∧ going.m0.slotA.state ≠ .pending ∧ going.m0.slotB.state ≠ .pending)
      ∧ (((startable []).m0.slot .a).state = .pending ∧ ((startable []).m0.slot (SlotName.other .a)).state ≠ .pending
        ∧ (startable []).m0.slotA.state ≠ .active ∧ (startable []).m0.slotB.state ≠ .active) := by decide +kernel

theorem witness_WordsReadBackAndShowTheState_tracker :
    going.m0.tracker.predictions ≤ 3 ∧ ∀ d, going.m0.tracker.duration = some d → d ≤ 65535 := ⟨by decide +kernel, nofun⟩

/-- The plan status of a running M0 with tag 7, a next tag 9 and slot B PENDING AT_END; its tracker status in sector 1. -/
theorem test_status_words :
    let s := edit going fun u => { u with
      slotA := { u.slotA with nextTag := some 9 }, slotB := { slotIn .pending [] with kind := .atEnd }
      tracker := { u.tracker with duration := some 5000, predictions := 1 } }
    s.readWord 0x170 = 0x0907039B ∧ s.readWord 0x174 = 0x13881111 := by decide +kernel

/-! ### Boundaries and START instants (R76, log 27) -/

/-- Where no other carrier runs, no boundary comes before. -/
theorem alone {s : State} {m : Motor} {b : Instant} (h : ∀ k, k ≠ m → (s.motor k).channel.periodStart = none) : ∀ k, ¬s.dueBefore m b k := by
  rintro k ⟨hk, a, ha, _⟩
  rw [h k hk] at ha
  cases ha

/-- A motor whose next boundary comes before, while no other carrier runs but the two, is the first. -/
theorem firstOfTwo {s : State} {m k : Motor} {a b : Instant} (hk : k ≠ m) (ha : (s.motor k).channel.periodStart = some a)
    (hr : reached (after a (s.motor k).settings.carrierPeriod) b = true)
    (hn : k.number < m.number ∨ after a (s.motor k).settings.carrierPeriod ≠ b)
    (ho : ∀ j, ¬s.dueBefore k (after a (s.motor k).settings.carrierPeriod) j) : s.firstBefore m b k :=
  ⟨⟨hk, a, ha, hr, hn⟩, fun a' h' => by rw [ha] at h'; cases h'; exact ho⟩

/-- M0 may START, and M1 runs from instant 0. -/
def above : State := { startable (plan 0 1) with m1 := (running (plan 0 1)).m0, placed := some .m1 }

/-- M0 and M1 run from instant 0. -/
def both : State := { running (plan 0 1) with m1 := (running (plan 0 1)).m0 }

/-- The reservations of a calendar, by motor and start. -/
def starts (s : State) : List (Motor × Instant) := s.calendar.reservations.map fun r => (r.motor, r.start)

/-- START of M0 at the instant of a boundary that M1 has had is taken one tick later, also where M1 has tripped since; one that is
refused is not, nor one at the next instant; a START word in a write takes the whole write with it. -/
theorem test_start_behind_a_boundary :
    let late := run (.start .m0 5000) (run (.periodBoundary .m1 5000) above)
    let written := run (.write (some 0x3FF15C) (wordBytes 1) 5000) (run (.periodBoundary .m1 5000) above)
    let tripped := run (.driverFaultActivation .m1 5000) (run (.periodBoundary .m1 5000) above)
    (late.timebase = 5001 ∧ late.m0.channel.periodStart = some 5001 ∧ starts late = [(.m1, 7500), (.m0, 7660)])
      ∧ ((run (.start .m0 4999) above).m0.channel.periodStart = some 4999 ∧ (run (.start .m1 0) above).timebase = 0)
      ∧ (written.timebase = 5001 ∧ written.m0 = late.m0)
      ∧ (tripped.placed = some .m1 ∧ tripped.m1.channel.periodStart = none ∧ starts (run (.start .m0 5000) tripped) = [(.m0, 7501)]
        ∧ (run (.start .m0 5001) tripped).timebase = 5001) := by decide +kernel

/-- A boundary at its instant is noted as a placement, an overdue one is not, and the record is gone a tick later (R76, log 27). -/
theorem witness_placementNoted :
    let placed (t : Instant) : State := run (.periodBoundary .m0 t) going
    (placed 5000).placed = some .m0 ∧ (placed 5003).placed = none ∧ ((placed 5000).moveTo 5001).placed = none
      ∧ (run (.periodBoundary .m1 5000) both).placed = some .m1 := by decide +kernel

/-- PERIOD_BOUNDARY takes first the boundary of a lower motor at its instant, and an earlier one of a higher motor. -/
theorem test_boundaries_in_motor_order :
    let early : State := { both with m1 := { both.m1 with settings := { both.m1.settings with carrierPeriod := 4000 } } }
    let third : State := { early with m2 := both.m0 }
    starts (run (.periodBoundary .m1 5000) both) = [(.m0, 7500), (.m1, 7660)]
      ∧ run (.periodBoundary .m0 5000) (run (.periodBoundary .m1 5000) both) = run (.periodBoundary .m1 5000) both
      ∧ starts (run (.periodBoundary .m0 5000) early) = [(.m1, 6500), (.m0, 7500)]
      ∧ third.inTurn .m2 = [.m1, .m0]
      ∧ starts (run (.periodBoundary .m2 5000) third) = [(.m1, 6500), (.m0, 7500), (.m2, 7660)] := by decide +kernel

/-! ### Legs and plans -/

theorem witness_LegsFollowTheirStepUnderDeadTime :
    let l : Leg := { Leg.reset with command := .lowSide, drive := .pulse 1200 3800, lowOn := true, nextEdge := some ⟨1200, .highSide⟩ }
    let s : State := edit going fun u => { u with channel := { u.channel with leg0 := l } }
    ((s.m0.channel.leg .leg0).nextEdge = some ⟨1200, .highSide⟩ ∧ s.m0.channel.periodStart = some 0
        ∧ reached 1200 (s.atInstant 1200).timebase = true ∧ reached 1200 (s.atInstant 1199).timebase = false
        ∧ l.drive = .pulse 1200 3800 ∧ 3800 < s.m0.settings.carrierPeriod)
      ∧ (going.m0.channel.leg .leg0).nextEdge = none ∧ ready.m0.channel.periodStart = none
      ∧ ((switching.m0.channel.leg .leg0).turnOn = some 1280 ∧ (switching.m0.channel.leg .leg0).command = .highSide
        ∧ reached 1280 (switching.atInstant 1280).timebase = true ∧ reached 1280 (switching.atInstant 1279).timebase = false)
      ∧ (going.m0.channel.leg .leg0).turnOn = none := by decide +kernel
/-- The premises of the two clauses on the legs of a step, in PLAN and in HALL mode, with and without a drive sector. -/
theorem witness_LegsFollowTheirStep_boundaries :
    (∀ h ∈ [0, 1], ∀ s ∈ [startable (plan h 1)],
        s.inReset = false ∧ (s.m0.slot .a).state = .pending ∧ (s.m0.slot (SlotName.other .a)).state ≠ .pending
          ∧ (s.m0.slot (SlotName.other .a)).state ≠ .active ∧ s.validateSlot .m0 .a = none
          ∧ planIsHall (s.m0.slot .a).copy = decide (h = 1))
      ∧ (∀ h ∈ [0, 1], ∀ s ∈ [running (plan h 1)],
        s.inReset = false ∧ s.m0.channel.state = .running ∧ s.m0.channel.periodStart = some 0
          ∧ reached (after 0 s.m0.settings.carrierPeriod) (s.atInstant 5000).timebase = true
          ∧ (run (.periodBoundary .m0 5000) s).m0.channel.state = .running
          ∧ ((run (.periodBoundary .m0 5000) s).m0.slot .a).state = .active
          ∧ ((run (.periodBoundary .m0 5000) s).m0.slot (SlotName.other .a)).state ≠ .active)
      ∧ (let u := (run (.start .m0 0) (startable (plan 1 1))).m0
         u.channel.driveSector.bind u.settings.sectorEntry = some ⟨.chop, .low, .float, 3⟩)
      ∧ hallGoing.m0.channel.driveSector = none := by decide +kernel

/-- The instant of START: its own, and one tick later behind a boundary of M1. -/
theorem witness_startsAt : (∀ c, (startable c).startsAt .m0 0 0) ∧ above.startsAt .m0 0 1 :=
  ⟨fun _ => .inl ⟨by unfold State.startClear State.atInstant; split <;> exact nofun, by unfold State.atInstant; split <;> rfl⟩,
    .inr ⟨fun h => absurd (h .m1 (by decide +kernel)) (by decide), by decide +kernel⟩⟩
/-- What gives START, as the command, its word, a write of that word, and its bytes; and a word and a write that give none. -/
theorem witness_givesStart :
    above.givesStart (.start .m0 0) ∧ above.givesStart (.settingWordWrite 0x15C 1 0) ∧ ¬above.givesStart (.settingWordWrite 0x15C 2 0)
      ∧ above.givesStart (.write (some 0x3FF15C) (wordBytes 1) 0)
      ∧ above.givesStart (.unknownCommand ([0x2A, 0x3F, 0xF1, 0x5C] ++ wordBytes 1) 0) ∧ ¬above.givesStart (.write none [] 0)
      ∧ ¬above.givesStart (.write (some 0x1000) (wordBytes 1) 0) := by
  have word : startWord 0x15C 1 := ⟨.m0, by decide, by decide⟩
  have w : ∃ w ∈ rowWords ((0x3FF15C : Addr).toNat / 256 - windowFirstRow above.window.position) ((0x3FF15C : Addr).toNat % 256) (wordBytes 1),
      startWord w.1 w.2 := ⟨(0x15C, 1), by decide +kernel, word⟩
  have high (h : above.upstream.selectLow = true) : False := by revert h; decide +kernel
  refine ⟨trivial, word, ?_, ⟨_, _, rfl, rfl, .inl ⟨rfl, 0x3FF15C, wordBytes 1, rfl, rfl, by decide +kernel, w⟩⟩,
    ⟨_, _, rfl, rfl, .inl ⟨rfl, 0x3FF15C, wordBytes 1, rfl, by decide +kernel, by decide +kernel, w⟩⟩, ?_, ?_⟩
  · rintro ⟨m, _, h⟩
    revert h
    decide
  · rintro ⟨_, _, e, _, h | h⟩
    · obtain ⟨_, a, data, _, h, _⟩ := h
      cases e
      simp [writeTail, addrBytes] at h
    · exact high h.1
  · rintro ⟨_, _, e, _, h | h⟩
    · obtain ⟨_, a, data, _, h, hp, _⟩ := h
      cases e
      have e : a = 0x1000 := by
        simp only [writeTail, addrBytes, List.cons_append, List.nil_append, List.cons.injEq, true_and] at h
        obtain ⟨h0, h1, h2, _⟩ := h
        bv_omega
      subst e
      revert hp
      decide +kernel
    · exact high h.1

/-- A pulse narrower than the minimum at START is held LOW_SIDE, and the count stands (R3, R15, R16, log 30). -/
theorem test_start_keeps_narrow :
    let s (c : Short) : State := edit (startable (record 32 [288, 256, 771, 257, 1000, 1079, 2000, 3000, 0, 0, 258, 2500, 2400, 2700]))
      fun u => { u with channel := { u.channel with narrowCount := c } }
    (run (.start .m0 0) (s 4)).m0.channel.narrowCount = 4 ∧ (run (.start .m0 0) (s 65535)).m0.channel.narrowCount = 65535
      ∧ (run (.start .m0 0) (s 4)).m0.channel.leg0.drive = .hold .lowSide := by decide +kernel
theorem witness_ValidationFindsTheFirstFault :
    let put (i : Nat) (b : Byte) (c : Memory) : Memory := Memory.write c i b
    let ok : Memory := plan 0 1
    -- every part of `checked`, and the fields that each clause tests
    let checked (c : Memory) : Prop := 28 ≤ planLength c ∧ planLength c ≤ 252 ∧ planLength c % 4 = 0 ∧ planSum c = 0
      ∧ planShort c (planLength c - 2) = planLength c
    let made (first second : Nat) : Memory := record 32 [32 + 256 * first, second, 771, 257, 1000, 4000, 2000, 3000, 0, 0, 258, 2500, 2400, 2700]
    (28 ≤ planLength ok ∧ planLength ok % 4 = 0 ∧ planSum (put 28 0x1B ok) ≠ 0)
      ∧ ¬28 ≤ planLength [] ∧ (checked (made 0 0) ∧ planSteps (made 0 0) = 0) ∧ (checked (made 9 0) ∧ 8 < planSteps (made 9 0))
      ∧ (checked (made 1 2) ∧ planSteps (made 1 2) = 1 ∧ 1 < planModeByte (made 1 2))
      ∧ (checked (made 1 768) ∧ planModeByte (made 1 768) = 0 ∧ 2 < planEndByte (made 1 768))
      ∧ (let c := record 32 [288, 256, 771, 1281, 1000, 4000, 2000, 3000, 0, 0, 258, 2500, 2400, 2700]
         checked c ∧ planSteps c = 1 ∧ planModeByte c = 0 ∧ planEndByte c = 1 ∧ stepOffset c 0 < planLength c - 4
           ∧ 4 < stepSamples c (stepOffset c 0)) := by decide +kernel
/-- A step that extends beyond L − 4, one that starts there, a bad edge, a bad request, a map that is not valid (R36 to R39). -/
theorem witness_ValidationFindsTheFirstFault_later :
    let checked (c : Memory) : Prop := 28 ≤ planLength c ∧ planLength c ≤ 252 ∧ planLength c % 4 = 0 ∧ planSum c = 0
      ∧ planShort c (planLength c - 2) = planLength c
    let fields (c : Memory) : Prop := 1 ≤ planSteps c ∧ planSteps c ≤ 8 ∧ planModeByte c ≤ 1 ∧ planEndByte c ≤ 2
    let made (first samples rise latest : Nat) : Memory :=
      record 32 [32 + 256 * first, 256, 771, 1 + 256 * samples, rise, 4000, 2000, 3000, 0, 0, 258, 2500, 2400, latest]
    let test (c : Memory) : Option PlanFault := validate .m0 MotorSettings.reset (fun _ => .shared) c
    (checked (made 1 2 1000 2700) ∧ fields (made 1 2 1000 2700) ∧ stepSamples (made 1 2 1000 2700) 4 ≤ 4
        ∧ planLength (made 1 2 1000 2700) - 4 < stepOffset (made 1 2 1000 2700) 1
        ∧ test (made 1 2 1000 2700) = some ⟨.planShape, 28⟩)
      ∧ (checked (made 2 1 1000 2700) ∧ fields (made 2 1 1000 2700) ∧ 1 < planSteps (made 2 1 1000 2700)
        ∧ stepOffset (made 2 1 1000 2700) 1 = planLength (made 2 1 1000 2700) - 4 ∧ test (made 2 1 1000 2700) = some ⟨.planShape, 28⟩)
      ∧ (checked (made 1 0 1000 2700) ∧ stepOffset (made 1 0 1000 2700) 1 ≠ planLength (made 1 0 1000 2700) - 4
        ∧ test (made 1 0 1000 2700) = some ⟨.planShape, 28⟩)
      ∧ (checked (made 1 1 4000 2700) ∧ fields (made 1 1 4000 2700) ∧ stepSamples (made 1 1 4000 2700) 4 ≤ 4
        ∧ stepOffset (made 1 1 4000 2700) 1 = planLength (made 1 1 4000 2700) - 4 ∧ (planStep (made 1 1 4000 2700) 0).leg0.mode = .pwm
        ∧ ¬(planStep (made 1 1 4000 2700) 0).leg0.rise < (planStep (made 1 1 4000 2700) 0).leg0.fall
        ∧ test (made 1 1 4000 2700) = some ⟨.planEdge, 0⟩)
      ∧ ((planStep (made 1 1 1000 5000) 0).requests.map SampleRequest.latest = [5000] ∧ test (made 1 1 1000 5000) = some ⟨.planSample, 0⟩
        ∧ test (made 1 1 1000 4999) = none)
      ∧ (checked (plan 1 1) ∧ planModeByte (plan 1 1) = 1 ∧ MotorSettings.reset.mapValid = false
        ∧ test (plan 1 1) = some ⟨.hallMap, 0⟩) := by decide +kernel
theorem witness_CommitActsByTheSlotStates :
    let s (a b : SlotState) : State := edit (startable (plan 0 1)) fun u => { u with slotA := slotIn a (plan 0 1), slotB := slotIn b [] }
    let fault (n : SlotName) : Option PlanFault :=
      let u := (s .inactive .inactive).m0
      validate .m0 u.settings (fun i => ((s .inactive .inactive).inputRecord i).owner) (u.slot n).copy
    going.inReset = false ∧ ((going.m0.slot .a).state = .active ∧ ((s .pending .empty).m0.slot .a).state = .pending)
      ∧ (((s .pending .empty).m0.slot .b).state = .empty ∧ ((s .pending .empty).m0.slot .a).state = .pending)
      ∧ (((s .inactive .inactive).m0.slot .a).state = .inactive ∧ fault .a = none) ∧ fault .b = some ⟨.planShape, 0⟩ := by
  decide +kernel
theorem witness_CancelReleasesAPendingSlot :
    ready.inReset = false ∧ ((startable []).m0.slot .a).state = .pending ∧ (going.m0.slot .a).state ≠ .pending := by decide +kernel

/-! ### Channels -/

/-- The ring of `startable` lies in its RESULT window. -/
theorem ringStands (c : Memory) : (startable c).ringInPlace .m0 := by
  intro row _ h
  have last : (startable c).m0.settings.ringLast / 256 = 7 := by show MotorSettings.reset.ringLast / 256 = 7; decide +kernel
  have h8 : row < 8 := Nat.lt_succ_of_le (last ▸ h)
  have all : ∀ r < 8, r < 65536 ∧ (startable []).window.rowUse r = .result .m0 ∧ inPartWindow (startable []).window.position r = false := by
    decide +kernel
  exact all row h8

/-- M0 of `startable` meets conditions 1 to 6. -/
theorem startStands (c : Memory) : (startable c).startReady .m0 := ⟨rfl, .inl rfl, rfl, rfl, rfl, ringStands c⟩

theorem witness_StartNamesItsFirstFailedCondition :
    let s := startable (plan 0 1)
    (s.inReset = false ∧ s.m0.channel.state = .stopped ∧ s.m0.slotA.state = .pending ∧ s.converter.state = .ready ∧ s.port.state = .awake
        ∧ s.m0.channel.faultActive = false)
      ∧ going.m0.channel.state ≠ .stopped ∧ ¬(ready.m0.slotA.state = .pending ∨ ready.m0.slotB.state = .pending)
      ∧ (let r := edit ready fun u => { u with slotA := slotIn .pending [] }
         r.m0.slotA.state = .pending ∧ ¬r.ringInPlace .m0)
      ∧ s.startReady .m0 ∧ (s.m0.slot (SlotName.other .a)).state ≠ .pending ∧ s.validateSlot .m0 .a = none
      ∧ ((startable []).startReady .m0 ∧ (startable []).validateSlot .m0 .a = some ⟨.planShape, 0⟩)
      ∧ (run (.resultRecord 2 0 0 0) { s with converter := { s.converter with state := .lost } }).converter.state = .lost
      ∧ (run (.sleep 0) s).port.state ≠ .awake ∧ (run (.driverFaultActivation .m0 0) s).m0.channel.faultActive = true := by
  refine ⟨by decide +kernel, by decide +kernel, by decide +kernel, ⟨rfl, fun h => ?_⟩, startStands _, by decide +kernel, by decide +kernel,
    ⟨startStands _, by decide +kernel⟩, by decide +kernel⟩
  exact absurd (h 0 (Nat.zero_le _) (Nat.zero_le _)).2.1 (by decide +kernel)
theorem witness_StartBeginsTheRun (hall : Bool) :
    let s := startable (plan hall.toNat 1)
    s.inReset = false ∧ s.startReady .m0 ∧ (s.m0.slot .a).state = .pending ∧ (s.m0.slot .a).nextTag = none
      ∧ (s.m0.slot (SlotName.other .a)).state ≠ .pending ∧ (s.m0.slot (SlotName.other .a)).state ≠ .active
      ∧ s.validateSlot .m0 .a = none ∧ planIsHall (s.m0.slot .a).copy = hall ∧ s.startsAt .m0 0 0
      ∧ ∀ k, ¬((s.atInstant 0).moveTo 0).dueBefore .m0 0 k := by
  refine ⟨rfl, startStands _, rfl, rfl, nofun, nofun, ?_, ?_, witness_startsAt.1 _, alone ?_⟩
  · cases hall <;> decide +kernel
  · cases hall <;> decide +kernel
  · unfold State.atInstant
    split <;> exact forallMotor ⟨nofun, fun _ => rfl, fun _ => rfl⟩
/-- M1 may START, its ring in rows 16 to 31, while M0 runs. -/
def behind : State :=
  { going with
    m1 := { going.m1 with slotA := slotIn .pending (plan 0 1), settings := { MotorSettings.reset with sectorMap := map32, ringBase := 0x1000 } }
    inputs := (going.inputs.set 2 { InputRecord.reset with owner := .shared })
    window := { going.window with active := #v[
      ⟨16, .result, .m0⟩, ⟨32, .result, .m1⟩, ⟨32, .pass, .m0⟩, ⟨32, .pass, .m0⟩, ⟨32, .pass, .m0⟩, ⟨32, .pass, .m0⟩,
      ⟨32, .pass, .m0⟩, ⟨32, .pass, .m0⟩] } }

/-- START of M1 at the instant of M0's boundary comes after it, whichever command stands first: the Calendar places in motor order
(R76, log 27). -/
theorem witness_StartBeginsTheRun_behind :
    let s0 := (behind.atInstant 5000).moveTo 5000
    let s1 := run (.periodBoundary .m0 5000) s0
    behind.startsAt .m1 5000 5000 ∧ s0.firstBefore .m1 5000 .m0
      ∧ (exec (.periodBoundary .m0 5000) s0 = .next s1 ∧ ¬s1.dueBefore .m1 5000 .m0) ∧ behind.startRefusal .m1 = none
      ∧ starts (run (.start .m1 5000) behind) = [(.m0, 7500), (.m1, 7660)] ∧ run (.start .m1 5000) s1 = run (.start .m1 5000) behind := by
  refine ⟨.inl ⟨fun k h => absurd (h.symm.trans (show (behind.atInstant 5000).placed = none by decide +kernel)) nofun, by decide +kernel⟩,
    firstOfTwo (a := 0) (by decide) (by decide +kernel) (by decide +kernel) (.inl (by decide)) (alone (forallMotor ⟨nofun, ?_, ?_⟩)),
    ⟨rfl, ?_⟩, by decide +kernel⟩
  · decide +kernel
  · decide +kernel
  · rintro ⟨_, a, ha, hr, _⟩
    have e : (run (.periodBoundary .m0 5000) ((behind.atInstant 5000).moveTo 5000)).m0.channel.periodStart = some 5000 := by
      decide +kernel
    rw [show (State.motor _ .m0).channel.periodStart = _ from e] at ha
    cases ha
    revert hr
    decide +kernel
theorem witness_StopActsOnARunningChannel : going.inReset = false ∧ going.m0.channel.state = .running ∧ ready.m0.channel.state ≠ .running := by
  decide +kernel
theorem witness_RestartReleasesATrippedMotor :
    (tripped.inReset = false ∧ tripped.gatesSafe)
      ∧ (tripped.m0.channel.state = .tripped ∧ tripped.m0.channel.faultActive = false ∧ tripped.m0.frames.half0.state = .free
        ∧ tripped.m0.frames.half1.state = .free)
      ∧ ready.m0.channel.state ≠ .tripped ∧ (run (.driverFaultActivation .m0 0) tripped).m0.channel.faultActive = true
      ∧ ((inState presenting .tripped).m0.channel.faultActive = false ∧ (inState presenting .tripped).m0.frames.half0.state ≠ .free) :=
  ⟨⟨rfl, forallMotor (by unfold Channel.safe Leg.safe; decide +kernel)⟩, by decide +kernel⟩

/-- The premises of a boundary of M0 at 5000. -/
def boundaryDue (s : State) : Prop :=
  s.inReset = false ∧ s.m0.channel.state = .running ∧ s.m0.channel.periodStart = some 0
    ∧ reached (after 0 s.m0.settings.carrierPeriod) (s.atInstant 5000).timebase = true ∧ s.m0.slotA.state = .active
    ∧ s.m0.frames.openFrame.isSome = true

theorem witness_BoundaryRunsTheNextStep :
    let others (s : State) : Prop := s.m0.slotB.state ≠ .active ∧ s.m0.slotB.state ≠ .pending
    let last (s : State) : Prop := s.m0.channel.stepIndex + 1 = planSteps s.m0.slotA.copy
    let interval (s : State) (n : Nat) : State := edit s fun u => { u with settings := { u.settings with frameInterval := n } }
    let atEnd : State := edit (running plan2) fun u => { u with slotB := { slotIn .pending (plan 0 1) with kind := .atEnd } }
    (boundaryDue going ∧ others going ∧ last going ∧ planEndByte going.m0.slotA.copy = 1)
      ∧ (boundaryDue (running (plan 0 0)) ∧ last (running (plan 0 0)) ∧ planEndByte (running (plan 0 0)).m0.slotA.copy = 0)
      ∧ (boundaryDue (running plan2) ∧ others (running plan2) ∧ ¬last (running plan2))
      ∧ (boundaryDue atEnd ∧ atEnd.m0.slotB.state = .pending ∧ atEnd.m0.slotB.kind = .atEnd ∧ ¬last atEnd)
      ∧ (interval going 1).m0.settings.frameInterval = 1 ∧ boundaryDue (interval going 2)
      ∧ (let tagged := edit going fun u => { u with slotA := { u.slotA with nextTag := some 9 } }
        boundaryDue tagged ∧ (run (.periodBoundary .m0 5000) tagged).m0.slotA.tag = 9 ∧ (run (.periodBoundary .m0 5000) going).m0.slotA.tag = 7)
      ∧ going.m0.frames.openFrame.map OpenFrame.periodsCovered = some 1
      ∧ going.m0.frames.openFrame.bind OpenFrame.storage = some .half0 := by unfold boundaryDue; decide +kernel
/-- Boundaries of M0 and M1 at one instant: M0's is the first (R76). -/
theorem witness_BoundaryRunsTheNextStep_behind :
    let s0 := both.atInstant 5000
    both.m1.channel.state = .running ∧ both.m1.channel.periodStart = some 0
      ∧ reached (after 0 both.m1.settings.carrierPeriod) s0.timebase = true ∧ s0.firstBefore .m1 5000 .m0
      ∧ (run (.periodBoundary .m0 5000) both).m0.channel.periodStart = some 5000 ∧ ¬s0.dueBefore .m0 5000 .m1 := by
  refine ⟨rfl, rfl, by decide +kernel, firstOfTwo (a := 0) (by decide) (by decide +kernel) (by decide +kernel) (.inl (by decide))
    (forallMotor ⟨?_, ?_, ?_⟩), by decide +kernel, ?_⟩
  · rintro ⟨h, _⟩; exact h rfl
  · rintro ⟨_, a, ha, _, h | h⟩
    · exact absurd h (by decide)
    · cases ha; exact h (by decide +kernel)
  · rintro ⟨_, a, ha, _⟩; cases ha
  · rintro ⟨_, a, ha, _, h | h⟩
    · exact absurd h (by decide)
    · cases ha; exact h (by decide +kernel)

/-- Where M0 alone runs no boundary comes before its own. -/
theorem witness_alone (c : Memory) : ∀ j, ¬((running c).atInstant 5000).dueBefore .m0 5000 j :=
  alone (forallMotor ⟨nofun, fun _ => by unfold State.atInstant; split <;> rfl, fun _ => by unfold State.atInstant; split <;> rfl⟩)
theorem witness_BoundaryActivatesThePendingSlot :
    let s (k : ActivationKind) (old new : Nat) : State :=
      edit (running (plan old 1)) fun u => { u with slotB := { slotIn .pending (plan new 1) with kind := k } }
    boundaryDue (s .next 0 1) ∧ boundaryDue (s .atEnd 1 0) ∧ (s .next 0 1).m0.slotB.state = .pending ∧ (s .next 0 1).m0.slotB.nextTag = none
      ∧ (s .next 0 1).m0.slotB.kind = .next ∧ (s .atEnd 1 0).m0.channel.stepIndex + 1 = planSteps (s .atEnd 1 0).m0.slotA.copy
      ∧ (planIsHall (s .next 0 1).m0.slotB.copy = true ∧ planIsHall (s .next 0 1).m0.slotA.copy = false)
      ∧ planIsHall (s .atEnd 1 0).m0.slotB.copy = false
      ∧ (s .next 0 1).m0.frames.openFrame.bind OpenFrame.storage = some .half0 := by unfold boundaryDue; decide +kernel
/-- The tracker at an activation (R65): a HALL plan after a PLAN plan, with two sectors measured and with none, after a HALL plan, and a
PLAN plan after either, with a tracker that predicts. -/
theorem witness_BoundaryActivatesThePendingSlot_tracker :
    let k (measured : Nat) (t : Tracker) : Tracker :=
      { t with state := .predicting, predictions := 1, measured := measured, duration := some 900, scheduled := some ⟨6000, 3⟩ }
    let s (old new measured : Nat) : State := edit (running (plan old 1)) fun u => { u with
      slotB := slotIn .pending (plan new 1), tracker := k measured u.tracker, channel := { u.channel with driveSector := some 5 } }
    let next (old new measured : Nat) : MotorUnit := (run (.periodBoundary .m0 5000) (s old new measured)).m0
    (∀ old ∈ [0, 1], ∀ new ∈ [0, 1], boundaryDue (s old new 2) ∧ (s old new 2).m0.slotB.state = .pending
        ∧ planIsHall (s old new 2).m0.slotA.copy = decide (old = 1) ∧ planIsHall (s old new 2).m0.slotB.copy = decide (new = 1))
      ∧ (next 0 1 2).tracker = { (s 0 1 2).m0.tracker with timeout := some 6800 } ∧ (next 0 1 2).channel.driveSector = some 1
      ∧ (next 0 1 0).tracker.timeout = some (after 5000 (1024 * 7813))
      ∧ (next 1 1 2).tracker = (s 1 1 2).m0.tracker ∧ (next 1 1 2).channel.driveSector = some 5
      ∧ (next 1 0 2).tracker = { (s 1 0 2).m0.tracker with state := .tracking, predictions := 0, scheduled := none }
      ∧ (next 0 0 2).tracker = (s 0 0 2).m0.tracker := by unfold boundaryDue; decide +kernel
theorem witness_StoppingBoundaryEndsTheRun :
    let s := inState going .stopping
    let ending := running (plan 0 2)
    let past := inState ready .stopping
    (s.inReset = false ∧ s.gatesSafe ∧ s.m0.channel.state = .stopping ∧ s.m0.channel.periodStart = some 0
        ∧ reached (after 0 s.m0.settings.carrierPeriod) (s.atInstant 5000).timebase = true
        ∧ reached (after 0 s.m0.settings.carrierPeriod) (s.atInstant 4999).timebase = false)
      ∧ (boundaryDue ending ∧ ending.gatesSafe ∧ ending.m0.slotB.state ≠ .active ∧ ending.m0.slotB.state ≠ .pending
        ∧ ending.m0.channel.stepIndex + 1 = planSteps ending.m0.slotA.copy ∧ planEndByte ending.m0.slotA.copy = 2)
      ∧ (past.m0.channel.state = .stopping ∧ past.m0.channel.periodStart = none ∧ past.m0.frames.half0.state = .free
        ∧ past.m0.frames.half1.state = .free) ∧ ready.m0.channel.state ≠ .stopping := by
  refine ⟨⟨rfl, forallMotor ?_, by decide +kernel⟩, ⟨by unfold boundaryDue; decide +kernel, forallMotor ?_, by decide +kernel⟩, by decide +kernel⟩
  · unfold Channel.safe Leg.safe; decide +kernel
  · unfold Channel.safe Leg.safe; decide +kernel
/-- A stopping boundary in HALL mode with a tracker that predicts (R65), and one of a frame without storage (R6, R67). -/
theorem witness_StoppingBoundaryEndsTheRun_tracker :
    let s := edit (inState hallGoing .stopping) fun u => { u with
      tracker := { u.tracker with state := .predicting, predictions := 1, scheduled := some ⟨6000, 3⟩ } }
    let dropped := edit s fun u => { u with frames := { u.frames with openFrame := u.frames.openFrame.map fun f => { f with storage := none } } }
    let ended (s : State) : MotorUnit := (run (.periodBoundary .m0 5000) s).m0
    (s.m0.frames.openFrame.bind OpenFrame.storage = some .half0 ∧ (ended s).channel.state = .stopping
        ∧ (ended s).tracker = { s.m0.tracker with state := .tracking, predictions := 0, scheduled := none })
      ∧ dropped.m0.frameWithoutStorage = true ∧ (ended dropped).channel.state = .stopped ∧ (ended dropped).tracker = Tracker.reset := by
  decide +kernel
theorem witness_DriverFaultTripsARunningMotor :
    (going.inReset = false ∧ going.m0.channel.safe ∧ going.m0.channel.state = .running ∧ going.m0.channel.faultActive = false
        ∧ going.m0.frames.openFrame.bind OpenFrame.storage = some .half0 ∧ (going.m0.frames.half .half0).state = .opened
        ∧ going.m0.settings.safeState = .allOff)
      ∧ (let s := edit going fun u => { u with
            settings := { u.settings with safeState := .lowBrake }, frames := { u.frames with half1 := { Half.reset with state := .closing } } }
         s.m0.settings.safeState = .lowBrake ∧ (s.m0.frames.half .half1).state = .closing)
      ∧ (inState going .stopping).m0.channel.state = .stopping ∧ ready.m0.channel.state = .stopped ∧ tripped.m0.channel.state = .tripped
      ∧ (run (.driverFaultActivation .m0 0) ready).m0.channel.faultActive = true
      ∧ (let l := [reservation .converting, reservation .placed, { reservation .waiting with motor := .m1 }]
         (run (.driverFaultActivation .m0 0) (withReservations going l)).calendar.reservations =
           [{ reservation .converting with orphaned := true }, { reservation .waiting with motor := .m1 }]) :=
  ⟨⟨rfl, by unfold Channel.safe Leg.safe; decide +kernel, by decide +kernel⟩, by decide +kernel⟩

/-- M0's open frame is LOST. -/
def lostFrame (s : State) : State :=
  edit s fun u => { u with frames := { u.frames with openFrame := u.frames.openFrame.map fun f => { f with storage := none, ringSlot := none } } }

/-- M0 runs with a FRAME_DONE mode, a delay and `n` frame-done records that wait. -/
def recording (mode : FrameDoneMode) (delay n : Nat) : State :=
  edit going fun u => { u with
    settings := { u.settings with frameDoneMode := mode, frameDoneDelay := delay }
    attention := { u.attention with records := List.replicate n { sequence := 9, mode := .delay, due := 50, delayOver := false, written := false } } }

/-- The close of a frame adds its record, or latches at once, and makes room in a full list (R193): the hypotheses of closeRecorded are met, by an
empty list and by a full one, and at delays 0 and 1. -/
theorem witness_closeRecorded :
    let closed (mode : FrameDoneMode) (delay n : Nat) : MotorAttention := (run (.driverFaultActivation .m0 7) (recording mode delay n)).m0.attention
    let r (mode : FrameDoneMode) (delay : Nat) : FrameDoneRecord :=
      { sequence := 0, mode := mode, due := after 7 delay, delayOver := decide (delay = 0), written := false }
    (∀ n ∈ [0, 7, 8], (recording .both 0 n).m0.attention.recordsSound)
      ∧ (∀ mode ∈ [FrameDoneMode.written, .both], ∀ delay ∈ [0, 1], (closed mode delay 0).frameDone = false ∧ (closed mode delay 0).records = [r mode delay])
      ∧ (∀ mode ∈ [FrameDoneMode.delay, .either], (closed mode 0 0).frameDone = true ∧ (closed mode 0 0).records = []
        ∧ (closed mode 1 0).frameDone = false ∧ (closed mode 1 0).records = [r mode 1])
      ∧ ((closed .written 1 7).frameDone = false ∧ (closed .written 1 7).records.length = 8)
      ∧ ((closed .written 1 8).frameDone = true ∧ (closed .written 1 8).records.length = 8 ∧ (closed .delay 0 8).records.length = 7)
      ∧ (going.m0.frames.openFrame.bind OpenFrame.storage = some .half0 ∧ (lostFrame going).m0.frames.openFrame.map OpenFrame.storage = some none
        ∧ (run (.driverFaultActivation .m0 7) (lostFrame going)).m0.attention.records = []) := by
  unfold MotorAttention.recordsSound
  decide +kernel

/-! ### The Hall Tracker -/

/-- M0's tracker, changed. -/
def track (s : State) (f : Tracker → Tracker) : State := edit s fun u => { u with tracker := f u.tracker }

theorem witness_HallEdgesReachTheTracker :
    let s := going
    let now := (s.atInstant 9000).timebase
    let waiting := track s fun k => { k with state := .waitFirst, sector := none }
    let measured := (track s fun k => { k with reference := .edge, measured := 2 }).m0
    (measured.tracker.reference = .edge ∧ min 2 (measured.tracker.measured + 1) = 2) ∧ s.m0.tracker.measured ≠ 2
      ∧ hallGoing.m0.hallMode = true ∧ s.m0.hallMode = false
      ∧ s.inReset = false ∧ s.m0.hallCode = 1 ∧ s.m0.hallCode ≠ 3 ∧ ready.m0.channel.state = .stopped
      ∧ (s.m0.channel.state ≠ .stopped ∧ s.m0.tracker.state = .tracking ∧ s.m0.tracker.examination = none)
      ∧ (track s fun k => { k with examination := some 400 }).m0.tracker.examination ≠ none
      ∧ ¬ s.m0.settings.minimumSector ≤ ((s.atInstant 399).timebase - s.m0.tracker.lastEdge).toNat
      ∧ s.m0.settings.minimumSector ≤ ((s.atInstant 400).timebase - s.m0.tracker.lastEdge).toNat
      ∧ s.m0.settings.minimumSector ≤ (now - s.m0.tracker.lastEdge).toNat
      ∧ (track s fun k => { k with sector := some 3 }).m0.tracker.sector = some 3 ∧ s.m0.tracker.sector = some 1
      ∧ (s.m0.settings.mapValid = true ∧ s.m0.settings.successor 1 = 3 ∧ s.m0.settings.successor 5 = 1 ∧ s.m0.settings.successor 1 ≠ 2)
      ∧ (waiting.m0.channel.state ≠ .stopped ∧ waiting.m0.tracker.state = .waitFirst ∧ (3 : HallCode) ≠ 0 ∧ (3 : HallCode) ≠ 7) := by
  decide +kernel
/-- An edge accepted in HALL mode with a commutation still scheduled: that one executes, and the next is scheduled (R57 item 4, R60). -/
theorem witness_HallEdgesReachTheTracker_forced :
    let u := (track hallGoing fun k => { k with scheduled := some ⟨900, 3⟩ }).m0
    let u' := MotorUnit.acceptEdge 500 2 u
    u.hallMode = true ∧ u.tracker.scheduled = some ⟨900, 3⟩ ∧ hallGoing.m0.tracker.scheduled = none
      ∧ u'.channel.driveSector = some 3 ∧ u'.channel.leg2.command = .lowSide ∧ u'.tracker.scheduled = some ⟨500, 2⟩ := by decide +kernel
/-- The cases of an examination at once: HALL_REVERSE, HALL_SKIP, a map that is not valid, code 0 and 7 in both modes; and WAIT_FIRST in
HALL mode. -/
theorem witness_HallEdgesReachTheTracker_cases :
    let st := going.m0.settings
    (∀ s ∈ [going, hallGoing], s.inReset = false ∧ s.m0.channel.state = .running ∧ s.m0.tracker.state = .tracking
        ∧ s.m0.tracker.examination = none ∧ s.m0.tracker.lastEdge ≠ 400 ∧ s.m0.tracker.sector = some 1 ∧ s.m0.hallCode = 1
        ∧ st.minimumSector ≤ ((s.atInstant 400).timebase - s.m0.tracker.lastEdge).toNat)
      ∧ (st.successor 5 = 1 ∧ st.successor 1 ≠ 5 ∧ st.successor 2 ≠ 1 ∧ st.successor 1 ≠ 2)
      ∧ (run (.hallCodeChange .m0 5 400) going).log.entries.map LogEntry.code = [.hallReverse]
      ∧ (run (.hallCodeChange .m0 2 400) going).log.entries.map LogEntry.code = [.hallSkip]
      ∧ (let s := edit going fun u => { u with settings := MotorSettings.reset }
         s.m0.settings.mapValid = false ∧ (run (.hallCodeChange .m0 2 400) s).log.entries = []
           ∧ (run (.hallCodeChange .m0 2 400) s).m0.tracker.sector = some 2)
      ∧ (∀ c ∈ [(0 : HallCode), 7], (run (.hallCodeChange .m0 c 400) going).m0.tracker.state = .waitFirst
          ∧ (run (.hallCodeChange .m0 c 400) hallGoing).m0.channel.state = .tripped)
      ∧ (let w := track hallGoing fun k => { k with state := .waitFirst, sector := none }
         w.m0.hallMode = true ∧ (run (.hallCodeChange .m0 3 400) w).m0.tracker.scheduled = some ⟨400, 3⟩
           ∧ (run (.hallCodeChange .m0 0 400) w).m0.tracker = w.m0.tracker) := by decide +kernel

/-- Two events at one instant (R64): an expiry or an examination, and a change of the code. Row 1, expiry first: the change to the
sector's own code has no effect, the minimum sector having passed before the expiry. Row 2, examination first: the change that
follows is examined too. -/
theorem test_same_instant :
    let s := track going fun k => { k with timeout := some 20480 }
    let expired := run (.sectorTimeout .m0 20480) (edit s fun u => { u with hallCode := 3 })
    let examined := run (.hallExamination .m0 400) (edit s fun u => { u with
      hallCode := 3, tracker := { u.tracker with examination := some 400 } })
    (expired.m0.tracker.lastEdge = 20480 ∧ (run (.hallCodeChange .m0 1 20480) expired).m0.tracker = expired.m0.tracker
        ∧ (run (.hallCodeChange .m0 2 20480) expired).m0.tracker.sector = some 2)
      ∧ (examined.m0.tracker.sector = some 3 ∧ (run (.hallCodeChange .m0 2 400) examined).m0.tracker.sector = some 2
        ∧ (run (.hallCodeChange .m0 2 401) examined).m0.tracker.examination = some 800) := by decide +kernel
theorem witness_HallExaminationJudgesTheCodePresent :
    let s (h : Nat) (c : HallCode) : State :=
      edit (running (plan h 1)) fun u => { u with hallCode := c, tracker := { u.tracker with examination := some 400 } }
    ((s 0 1).inReset = false ∧ (s 0 1).m0.tracker.examination = some 400 ∧ reached 400 ((s 0 1).atInstant 400).timebase = true
        ∧ reached 400 ((s 0 1).atInstant 399).timebase = false ∧ (s 0 1).m0.tracker.sector = some (s 0 1).m0.hallCode)
      ∧ ((s 0 3).m0.tracker.sector = some 1 ∧ (s 0 3).m0.hallCode = 3 ∧ (s 0 3).m0.settings.mapValid = true
        ∧ (s 0 3).m0.settings.successor 1 = (s 0 3).m0.hallCode)
      ∧ (∀ c ∈ [(0 : HallCode), 7], (s 0 c).m0.hallMode = false ∧ (s 1 c).m0.hallMode = true ∧ (s 1 c).m0.channel.state = .running
        ∧ (s 1 c).m0.tracker.sector ≠ some c ∧ (s 1 c).m0.hallCode = c)
      ∧ going.m0.tracker.examination = none := by decide +kernel
/-- The cases of an examination: no sector yet, HALL_REVERSE, HALL_SKIP, a map that is not valid, and an invalid code in HALL mode with
the motor running, stopping and tripped. -/
theorem witness_HallExaminationJudgesTheCodePresent_cases :
    let s (h : Nat) (sector : Option HallCode) (c : HallCode) : State :=
      edit (running (plan h 1)) fun u => { u with hallCode := c, tracker := { u.tracker with examination := some 400, sector := sector } }
    let unmapped : State := edit (s 0 (some 1) 2) fun u => { u with settings := MotorSettings.reset }
    let after_ (s : State) : State := run (.hallExamination .m0 400) s
    ((s 0 none 3).m0.tracker.sector = none ∧ (after_ (s 0 none 3)).m0.tracker.sector = some 3)
      ∧ (after_ (s 0 (some 1) 5)).log.entries = [⟨.hallReverse, .motor .m0, 0x0105, 0⟩]
      ∧ (after_ (s 0 (some 1) 2)).log.entries = [⟨.hallSkip, .motor .m0, 0x0102, 0⟩]
      ∧ (unmapped.m0.settings.mapValid = false ∧ (after_ unmapped).log.entries = [] ∧ (after_ unmapped).m0.tracker.sector = some 2)
      ∧ (∀ c ∈ [(0 : HallCode), 7], ∀ st ∈ [ChannelState.running, .stopping],
          (inState (s 1 (some 1) c) st).m0.hallMode = true
            ∧ (after_ (inState (s 1 (some 1) c) st)).m0.channel.tripInfo = BitVec.ofNat 16 (256 + c.toNat))
      ∧ (let t := inState (s 1 none 0) .tripped
         t.m0.hallMode = true ∧ (after_ t).log.entries = [⟨.hallInvalid, .motor .m0, 0, 0⟩] ∧ (after_ t).m0.channel.state = .tripped) := by
  decide +kernel
theorem witness_CommutationMovesTheDriveSector :
    let s := track hallGoing fun k => { k with scheduled := some ⟨300, 3⟩ }
    (s.inReset = false ∧ s.m0.tracker.scheduled = some ⟨300, 3⟩ ∧ reached 300 (s.atInstant 300).timebase = true
        ∧ reached 300 (s.atInstant 299).timebase = false)
      ∧ (s.m0.channel.driveSector ≠ some 3 ∧ s.m0.hallMode = true ∧ s.m0.channel.periodStart = some 0 ∧ (s.m0.settings.sectorEntry 3).isSome = true)
      ∧ (edit s fun u => { u with channel := { u.channel with driveSector := some 3 } }).m0.channel.driveSector = some 3
      ∧ going.m0.tracker.scheduled = none := by decide +kernel
/-- A commutation inside the chop pulse, to sector 3 and to a sector without an entry: the CHOP leg follows the pulse, and its fall is still
to come (R13, R60); and one in a channel without an active HALL plan. -/
theorem witness_CommutationMovesTheDriveSector_legs :
    let s (target : HallCode) : State := edit (track hallGoing fun k => { k with scheduled := some ⟨1500, target⟩ }) fun u =>
      { u with channel := { u.channel with chop := .pulse 1000 4000 } }
    let ch (s : State) : Channel := (run (.commutation .m0 1500) s).m0.channel
    ((s 3).m0.settings.sectorEntry 3 = some ⟨.chop, .float, .low, 2⟩ ∧ (s 0).m0.settings.sectorEntry 0 = none)
      ∧ ((ch (s 3)).leg0.command = .highSide ∧ (ch (s 3)).leg0.nextEdge = some ⟨4000, .lowSide⟩
        ∧ (ch (s 3)).leg0.drive = .pulse 1000 4000 ∧ (ch (s 3)).leg2.command = .lowSide)
      ∧ ((ch (s 0)).leg0.command = .off ∧ (ch (s 0)).driveSector = some 0)
      ∧ (let p := track going fun k => { k with scheduled := some ⟨1500, 3⟩ }
         p.m0.hallMode = false ∧ ch p = { p.m0.channel with driveSector := some 3 }) := by decide +kernel
theorem witness_SectorTimeoutPredictsOrStalls :
    let s (h : Nat) : State := track (running (plan h 1)) fun k => { k with timeout := some 30000, measured := 2, duration := some 5000 }
    ((s 0).inReset = false ∧ (s 0).m0.tracker.timeout = some 30000 ∧ reached 30000 ((s 0).atInstant 30000).timebase = true
        ∧ (s 0).m0.hallMode = false ∧ reached 30000 ((s 0).atInstant 29999).timebase = false)
      ∧ ((s 1).m0.hallMode = true ∧ (s 1).m0.tracker.measured = 2 ∧ (s 1).m0.tracker.predictions < (s 1).m0.settings.predictionLimit
        ∧ (s 1).m0.tracker.sector = some 1 ∧ (s 1).m0.tracker.duration = some 5000)
      ∧ (let r := track (s 1) fun k => { k with predictions := 1 }
         r.m0.settings.predictionLimit ≤ r.m0.tracker.predictions ∧ r.m0.channel.state = .running ∧ r.m0.hallMode = true) := by decide +kernel
/-- A prediction with a commutation still scheduled, which executes first (R60, R62), and with none; and a stall of a tracker that
predicts (R62, R65). -/
theorem witness_SectorTimeoutPredictsOrStalls_forced :
    let s (scheduled : Option Commutation) (n : Nat) : State := track hallGoing fun k => { k with
      timeout := some 30000, measured := 2, duration := some 5000, scheduled := scheduled, predictions := n
      state := if n = 0 then .tracking else .predicting }
    let next (s : State) : MotorUnit := (run (.sectorTimeout .m0 30000) s).m0
    let stalled := next (s none 1)
    ((s (some ⟨31000, 1⟩) 0).m0.tracker.scheduled = some ⟨31000, 1⟩ ∧ (next (s (some ⟨31000, 1⟩) 0)).channel.driveSector = some 1
        ∧ (next (s (some ⟨31000, 1⟩) 0)).tracker.scheduled = some ⟨30000, 3⟩)
      ∧ ((s none 0).m0.tracker.scheduled = none ∧ (next (s none 0)).channel = hallGoing.m0.channel)
      ∧ ((s none 1).m0.settings.predictionLimit ≤ (s none 1).m0.tracker.predictions ∧ stalled.channel.state = .tripped
        ∧ stalled.tracker.state = .tracking ∧ stalled.tracker.predictions = 0 ∧ stalled.tracker.lastEdge = 30000
        ∧ stalled.tracker.reference = .entry) := by decide +kernel

/-! ### Placement and conversions -/

theorem witness_PlacementTakesTheNearestFreeStart :
    ((900 : Int) ≤ 1500 ∧ findStart 160 [1000, 1300] 900 1500 1100 = some 1460)
      ∧ ((900 : Int) ≤ 1400 ∧ findStart 160 [1000, 1300, 1460, 840] 900 1400 1000 = none) := by decide +kernel
theorem witness_PlacementReservesOrMisses :
    let p : PlacementContext := { motor := .m0, boundary := 0, step := 0, index := 0, position := none, sequence := 0, period := 0 }
    let r : SampleRequest := { input := 2, purpose := 1, target := 100, earliest := 50, latest := 250 }
    let found (s : State) (r : SampleRequest) : Option Int :=
      findStart s.device.tConv (s.busyOffsets p.boundary) r.earliest r.latest r.target
    let full := withReservations ready (List.replicate 10 (reservation .placed))
    let one := withReservations ready [reservation .placed]
    10 ≤ full.calendar.reservations.length ∧ one.calendar.reservations.length < 10
      ∧ found one r = none ∧ found ready r = some ((100 : Nat) : Int) ∧ found one { r with latest := 260 } = some ((260 : Nat) : Int)
      ∧ p.position = none
      -- a position of the open frame takes the slid flag where the start is not the target
      ∧ (let place (s : State) : State := (State.placeOne .m0 0 0 1 { r with latest := 260 } (s, false)).1
         (going.m0.frames.halfOf 0 = some .half0 ∧ going.m0.frames.halfOf 9 = none)
           ∧ (place going).m0.frames.half0.positions.map PositionRecord.slid = [false]
           ∧ (place (withReservations going [reservation .placed])).m0.frames.half0.positions.map PositionRecord.slid = [true]) := by
  decide +kernel
/-- Requests at the capacity of a frame of stride 16 (0 entries) and 20 (1), without storage, and with room (R121); START and a boundary
that place. -/
theorem witness_PlacementReservesOrMisses_steps :
    let r : SampleRequest := { input := 2, purpose := 1, target := 100, earliest := 50, latest := 250 }
    let stride (n : Nat) : State := edit going fun u => { u with settings := { u.settings with ringStride := n } }
    let place (s : State) : State := (State.placeOne .m0 0 0 1 r (s, false)).1
    (going.m0.frames.openFrame.bind OpenFrame.storage = some .half0 ∧ (going.m0.frames.half .half0).positions.length = 0)
      ∧ (min 28 (((stride 16).m0.settings.ringStride - 16) / 4) = 0 ∧ (place (stride 16)).calendar.reservations = []
        ∧ (place (stride 16)).log.entries = [⟨.frameFull, .motor .m0, 1, 0⟩] ∧ (place (place (stride 16))).log = (place (stride 16)).log
        ∧ (place (stride 16)).m0.frames.openFrame.map OpenFrame.full = some true)
      ∧ (min 28 (((stride 20).m0.settings.ringStride - 16) / 4) = 1
        ∧ (place (stride 20)).calendar.reservations.map Reservation.position = [some 0]
        ∧ (place (place (stride 20))).log.entries = [⟨.frameFull, .motor .m0, 1, 0⟩])
      ∧ (ready.m0.frames.openFrame.bind OpenFrame.storage = none ∧ (place ready).calendar.reservations.map Reservation.position = [none])
      ∧ (run (.start .m0 0) (startable (plan 0 1))).calendar.reservations.map Reservation.start = [2500]
      ∧ (run (.periodBoundary .m0 5000) going).calendar.reservations.map Reservation.start = [7500] := by decide +kernel
theorem witness_ReservationsStartWaitOrMiss :
    let r := reservation .placed
    let s := withReservations ready [r]
    let w := reservation .waiting
    (s.inReset = false ∧ s.calendar.reservations = [] ++ r :: [] ∧ r.state = .placed ∧ reached r.start (s.atInstant 100).timebase = true
        ∧ s.converter.state = .ready ∧ reached r.start (s.atInstant 99).timebase = false ∧ r.start ≠ r.latest)
      ∧ (∃ q ∈ [reservation .converting] ++ [], q.state = .converting) ∧ (∀ q ∈ [reservation .converting], q.state ≠ .placed)
      ∧ (let e := { r with latest := 100 }
         e.start = e.latest ∧ e.state = .placed)
      ∧ (w.state = .waiting ∧ reached w.latest (s.atInstant 200).timebase = true ∧ reached w.latest (s.atInstant 199).timebase = false)
      ∧ (reservation .converting).state = .converting
      ∧ (ready.calendar.reservations = [] ∧ ({ ready.converter with state := ConverterState.lost }).state = .lost
        ∧ ∃ q ∈ (withReservations ready [reservation .converting]).calendar.reservations, q.state = .converting) := by decide +kernel

/-- I2's record reaches its trip count at the next value outside 1 to 2. -/
def nearTrip (o : InputOwner) : InputRecord := { owner := o, lowLimit := 1, highLimit := 2, tripCount := 2, consecutive := 1 }

/-- M0 runs, and its reservation on I2 converts. -/
def converting (o : InputOwner) : State :=
  (withTimer (withReservations going [reservation .converting]) 1).setInput 2 (nearTrip o)

theorem witness_LimitsCountValuesAndTripMotors :
    (InputRecord.reset.owner = .unused ∧ ({ nearTrip .shared with tripCount := 0 }).tripCount = 0)
      ∧ (let outside (v : BitVec 12) : Prop := v.toNat < (nearTrip .shared).lowLimit.toNat ∨ (nearTrip .shared).highLimit.toNat < v.toNat
         ¬outside 1 ∧ ¬outside 2 ∧ outside 0 ∧ outside 3)
      ∧ (nearTrip .shared).consecutive + 1 = (nearTrip .shared).tripCount ∧ ({ nearTrip .shared with consecutive := 0 }).consecutive + 1 ≠ 2
      ∧ (∀ o,
          let s := converting o
          s.inReset = false ∧ s.calendar.reservations = [] ++ reservation .converting :: [] ∧ (reservation .converting).tag = some 5
            ∧ s.converter.state = .ready ∧ (reservation .converting).orphaned = false ∧ s.inputRecord 2 = nearTrip o
            ∧ s.m0.channel.state = .running ∧ s.m1.channel.state = .stopped) :=
  ⟨by decide +kernel, by decide +kernel, by decide +kernel, by decide +kernel,
    fun _ => ⟨rfl, rfl, rfl, rfl, rfl, rfl, rfl, rfl⟩⟩
/-- The entry of the result that trips is LIMIT with its value, the other open positions are MISSED, and the first WAITING reservation starts, to be
orphaned where its motor trips (R81, R99, R100). -/
theorem test_tripping_entry :
    let p : PositionRecord := { input := 2, purpose := 1, stepIndex := 0, period := 0, slid := false, resolution := none }
    let w : Reservation := { reservation .waiting with start := 260, latest := 300 }
    let s (o : InputOwner) (m : Motor) : State :=
      { edit (converting o) (fun u => { u with frames := { u.frames with half0 := { u.frames.half0 with positions := [p, p] } } }) with
        calendar := { reservations := [{ reservation .converting with position := some 0 }, { w with motor := m }], highWater := 2 } }
    let t (o : InputOwner) (m : Motor) : State := run (.resultRecord 2 5 3 0) (s o m)
    (∀ q ∈ ([] : List Reservation) ++ [w], q.state ≠ .converting) ∧ [] ++ [w] = [] ++ w :: []
      ∧ (t .shared .m0).m0.frames.half0.positions.map PositionRecord.resolution = [some ⟨.limit, 3⟩, some ⟨.missed, 0⟩]
      ∧ (t .shared .m0).m0.channel.state = .tripped ∧ (t .shared .m0).calendar.reservations.map Reservation.orphaned = [true]
      ∧ (t .shared .m1).calendar.reservations.map Reservation.orphaned = [false] ∧ (t .shared .m1).converter.resultTimer ≠ none
      -- the owner does not run: the reservation's motor takes the entry and goes on
      ∧ (t (.motor .m1) .m0).m0.frames.half0.positions.map PositionRecord.resolution = [some ⟨.limit, 3⟩, none]
      ∧ (t (.motor .m1) .m0).m0.channel.state = .running := by decide +kernel
theorem witness_ResultsMeetTheConvertingReservation :
    let r := reservation .converting
    let s := withTimer (withReservations ready [r]) 1
    let w := withTimer (withReservations ready [{ r with orphaned := true }, reservation .waiting]) 0
    (s.inReset = false ∧ s.calendar.reservations = [] ++ r :: [] ∧ r.state = .converting ∧ s.converter.state = .ready ∧ r.tag = some 5
        ∧ r.input = 2 ∧ r.orphaned = false ∧ ((s.inputRecord 2).check 7).trips = false ∧ r.input ≠ 3 ∧ s.converter.failures < 2 ∧ r.tag ≠ some 4)
      ∧ (∀ q ∈ [] ++ [reservation .placed], q.state = .placed) ∧ ({ r with orphaned := true }).orphaned = true
      ∧ (∀ q ∈ ready.calendar.reservations, q.state ≠ .converting)
      ∧ (w.calendar.reservations = [] ++ { r with orphaned := true } :: [reservation .waiting]
        ∧ [] ++ [reservation .waiting] = [] ++ reservation .waiting :: [] ∧ (reservation .waiting).state = .waiting)
      ∧ ({ s.converter with state := ConverterState.lost }).state = .lost := by decide +kernel
/-- One PLACED and two WAITING, of which the first starts, behind a CONVERTING one: an accepted result, a mismatch and a timeout below
the third failure (R78, R82, R83). -/
theorem witness_ResultsMeetTheConvertingReservation_waiting :
    let r := reservation .converting
    let w := reservation .waiting
    let s := withTimer (withReservations going [reservation .placed, r, w, { w with input := 3 }]) 1
    let states (s : State) : List (ReservationState × Option ConverterTag) := s.calendar.reservations.map fun q => (q.state, q.tag)
    let started := [(ReservationState.placed, none), (.converting, some 6), (.waiting, none)]
    (s.calendar.reservations = [reservation .placed] ++ r :: [w, { w with input := 3 }]
        ∧ [reservation .placed] ++ [w, { w with input := 3 }] = [reservation .placed] ++ w :: [{ w with input := 3 }]
        ∧ (∀ q ∈ [reservation .placed], q.state = .placed) ∧ (∀ q ∈ [{ w with input := 3 }], q.state ≠ .converting)
        ∧ s.converter.state = .ready ∧ s.converter.failures < 2 ∧ r.tag = some 5 ∧ ((s.inputRecord 2).check 7).trips = false
        ∧ s.converter.resultTimer = some 320)
      ∧ (let t := run (.resultRecord 2 5 7 100) s
         states t = started ∧ t.converter.failures = 0 ∧ t.converter.resultTimer = some 420)
      ∧ (let t := run (.resultRecord 3 5 7 100) s
         states t = started ∧ t.converter.failures = 2 ∧ t.log.entries.map LogEntry.code = [.converterMismatch])
      ∧ (let t := run (.converterTimeout 320) s
         states t = started ∧ t.converter.failures = 2 ∧ t.log.entries.map LogEntry.code = [.converterTimeout]) := by decide +kernel
/-- The record of 11 on the result-data line: start marker 1, I2, tag 5, value 7; the line at rest is no record (R201). -/
theorem witness_ResultsMeetTheConvertingReservation_bits :
    let bits : BitVec 20 := 0b10010101000000000111
    bits.getLsbD 19 = true ∧ bits.extractLsb' 15 4 = 2 ∧ bits.extractLsb' 12 3 = 5 ∧ bits.extractLsb' 0 12 = 7
      ∧ resultBits 2 5 7 = bits ∧ (0b00010101000000000111 : BitVec 20).getLsbD 19 = false := by decide +kernel
theorem witness_FailedConversionsLoseTheConverter :
    let r := reservation .converting
    let s (n : Nat) : State := withTimer (withReservations going [r]) n
    ((s 1).inReset = false ∧ (s 1).calendar.reservations = [] ++ r :: [] ∧ (s 1).converter.resultTimer = some 320
        ∧ reached 320 ((s 1).atInstant 320).timebase = true ∧ r.tag = some 5 ∧ (s 1).converter.failures < 2
        ∧ reached 320 ((s 1).atInstant 319).timebase = false)
      ∧ ((s 2).converting = some r ∧ (s 2).converter.failures = 2 ∧ (s 2).m0.channel.state = .running ∧ (s 2).m1.channel.state = .stopped)
      ∧ (withReservations going [r]).converter.resultTimer = none
      -- the position of the third failure is FAILED, that of a PLACED one MISSED
      ∧ (let p : PositionRecord := { input := 2, purpose := 1, stepIndex := 0, period := 0, slid := false, resolution := none }
        let held := edit (withTimer (withReservations going [{ r with position := some 0 }, { reservation .placed with position := some 1 }]) 2)
          fun u => { u with frames := { u.frames with half0 := { u.frames.half0 with positions := [p, p] } } }
        held.m0.frames.halfOf 0 = some .half0
          ∧ (run (.converterTimeout 320) held).m0.frames.half0.positions.map PositionRecord.resolution = [some ⟨.failed, 0⟩, some ⟨.missed, 0⟩]) := by
  decide +kernel

/-- A third failure by a mismatch, with a PLACED reservation whose position its frame holds unresolved (R82, R85). -/
theorem witness_FailedConversionsLoseTheConverter_mismatch :
    let r := reservation .converting
    let q := { reservation .placed with position := some 0 }
    let p : PositionRecord := { input := 2, purpose := 1, stepIndex := 0, period := 0, slid := false, resolution := none }
    let s := edit (withTimer (withReservations going [r, q]) 2) fun u =>
      { u with frames := { u.frames with half0 := { u.frames.half0 with positions := [p] } } }
    (s.inReset = false ∧ s.converting = some r ∧ r.tag = some 5 ∧ r.input ≠ 3 ∧ s.converter.state = .ready ∧ s.converter.failures = 2)
      ∧ (q ∈ s.calendar.reservations ∧ q.position = some 0 ∧ q.state ≠ .converting
        ∧ (∀ x ∈ s.calendar.reservations, x.state = .converting →
            x.motor ≠ q.motor ∨ x.sequence ≠ q.sequence ∨ x.position ≠ q.position)
        ∧ s.m0.frames.halfOf q.sequence = some .half0 ∧ s.m0.frames.half0.positions[0]? = some p)
      ∧ (let s' := run (.resultRecord 3 5 7 100) s
         s'.log.entries.map LogEntry.code = [.converterMismatch, .converterLost] ∧ s'.m0.channel.tripInfo = 13
           ∧ s'.m0.frames.half0.positions.map PositionRecord.resolution = [some { status := .missed, value := 0 }]) := by
  decide +kernel

/-! ### Frames and the Link Arbiter -/

theorem witness_EntriesResolveTheirPositions :
    let p : PositionRecord := { input := 2, purpose := 1, stepIndex := 0, period := 0, slid := false, resolution := none }
    let a (st : HalfState) (b : Bool) : FrameAssembler :=
      { FrameAssembler.reset with half0 := { Half.reset with state := st, positions := [p], burst := b } }
    (a .opened false).halfOf 3 = none ∧ (∀ st ∈ [HalfState.opened, .closing, .closed], ∀ b ∈ [false, true],
      (a st b).halfOf 0 = some .half0 ∧ (a st b).half0.positions[0]? = some p ∧ p.resolution = none) := by decide +kernel
theorem witness_FramesTakeAHalfAndASlot :
    let s (a b : HalfState) (n : Word) (p : RingPolicy) : MotorUnit :=
      { ready.m0 with
        settings := { ready.m0.settings with ringPolicy := p }
        frames := { FrameAssembler.reset with half0 := { Half.reset with state := a }, half1 := { Half.reset with state := b }, assigned := n } }
    let room (u : MotorUnit) : Prop := (u.frames.assigned - u.frames.consumed).toNat < u.settings.ringDepth
    ((s .closed .closed 2 .drop).frames.half0.state ≠ .free ∧ (s .closed .closed 2 .drop).frames.half1.state ≠ .free)
      ∧ ((s .free .free 15 .drop).frames.half0.state = .free ∧ room (s .free .free 15 .drop))
      ∧ ((s .closed .free 15 .drop).frames.half1.state = .free ∧ (s .closed .free 15 .drop).frames.half0.state ≠ .free)
      ∧ ¬room (s .free .free 16 .drop) ∧ (s .free .free 16 .drop).settings.ringPolicy = .drop
      ∧ (s .free .free 16 .overwrite).settings.ringPolicy = .overwrite
      ∧ (going.m0.slotA.state = .active ∧ going.m0.slotB.state ≠ .active) := by decide +kernel
/-- Consumed and produced change under OVERWRITE and at a final flush: the fill falls to the low level, and rises to the high one, and the
stale timer starts afresh or stops (R119, R129, R195, R196). -/
theorem test_ring_evaluated :
    let s (produced high low : Nat) (ringHigh : Bool) : State := edit flying fun u => { u with
      settings := { u.settings with ringPolicy := .overwrite, ringHigh := high, ringLow := low }
      frames := { u.frames with half0 := { u.frames.half0 with state := .closed }, assigned := 16, produced := BitVec.ofNat 32 produced }
      attention := { u.attention with ringHigh := ringHigh, staleTimer := some 9 } }
    let opened (s : State) : MotorAttention := (s.openFrame .m0).m0.attention
    let flushed (s : State) : MotorAttention := (run (.flushCompletion 112) s).m0.attention
    ((opened (s 15 16 14 true)).ringHigh = false ∧ (opened (s 15 16 14 true)).staleTimer = some (after 0 2048000)
        ∧ (opened (s 15 14 1 false)).ringHigh = true ∧ (opened (s 15 14 1 false)).staleTimer = none
        ∧ (opened (s 1 14 0 true)).ringHigh = false ∧ (opened (s 1 14 0 true)).staleTimer = none)
      ∧ ((flushed (s 15 16 1 false)).ringHigh = true ∧ (flushed (s 15 16 1 false)).staleTimer = none
        ∧ (flushed (s 3 16 4 true)).ringHigh = false ∧ (flushed (s 3 16 4 true)).staleTimer = some (after 112 2048000)) := by
  decide +kernel
theorem witness_BurstsCarryStampsAndEntries :
    closedHalf.request = .finalFlush ∧ closedHalf.stampWritten = false ∧ closedHalf.flushed = 0 ∧ closedHalf.allResolved = true
      ∧ ({ closedHalf with request := .partialRun }).request = .partialRun
      ∧ (∀ p ∈ closedHalf.positions, p.resolution = some { status := .ok, value := 7 })
      ∧ ({ closedHalf with countAtOpen := 0x01020304 }).openingStamp .m1 = [0, 0, 0, 0x81, 4, 3, 2, 1]
      ∧ ({ closedHalf with closeFlag := .tripped, full := true }).closingStamp .m2 = [0, 0, 0, 0xD6, 0, 0, 0, 0] := by decide +kernel
theorem witness_PointerServesMotorsInTurn :
    let presents (m : Motor) : Prop :=
      (presenting.motor m).frames.half0.request ≠ .none ∨ (presenting.motor m).frames.half1.request ≠ .none
    let urgent : State := edit presenting fun u => { u with frames := { u.frames with half1 := { Half.reset with state := .opened } } }
    (presenting.inReset = false ∧ presenting.arbiter.state = .openLink ∧ presenting.port.state = .awake ∧ presenting.arbiter.windowTimer = none
        ∧ presents .m0 ∧ presenting.m0.frames.half0.state = .closed ∧ presenting.m0.frames.half1.state = .free)
      ∧ (urgent.m0.frames.half0.state = .closed ∧ urgent.m0.frames.half1.state ≠ .free)
      ∧ (∀ m, ¬((ready.motor m).frames.half0.request ≠ .none ∨ (ready.motor m).frames.half1.request ≠ .none))
      ∧ State.reset.arbiter.state ≠ .openLink
      ∧ ((∀ t', Instr.logPop 0 ≠ .flushStart t') ∧ (∀ t', Instr.logPop 0 ≠ .resetAssert t') ∧ (∀ straps, Instr.logPop 0 ≠ .resetRelease straps)
        ∧ ∃ s', exec (.logPop 0) ready = .next s') :=
  ⟨by decide +kernel, by decide +kernel, forallMotor (by decide +kernel), by decide +kernel, nofun, nofun, nofun, _, rfl⟩
theorem witness_FlushStartTakesTheLink :
    let a (r0 r1 : FlushRequest) : FrameAssembler :=
      { FrameAssembler.reset with half0 := { Half.reset with request := r0 }, half1 := { Half.reset with request := r1 } }
    ((a .none .none).half0.request = .none ∧ (a .none .none).half1.request = .none)
      ∧ ((a .finalFlush .none).half0.request ≠ .none ∧ (a .none .partialRun).half1.request ≠ .none)
      ∧ presenting.inReset = false ∧ presenting.candidate = some .m0 ∧ (presenting.motor .m0).frames.presented = some .half0 := by decide +kernel
theorem witness_FlushCompletionFreesTheLink :
    let stopping := inState flying .stopping
    (flying.inReset = false ∧ flying.memoryCanonical ∧ flying.restartWaiting = false ∧ flying.arbiter.flight.map Flush.due = some 112
        ∧ reached 112 (flying.atInstant 112).timebase = true ∧ reached 112 (flying.atInstant 111).timebase = false
        ∧ flying.arbiter.flight.map Flush.final = some true ∧ flying.ram.asleep = false ∧ flying.ram.repeatMode = false)
      ∧ (let s := edit presenting fun u => { u with frames := { u.frames with half0 := { closedHalf with state := .opened, request := .partialRun } } }
         (run (.flushStart 0) s).arbiter.flight.map Flush.final = some false)
      ∧ (stopping.m0.channel.state = .stopping ∧ stopping.m0.channel.periodStart = none ∧ stopping.m0.frames.half1.state = .free)
      ∧ ready.arbiter.flight = none ∧ flying.m0.attention.recordsSound :=
  ⟨⟨rfl, ⟨by decide +kernel, forallMotor ⟨forallSlot (by decide +kernel), forallSlot (by decide +kernel), forallSlot (by decide +kernel)⟩⟩, by decide +kernel⟩,
    by decide +kernel, by decide +kernel, by decide +kernel, by unfold MotorAttention.recordsSound; decide +kernel⟩
/-- The frame-written event of sequence 0 in every mode, and on a record of another sequence (R193). -/
theorem test_written_event :
    let r (mode : FrameDoneMode) (done : Bool) (seq : Short) : FrameDoneRecord :=
      { sequence := seq, mode := mode, due := 900, delayOver := done, written := false }
    let written (q : FrameDoneRecord) : MotorAttention :=
      (run (.flushCompletion 112) (edit flying fun u => { u with attention := { u.attention with records := [q] } })).m0.attention
    (∀ q ∈ [r .written false 0, r .written true 0, r .either false 0, r .both true 0], q.met = false ∧ (written q).frameDone = true ∧ (written q).records = [])
      ∧ (∀ q ∈ [r .both false 0, r .delay false 0], q.met = false ∧ (written q).frameDone = false ∧ (written q).records = [{ q with written := true }])
      ∧ (∀ q ∈ [r .written false 1, r .both true 1], (written q).frameDone = false ∧ (written q).records = [q]) := by decide +kernel
/-- A partial burst of an OPEN half with 16 and with 15 resolved positions, 8 of them in the burst: the half presents again for the run
of 8 and not for that of 7; and one whose half has CLOSED meanwhile presents FINAL (R126, R127). -/
theorem witness_FlushCompletionFreesTheLink_partial :
    let p : PositionRecord := closedHalf.positions[0]
    let s : State := edit presenting fun u => { u with frames := { u.frames with half0 :=
      { closedHalf with state := .opened, request := .partialRun, positions := List.replicate 8 p } } }
    let grown (n : Nat) (st : HalfState) : State := edit (run (.flushStart 0) s) fun u => { u with frames := { u.frames with half0 :=
      { u.frames.half0 with state := st, positions := List.replicate n p } } }
    let done (n : Nat) (st : HalfState) : Half := (run (.flushCompletion 200) (grown n st)).m0.frames.half0
    ((grown 16 .opened).arbiter.flight.map Flush.final = some false ∧ (grown 16 .opened).restartWaiting = false
        ∧ (grown 16 .opened).m0.frames.half0.request = .none)
      ∧ ((done 16 .opened).flushed = 8 ∧ 8 ≤ (done 16 .opened).run.length ∧ (done 16 .opened).request = .partialRun)
      ∧ ((done 15 .closing).run.length = 7 ∧ (done 15 .closing).request = .none) ∧ (done 8 .closed).request = .finalFlush := by
  decide +kernel
theorem witness_LinkTimersFreeTheLink :
    let s := { ready with arbiter := { ready.arbiter with windowTimer := some 512 }, port := { ready.port with wakeTimer := some 512 } }
    (s.inReset = false ∧ s.arbiter.windowTimer = some 512 ∧ s.port.wakeTimer = some 512 ∧ reached 512 (s.atInstant 512).timebase = true
        ∧ reached 512 (s.atInstant 511).timebase = false)
      ∧ (ready.arbiter.windowTimer = none ∧ ready.port.wakeTimer = none ∧ ready.port.linkClearDue = none)
      ∧ (State.reset.port.linkClearDue = some 4 ∧ reached 4 (State.reset.atInstant 4).timebase = true
        ∧ reached 4 (State.reset.atInstant 3).timebase = false) := by decide +kernel

/-! ### The memory path -/

/-- Select has fallen with READY high, and these bytes have counted. -/
def begun (bytes : List Byte) (s : State) : State := run (.upstreamSelectFall ⟨bytes, 0⟩) s

/-- A transaction whose select has fallen, with no byte or with some of its own, is the same transaction (log 13). -/
theorem witness_goesOn :
    (ready.inReset = false ∧ ready.ready = true ∧ ready.upstream.selectLow = false)
      ∧ (begun [] ready).arbiter.state = .controller ∧ (begun [] ready).upstream.selectLow = true
      ∧ ∀ c ∈ [Instr.read (some 5) (some 0x96) 2 0, .readWrap (some 5) none 0 0, .repeatModeRead none none 0 0,
          .write (some 0x3FF100) (wordBytes 6000) 0, .write (some 0x3FF0FC) (wordBytes 1) 0, .wrapSet (some 2) 0, .sleep 0, .wake 0,
          .linkClear 0, .unknownCommand [0, 1] 0], ∀ n ∈ [0, 1, 3, 6], run c (begun (((transactionBytes c).getD []).take n) ready) = run c ready := by
  decide +kernel

/-- A WRITE to a guarded slot, and one to a RESULT row of a running motor, stay withheld to their select rise: a trip, the boundary that
ends the run and SOFT_RESTART, which release them, come between the address and the data (R27 to R29, R165). The entry is made at the
address completion. -/
theorem test_withheld_writes_stay :
    let s (row : Byte) : State := begun [0x2A, 0x00, row, 0x00] (inState (mapped going) .stopping)
    let release : List Instr := [.driverFaultActivation .m0 20, .periodBoundary .m0 5000, .softRestart 20]
    (((s 0x10).m0.slotA.state = .active ∧ (s 0x10).log.entries.map LogEntry.code = [.planGuardedWrite]
        ∧ (s 0x10).decoder.holdsWrite 0x1000 (.guardedPlan .m0 .a) 0)
      ∧ ((s 0x0F).log.entries.map LogEntry.code = [.resultWriteRefused] ∧ (s 0x0F).decoder.holdsWrite 0xF00 (.guardedResult .m0) 0))
      ∧ ∀ c ∈ release, (run c (s 0x10)).m0.slotA.state ≠ .active
        ∧ ∀ row ∈ [(0x10 : Byte), 0x0F],
          let e : State := run (.write (some (BitVec.ofNat 24 (256 * row.toNat))) [7, 8] 6000) (run c (s row))
          e.m0.slotA = (run c (s row)).m0.slotA ∧ e.ram = ready.ram ∧ e.port.issued = [] ∧ e.log = (run c (s row)).log := by
  unfold Decoder.holdsWrite
  decide +kernel
/-- A WRITE that captures takes its bytes in two goes, with a command between them; no byte is captured by a slot that is PENDING by then
(R27, R28). -/
theorem test_capture_in_two_goes :
    let s : State := begun [0x2A, 0x00, 0x10, 0x00, 7] (mapped ready)
    let e : State := run (.write (some 0x1000) [7, 8] 6) (run (.logPop 5) s)
    (s.m0.slotA.state = .inactive ∧ s.decoder.holdsWrite 0x1000 (.capture .m0 .a) 1 ∧ Memory.read s.m0.slotA.copy 0 = 7)
      ∧ (Memory.read e.m0.slotA.copy 1 = 8 ∧ Memory.read e.ram.cells 0x1001 = 8 ∧ e.port.issued = [[0x2A, 0, 0x10, 0, 7, 8]])
      ∧ (let p := edit s fun u => { u with slotA := { u.slotA with state := .pending } }
         (run (.write (some 0x1000) [7, 8] 6) p).m0.slotA = p.m0.slotA) := by
  unfold Decoder.holdsWrite
  decide +kernel
/-- SLEEP is decided at its command byte, whatever stops or starts after it (R159, R166). -/
theorem test_sleep_is_decided_at_its_byte :
    let e : State := run (.sleep 9) (run (.softRestart 8) (begun [0x5C] going))
    ((begun [0x5C] going).log.entries.map LogEntry.code = [.sleepRefused] ∧ e.port.state = .awake ∧ e.port.issued = [])
      ∧ (run (.sleep 9) (begun [0x5C] ready)).port.state = .asleep := by decide +kernel
/-- The read view is taken as the data phase begins, and answers the rest of the read: M0 trips, and its channel status reads RUNNING
(R163). -/
theorem test_read_view_is_kept :
    let bytes : List Byte := [0x1A, 0x3F, 0xF1, 0x60, 0, 1, 2, 3, 4]
    let now (s : State) : Byte := s.readByte 0x160
    let s := run (.driverFaultActivation .m0 20) (begun bytes going)
    now s ≠ now going ∧ s.inFlight ∧ s.decoder.phase = .data ∧ s.decoder.readKind = some .read
      ∧ (run (.read (some 0x3FF160) (some 0) 1 30) s).upstream.readData = [now going] := by
  unfold State.inFlight
  decide +kernel
theorem witness_LinkViolationsAreRefusedWhole :
    (State.reset.inReset = false ∧ State.reset.upstream.selectLow = false ∧ State.reset.ready = false)
      ∧ (violated.inReset = false ∧ violated.upstream.selectLow = true ∧ violated.decoder.refused = true)
      ∧ (ready.upstream.selectLow = false ∧ ready.ready = true)
      ∧ (run (.upstreamSelectFall ⟨[], 0⟩) ready).decoder.refused = false
      -- the first byte of a refused repeat-mode read that ends before its address is complete (R170)
      ∧ (let s := run (.upstreamSelectFall ⟨[0x12, 0x34], 0⟩) { State.reset with upstream := { State.reset.upstream with repeatState := some .read } }
        s.inReset = false ∧ s.upstream.selectLow = true ∧ s.decoder.refused = true ∧ s.decoder.first = some 0x12
          ∧ (run (.repeatModeRead none none 0 0) s).log.entries = [⟨.linkViolation, .device, 0x212, 0⟩]) := by decide +kernel
theorem witness_ReadsAnswerFromPartAndRam :
    let s := { ready with upstream := { ready.upstream with repeatState := some .readWrap } }
    (ready.inReset = false ∧ ready.ready = true ∧ ready.upstream.selectLow = false ∧ ready.ram.wrap = ready.upstream.wrap
        ∧ ready.upstream.repeatState = none)
      ∧ s.upstream.repeatState = some .readWrap
      -- reads that end before their mode byte
      ∧ ((run (.read none none 0 0) ready).port.issued = [] ∧ (run (.read (some 1) none 0 0) ready).port.issued = [[0x1A, 0, 0, 1]]
        ∧ (run (.repeatModeRead (some 1) none 0 0) s).port.issued = [[0x1E, 0, 0, 1]])
      ∧ (inPartWindow ready.window.position 16367 = false ∧ inPartWindow ready.window.position 16368 = true
        ∧ inPartWindow ready.window.position 16383 = true ∧ inPartWindow ready.window.position 16384 = false)
      ∧ (run (.sleep 0) ready).port.state = .asleep ∧ (ready.port.state ≠ .asleep ∧ ready.ram.asleep = false ∧ ready.ram.repeatMode = false) := by
  decide +kernel
/-- A read in flight, in its data phase, outside repeat mode and in it. -/
theorem witness_ReadsAnswerFromPartAndRam_inFlight :
    let rep (k : ReadKind) : State := { ready with upstream := { ready.upstream with repeatState := some k } }
    let s := begun [0x1A, 0, 0, 5, 0x96, 1, 2, 3, 4] ready
    let r := begun [0, 0, 5, 0, 1, 2, 3, 4] (rep .readWrap)
    ([1, 2, 3, 4] : List Byte).length = 4 ∧ transactionBytes (.read (some 5) (some 0x96) 2 0) ≠ none
      ∧ (s.inFlight ∧ (∃ view, s.decoder.holdsRead .read 5 view 0) ∧ s.ram.wrap = s.upstream.wrap ∧ s.decoder.ramAnswers = true)
      ∧ (r.inFlight ∧ (∃ view, r.decoder.holdsRead .readWrap 5 view 0) ∧ r.ram.wrap = r.upstream.wrap ∧ r.port.issued = [[0x1E, 0, 0, 5, 0]]) := by
  unfold State.inFlight Decoder.holdsRead
  exact ⟨rfl, by decide, ⟨by decide +kernel, ⟨_, rfl, rfl, rfl, rfl, rfl, rfl, rfl⟩, by decide +kernel⟩, by decide +kernel, ⟨_, rfl, rfl, rfl, rfl, rfl, rfl, rfl⟩,
    by decide +kernel⟩
theorem witness_WritesActByTheirRow :
    let s := mapped ready
    (s.inReset = false ∧ s.ready = true ∧ s.upstream.selectLow = false ∧ s.upstream.repeatState = none ∧ s.memoryCanonical)
      ∧ (inPartWindow s.window.position 18 = false ∧ s.window.rowUse 18 = .pass)
      ∧ (inPartWindow s.window.position 15 = false ∧ s.window.rowUse 15 = .result .m0 ∧ s.m0.channel.state = .stopped)
      ∧ (inPartWindow s.window.position 16 = false ∧ s.window.rowUse 16 = .plan .m0 .a ∧ s.window.rowUse 17 = .plan .m0 .b
        ∧ s.m0.slotA.state = .empty ∧ (mapped going).m0.slotA.state = .active ∧ (mapped going).m0.channel.state ≠ .stopped)
      ∧ (¬inPartWindow s.window.position 16368 = false)
      ∧ ((0x3FF100 : Addr).toNat = 256 * windowFirstRow s.window.position + (0x100 : BitVec 12).toNat ∧ (0x100 : BitVec 12).toNat % 4 = 0
        ∧ [(0x70 : Byte), 0x17, 0, 0] = wordBytes 6000
        ∧ ∃ s1, exec (.settingWordWrite 0x100 6000 0) { s with
            upstream := { s.upstream with selectLow := true, readData := [] }, port := { s.port with issued := [] }
            decoder := Decoder.idle, arbiter := { s.arbiter with state := .controller } } = .next s1) :=
  ⟨⟨rfl, by decide +kernel, rfl, rfl, by decide +kernel, forallMotor ⟨forallSlot (by decide +kernel), forallSlot (by decide +kernel), forallSlot (by decide +kernel)⟩⟩,
    by decide +kernel, by decide +kernel, by decide +kernel, by decide +kernel, by decide +kernel, by decide +kernel, by decide +kernel, _, rfl⟩
/-- A WRITE in flight, of every class whose bytes are stored or withheld, with bytes to come and with none. -/
theorem witness_WritesActByTheirRow_inFlight :
    let s (row : Byte) (u : State) : State := begun [0x2A, 0x00, row, 0x00] (mapped u)
    let bytes (row : Byte) : List Byte := [0x2A, 0x00, row, 0x00, 7]
    (∀ row ∈ [(0x10 : Byte), 0x0F, 0x12], (s row going).inFlight)
      ∧ transactionBytes (.write (some 0x1000) [7] 0) = some (bytes 0x10) ∧ instantOf (.write (some 0x1000) [7] 0) = some 0
      ∧ ((bytes 0x10).drop 4 ≠ [] ∧ ((bytes 0x10).take 4).drop 4 = [])
      ∧ (s 0x10 going).decoder.holdsWrite 0x1000 (.guardedPlan .m0 .a) 0 ∧ (s 0x0F going).decoder.holdsWrite 0xF00 (.guardedResult .m0) 0
      ∧ (s 0x12 going).decoder.holdsWrite 0x1200 .pass 0 ∧ (s 0x0F ready).decoder.holdsWrite 0xF00 .pass 0
      ∧ (s 0x10 ready).decoder.holdsWrite 0x1000 (.capture .m0 .a) 0 ∧ ((s 0x10 ready).m0.slot .a).state = .empty
      ∧ ((edit (s 0x10 ready) fun u => { u with slotA := { u.slotA with state := .pending } }).m0.slot .a).state = .pending := by
  unfold State.inFlight Decoder.holdsWrite
  decide +kernel
theorem witness_WritesActByTheirRow_canonical : (begun [0x2A, 0x00, 0x10, 0x00] (mapped going)).memoryCanonical :=
  ⟨by decide +kernel, forallMotor ⟨forallSlot (by decide +kernel), forallSlot (by decide +kernel), forallSlot (by decide +kernel)⟩⟩
/-- The words of a row that a write has whole: one that ends in the next word, one that runs round from the row's end, one that covers
a word twice, and a START word that waits for the next instant (R164, R174, log 27). -/
theorem witness_WritesActByTheirRow_rowWords :
    rowWords 1 1 [9, 9, 9, 4, 3, 2, 1, 8] = [(0x104, 0x01020304)] ∧ rowWords 0 254 [9, 9, 4, 3, 2, 1] = [(0x000, 0x01020304)]
      ∧ (rowWords 0 0 (List.replicate 256 0 ++ [4, 3, 2, 1]))[0]? = some (0x000, 0x01020304)
      ∧ (rowWords 1 0x5C (wordBytes 1) = [(0x15C, 1)] ∧ (BitVec.ofNat 12 (256 * (Motor.m0.number + 1) + 0x5C), (1 : Word)) ∈ [(0x15C, 1)]
        ∧ (1 : Word).toNat % 16 = 1 ∧ above.m0.channel.state = .stopped
        ∧ (run (.write (some 0x3FF15C) (wordBytes 1) 0) above).m0.channel.state = .running
        ∧ (run (.write (some 0x3FF15C) (wordBytes 1) 0) above).timebase = 1) := by decide +kernel
/-- A write from one byte before a word's start to two bytes past one: two whole words, taken in order; and a SOFT_RESTART word with
nothing after it taken (R174, R175, R182). -/
theorem witness_WritesActByTheirRow_words :
    let words : List Word := [6000, 100]
    let a : Addr := 0x3FF0FF
    let b : Addr := 0x3FF100
    let data := words.flatMap wordBytes ++ [1, 2]
    let s := run (.write (some b) data 0) ready
    let r := run (.write (some 0x3FF0F8) (([0, 1] : List Word).flatMap wordBytes) 0) going
    (¬inPartWindow ready.window.position (b.toNat / 256) = false ∧ ([] : List Byte).length < 4 ∧ [(1 : Byte), 2].length < 4
        ∧ (b.toNat % 256 + 0) % 4 = 0 ∧ b.toNat % 256 + data.length ≤ 256)
      ∧ ((a.toNat % 256 + 1) % 4 = 0 ∧ ¬(a.toNat % 256 + data.length ≤ 256))
      ∧ (s.m0.settings.carrierPeriod = 6000 ∧ s.m0.settings.minimumPulse = 100)
      ∧ ((run (.write (some 0x3FF101) ([9, 9, 9] ++ wordBytes 100) 0) ready).m0.settings.minimumPulse = 100
        ∧ (0x101 + 3) % 4 = 0 ∧ ([9, 9, 9] : List Byte).length < 4)
      ∧ (r.m0.channel.state = .stopped ∧ r.log.entries = [])
      ∧ (run (.write (some 0x3FF0F8) (([0, 2, 0] : List Word).flatMap wordBytes) 0) ready).calendar.highWater = 0 := by decide +kernel
theorem witness_ShortTransactionsTakeEffect :
    (ready.inReset = false ∧ ready.ready = true ∧ ready.upstream.selectLow = false ∧ ready.upstream.repeatState = none)
      ∧ (wrapSettingOf 4 = some .wrap128 ∧ wrapSettingOf 5 = none) ∧ (∀ m, (ready.motor m).channel.state = .stopped)
      ∧ (∃ m, (going.motor m).channel.state ≠ .stopped) ∧ linkCommandOf 0x00 = none
      ∧ ({ ready.upstream with repeatState := some .read }).repeatState = some .read
      ∧ (ready.port.repeatSet = false ∧ ({ ready.port with repeatSet := true }).repeatSet = true) :=
  ⟨by decide +kernel, by decide +kernel, forallMotor (by decide +kernel), ⟨.m0, by decide +kernel⟩, by decide +kernel⟩

/-- A SLEEP in flight, forwarded and withheld. -/
theorem witness_ShortTransactionsTakeEffect_inFlight :
    let holds (s : State) (c : TransactionClass) : Prop :=
      s.inFlight ∧ s.decoder.command = some (.known .sleep) ∧ s.decoder.count = 1 ∧ s.decoder.decision = some c
    holds (begun [0x5C] ready) .forwarded ∧ holds (begun [0x5C] going) .withheld := by
  unfold State.inFlight
  decide +kernel

end Sys2Proof.Tests
end

section
/-! The free words of a motor block and the words of the device area (R60, R92, R96, R145, R167, R176, R178, R191, R195, R196): what
the write of each of them does where its guard and range hold, and that it is refused otherwise. -/
namespace Sys2Proof.Machine

/-! ### Fields of a word (R200) -/

/-- A field of a word as a number. -/
theorem field_eq (v : Word) (lo len : Nat) : field v lo len = v.toNat / 2 ^ lo % 2 ^ len := by
  simp [field, BitVec.extractLsb'_toNat, Nat.shiftRight_eq_div_pow]

/-- The field at the low end of a word. -/
theorem field_zero (v : Word) (len : Nat) : field v 0 len = v.toNat % 2 ^ len := by
  rw [field_eq, Nat.pow_zero, Nat.div_one]

/-- Every owner is that of its number (11.3). -/
theorem ownerOf_number (o : InputOwner) : ownerOf o.number = some o := by
  cases o with
  | motor m => cases m <;> rfl
  | shared => rfl
  | unused => rfl

/-- The numbers above 4 name no owner (R96). -/
theorem ownerOf_none {n : Nat} (h : 4 < n) : ownerOf n = none := by
  unfold ownerOf
  split
  case h_6 => rfl
  all_goals omega

/-- An input word whose owner is named and whose count and limits lie in range is the record of its fields (R96). -/
theorem inputWordOf_inRange {v : Word} {owner : InputOwner} (ho : owner.number = v.toNat / 2 ^ 24 % 8)
    (ht : v.toNat / 2 ^ 27 % 8 ≤ 4) (hl : v.toNat % 2 ^ 12 ≤ v.toNat / 2 ^ 12 % 2 ^ 12) :
    inputWordOf v = some { owner := owner, lowLimit := v.extractLsb' 0 12, highLimit := v.extractLsb' 12 12,
                           tripCount := v.toNat / 2 ^ 27 % 8, consecutive := 0 } := by
  have eo : field v 24 3 = owner.number := (field_eq v 24 3).trans ho.symm
  have et : field v 27 3 = v.toNat / 2 ^ 27 % 8 := field_eq v 27 3
  have hr : v.toNat / 2 ^ 27 % 8 ≤ 4 ∧ field v 0 12 ≤ field v 12 12 := by
    rw [field_zero, field_eq]
    exact ⟨ht, hl⟩
  rw [inputWordOf, eo, ownerOf_number, et]
  exact if_pos hr

/-- An input word with a field out of range is no record (R96). -/
theorem inputWordOf_outOfRange {v : Word}
    (h : 4 < v.toNat / 2 ^ 24 % 8 ∨ 4 < v.toNat / 2 ^ 27 % 8 ∨ v.toNat / 2 ^ 12 % 2 ^ 12 < v.toNat % 2 ^ 12) :
    inputWordOf v = none := by
  unfold inputWordOf
  rcases h with ho | h
  · have eo : ownerOf (field v 24 3) = none := ownerOf_none (by rw [field_eq]; exact ho)
    rw [eo]
  · have hr : ¬(field v 27 3 ≤ 4 ∧ field v 0 12 ≤ field v 12 12) := by
      rw [field_eq v 27 3, field_zero, field_eq v 12 12]
      omega
    split
    · rfl
    · exact if_neg hr

/-! ### Refusals and the device guard (R176) -/

/-- The refusal of a word of a motor block, at the instant of the command. -/
theorem State.atInstant_logMotor (s : State) (t : Instant) (m : Motor) (c : LogCode) (i : Short) :
    (s.atInstant t).logMotor m c i =
      { s.atInstant t with log := s.log.add ⟨c, .motor m, i, (s.motor m).channel.periodCount⟩ } := by
  simp only [State.logMotor, State.atInstant_log, State.atInstant_motor]

/-- The refusal of a word of the device area, at the instant of the command. -/
theorem State.atInstant_refuseDeviceWord (s : State) (t : Instant) (off : Nat) :
    (s.atInstant t).refuseDeviceWord off =
      { s.atInstant t with
        log := s.log.add ⟨.settingRefused, .device, BitVec.ofNat 16 off, (s.atInstant t).timebase⟩ } := by
  simp only [State.refuseDeviceWord, State.logDevice, State.atInstant_log]

/-- The device guard holds exactly where every motor is STOPPED. -/
theorem State.allStopped_iff (s : State) : s.allStopped = true ↔ ∀ m, (s.motor m).channel.state = .stopped := by
  simp only [State.allStopped, Bool.and_eq_true, decide_eq_true_eq]
  constructor
  · rintro ⟨⟨h0, h1⟩, h2⟩ m
    cases m
    · exact h0
    · exact h1
    · exact h2
  · exact fun h => ⟨⟨h .m0, h .m1⟩, h .m2⟩

/-- The device guard does not depend on the instant. -/
@[simp] theorem State.atInstant_allStopped (s : State) (t : Instant) : (s.atInstant t).allStopped = s.allStopped := by
  simp [State.allStopped]

/-! ### The free words of a motor block (R178) -/

/-- A free word holds settings. -/
theorem State.takeMotorWord_free (s : State) (m : Motor) {w : MotorWord} (off : Nat) (v : Word) (h : w.isFree = true) :
    s.takeMotorWord m w off v = s.takeMotorSetting m w off v := by
  cases w with
  | commutationDelay | ringLevels | staleTimeout => rfl
  | _ => cases h

/-- A free word is no command. -/
theorem MotorWord.ne_command_of_isFree {w : MotorWord} (h : w.isFree = true) : w ≠ .command := by
  rintro rfl
  cases h

/-- A free word is taken by its range alone, whatever the channel state (R176, R178). -/
theorem State.takeMotorSetting_free (s : State) (m : Motor) {w : MotorWord} (off : Nat) (v : Word) (h : w.isFree = true) :
    s.takeMotorSetting m w off v =
      match (s.motor m).newSettings w v with
      | some st => s.setMotor m (((s.motor m).setSettings st).afterSetting s.timebase w)
      | none => s.logMotor m .settingRefused (BitVec.ofNat 16 off) := by
  have ha : (s.motor m).settingAllowed w = true := by simp [MotorUnit.settingAllowed, h]
  simp only [State.takeMotorSetting, ha, if_true]
  rfl

section FreeWords

variable {s : State} {m : Motor} {w : Nat} {v : Word} {t : Instant}

/-- A free word, as a command. -/
theorem exec_freeWord (hs : s.inReset = false) (hw : w < 256) (h4 : w % 4 = 0) (hf : (motorWordAt w).isFree = true) :
    exec (.settingWordWrite (BitVec.ofNat 12 (256 * (m.number + 1) + w)) v t) s =
      .next ((s.atInstant t).takeMotorSetting m (motorWordAt w) (256 * (m.number + 1) + w) v) := by
  rw [exec_motorWord s m w v t hs hw h4 fun hc => absurd hc (MotorWord.ne_command_of_isFree hf), State.takeMotorWord_free _ _ _ _ hf]

/-- A free word in range replaces its settings in every channel state (R176, R178). -/
theorem exec_freeWord_taken {st : MotorSettings} (hs : s.inReset = false) (hw : w < 256) (h4 : w % 4 = 0)
    (hf : (motorWordAt w).isFree = true) (hn : (s.motor m).newSettings (motorWordAt w) v = some st) :
    exec (.settingWordWrite (BitVec.ofNat 12 (256 * (m.number + 1) + w)) v t) s =
      .next ((s.atInstant t).setMotor m
        (((s.motor m).setSettings st).afterSetting (s.atInstant t).timebase (motorWordAt w))) := by
  rw [exec_freeWord hs hw h4 hf, State.takeMotorSetting_free _ _ _ _ hf, State.atInstant_motor, hn]

/-- A free word out of range is refused (R176). -/
theorem exec_freeWord_refused (hs : s.inReset = false) (hw : w < 256) (h4 : w % 4 = 0)
    (hf : (motorWordAt w).isFree = true) (hn : (s.motor m).newSettings (motorWordAt w) v = none) :
    exec (.settingWordWrite (BitVec.ofNat 12 (256 * (m.number + 1) + w)) v t) s =
      .next { s.atInstant t with
        log := s.log.add ⟨.settingRefused, .motor m, BitVec.ofNat 16 (256 * (m.number + 1) + w),
          (s.motor m).channel.periodCount⟩ } := by
  rw [exec_freeWord hs hw h4 hf, State.takeMotorSetting_free _ _ _ _ hf, State.atInstant_motor, hn]
  exact congrArg _ (s.atInstant_logMotor t m _ _)

end FreeWords

/-- The stale timer runs where the fill is above 0 and below the ring high level (R196). -/
theorem MotorUnit.staleRange_iff (u : MotorUnit) :
    u.staleRange = true ↔ 0 < u.frames.fill ∧ u.frames.fill < u.settings.ringHigh := by
  simp only [MotorUnit.staleRange, Bool.and_eq_true, decide_eq_true_eq]

/-- A motor whose ring levels have just been set to `high` and `low` (R195, R196): the ring-high state by hysteresis, and a stale timer
that keeps its expiry where it runs on. -/
theorem MotorUnit.ringLevels_afterSetting (u : MotorUnit) (now : Instant) (high low : Nat) :
    (u.setSettings { u.settings with ringHigh := high, ringLow := low }).afterSetting now .ringLevels =
      { u with
        settings := { u.settings with ringHigh := high, ringLow := low }
        attention := { u.attention with
          ringHigh := if high ≤ u.frames.fill then true else if u.frames.fill ≤ low then false else u.attention.ringHigh
          staleTimer :=
            if 0 < u.frames.fill ∧ u.frames.fill < high then
              (if u.attention.staleTimer.isSome then u.attention.staleTimer
                else some (now + BitVec.ofNat 32 (1024 * u.settings.staleTimeout)))
            else none } } := by
  simp only [MotorUnit.afterSetting, MotorUnit.levelsChanged, MotorUnit.staleRange_iff]
  rfl

/-- The ring-levels word in range is its two levels (R195, R200). -/
theorem MotorUnit.newSettings_ringLevels (u : MotorUnit) (v : Word) :
    u.newSettings .ringLevels v =
      if 1 ≤ v.toNat % 2 ^ 9 ∧ v.toNat % 2 ^ 9 ≤ 256 ∧ v.toNat / 2 ^ 16 % 2 ^ 8 < v.toNat % 2 ^ 9
          ∧ v.toNat % 2 ^ 9 ≤ u.settings.ringDepth then
        some { u.settings with ringHigh := v.toNat % 2 ^ 9, ringLow := v.toNat / 2 ^ 16 % 2 ^ 8 }
      else none := by
  simp only [MotorUnit.newSettings, field_zero, field_eq v 16 8]

/-! ### The words of the device area (R178) -/

/-- The words of the device area are none of a motor block's. -/
theorem deviceWordAt_ne_motorBlock (off : Nat) (m : Motor) (w : MotorWord) : deviceWordAt off ≠ .motorBlock m w := by
  unfold deviceWordAt
  (repeat' split) <;> nofun

/-- Row 0 of the part window is the device area (11.3). -/
theorem wordAt_device {off : Nat} (h : off < 256) : wordAt off = deviceWordAt off := by
  rw [wordAt, Nat.div_eq_of_lt h, Nat.mod_eq_of_lt h]
  rfl

/-- The input words stand from 0x040 on, in input order (11.3). -/
theorem wordAt_input (i : Fin 16) : wordAt (0x040 + 4 * i.val) = .input i := by
  revert i
  decide

section DeviceWords

variable {s : State} {v : Word} {t : Instant}

/-- A word of the device area, as a command (R173). -/
theorem exec_deviceWord (hs : s.inReset = false) {off : Nat} (h : off < 256) (h4 : off % 4 = 0) :
    exec (.settingWordWrite (BitVec.ofNat 12 off) v t) s = .next ((s.atInstant t).takeWord off v) := by
  have e : (BitVec.ofNat 12 off).toNat = off := by
    rw [BitVec.toNat_ofNat]
    omega
  rw [exec_word s _ v t hs (by rw [e]; exact h4), e]
  intro m hm
  rw [e, wordAt_device h] at hm
  exact absurd hm (deviceWordAt_ne_motorBlock off m .command)

/-- A word of the device area that the part refuses, as a command (R176). -/
theorem exec_deviceWord_refused (hs : s.inReset = false) {off : Nat} (h : off < 256) (h4 : off % 4 = 0)
    (hr : (s.atInstant t).takeWord off v = (s.atInstant t).refuseDeviceWord off) :
    exec (.settingWordWrite (BitVec.ofNat 12 off) v t) s =
      .next { s.atInstant t with
        log := s.log.add ⟨.settingRefused, .device, BitVec.ofNat 16 off, (s.atInstant t).timebase⟩ } := by
  rw [exec_deviceWord hs h h4, hr, State.atInstant_refuseDeviceWord]

/-- A word of the device area that replaces device settings, as a command (R178). -/
theorem exec_deviceWord_taken (hs : s.inReset = false) {off : Nat} (h : off < 256) (h4 : off % 4 = 0)
    (f : DeviceSettings → DeviceSettings)
    (hd : (s.atInstant t).takeWord off v = { s.atInstant t with device := f (s.atInstant t).device }) :
    exec (.settingWordWrite (BitVec.ofNat 12 off) v t) s = .next { s.atInstant t with device := f s.device } := by
  rw [exec_deviceWord hs h h4, hd, State.atInstant_device]

/-- The T_conv word with every motor STOPPED and in range (R92). -/
theorem takeWord_tConv_taken (hg : ∀ m, (s.motor m).channel.state = .stopped) (h1 : 40 ≤ v.toNat) (h2 : v.toNat ≤ 320) :
    s.takeWord 0x000 v = { s with device := { s.device with tConv := v.toNat } } :=
  if_pos ⟨s.allStopped_iff.2 hg, h1, h2⟩

/-- The T_conv word with a motor that is not STOPPED, or out of range (R92, R176). -/
theorem takeWord_tConv_refused (h : ¬(∀ m, (s.motor m).channel.state = .stopped) ∨ v.toNat < 40 ∨ 320 < v.toNat) :
    s.takeWord 0x000 v = s.refuseDeviceWord 0x000 := by
  have hc : ¬(s.allStopped = true ∧ 40 ≤ v.toNat ∧ v.toNat ≤ 320) := by
    rw [State.allStopped_iff]
    rintro ⟨hg, h1, h2⟩
    exact h.elim (· hg) (by omega)
  exact if_neg hc

/-- The word of a converter input, with its guard (R96, R176). -/
theorem State.takeWord_input (s : State) (i : Fin 16) (v : Word) :
    s.takeWord (0x040 + 4 * i.val) v = s.takeInput i (0x040 + 4 * i.val) v := by
  rw [State.takeWord, wordAt_input]

/-- The word of a converter input with every motor STOPPED and its fields in range (R96). -/
theorem exec_inputWord_taken (hs : s.inReset = false) (i : Fin 16) {r : InputRecord}
    (hg : ∀ m, (s.motor m).channel.state = .stopped) (hv : inputWordOf v = some r) :
    exec (.settingWordWrite (BitVec.ofNat 12 (0x040 + 4 * i.val)) v t) s =
      .next ((s.atInstant t).setInput (BitVec.ofFin i) r) := by
  rw [exec_deviceWord hs (by omega) (by omega), State.takeWord_input, State.takeInput, State.atInstant_allStopped,
    if_pos (s.allStopped_iff.2 hg), hv]

/-- The word of a converter input with a motor that is not STOPPED, or with a field out of range (R96, R176). -/
theorem takeInput_refused (i : Fin 16) (off : Nat)
    (h : ¬(∀ m, (s.motor m).channel.state = .stopped) ∨ inputWordOf v = none) :
    s.takeInput i off v = s.refuseDeviceWord off := by
  have hn : (if s.allStopped then inputWordOf v else none) = none := by
    rcases h with hg | hv
    · exact if_neg fun ha => hg (s.allStopped_iff.1 ha)
    · rw [hv, ite_self]
  rw [State.takeInput, hn]

end DeviceWords

/-! ### The words together -/

/-- Settles O25, word by word: each is in its range and guard, or it is refused. -/
theorem freeAndDeviceWordsFollowTheirGuards : Obligations.FreeAndDeviceWordsFollowTheirGuards := by
  unfold Obligations.FreeAndDeviceWordsFollowTheirGuards
  refine ⟨fun s m v t hs => ⟨?delay, ?stale, ?levels⟩,
    fun s v t hs => ⟨?tConv, ?noTConv, ?controllerWindow, ?wakeTime, ?input, ?noInput, ?enables⟩⟩
  case delay =>
    split
    next h => exact exec_freeWord_taken hs (by decide) rfl rfl (if_pos h)
    next h => exact exec_freeWord_refused hs (by decide) rfl rfl (if_neg h)
  case stale =>
    split
    next h => exact exec_freeWord_taken hs (by decide) rfl rfl (if_pos h)
    next h => exact exec_freeWord_refused hs (by decide) rfl rfl (if_neg h)
  case levels =>
    have hn := (s.motor m).newSettings_ringLevels v
    split
    next h =>
      refine (exec_freeWord_taken hs (by decide) rfl rfl (hn.trans (if_pos h))).trans ?_
      exact congrArg (fun u => Host.Outcome.next ((s.atInstant t).setMotor m u)) ((s.motor m).ringLevels_afterSetting _ _ _)
    next h => exact exec_freeWord_refused hs (by decide) rfl rfl (hn.trans (if_neg h))
  case tConv =>
    intro hg h1 h2
    refine exec_deviceWord_taken hs (by decide) rfl (fun d => { d with tConv := v.toNat }) (takeWord_tConv_taken ?_ h1 h2)
    simpa only [State.atInstant_motor] using hg
  case noTConv =>
    intro h
    refine exec_deviceWord_refused hs (by decide) rfl (takeWord_tConv_refused ?_)
    simpa only [State.atInstant_motor] using h
  case controllerWindow =>
    split
    next h => exact exec_deviceWord_taken hs (by decide) rfl (fun d => { d with controllerWindow := v.toNat }) (if_pos h)
    next h => exact exec_deviceWord_refused hs (by decide) rfl (if_neg h)
  case wakeTime =>
    split
    next h => exact exec_deviceWord_taken hs (by decide) rfl (fun d => { d with wakeTime := v.toNat }) (if_pos h)
    next h => exact exec_deviceWord_refused hs (by decide) rfl (if_neg h)
  case input => exact fun i owner hg ho ht hl => exec_inputWord_taken hs i hg (inputWordOf_inRange ho ht hl)
  case noInput =>
    intro i h
    refine exec_deviceWord_refused hs (by omega) (by omega) ?_
    rw [State.takeWord_input]
    refine takeInput_refused i _ ?_
    simp only [State.atInstant_motor]
    exact h.imp_right inputWordOf_outOfRange
  case enables => exact exec_deviceWord hs (by decide) rfl

end Sys2Proof.Machine
end

section
/-! The bounded lists and the calendar's intervals at every step (R68, R71, R72, R93, R186, R193). -/
namespace Sys2Proof.Machine

/-- The log after a reset holds nothing (R190). -/
theorem FaultLog.reset_bounded : FaultLog.reset.bounded := by
  simp [FaultLog.reset, FaultLog.bounded]

/-- The calendar after a reset holds nothing (R91). -/
theorem Calendar.reset_bounded : Calendar.reset.bounded := by
  simp [Calendar.reset, Calendar.bounded]

/-- Every step keeps the Fault Log bounded (R186). -/
theorem step_keeps_logBounded {s s' : State} (h : step s = .next s') (hs : s.log.bounded) : s'.log.bounded :=
  step_keeps (P := fun s => s.log.bounded) (fun _ _ _ _ _ hs => hs) (fun _ _ => FaultLog.reset_bounded)
    (fun _ _ _ => FaultLog.reset_bounded) (fun o hs => o.logBounded hs) (fun _ _ _ _ _ _ hs => by simpa using hs) h hs

/-- Every step keeps the calendar bounded (R68, R72, R93). -/
theorem step_keeps_calendarBounded {s s' : State} (h : step s = .next s') (hs : s.calendar.bounded) : s'.calendar.bounded :=
  step_keeps (P := fun s => s.calendar.bounded) (fun _ _ _ _ _ hs => hs) (fun _ _ => Calendar.reset_bounded)
    (fun _ _ _ => Calendar.reset_bounded) (fun o hs => o.calendarBounded hs) (fun _ _ _ _ _ _ hs => by simpa using hs) h hs

/-- Every step keeps the frame-done records sound (R193). -/
theorem step_keeps_recordsSound {s s' : State} (h : step s = .next s') (hs : s.recordsSound) : s'.recordsSound := by
  refine step_keeps_motors (P := fun u => u.attention.recordsSound) (fun _ _ => ?reset) (fun o hu => o.records hu)
    (fun now u hu => ?soft) (fun n u hu => ?burst) (fun now f u hu => ?flush) (fun u n start data _ hu => ?capture) h hs
  case reset => exact ⟨Nat.zero_le _, fun _ hr => nomatch hr⟩
  case soft => exact (MotorUnit.Seen.softRestart (now := now)).records hu
  case burst => exact hu
  case flush => exact (MotorUnit.Seen.flushed (now := now) f).records hu
  case capture => rw [MotorUnit.onSlot_attention]; exact hu

/-- A list of at most one element holds no two that could fail a relation. -/
theorem pairwise_of_length_le_one {α : Type} {R : α → α → Prop} : ∀ {l : List α}, l.length ≤ 1 → l.Pairwise R
  | [], _ => .nil
  | [a], _ => List.pairwise_singleton R a

/-- Where some starts have left a calendar, its intervals stay apart as shorter ones; and one start alone overlaps none. -/
theorem Calendar.apart_of_sublist {w w' : Nat} {c c' : Calendar} (h : c.apart w) (hl : c'.starts.Sublist c.starts)
    (hw : w' ≤ w ∨ c.reservations.length ≤ 1) : c'.apart w' := by
  rw [Calendar.apart_iff] at h ⊢
  rcases hw with hw | hn
  · exact (h.sublist hl).imp fun ⟨hab, hba⟩ => ⟨Nat.le_trans hw hab, Nat.le_trans hw hba⟩
  · have hc : c.starts.length ≤ 1 := by simpa [Calendar.starts] using hn
    exact pairwise_of_length_le_one (Nat.le_trans hl.length_le hc)

/-- Where some starts have left a calendar in order, it is in order. -/
theorem Calendar.ordered_of_sublist {c c' : Calendar} (h : c.ordered) (hl : c'.starts.Sublist c.starts) : c'.ordered := by
  rw [Calendar.ordered_iff] at h ⊢
  exact h.sublist hl

/-- What a step does to the starts of the calendar: it takes some off and adds none, or it places reservations, which keeps the
intervals apart and the list in order (R71, R92). -/
theorem step_starts {s s' : State} (hr : s.settingsInRange) (h : step s = .next s') :
    s'.calendar.starts.Sublist s.calendar.starts
      ∨ (s.calendar.apart s.device.tConv → s'.calendar.apart s'.device.tConv)
          ∧ ∀ now, s'.calendar.near now → s.calendar.ordered → s'.calendar.ordered := by
  obtain ⟨_, ⟨hlow, hhigh⟩, _⟩ := hr
  rcases step_intervals h with he | ⟨pl, a, hc, hd, hi⟩
  · rw [he]
    exact .inl (List.nil_sublist _)
  · rw [← hd] at hlow hhigh
    rw [← hc, ← hd]
    cases pl with
    | false => exact .inl (hi.1 rfl)
    | true =>
      obtain ⟨_, _, hapart, hordered⟩ := hi.2 rfl hhigh
      exact .inr ⟨hapart, fun now => hordered now (by omega)⟩

/-- Every step keeps the conversion intervals apart (R68, R71). -/
theorem step_keeps_apart {s s' : State} (h : step s = .next s') (hr : s.settingsInRange)
    (hs : s.calendar.apart s.device.tConv)
    (hw : s'.device.tConv ≤ s.device.tConv ∨ s.calendar.reservations.length ≤ 1) : s'.calendar.apart s'.device.tConv := by
  rcases step_starts hr h with hl | ⟨hplaced, _⟩
  · exact Calendar.apart_of_sublist hs hl hw
  · exact hplaced hs

/-- Every step keeps the list in the order of its starts (R68). -/
theorem step_keeps_ordered {s s' : State} (h : step s = .next s') (hr : s.settingsInRange) (hs : s.calendar.ordered)
    (hn : s'.calendar.near s'.timebase) : s'.calendar.ordered := by
  rcases step_starts hr h with hl | ⟨_, hplaced⟩
  · exact Calendar.ordered_of_sublist hs hl
  · exact hplaced _ hn hs

/-- Settles O10, list by list. -/
theorem everyStepKeepsListsBounded : Obligations.EveryStepKeepsListsBounded := by
  unfold Obligations.EveryStepKeepsListsBounded
  exact ⟨fun _ _ hs h => step_keeps_logBounded h hs, fun _ _ hs h => step_keeps_calendarBounded h hs,
    fun _ _ hr hs hw h => step_keeps_apart h hr hs hw, fun _ _ hr hs hn h => step_keeps_ordered h hr hs hn,
    fun _ _ hs h => step_keeps_recordsSound h hs⟩

end Sys2Proof.Machine
end

section
/-! Placement's search for a start (R71): the start found is free, in the window, and the nearest to the target of all that are. -/
namespace Sys2Proof.Machine

/-! ### The better of two starts -/

/-- Of two starts the first is the nearer to the target, or the later of two equally near, or both are one (R71). -/
def AsGood (target p q : Int) : Prop :=
  (p - target).natAbs < (q - target).natAbs ∨ (p - target).natAbs = (q - target).natAbs ∧ q ≤ p

theorem AsGood.refl (target p : Int) : AsGood target p p := .inr ⟨rfl, Int.le_refl p⟩

theorem AsGood.trans {target p q r : Int} (h : AsGood target p q) (k : AsGood target q r) : AsGood target p r := by
  unfold AsGood at *
  omega

/-- The better of two starts is one of the two, and as good as both. -/
theorem betterStart_spec (target p q : Int) :
    (betterStart target p q = p ∨ betterStart target p q = q)
      ∧ AsGood target (betterStart target p q) p ∧ AsGood target (betterStart target p q) q := by
  unfold betterStart AsGood
  split
  · omega
  · split <;> omega

/-- The best of a list is in it and as good as all of it, and only the empty list has none. -/
theorem bestStart_spec (target : Int) :
    ∀ l : List Int, (bestStart target l = none ∧ l = [])
      ∨ ∃ p ∈ l, bestStart target l = some p ∧ ∀ q ∈ l, AsGood target p q
  | [] => .inl ⟨rfl, rfl⟩
  | p :: rest => by
    refine .inr ?_
    unfold bestStart
    rcases bestStart_spec target rest with ⟨hn, rfl⟩ | ⟨q, hq, hs, hall⟩
    · exact ⟨p, List.mem_singleton_self p, by rw [hn], by simp [AsGood.refl]⟩
    · obtain ⟨hor, hp, hbq⟩ := betterStart_spec target p q
      refine ⟨betterStart target p q, ?_, by rw [hs], ?_⟩
      · rcases hor with e | e <;> simp [e, hq]
      · rintro x (_ | ⟨_, hx⟩)
        · exact hp
        · exact hbq.trans (hall x hx)

/-! ### Free starts and candidates -/

theorem freeAt_iff {width : Nat} {busy : List Int} {p : Int} :
    freeAt width busy p = true ↔ ∀ o ∈ busy, p + width ≤ o ∨ o + width ≤ p := by
  simp only [freeAt, List.all_eq_true, Bool.or_eq_true, decide_eq_true_eq]

theorem freeAt_eq_false_iff {width : Nat} {busy : List Int} {p : Int} :
    freeAt width busy p = false ↔ ∃ o ∈ busy, ¬(p + width ≤ o ∨ o + width ≤ p) := by
  simp only [freeAt, List.all_eq_false, Bool.or_eq_true, decide_eq_true_eq]

/-- A start of the window is a candidate where it is the target's clip, the end of an interval, or one interval before a start (R71). -/
theorem mem_startCandidates {width : Nat} {busy : List Int} {low high target p : Int} (hl : low ≤ p) (hh : p ≤ high)
    (h : p = clipTo low high target ∨ ∃ o ∈ busy, p = o + width ∨ p = o - width) :
    p ∈ startCandidates width busy low high target := by
  have hclip : clipTo low high p = p := by
    unfold clipTo
    omega
  unfold startCandidates
  rw [List.mem_map]
  rcases h with rfl | ⟨o, ho, e⟩
  · exact ⟨target, List.mem_cons_self, rfl⟩
  · refine ⟨p, List.mem_cons_of_mem _ (List.mem_append.2 ?_), hclip⟩
    exact e.imp (fun e => List.mem_map.2 ⟨o, ho, e.symm⟩) fun e => List.mem_map.2 ⟨o, ho, e.symm⟩

/-- A candidate lies in the window. -/
theorem startCandidates_window {width : Nat} {busy : List Int} {low high target p : Int} (hw : low ≤ high)
    (h : p ∈ startCandidates width busy low high target) : low ≤ p ∧ p ≤ high := by
  obtain ⟨q, _, rfl⟩ := List.mem_map.1 h
  unfold clipTo
  omega

/-- On the way from a start `c` to a free one, by steps of `d`, the first free start is `c` itself or touches an interval of the
calendar: the step before it was blocked. -/
theorem first_free {width : Nat} {busy : List Int} {c d : Int} (hd : d = 1 ∨ d = -1) {n : Nat}
    (h : freeAt width busy (c + d * n) = true) :
    ∃ k ≤ n, freeAt width busy (c + d * k) = true ∧ (k = 0 ∨ ∃ o ∈ busy, c + d * k = o + d * width) := by
  induction n with
  | zero => exact ⟨0, Nat.le_refl 0, h, .inl rfl⟩
  | succ j ih =>
    cases hj : freeAt width busy (c + d * j) with
    | true =>
      obtain ⟨k, hk, hfirst⟩ := ih hj
      exact ⟨k, Nat.le_succ_of_le hk, hfirst⟩
    | false =>
      obtain ⟨o, ho, hblocked⟩ := freeAt_eq_false_iff.1 hj
      have hfree := freeAt_iff.1 h o ho
      refine ⟨j + 1, Nat.le_refl _, h, .inr ⟨o, ho, ?_⟩⟩
      rcases hd with rfl | rfl <;> omega

/-- For each free start of the window some free candidate is as good: the first free one on the way from the
clipped target to it (R71). -/
theorem candidate_asGood {width : Nat} {busy : List Int} {low high target q : Int} (hl : low ≤ q) (hh : q ≤ high)
    (hq : freeAt width busy q = true) :
    ∃ p ∈ startCandidates width busy low high target, freeAt width busy p = true ∧ AsGood target p q := by
  have hclip : clipTo low high target = max low (min high target) := rfl
  obtain ⟨d, n, hd, e⟩ : ∃ (d : Int) (n : Nat), (d = 1 ∨ d = -1) ∧ q = clipTo low high target + d * n := by
    rcases Int.le_total (clipTo low high target) q with h | h
    · exact ⟨1, (q - clipTo low high target).toNat, .inl rfl, by omega⟩
    · exact ⟨-1, (clipTo low high target - q).toNat, .inr rfl, by omega⟩
  rw [e] at hq
  obtain ⟨k, hk, hfree, hat⟩ := first_free hd hq
  refine ⟨_, mem_startCandidates ?_ ?_ ?_, hfree, ?_⟩
  · rcases hd with rfl | rfl <;> omega
  · rcases hd with rfl | rfl <;> omega
  · rcases hat with rfl | ⟨o, ho, hat⟩
    · exact .inl (by simp)
    · refine .inr ⟨o, ho, ?_⟩
      rcases hd with rfl | rfl <;> omega
  · clear hat
    unfold AsGood
    rcases hd with rfl | rfl <;> omega

/-- Settles O44: the candidates hold, for each free start of the window, one as good. -/
theorem placementTakesTheNearestFreeStart : Obligations.PlacementTakesTheNearestFreeStart := by
  unfold Obligations.PlacementTakesTheNearestFreeStart
  intro width busy low high target hw free
  unfold findStart
  rcases bestStart_spec target ((startCandidates width busy low high target).filter (freeAt width busy)) with
    ⟨hn, he⟩ | ⟨p, hp, hs, hall⟩
  · rw [hn]
    refine ⟨nofun, fun _ q hlq hqh hq => ?_⟩
    obtain ⟨p, hp, hf, _⟩ := candidate_asGood (target := target) hlq hqh (freeAt_iff.2 hq)
    exact absurd (List.mem_filter.2 ⟨hp, hf⟩) (by simp [he])
  · rw [hs]
    refine ⟨fun p' e => ?_, nofun⟩
    cases e
    obtain ⟨hc, hf⟩ := List.mem_filter.1 hp
    obtain ⟨hlp, hph⟩ := startCandidates_window hw hc
    refine ⟨hlp, hph, freeAt_iff.1 hf, fun q hlq hqh hq => ?_⟩
    obtain ⟨x, hx, hfx, hxq⟩ := candidate_asGood (target := target) hlq hqh (freeAt_iff.2 hq)
    exact (hall x (List.mem_filter.2 ⟨hx, hfx⟩)).trans hxq

end Sys2Proof.Machine
end

section
/-! The reservations of the calendar and the sending side of the converter (R77 to R79, R201): how a test finds its reservation in the
list, how a request is sent, and what the events of a reservation leave. -/
namespace Sys2Proof.Machine

/-! ### The states of a reservation -/

@[simp] theorem Reservation.isPlaced_iff {r : Reservation} : r.isPlaced = true ↔ r.state = .placed := decide_eq_true_iff

@[simp] theorem Reservation.isWaiting_iff {r : Reservation} : r.isWaiting = true ↔ r.state = .waiting := decide_eq_true_iff

@[simp] theorem Reservation.isConverting_iff {r : Reservation} : r.isConverting = true ↔ r.state = .converting :=
  decide_eq_true_iff

@[simp] theorem Reservation.late_iff {now : Instant} {r : Reservation} :
    r.late now = true ↔ r.state = .waiting ∧ reached r.latest now = true := by
  simp [Reservation.late]

/-- A WAITING reservation whose latest instant is to come is not late. -/
theorem Reservation.not_late {now : Instant} {r : Reservation} (h : r.state = .waiting → reached r.latest now = false) :
    ¬r.late now = true := by
  rw [Reservation.late_iff]
  exact fun ⟨hw, hl⟩ => Bool.false_ne_true ((h hw).symm.trans hl)

/-! ### The first reservation that a test selects -/

section First

variable {test : Reservation → Bool} {before after_ : List Reservation} {r : Reservation}

theorem find?_split (hb : ∀ q ∈ before, ¬test q = true) (hr : test r = true) :
    (before ++ r :: after_).find? test = some r := by
  rw [List.find?_append, List.find?_eq_none.2 hb, List.find?_cons_of_pos hr, Option.none_or]

theorem changeFirst_split (f : Reservation → Reservation) (hb : ∀ q ∈ before, ¬test q = true) (hr : test r = true) :
    changeFirst test f (before ++ r :: after_) = before ++ f r :: after_ := by
  induction before with
  | nil => exact if_pos hr
  | cons q rest ih =>
    rw [List.forall_mem_cons] at hb
    exact (if_neg hb.1).trans (congrArg _ (ih hb.2))

theorem removeFirst_split (hb : ∀ q ∈ before, ¬test q = true) (hr : test r = true) :
    removeFirst test (before ++ r :: after_) = before ++ after_ := by
  induction before with
  | nil => exact if_pos hr
  | cons q rest ih =>
    rw [List.forall_mem_cons] at hb
    exact (if_neg hb.1).trans (congrArg _ (ih hb.2))

/-- What holds of a reservation and of all the others of a list holds of the list. -/
theorem forall_mem_split {P : Reservation → Prop} (h : ∀ q ∈ before ++ after_, P q) (hr : P r) :
    ∀ q ∈ before ++ r :: after_, P q := by
  simp only [List.forall_mem_append, List.forall_mem_cons] at h ⊢
  exact ⟨h.1, hr, h.2⟩

end First

/-! ### The converter and its request (R77, R79) -/

/-- No reservation of the calendar is CONVERTING. -/
theorem State.converting_none {s : State} : s.converting = none ↔ ∀ q ∈ s.calendar.reservations, q.state ≠ .converting := by
  simp [State.converting]

/-- A request may be sent at a READY converter with no reservation CONVERTING. -/
theorem State.converterFree_iff {s : State} :
    s.converterFree = true ↔ s.converter.state = .ready ∧ ∀ q ∈ s.calendar.reservations, q.state ≠ .converting := by
  simp [State.converterFree, State.converting_none]

/-- A request is sent for the reservation `r`, which stands behind `before`: it is CONVERTING with the request tag, the tag advances, and
the timer is armed (R77, R79, R201). -/
def State.sent (s : State) (before : List Reservation) (r : Reservation) (after_ : List Reservation) : State :=
  { s with
    calendar := { s.calendar with
      reservations := before ++ { r with state := .converting, tag := some s.converter.requestTag } :: after_ }
    converter := { s.converter with
      requestTag := s.converter.requestTag + 1
      resultTimer := some (after s.timebase (2 * s.device.tConv))
      requestSent := some (BitVec.ofNat 8 (r.input.toNat * 16 + s.converter.requestTag.toNat * 2)) } }

/-- The calendar's list replaced, at the instant of a command. -/
theorem State.atInstant_setReservations (s : State) (t : Instant) (l : List Reservation) :
    (s.atInstant t).setReservations l = { s.atInstant t with calendar := { s.calendar with reservations := l } } := by
  rw [State.setReservations, State.atInstant_calendar]

/-- A request sent, at the instant of a command. -/
theorem State.atInstant_sent (s : State) (t : Instant) (before : List Reservation) (r : Reservation) (after_ : List Reservation) :
    (s.atInstant t).sent before r after_ =
      { s.atInstant t with
        calendar := { s.calendar with
          reservations := before ++ { r with state := .converting, tag := some s.converter.requestTag } :: after_ }
        converter := { s.converter with
          requestTag := s.converter.requestTag + 1
          resultTimer := some (after (s.atInstant t).timebase (2 * s.device.tConv))
          requestSent := some (BitVec.ofNat 8 (r.input.toNat * 16 + s.converter.requestTag.toNat * 2)) } } := by
  simp only [State.sent, State.atInstant_calendar, State.atInstant_converter, State.atInstant_device]

/-- An entry of a reservation goes to the frames of its motor (R73, R81). -/
theorem State.resolve_eq (s : State) (r : Reservation) (res : Resolution) :
    s.resolve r res =
      s.setMotor r.motor { s.motor r.motor with
        frames := (s.motor r.motor).frames.storeEntry r.sequence r.position res } := rfl

/-- A reservation that has left the list with its entry MISSED, at the instant of a command. -/
theorem State.atInstant_missed (s : State) (t : Instant) (l : List Reservation) (r : Reservation) :
    ((s.atInstant t).setReservations l).resolve r missed =
      ({ s.atInstant t with calendar := { s.calendar with reservations := l } } : State).setMotor r.motor
        { s.motor r.motor with
          frames := (s.motor r.motor).frames.storeEntry r.sequence r.position { status := .missed, value := 0 } } := by
  rw [State.resolve_eq, State.setReservations_motor, State.atInstant_motor, State.atInstant_setReservations]
  rfl

section Listed

variable {s : State} {before after_ : List Reservation} {r : Reservation} {test : Reservation → Bool}

/-- The converter is busy where one of the other reservations is CONVERTING. -/
theorem State.converterFree_busy (hl : s.calendar.reservations = before ++ r :: after_)
    (h : ∃ q ∈ before ++ after_, q.state = .converting) : s.converterFree = false := by
  obtain ⟨q, hq, hc⟩ := h
  rw [Bool.eq_false_iff, Ne, State.converterFree_iff]
  refine fun hf => hf.2 q ?_ hc
  rw [hl]
  simp only [List.mem_append, List.mem_cons] at hq ⊢
  exact hq.imp_right .inr

/-- The first reservation that a test selects is sent. -/
theorem State.sendFirst_split (hl : s.calendar.reservations = before ++ r :: after_) (hb : ∀ q ∈ before, ¬test q = true)
    (hr : test r = true) : s.sendFirst test = s.sent before r after_ := by
  rw [State.sendFirst, hl, find?_split hb hr]
  dsimp only
  rw [changeFirst_split _ hb hr]
  rfl

/-! ### The start instant, the free converter and the latest instant (R77, R78) -/

/-- With none PLACED, a start instant changes nothing. -/
theorem State.reservationStarts_none (h : ∀ q ∈ s.calendar.reservations, q.state ≠ .placed) : s.reservationStarts = s := by
  rw [State.reservationStarts, List.find?_eq_none.2 fun q hq => mt Reservation.isPlaced_iff.1 (h q hq)]

/-- The start instant of the first PLACED reservation: what R77 does with it. -/
theorem State.reservationStarts_split (hl : s.calendar.reservations = before ++ r :: after_)
    (hb : ∀ q ∈ before, q.state ≠ .placed) (hr : r.state = .placed) :
    s.reservationStarts =
      if reached r.start s.timebase then
        if s.converterFree then s.sent before r after_
        else if r.start = r.latest then (s.setReservations (before ++ after_)).resolve r missed
        else s.setReservations (before ++ { r with state := .waiting } :: after_)
      else s := by
  have hb' : ∀ q ∈ before, ¬q.isPlaced = true := fun q hq => mt Reservation.isPlaced_iff.1 (hb q hq)
  have hr' := Reservation.isPlaced_iff.2 hr
  rw [State.reservationStarts, State.sendFirst_split hl hb' hr', hl, find?_split hb' hr']
  dsimp only
  rw [removeFirst_split hb' hr', changeFirst_split _ hb' hr']

/-- With none WAITING, a free converter changes nothing. -/
theorem State.startWaiting_none (h : ∀ q ∈ s.calendar.reservations, q.state ≠ .waiting) : s.startWaiting = s := by
  rw [State.startWaiting, State.sendFirst, List.find?_eq_none.2 fun q hq => mt Reservation.isWaiting_iff.1 (h q hq)]
  exact ite_self s

/-- The first WAITING reservation is sent at an idle, READY converter (R78). -/
theorem State.startWaiting_split (hl : s.calendar.reservations = before ++ r :: after_)
    (hb : ∀ q ∈ before, q.state ≠ .waiting) (hr : r.state = .waiting) (hc : s.converter.state = .ready)
    (hi : ∀ q ∈ s.calendar.reservations, q.state ≠ .converting) : s.startWaiting = s.sent before r after_ := by
  rw [State.startWaiting, if_pos (State.converterFree_iff.2 ⟨hc, hi⟩)]
  exact State.sendFirst_split hl (fun q hq => mt Reservation.isWaiting_iff.1 (hb q hq)) (Reservation.isWaiting_iff.2 hr)

/-- With no WAITING reservation late, a latest instant changes nothing. -/
theorem State.latestArrives_none
    (h : ∀ q ∈ s.calendar.reservations, q.state = .waiting → reached q.latest s.timebase = false) : s.latestArrives = s := by
  rw [State.latestArrives, List.find?_eq_none.2 fun q hq => Reservation.not_late (h q hq)]

/-- The first WAITING reservation whose latest instant has come is missed (R78). -/
theorem State.latestArrives_split (hl : s.calendar.reservations = before ++ r :: after_)
    (hb : ∀ q ∈ before, q.state = .waiting → reached q.latest s.timebase = false) (hr : r.state = .waiting)
    (hd : reached r.latest s.timebase = true) :
    s.latestArrives = (s.setReservations (before ++ after_)).resolve r missed := by
  have hb' : ∀ q ∈ before, ¬q.late s.timebase = true := fun q hq => Reservation.not_late (hb q hq)
  have hr' := Reservation.late_iff.2 ⟨hr, hd⟩
  rw [State.latestArrives, hl, find?_split hb' hr']
  dsimp only
  rw [removeFirst_split hb' hr']

end Listed

/-! ### The commands -/

section Commands

variable {s : State} {t : Instant}

theorem exec_reservationStart (hs : s.inReset = false) :
    exec (.reservationStart t) s = .next (s.atInstant t).reservationStarts := State.act_next hs

theorem exec_waitingReservationStart (hs : s.inReset = false) :
    exec (.waitingReservationStart t) s = .next (s.atInstant t).startWaiting := State.act_next hs

theorem exec_latestInstant (hs : s.inReset = false) :
    exec (.latestInstant t) s = .next (s.atInstant t).latestArrives := State.act_next hs

end Commands

/-- Settles O46, event by event: each reads its reservation off the list where it stands. -/
theorem reservationsStartWaitOrMiss : Obligations.ReservationsStartWaitOrMiss := by
  unfold Obligations.ReservationsStartWaitOrMiss
  refine ⟨?start, fun s t hs => ?idle, ?listed⟩
  case start =>
    intro s t before after_ r hs s0 now listed hl hb hr
    rw [← State.atInstant_calendar s t] at hl
    rw [exec_reservationStart hs, State.reservationStarts_split hl hb hr]
    refine ⟨fun hd hc hi => ?_, fun hd hc hne => ?_, fun hd hc he => ?_, fun hd => ?_⟩
    · have hfree : s0.converterFree = true := by
        rw [State.converterFree_iff, State.atInstant_converter, hl]
        exact ⟨hc, forall_mem_split hi (by simp [hr])⟩
      rw [if_pos hd, if_pos hfree, State.atInstant_sent]
    · rw [if_pos hd, State.converterFree_busy hl hc, if_neg Bool.false_ne_true, if_neg hne, State.atInstant_setReservations]
    · rw [if_pos hd, State.converterFree_busy hl hc, if_neg Bool.false_ne_true, if_pos he, State.atInstant_missed]
    · rw [if_neg (by rw [hd]; exact Bool.false_ne_true)]
  case idle =>
    rw [exec_reservationStart hs, exec_waitingReservationStart hs, exec_latestInstant hs, ← State.atInstant_calendar s t,
      ← State.atInstant_converter s t]
    refine ⟨fun h => ?_, fun h => ?_, fun h => ?_, fun h => ?_⟩
    · rw [State.reservationStarts_none h]
    · rw [State.startWaiting_none h]
    · have hbusy : (s.atInstant t).converterFree ≠ true := by
        rw [Ne, State.converterFree_iff]
        rintro ⟨hready, hidle⟩
        rcases h with hlost | ⟨q, hq, hconv⟩
        · exact absurd (hlost.symm.trans hready) (by decide)
        · exact hidle q hq hconv
      rw [State.startWaiting, if_neg hbusy]
    · rw [State.latestArrives_none h]
  case listed =>
    intro s t before after_ r hs s0 now listed hl
    rw [← State.atInstant_calendar s t] at hl
    refine ⟨fun hb hr hc hi => ?_, fun hb hr hd => ?_⟩
    · rw [exec_waitingReservationStart hs, State.startWaiting_split hl hb hr (by rwa [State.atInstant_converter]) ?_,
        State.atInstant_sent]
      rw [hl]
      exact forall_mem_split hi (by simp [hr])
    · rw [exec_latestInstant hs, State.latestArrives_split hl hb hr hd, State.atInstant_missed]

end Sys2Proof.Machine
end

section
/-! Results of the converter (R78 to R82, R84, R201): what a result record does with the CONVERTING reservation, and with the first of
those that wait. -/
namespace Sys2Proof.Machine

/-! ### The converter freed (R78, R81, R82) -/

/-- The CONVERTING reservation has left the list `l`, with the failure count given and the timer disarmed (R81, R82). -/
def State.freed (s : State) (l : List Reservation) (failures : Nat) : State :=
  { s with
    calendar := { s.calendar with reservations := l }
    converter := { s.converter with failures := failures, resultTimer := none } }

@[simp] theorem State.freed_reservations (s : State) (l : List Reservation) (failures : Nat) :
    (s.freed l failures).calendar.reservations = l := rfl

@[simp] theorem State.freed_converterState (s : State) (l : List Reservation) (failures : Nat) :
    (s.freed l failures).converter.state = s.converter.state := rfl

@[simp] theorem State.freed_motor (s : State) (l : List Reservation) (failures : Nat) (m : Motor) :
    (s.freed l failures).motor m = s.motor m := by
  cases m <;> rfl

@[simp] theorem State.freed_inputRecord (s : State) (l : List Reservation) (failures : Nat) (i : InputNumber) :
    (s.freed l failures).inputRecord i = s.inputRecord i := rfl

@[simp] theorem State.freedAndStarted_motor (s : State) (first : List Reservation) (w : Reservation) (rest : List Reservation)
    (failures : Nat) (m : Motor) : (s.freedAndStarted first w rest failures).motor m = s.motor m := by
  cases m <;> rfl

@[simp] theorem State.freedAndStarted_inputRecord (s : State) (first : List Reservation) (w : Reservation)
    (rest : List Reservation) (failures : Nat) (i : InputNumber) :
    (s.freedAndStarted first w rest failures).inputRecord i = s.inputRecord i := rfl

@[simp] theorem State.atInstant_inputRecord (s : State) (t : Instant) (i : InputNumber) :
    (s.atInstant t).inputRecord i = s.inputRecord i := by
  simp only [State.inputRecord, State.atInstant_inputs]

/-- The converter freed, at the instant of a command. -/
theorem State.atInstant_freed (s : State) (t : Instant) (l : List Reservation) (failures : Nat) :
    (s.atInstant t).freed l failures =
      { s.atInstant t with
        calendar := { s.calendar with reservations := l }
        converter := { s.converter with failures := failures, resultTimer := none } } := by
  simp only [State.freed, State.atInstant_calendar, State.atInstant_converter]

/-- Replaces the Fault Log. -/
def State.withLog (s : State) (l : FaultLog) : State := { s with log := l }

@[simp] theorem State.withLog_calendar (s : State) (l : FaultLog) : (s.withLog l).calendar = s.calendar := rfl

@[simp] theorem State.withLog_converter (s : State) (l : FaultLog) : (s.withLog l).converter = s.converter := rfl

/-- A motor's blocks after its conversion has failed: the entry of the reservation is FAILED, unless it is orphaned (R82). -/
def MotorUnit.conversionFailed (r : Reservation) (u : MotorUnit) : MotorUnit :=
  if r.orphaned then u
  else { u with frames := u.frames.storeEntry r.sequence r.position { status := .failed, value := 0 } }

/-- The entry of a failed conversion (R82, R83). -/
theorem State.resolve_failed (s : State) (r : Reservation) :
    (if r.orphaned then s else s.resolve r failed) = s.setMotor r.motor ((s.motor r.motor).conversionFailed r) := by
  unfold MotorUnit.conversionFailed
  split
  · rw [State.setMotor_motor]
  · rfl

/-- A request is sent whatever the log holds. -/
theorem State.sent_withLog (s : State) (l : FaultLog) (before : List Reservation) (r : Reservation)
    (after_ : List Reservation) : (s.withLog l).sent before r after_ = (s.sent before r after_).withLog l := rfl

/-- A request is sent whatever a motor holds. -/
theorem State.sent_setMotor (s : State) (m : Motor) (u : MotorUnit) (before : List Reservation) (r : Reservation)
    (after_ : List Reservation) : (s.setMotor m u).sent before r after_ = (s.sent before r after_).setMotor m u := by
  cases m <;> rfl

section Freed

variable {s : State} {first rest l : List Reservation} {w : Reservation}

/-- With the list's reservations PLACED a free converter stays idle. -/
theorem State.startWaiting_placed (hl : s.calendar.reservations = l) (h : ∀ q ∈ l, q.state = .placed) : s.startWaiting = s :=
  State.startWaiting_none fun q hq => by simp [h q (hl ▸ hq)]

/-- Of reservations that are PLACED, one that is WAITING, and others not CONVERTING, none is CONVERTING. -/
theorem none_converting (hf : ∀ q ∈ first, q.state = .placed) (hw : w.state = .waiting)
    (hr : ∀ q ∈ rest, q.state ≠ .converting) : ∀ q ∈ first ++ w :: rest, q.state ≠ .converting :=
  forall_mem_split (List.forall_mem_append.2 ⟨fun q hq => by simp [hf q hq], hr⟩) (by simp [hw])

/-- Behind reservations that are PLACED the first WAITING one is sent at a READY converter that has just been freed (R78). -/
theorem State.startWaiting_freed (hl : s.calendar.reservations = first ++ w :: rest) (hc : s.converter.state = .ready)
    (hf : ∀ q ∈ first, q.state = .placed) (hw : w.state = .waiting) (hr : ∀ q ∈ rest, q.state ≠ .converting) :
    s.startWaiting = s.sent first w rest := by
  refine State.startWaiting_split hl (fun q hq => by simp [hf q hq]) hw hc ?_
  rw [hl]
  exact none_converting hf hw hr

end Freed

/-! ### A result record (R80 to R82) -/

section Result

variable {s : State} {before after_ : List Reservation} {r : Reservation} {input : InputNumber} {tag : ConverterTag}
  {v : BitVec 12}

/-- The CONVERTING reservation of a list where the others are not. -/
theorem State.converting_split (hl : s.calendar.reservations = before ++ r :: after_) (hr : r.state = .converting)
    (ho : ∀ q ∈ before ++ after_, q.state ≠ .converting) : s.converting = some r := by
  rw [State.converting, hl]
  exact find?_split (fun q hq => mt Reservation.isConverting_iff.1 (ho q (List.mem_append_left _ hq)))
    (Reservation.isConverting_iff.2 hr)

/-- The CONVERTING reservation leaves the list. -/
theorem State.dropConverting_split (hl : s.calendar.reservations = before ++ r :: after_) (hr : r.state = .converting)
    (ho : ∀ q ∈ before ++ after_, q.state ≠ .converting) : s.dropConverting = s.setReservations (before ++ after_) := by
  rw [State.dropConverting, hl]
  exact congrArg _ (removeFirst_split (fun q hq => mt Reservation.isConverting_iff.1 (ho q (List.mem_append_left _ hq)))
    (Reservation.isConverting_iff.2 hr))

/-- A result that no reservation awaits is discarded (R80, R84). -/
theorem State.takeResult_discarded (h : s.converter.state = .lost ∨ ∀ r, s.converting = some r → r.tag ≠ some tag) :
    s.takeResult input tag v = s := by
  unfold State.takeResult
  split
  · rfl
  · rename_i hready
    split
    · rfl
    · rename_i r hr
      exact if_neg (h.resolve_left hready r hr)

/-- An accepted result frees the converter, starts the first reservation that waits, and is taken with its value, unless it is orphaned
(R81). -/
theorem State.takeResult_accepted (hl : s.calendar.reservations = before ++ r :: after_) (hr : r.state = .converting)
    (ho : ∀ q ∈ before ++ after_, q.state ≠ .converting) (hc : s.converter.state = .ready) (ht : r.tag = some tag)
    (hi : r.input = input) :
    s.takeResult input tag v =
      if r.orphaned then (s.freed (before ++ after_) 0).startWaiting
      else (s.freed (before ++ after_) 0).startWaiting.takeValue r v := by
  have hd : ({ s with converter := { s.converter with failures := 0, resultTimer := none } } : State).dropConverting
      = s.freed (before ++ after_) 0 := State.dropConverting_split hl hr ho
  rw [State.takeResult, if_neg (by simp [hc]), State.converting_split hl hr ho]
  dsimp only
  rw [if_pos ht, if_pos hi, State.acceptResult]
  dsimp only
  rw [hd]

/-- A value that raises no limit trip leaves its input's record and its entry (R81, R98); `s` is the state before the event, which has
changed no input and no motor so far. -/
theorem State.takeValue_untripped {x : State} (hm : ∀ m, x.motor m = s.motor m)
    (hrecord : ∀ i, x.inputRecord i = s.inputRecord i) (h : ((s.inputRecord r.input).check v).trips = false) :
    x.takeValue r v =
      (x.setInput r.input ((s.inputRecord r.input).check v).record).setMotor r.motor
        { s.motor r.motor with
          frames := (s.motor r.motor).frames.storeEntry r.sequence r.position
            { status := ((s.inputRecord r.input).check v).status, value := v } } := by
  simp only [State.takeValue, hrecord, h, Bool.false_eq_true, if_false]
  rw [State.resolve_eq, State.setInput_motor, hm]

/-- A failure below the third counts, frees the converter, resolves its entry FAILED, unless it is orphaned, and starts the first
reservation that waits (R78, R82). -/
theorem State.failConversion_below (kind : InfoName) (hl : s.calendar.reservations = before ++ r :: after_)
    (hr : r.state = .converting) (ho : ∀ q ∈ before ++ after_, q.state ≠ .converting) (hf : s.converter.failures < 2) :
    s.failConversion r kind =
      ((s.freed (before ++ after_) (s.converter.failures + 1)).setMotor r.motor
        ((s.motor r.motor).conversionFailed r)).startWaiting := by
  have hd : ({ s with converter := { s.converter with failures := s.converter.failures + 1, resultTimer := none } } :
      State).dropConverting = s.freed (before ++ after_) (s.converter.failures + 1) := State.dropConverting_split hl hr ho
  have hcount : ¬failureLimit ≤ s.converter.failures + 1 := by
    unfold failureLimit
    omega
  rw [State.failConversion]
  dsimp only
  rw [hd, State.resolve_failed, State.freed_motor, State.setMotor_converter]
  exact if_neg hcount

/-- A mismatch is logged, and is a failed conversion (R82). -/
theorem State.takeResult_mismatch (hl : s.calendar.reservations = before ++ r :: after_) (hr : r.state = .converting)
    (ho : ∀ q ∈ before ++ after_, q.state ≠ .converting) (hc : s.converter.state = .ready) (ht : r.tag = some tag)
    (hi : r.input ≠ input) (hf : s.converter.failures < 2) :
    s.takeResult input tag v =
      (((s.freed (before ++ after_) (s.converter.failures + 1)).setMotor r.motor
        ((s.motor r.motor).conversionFailed r)).withLog
          (s.log.add ⟨.converterMismatch, .motor r.motor, BitVec.ofNat 16 (r.input.toNat * 256 + input.toNat),
            (s.motor r.motor).channel.periodCount⟩)).startWaiting := by
  rw [State.takeResult, if_neg (by simp [hc]), State.converting_split hl hr ho]
  dsimp only
  rw [if_pos ht, if_neg hi, State.failConversion_below (s := s.logMotor _ _ _) _ hl hr ho hf,
    State.logMotor_motor]
  exact congrArg _ (by cases r.motor <;> rfl)

end Result

/-- RESULT_RECORD, at its instant: the record is read from its bits (R80, R201). -/
theorem exec_resultRecord {s : State} (input : InputNumber) (tag : ConverterTag) (v : BitVec 12) (t : Instant)
    (hs : s.inReset = false) : exec (.resultRecord input tag v t) s = .next ((s.atInstant t).takeResult input tag v) :=
  (State.act_next hs).trans (congrArg _ (State.readResult_resultBits input tag v _))

/-- Settles O48: a record is accepted, mismatched or discarded, and what waits then starts or stands. -/
theorem resultsMeetTheConvertingReservation : Obligations.ResultsMeetTheConvertingReservation := by
  unfold Obligations.ResultsMeetTheConvertingReservation
  refine ⟨?placed, ?waiting, ?bits⟩
  case placed =>
    intro s input tag v t before after_ r hs s0 u freed stored hl hr hp
    have ho : ∀ q ∈ before ++ after_, q.state ≠ .converting := fun q hq => by simp [hp q hq]
    rw [← State.atInstant_calendar s t] at hl
    rw [exec_resultRecord _ _ _ _ hs, ← State.atInstant_converter s t]
    refine ⟨fun hc ht hi horphan => ?_, fun hc ht hi horphan hv => ?_, fun hc ht hi hf => ?_⟩
    · rw [State.takeResult_accepted hl hr ho hc ht hi, if_pos horphan, State.startWaiting_placed rfl hp, State.atInstant_freed]
    · subst hi
      rw [State.takeResult_accepted hl hr ho hc ht rfl, horphan, if_neg Bool.false_ne_true, State.startWaiting_placed rfl hp,
        State.takeValue_untripped (s := s) (by simp) (by simp) hv, State.atInstant_freed]
    · rw [State.takeResult_mismatch hl hr ho hc ht hi hf, State.startWaiting_placed ?_ hp, State.atInstant_freed,
        State.atInstant_motor, State.atInstant_log]
      · rfl
      · simp
  case waiting =>
    intro s input tag v t hs s0
    rw [exec_resultRecord _ _ _ _ hs, ← State.atInstant_calendar s t, ← State.atInstant_converter s t]
    refine ⟨fun hn => ?_, fun before after_ r hl hr ho h => ?_, ?_⟩
    · rw [State.takeResult_discarded (.inr fun r hr => ?_)]
      rw [State.converting_none.2 hn] at hr
      cases hr
    · rw [State.takeResult_discarded (h.imp_right fun ht q hq => ?_)]
      rw [State.converting_split hl hr ho] at hq
      cases hq
      exact ht
    · intro before after_ first rest r w hl hr hsplit hf hw hrest hc ht u verdict stored
      have ho : ∀ q ∈ before ++ after_, q.state ≠ .converting := by
        rw [hsplit]
        exact none_converting hf hw hrest
      have hstart : (s0.freed (before ++ after_) 0).startWaiting = s0.freedAndStarted first w rest 0 :=
        State.startWaiting_freed hsplit hc hf hw hrest
      refine ⟨fun hi horphan => ?_, fun hi horphan hv => ?_, fun hi hn => ?_⟩
      · rw [State.takeResult_accepted hl hr ho hc ht hi, if_pos horphan, hstart]
      · subst hi
        rw [State.takeResult_accepted hl hr ho hc ht rfl, horphan, if_neg Bool.false_ne_true, hstart,
          State.takeValue_untripped (s := s) (by simp [s0]) (by simp [s0]) hv]
      · rw [State.takeResult_mismatch hl hr ho hc ht hi hn,
          State.startWaiting_freed (by simpa using hsplit) (by simpa using hc) hf hw hrest, State.sent_withLog,
          State.sent_setMotor, State.atInstant_motor, State.atInstant_log]
        rfl
  case bits =>
    intro s bits t hs
    refine ⟨fun h => ?_, fun h => ?_⟩
    · rw [exec_resultRecord _ _ _ _ hs, State.readResult, if_pos h]
    · rw [State.readResult, h, if_neg Bool.false_ne_true]

end Sys2Proof.Machine
end

section
/-! The ring counters at every step, and the consumed word (R115, R127, R132, R133, R195, R196). -/
namespace Sys2Proof.Machine

/-! ### Every step (R132) -/

/-- The ring counters stay sound where the link's part, the flight and the motors' blocks stand. -/
theorem State.ringsSound_congr {s t : State} (hl : t.linkPart = s.linkPart) (hf : t.arbiter.flight = s.arbiter.flight)
    (hm : ∀ m, (t.motor m).ringSound ↔ (s.motor m).ringSound)
    (hh : ∀ m n, ((t.motor m).frames.half n).state = ((s.motor m).frames.half n).state) (h : s.ringsSound) :
    t.ringsSound := by
  obtain ⟨hlink, hmotors, hflight⟩ := h
  refine ⟨State.linkSound_congr hl hlink, fun m => (hm m).2 (hmotors m), fun f e k => ?_⟩
  rw [hh]
  exact hflight f (hf ▸ e) k

/-- No flush in flight and every motor at its power-on values: the ring counters are sound (R136). -/
theorem State.ringsSound_powerOn {s : State} (hl : s.linkSound) (hf : s.arbiter.flight = none)
    (hm : ∀ m, ∃ fault code, s.motor m = MotorUnit.reset fault code) : s.ringsSound := by
  refine ⟨hl, fun m => ?_, fun f e => ?_⟩
  · obtain ⟨fault, code, e⟩ := hm m
    rw [e]
    exact MotorUnit.reset_ringSound fault code
  · rw [hf] at e
    cases e

/-- A capture leaves the frames and the settings, so the rings stay sound. -/
theorem MotorUnit.onSlot_ringSound (u : MotorUnit) (n : SlotName) (f : PlanSlot → PlanSlot) :
    (u.onSlot n f).ringSound ↔ u.ringSound := by
  simp only [MotorUnit.ringSound, MotorUnit.onSlot_settings, MotorUnit.onSlot_frames]

/-- Settles O9, by the rule for a step: each operation keeps the rings, and the reset pin sets them up. -/
theorem everyStepKeepsRingCounters : Obligations.EveryStepKeepsRingCounters := by
  unfold Obligations.EveryStepKeepsRingCounters
  intro s s' hs h
  refine step_keeps (P := State.ringsSound) ?time ?assert ?release (fun o hs => o.ringsSound hs) ?capture h hs
  case time => exact fun s t p q k => State.ringsSound_congr rfl rfl (fun m => by cases m <;> rfl) fun m n => by cases m <;> rfl
  case assert =>
    intro s _
    refine State.ringsSound_powerOn ?_ rfl fun m => by cases m <;> exact ⟨_, _, rfl⟩
    simp [State.linkSound, State.assertReset, State.powerOn, State.reset, Arbiter.reset, MemoryPort.reset, Upstream.reset]
  case release =>
    intro s p _
    refine State.ringsSound_powerOn ?_ rfl fun m => by cases m <;> exact ⟨_, _, rfl⟩
    simp [State.linkSound, State.powerOn, State.reset, Arbiter.reset, MemoryPort.reset, Upstream.reset]
  case capture =>
    intro s m n start data _
    refine State.ringsSound_congr (by simp [State.linkPart]) (by simp) (fun k => ?_) fun k j => ?_
    · rw [State.motor_onMotor]
      split
      · exact MotorUnit.onSlot_ringSound _ n _
      · exact Iff.rfl
    · rw [State.motor_onMotor]
      split
      · rw [MotorUnit.onSlot_frames]
      · rfl

/-! ### CONSUMED_WRITE (R133) -/

/-- A value may be consumed where it is not beyond produced (R133). -/
theorem FrameAssembler.mayConsume_iff (a : FrameAssembler) (v : Word) :
    a.mayConsume v = true ↔ (v - a.consumed).toNat ≤ (a.produced - a.consumed).toNat := by
  simp only [FrameAssembler.mayConsume, decide_eq_true_eq]

/-- The consumed value itself may always be written (R133). -/
theorem FrameAssembler.mayConsume_self (a : FrameAssembler) : a.mayConsume a.consumed = true := by
  simp [FrameAssembler.mayConsume]

/-- A motor whose consumed count has just become `v` (R133, R195, R196): the ring-high state and the stale timer follow the
new fill. -/
theorem MotorUnit.consumed_countersChanged (u : MotorUnit) (now : Instant) (v : Word) :
    (u.onFrames fun a => { a with consumed := v }).countersChanged now =
      { u with
        frames := { u.frames with consumed := v }
        attention := { u.attention with
          ringHigh :=
            if u.settings.ringHigh ≤ (u.frames.produced - v).toNat then true
            else if (u.frames.produced - v).toNat ≤ u.settings.ringLow then false else u.attention.ringHigh
          staleTimer :=
            if 0 < (u.frames.produced - v).toNat ∧ (u.frames.produced - v).toNat < u.settings.ringHigh then
              some (now + BitVec.ofNat 32 (1024 * u.settings.staleTimeout))
            else none } } := by
  simp only [MotorUnit.countersChanged, MotorUnit.staleRange_iff]
  rfl

section Consumed

variable {s : State} {m : Motor} {v : Word}

/-- A value within produced that is another than consumed becomes consumed (R133). -/
theorem State.writeConsumed_taken (h : (s.motor m).frames.mayConsume v = true) (hv : v ≠ (s.motor m).frames.consumed) :
    s.writeConsumed m v =
      s.setMotor m (((s.motor m).onFrames fun a => { a with consumed := v }).countersChanged s.timebase) := by
  rw [State.writeConsumed, if_pos h, if_neg hv, State.onMotor_onMotor]
  rfl

/-- The value already there changes nothing (R133). -/
theorem State.writeConsumed_same : s.writeConsumed m (s.motor m).frames.consumed = s := by
  rw [State.writeConsumed, if_pos (FrameAssembler.mayConsume_self _), if_pos rfl]

/-- A value beyond produced is refused (R133). -/
theorem State.writeConsumed_refused (h : (s.motor m).frames.mayConsume v = false) :
    s.writeConsumed m v = s.logMotor m .consumeRefused (v.extractLsb' 0 16) := by
  rw [State.writeConsumed, h, if_neg Bool.false_ne_true]

end Consumed

/-- CONSUMED_WRITE, as a command outside reset. -/
theorem exec_consumedWrite (m : Motor) (v : Word) (t : Instant) {s : State} (hs : s.inReset = false) :
    exec (.consumedWrite m v t) s = .next ((s.atInstant t).writeConsumed m v) := State.act_next hs

/-- Settles O21, by what the value is to consumed and produced. -/
theorem consumedWriteGivesBackSlots : Obligations.ConsumedWriteGivesBackSlots := by
  unfold Obligations.ConsumedWriteGivesBackSlots
  intro s m v t hs
  dsimp only
  rw [exec_consumedWrite m v t hs]
  refine ⟨fun h hv => ?taken, fun hv => ?same, fun h => ?refused⟩
  case taken =>
    have h' := ((s.motor m).frames.mayConsume_iff v).2 h
    rw [State.writeConsumed_taken (by simpa using h') (by simpa using hv), MotorUnit.consumed_countersChanged,
      State.atInstant_motor]
  case same =>
    rw [hv, ← State.atInstant_motor s t m, State.writeConsumed_same]
  case refused =>
    have h' : (s.motor m).frames.mayConsume v = false := by
      rw [Bool.eq_false_iff, Ne, FrameAssembler.mayConsume_iff]
      omega
    rw [State.writeConsumed_refused (by simpa using h'), State.atInstant_logMotor]

end Sys2Proof.Machine
end

section
/-! The ring words of a motor block (R130, R177): with both halves FREE they replace their setting and clear the ring counters. -/
namespace Sys2Proof.Machine

/-! ### The motor guard and the halves (R7, R130, R176) -/

/-- Both halves are FREE (R130). -/
theorem FrameAssembler.bothFree_iff (a : FrameAssembler) :
    a.bothFree = true ↔ a.half0.state = .free ∧ a.half1.state = .free := by
  simp only [FrameAssembler.bothFree, Bool.and_eq_true, decide_eq_true_eq]

/-- A word of a STOPPED motor passes the motor guard (R176). -/
theorem MotorUnit.settingAllowed_stopped {u : MotorUnit} (w : MotorWord) (h : u.channel.state = .stopped) :
    u.settingAllowed w = true := by
  simp [MotorUnit.settingAllowed, h]

/-- The three words that give a motor's ring (R130). -/
def MotorWord.isRing (w : MotorWord) : Prop := w = .ringBase ∨ w = .ringStride ∨ w = .ringDepth

/-- A ring word holds settings. -/
theorem State.takeMotorWord_ring (s : State) (m : Motor) {w : MotorWord} (off : Nat) (v : Word) (h : w.isRing) :
    s.takeMotorWord m w off v = s.takeMotorSetting m w off v := by
  rcases h with rfl | rfl | rfl <;> rfl

/-- A ring word is no command. -/
theorem MotorWord.isRing.ne_command {w : MotorWord} (h : w.isRing) : w ≠ .command := by
  rcases h with rfl | rfl | rfl <;> nofun

/-- An accepted ring word clears the ring counters, and the fill is evaluated (R130). -/
theorem MotorUnit.afterSetting_ring (now : Instant) {w : MotorWord} (u : MotorUnit) (h : w.isRing) :
    u.afterSetting now w = u.zeroCounters.countersChanged now := by
  rcases h with rfl | rfl | rfl <;> rfl

/-- The fill of cleared counters is 0, below a ring-high level in range: the ring-high state is clear and the stale timer stopped
(R195, R196). -/
theorem MotorUnit.zeroCounters_countersChanged (u : MotorUnit) (now : Instant) (h : 0 < u.settings.ringHigh) :
    u.zeroCounters.countersChanged now =
      { u with
        frames := { u.frames with assigned := 0, produced := 0, consumed := 0 }
        attention := { u.attention with ringHigh := false, staleTimer := none } } := by
  have hfill : u.zeroCounters.frames.fill = 0 := by simp [MotorUnit.zeroCounters, MotorUnit.onFrames, FrameAssembler.fill]
  have hhigh : u.zeroCounters.ringHighAfter = false := by
    rw [MotorUnit.ringHighAfter, hfill]
    exact (if_neg (Nat.not_le.2 h)).trans (if_pos (Nat.zero_le _))
  have hstale : u.zeroCounters.staleRange = false := by
    rw [MotorUnit.staleRange, hfill]
    rfl
  rw [MotorUnit.countersChanged, hhigh, hstale]
  rfl

/-! ### The ring words as commands (R173, R176) -/

section RingWords

variable {s : State} {m : Motor} {w : Nat} {v : Word} {t : Instant}

/-- A ring word of a STOPPED motor is taken by its new settings. -/
theorem exec_ringWord (hs : s.inReset = false) (hst : (s.motor m).channel.state = .stopped) (hw : w < 256) (h4 : w % 4 = 0)
    (hr : (motorWordAt w).isRing) :
    exec (.settingWordWrite (BitVec.ofNat 12 (256 * (m.number + 1) + w)) v t) s =
      .next (match (s.motor m).newSettings (motorWordAt w) v with
        | some st => (s.atInstant t).setMotor m
            (((s.motor m).setSettings st).zeroCounters.countersChanged (s.atInstant t).timebase)
        | none => (s.atInstant t).logMotor m .settingRefused (BitVec.ofNat 16 (256 * (m.number + 1) + w))) := by
  rw [exec_motorWord s m w v t hs hw h4 fun hc => absurd hc hr.ne_command, State.takeMotorWord_ring _ _ _ _ hr,
    State.takeMotorSetting, State.atInstant_motor, if_pos (MotorUnit.settingAllowed_stopped _ hst)]
  cases (s.motor m).newSettings (motorWordAt w) v with
  | none => rfl
  | some st => simp only [State.onMotor, State.atInstant_motor, MotorUnit.afterSetting_ring _ _ hr]

/-- An accepted ring word replaces its setting and clears the counters, with the fill's two causes (R130, R195, R196). -/
theorem exec_ringWord_taken {st : MotorSettings} (hs : s.inReset = false) (hst : (s.motor m).channel.state = .stopped)
    (hw : w < 256) (h4 : w % 4 = 0) (hr : (motorWordAt w).isRing)
    (hn : (s.motor m).newSettings (motorWordAt w) v = some st) (hh : 0 < st.ringHigh) :
    exec (.settingWordWrite (BitVec.ofNat 12 (256 * (m.number + 1) + w)) v t) s =
      .next ((s.atInstant t).setMotor m
        { s.motor m with
          settings := st
          frames := { (s.motor m).frames with assigned := 0, produced := 0, consumed := 0 }
          attention := { (s.motor m).attention with ringHigh := false, staleTimer := none } }) := by
  rw [exec_ringWord hs hst hw h4 hr, hn]
  exact congrArg (fun u => Host.Outcome.next ((s.atInstant t).setMotor m u))
    (((s.motor m).setSettings st).zeroCounters_countersChanged _ hh)

/-- A ring word without new settings is refused (R130, R176). -/
theorem exec_ringWord_refused (hs : s.inReset = false) (hst : (s.motor m).channel.state = .stopped)
    (hw : w < 256) (h4 : w % 4 = 0) (hr : (motorWordAt w).isRing)
    (hn : (s.motor m).newSettings (motorWordAt w) v = none) :
    exec (.settingWordWrite (BitVec.ofNat 12 (256 * (m.number + 1) + w)) v t) s =
      .next { s.atInstant t with
        log := s.log.add ⟨.settingRefused, .motor m, BitVec.ofNat 16 (256 * (m.number + 1) + w),
          (s.motor m).channel.periodCount⟩ } := by
  rw [exec_ringWord hs hst hw h4 hr, hn]
  exact congrArg _ (s.atInstant_logMotor t m _ _)

end RingWords

/-- Settles O24, word by word: each has new settings exactly with both halves FREE and in its range. -/
theorem ringWordsNeedFreeHalvesAndClearCounters : Obligations.RingWordsNeedFreeHalvesAndClearCounters := by
  unfold Obligations.RingWordsNeedFreeHalvesAndClearCounters
  intro s m v t hs hrange hst
  have hhigh : 0 < (s.motor m).settings.ringHigh := by
    obtain ⟨_, _, _, _, _, _, _, _, hlow, _⟩ := hrange.1 m
    omega
  dsimp only
  simp only [← FrameAssembler.bothFree_iff]
  refine ⟨fun hf h1 h2 => ?base, fun hf h => ?stride, fun hf h1 h2 h3 => ?depth, fun h => ?noBase, fun h => ?noStride,
    fun h => ?noDepth⟩
  case base => exact exec_ringWord_taken hs hst (by decide) rfl (.inl rfl) (if_pos ⟨h1, h2, hf⟩) hhigh
  case stride => exact exec_ringWord_taken hs hst (by decide) rfl (.inr (.inl rfl)) (if_pos ⟨h, hf⟩) hhigh
  case depth => exact exec_ringWord_taken hs hst (by decide) rfl (.inr (.inr rfl)) (if_pos ⟨h1, h2, h3, hf⟩) hhigh
  case noBase =>
    refine exec_ringWord_refused hs hst (by decide) rfl (.inl rfl) (if_neg ?_)
    rintro ⟨h1, h2, hf⟩
    exact h.elim (· hf) (by omega)
  case noStride =>
    refine exec_ringWord_refused hs hst (by decide) rfl (.inr (.inl rfl)) (if_neg ?_)
    rintro ⟨hin, hf⟩
    exact h.elim (· hf) (· hin)
  case noDepth =>
    refine exec_ringWord_refused hs hst (by decide) rfl (.inr (.inr rfl)) (if_neg ?_)
    rintro ⟨h1, h2, h3, hf⟩
    exact h.elim (· hf) (by omega)

end Sys2Proof.Machine
end

section
/-! Entries reach their positions (R122, R123, R126, R127): what the arrival of an entry makes of a half, field by field. -/
namespace Sys2Proof.Machine

/-! ### A half, field by field -/

/-- The settling of a CLOSING half changes its state alone (R123). -/
theorem Half.settleClosing_eq (h : Half) :
    h.settleClosing = { h with state := if h.state = .closing ∧ h.allResolved = true then .closed else h.state } := by
  unfold Half.settleClosing
  split <;> rfl

/-- The examination for a request changes the request alone (R126, R127). -/
theorem Half.raiseRequest_eq (h : Half) : h.raiseRequest = { h with request := h.raiseRequest.request } := by
  unfold Half.raiseRequest
  (repeat' split) <;> rfl

/-- The request that a half presents after its examination (R126, R127). -/
theorem Half.raiseRequest_request {h : Half} (hs : h.state ≠ .free) :
    h.raiseRequest.request =
      if h.burst = true then h.request
      else if h.state = .closed then .finalFlush
      else if h.request = .none ∧ 8 ≤ h.run.length then .partialRun else h.request := by
  unfold Half.raiseRequest
  by_cases hb : h.burst = true
  · rw [if_pos hb, if_pos hb]
  · rw [if_neg hb, if_neg hb]
    cases hk : h.state with
    | free => exact absurd hk hs
    | closed => rfl
    | opened | closing =>
      exact (apply_ite Half.request _ _ _).trans (if_neg (by nofun)).symm

/-- An unresolved position takes its entry (R122). -/
theorem positions_resolve {l : List PositionRecord} {k : Nat} {p : PositionRecord} (r : Resolution) (hk : l[k]? = some p)
    (hp : p.resolution = none) : l.modify k (PositionRecord.resolve r) = l.set k { p with resolution := some r } := by
  have hr : p.resolve r = { p with resolution := some r } := by
    simp [PositionRecord.resolve, PositionRecord.resolved, hp]
  obtain ⟨hlt, _⟩ := List.getElem?_eq_some_iff.1 hk
  refine List.ext_getElem? fun i => ?_
  rw [List.getElem?_modify, List.getElem?_set, ← hr]
  by_cases hi : k = i
  · subst hi
    rw [if_pos rfl, if_pos hlt, hk]
    exact congrArg some (if_pos rfl)
  · rw [if_neg hi]
    cases l[i]? with
    | none => rfl
    | some q => exact congrArg some (if_neg hi)

/-- A half whose position has its entry, before the state and the request follow (R122). -/
def Half.takeEntry (k : Nat) (r : Resolution) (h : Half) : Half :=
  { h with positions := h.positions.modify k (PositionRecord.resolve r) }

section Resolve

variable {h : Half} {k : Nat} {r : Resolution}

/-- The stages of an entry: the position, the state, the request (R122, R123, R126, R127). -/
theorem Half.resolvePosition_stages : h.resolvePosition k r = (h.takeEntry k r).settleClosing.raiseRequest := rfl

/-- The state and the request alone follow the entry. -/
theorem Half.resolvePosition_eq :
    h.resolvePosition k r =
      { h.takeEntry k r with
        state := (h.resolvePosition k r).state
        request := (h.resolvePosition k r).request } := by
  rw [Half.resolvePosition_stages, Half.raiseRequest_eq, Half.settleClosing_eq]

theorem Half.resolvePosition_positions :
    (h.resolvePosition k r).positions = h.positions.modify k (PositionRecord.resolve r) := by
  rw [Half.resolvePosition_eq]
  rfl

theorem Half.resolvePosition_flushed : (h.resolvePosition k r).flushed = h.flushed := by
  rw [Half.resolvePosition_eq]
  rfl

theorem Half.resolvePosition_burst : (h.resolvePosition k r).burst = h.burst := by
  rw [Half.resolvePosition_eq]
  rfl

theorem Half.resolvePosition_allResolved : (h.resolvePosition k r).allResolved = (h.takeEntry k r).allResolved := by
  rw [Half.resolvePosition_eq]
  rfl

theorem Half.resolvePosition_run : (h.resolvePosition k r).run = (h.takeEntry k r).run := by
  rw [Half.resolvePosition_eq]
  rfl

/-- A CLOSING half is CLOSED once the entry leaves no position unresolved (R123). -/
theorem Half.resolvePosition_state :
    (h.resolvePosition k r).state =
      if h.state = .closing ∧ (h.resolvePosition k r).allResolved = true then .closed else h.state := by
  rw [Half.resolvePosition_allResolved, Half.resolvePosition_stages, Half.raiseRequest_state, Half.settleClosing_eq]
  rfl

/-- The request after an entry is the one that the positions and the state then call for (R126, R127). -/
theorem Half.resolvePosition_request (hs : h.state ≠ .free) :
    (h.resolvePosition k r).request =
      if h.burst = true then h.request
      else if (h.resolvePosition k r).state = .closed then .finalFlush
      else if h.request = .none ∧ 8 ≤ (h.resolvePosition k r).run.length then .partialRun else h.request := by
  have hheld : (h.takeEntry k r).settleClosing.state ≠ .free := by
    rw [Half.settleClosing_eq]
    dsimp only
    split
    · nofun
    · exact hs
  rw [Half.resolvePosition_run, Half.resolvePosition_stages, Half.raiseRequest_state, Half.raiseRequest_request hheld,
    Half.settleClosing_eq]
  rfl

end Resolve

/-! ### The half that holds a frame (R122) -/

/-- The half found holds the frame of the sequence. -/
theorem FrameAssembler.halfOf_holds {a : FrameAssembler} {seq : Short} {n : HalfName} (h : a.halfOf seq = some n) :
    (a.half n).sequence = seq ∧ (a.half n).state ≠ .free := by
  unfold FrameAssembler.halfOf at h
  split at h
  next h0 => cases h; exact h0.symm
  next =>
    split at h
    next h1 => cases h; exact h1.symm
    next => cases h

/-- An entry with a position goes to the half that holds its frame. -/
theorem FrameAssembler.storeEntry_held {a : FrameAssembler} {seq : Short} {n : HalfName} (k : Nat) (r : Resolution)
    (h : a.halfOf seq = some n) : a.storeEntry seq (some k) r = a.setHalf n ((a.half n).resolvePosition k r) := by
  simp only [FrameAssembler.storeEntry, h]
  rfl

/-- An entry whose frame no half holds goes nowhere. -/
theorem FrameAssembler.storeEntry_absent {a : FrameAssembler} {seq : Short} (k : Nat) (r : Resolution)
    (h : a.halfOf seq = none) : a.storeEntry seq (some k) r = a := by
  simp only [FrameAssembler.storeEntry, h]

/-- Settles O50, by the stages of an entry: its half, its position, the state and the request. -/
theorem entriesResolveTheirPositions : Obligations.EntriesResolveTheirPositions := by
  unfold Obligations.EntriesResolveTheirPositions
  intro a seq k res n p
  refine ⟨rfl, FrameAssembler.storeEntry_absent k res, fun hn hk hp => ?_⟩
  obtain ⟨hseq, hheld⟩ := FrameAssembler.halfOf_holds hn
  rw [FrameAssembler.storeEntry_held k res hn, FrameAssembler.half_setHalf_self, ← positions_resolve res hk hp]
  exact ⟨hseq, hheld, rfl, Half.resolvePosition_positions, Half.resolvePosition_flushed, Half.resolvePosition_burst,
    Half.resolvePosition_state, Half.resolvePosition_request hheld⟩

end Sys2Proof.Machine
end

section
/-! Bursts (R125, R128, R199, 11.2): the fields of the stamp and entry words, and the bytes that a burst carries. -/
namespace Sys2Proof

/-- A motor's number takes two bits (11.2). -/
theorem Motor.number_lt (m : Motor) : m.number < 3 := by
  cases m <;> decide

end Sys2Proof

namespace Sys2Proof.Machine

/-! ### Fields of a word given by its number -/

/-- A bit of a word given by its number. -/
theorem ofNat_getLsbD {x i : Nat} (hi : i < 32) : (BitVec.ofNat 32 x).getLsbD i = (x / 2 ^ i % 2 == 1) := by
  rw [BitVec.getLsbD_ofNat, decide_eq_true hi, Bool.true_and, Nat.testBit_eq_decide_div_mod_eq]
  rfl

/-- A field of a word given by its number, as a number. -/
theorem ofNat_field {x : Nat} (hx : x < 2 ^ 32) (lo len : Nat) :
    ((BitVec.ofNat 32 x).extractLsb' lo len).toNat = x / 2 ^ lo % 2 ^ len := by
  rw [BitVec.extractLsb'_toNat, BitVec.toNat_ofNat, Nat.mod_eq_of_lt hx, Nat.shiftRight_eq_div_pow]

/-- A field of a word given by its number is clear where its number is 0. -/
theorem ofNat_field_clear {x : Nat} (hx : x < 2 ^ 32) {lo len : Nat} (h : x / 2 ^ lo % 2 ^ len = 0) :
    (BitVec.ofNat 32 x).extractLsb' lo len = 0 :=
  BitVec.eq_of_toNat_eq (by rw [ofNat_field hx, h]; exact BitVec.toNat_zero.symm)

/-- A status's number takes two bits (11.2). -/
theorem EntryStatus.number_lt (e : EntryStatus) : e.number < 4 := by
  cases e <;> decide

/-! ### Stamps (R125, 11.2) -/

/-- The number of a stamp's first word, by its sequence, its tag, its motor and its flags from bit 26 up. -/
def Half.stampNumber (m : Motor) (h : Half) (flags : Nat) : Nat :=
  h.sequence.toNat + 65536 * h.tag.toNat + 2 ^ 24 * m.number + 2 ^ 26 * flags

/-- The flags of a closing stamp, from bit 26 up: the mark, STOPPED, TRIPPED, SWITCHED, FULL and bit 31 (11.2). -/
def Half.closingFlags (h : Half) : Nat :=
  1 + 2 * (decide (h.closeFlag = .stopped)).toNat + 4 * (decide (h.closeFlag = .tripped)).toNat
    + 8 * (decide (h.closeFlag = .switched)).toNat + 16 * h.full.toNat + 32

/-- A flag of a word, as its bit's number. -/
theorem flagBit_eq (b : Bool) (i : Nat) : flagBit b i = 2 ^ i * b.toNat := by
  cases b <;> simp [flagBit]

/-- An opening stamp's flags are bit 31 alone. -/
theorem Half.openingWord_eq (m : Motor) (h : Half) : h.openingWord m = BitVec.ofNat 32 (h.stampNumber m 32) := by
  have hflags : flagBit true 31 = 2 ^ 26 * 32 := rfl
  rw [Half.openingWord, hflags, Half.stampNumber]

/-- A closing stamp's flags tell how the frame closed. -/
theorem Half.closingWord_eq (m : Motor) (h : Half) : h.closingWord m = BitVec.ofNat 32 (h.stampNumber m h.closingFlags) := by
  refine congrArg (BitVec.ofNat 32) ?_
  simp only [Half.stampNumber, Half.closingFlags, flagBit_eq, Bool.toNat_true]
  omega

theorem Half.closingFlags_lt (h : Half) : h.closingFlags < 64 := by
  have := Bool.toNat_lt (decide (h.closeFlag = .stopped))
  have := Bool.toNat_lt (decide (h.closeFlag = .tripped))
  have := Bool.toNat_lt (decide (h.closeFlag = .switched))
  have := Bool.toNat_lt h.full
  unfold Half.closingFlags
  omega

section Stamp

variable (m : Motor) (h : Half) {flags : Nat}

theorem Half.stampNumber_lt (hf : flags < 64) : h.stampNumber m flags < 2 ^ 32 := by
  have := m.number_lt
  have := h.sequence.isLt
  have := h.tag.isLt
  unfold Half.stampNumber
  omega

/-- A stamp's low half is the sequence. -/
theorem Half.stamp_sequence (hf : flags < 64) : (BitVec.ofNat 32 (h.stampNumber m flags)).extractLsb' 0 16 = h.sequence := by
  have := h.sequence.isLt
  refine BitVec.eq_of_toNat_eq ?_
  rw [ofNat_field (h.stampNumber_lt m hf), Half.stampNumber]
  omega

/-- A stamp's tag stands in bits 16 to 23. -/
theorem Half.stamp_tag (hf : flags < 64) : (BitVec.ofNat 32 (h.stampNumber m flags)).extractLsb' 16 8 = h.tag := by
  have := h.sequence.isLt
  have := h.tag.isLt
  refine BitVec.eq_of_toNat_eq ?_
  rw [ofNat_field (h.stampNumber_lt m hf), Half.stampNumber]
  omega

/-- A stamp's motor stands in bits 24 and 25. -/
theorem Half.stamp_motor (hf : flags < 64) :
    ((BitVec.ofNat 32 (h.stampNumber m flags)).extractLsb' 24 2).toNat = m.number := by
  have := m.number_lt
  have := h.sequence.isLt
  have := h.tag.isLt
  rw [ofNat_field (h.stampNumber_lt m hf), Half.stampNumber]
  omega

/-- The bits from 26 up of a stamp are its flags. -/
theorem Half.stampNumber_flags : h.stampNumber m flags / 2 ^ 26 = flags := by
  have := m.number_lt
  have := h.sequence.isLt
  have := h.tag.isLt
  unfold Half.stampNumber
  omega

/-- A flag of a stamp. -/
theorem Half.stamp_flag {i : Nat} (hi : i < 6) :
    (BitVec.ofNat 32 (h.stampNumber m flags)).getLsbD (26 + i) = (flags / 2 ^ i % 2 == 1) := by
  rw [ofNat_getLsbD (by omega), Nat.pow_add, ← Nat.div_div_eq_div_mul, Half.stampNumber_flags]

end Stamp

/-- Bits 27 to 30 of an opening stamp are clear (R125). -/
theorem Half.openingWord_clear (m : Motor) (h : Half) : (h.openingWord m).extractLsb' 27 4 = 0 := by
  have hflags : h.stampNumber m 32 / 2 ^ 26 = 32 := h.stampNumber_flags m
  rw [h.openingWord_eq m]
  exact ofNat_field_clear (h.stampNumber_lt m (by decide)) (by omega)

/-- The flags of a closing stamp, bit by bit (R125, 11.2). -/
theorem Half.closingWord_flags (m : Motor) (h : Half) :
    (h.closingWord m).getLsbD 26 = true
      ∧ (h.closingWord m).getLsbD 27 = decide (h.closeFlag = .stopped)
      ∧ (h.closingWord m).getLsbD 28 = decide (h.closeFlag = .tripped)
      ∧ (h.closingWord m).getLsbD 29 = decide (h.closeFlag = .switched)
      ∧ (h.closingWord m).getLsbD 30 = h.full
      ∧ (h.closingWord m).getLsbD 31 = true := by
  have flag (i : Nat) (hi : i < 6) : (h.closingWord m).getLsbD (26 + i) = (h.closingFlags / 2 ^ i % 2 == 1) := by
    rw [h.closingWord_eq m]
    exact h.stamp_flag m hi
  rw [flag 0 (by decide), flag 1 (by decide), flag 2 (by decide), flag 3 (by decide), flag 4 (by decide), flag 5 (by decide),
    Half.closingFlags]
  generalize decide (h.closeFlag = .stopped) = a, decide (h.closeFlag = .tripped) = b,
    decide (h.closeFlag = .switched) = c, h.full = d
  revert a b c d
  decide

/-! ### Entries (R199, 11.2) -/

/-- The number of an entry's word, by its fields. -/
def PositionRecord.entryNumber (p : PositionRecord) (r : Resolution) : Nat :=
  r.value.toNat + 2 ^ 12 * p.input.toNat + 2 ^ 16 * r.status.number + 2 ^ 18 * p.purpose.toNat
    + 2 ^ 22 * (p.stepIndex % 8) + 2 ^ 25 * p.slid.toNat + 2 ^ 26 * (p.period % 8)

theorem PositionRecord.entryWord_eq (p : PositionRecord) (r : Resolution) :
    p.entryWord r = BitVec.ofNat 32 (p.entryNumber r) := by
  simp only [PositionRecord.entryWord, PositionRecord.entryNumber, flagBit_eq]

/-- An entry's number leaves bits 29 to 31 of its word clear. -/
theorem PositionRecord.entryNumber_lt (p : PositionRecord) (r : Resolution) : p.entryNumber r < 2 ^ 29 := by
  have := r.value.isLt
  have := p.input.isLt
  have := r.status.number_lt
  have := p.purpose.isLt
  have := Bool.toNat_lt p.slid
  unfold PositionRecord.entryNumber
  omega

section Entry

variable (p : PositionRecord) (r : Resolution)

/-- A field of an entry's word, as a number. -/
theorem PositionRecord.entryWord_field (lo len : Nat) :
    ((p.entryWord r).extractLsb' lo len).toNat = p.entryNumber r / 2 ^ lo % 2 ^ len := by
  have := p.entryNumber_lt r
  rw [p.entryWord_eq r, ofNat_field (by omega)]

/-- Each field of an entry stands at its place in the word. -/
theorem PositionRecord.entryWord_fields :
    (p.entryWord r).extractLsb' 0 12 = r.value ∧ (p.entryWord r).extractLsb' 12 4 = p.input
      ∧ ((p.entryWord r).extractLsb' 16 2).toNat = r.status.number ∧ (p.entryWord r).extractLsb' 18 4 = p.purpose
      ∧ ((p.entryWord r).extractLsb' 22 3).toNat = p.stepIndex % 8
      ∧ ((p.entryWord r).extractLsb' 26 3).toNat = p.period % 8 ∧ (p.entryWord r).extractLsb' 29 3 = 0 := by
  have := r.value.isLt
  have := p.input.isLt
  have := r.status.number_lt
  have := p.purpose.isLt
  have := Bool.toNat_lt p.slid
  refine ⟨BitVec.eq_of_toNat_eq ?_, BitVec.eq_of_toNat_eq ?_, ?_, BitVec.eq_of_toNat_eq ?_, ?_, ?_, ?clear⟩
  case clear =>
    have := p.entryNumber_lt r
    rw [p.entryWord_eq r]
    exact ofNat_field_clear (by omega) (by omega)
  all_goals
    rw [PositionRecord.entryWord_field, PositionRecord.entryNumber]
    omega

/-- Bit 25 of an entry is its slid flag. -/
theorem PositionRecord.entryWord_slid : (p.entryWord r).getLsbD 25 = p.slid := by
  have := r.value.isLt
  have := p.input.isLt
  have := r.status.number_lt
  have := p.purpose.isLt
  have hbit : p.entryNumber r / 2 ^ 25 % 2 = p.slid.toNat := by
    have := Bool.toNat_lt p.slid
    unfold PositionRecord.entryNumber
    omega
  rw [p.entryWord_eq r, ofNat_getLsbD (by decide), hbit]
  cases p.slid <;> rfl

end Entry

/-! ### Bytes of a burst (R125, R128) -/

/-- A resolved position has four bytes. -/
theorem PositionRecord.entryBytes_length {p : PositionRecord} (h : p.resolved = true) : p.entryBytes.length = 4 := by
  obtain ⟨r, hr⟩ := Option.isSome_iff_exists.1 h
  rw [PositionRecord.entryBytes, hr]
  rfl

/-- Resolved positions have four bytes each. -/
theorem entries_length {l : List PositionRecord} (h : ∀ p ∈ l, p.resolved = true) :
    (l.flatMap PositionRecord.entryBytes).length = 4 * l.length := by
  induction l with
  | nil => rfl
  | cons p rest ih =>
    obtain ⟨hp, hrest⟩ := List.forall_mem_cons.1 h
    rw [List.flatMap_cons, List.length_append, PositionRecord.entryBytes_length hp, ih hrest, List.length_cons]
    omega

section Burst

variable {m : Motor} {h : Half}

/-- A FINAL burst: the opening stamp where it is still to be written, the entries from the flushed point, the closing stamp. -/
theorem Half.burstContent_final (hr : h.request = .finalFlush) :
    h.burstContent m =
      (if h.stampWritten then [] else h.openingStamp m)
        ++ (h.positions.drop h.flushed).flatMap PositionRecord.entryBytes ++ h.closingStamp m := by
  rw [Half.burstContent, Half.burstEntries, hr, if_pos rfl]

/-- A PARTIAL burst: the opening stamp where it is still to be written, and the run. -/
theorem Half.burstContent_partial (hr : h.request = .partialRun) :
    h.burstContent m =
      (if h.stampWritten then [] else h.openingStamp m) ++ h.run.flatMap PositionRecord.entryBytes := by
  rw [Half.burstContent, Half.burstEntries, hr]
  exact List.append_nil _

/-- The final burst of a frame not yet begun has the frame's whole length. -/
theorem Half.burstContent_whole (hr : h.request = .finalFlush) (hw : h.stampWritten = false) (hf : h.flushed = 0)
    (ha : h.allResolved = true) : (h.burstContent m).length = 16 + 4 * h.positions.length := by
  have hstamps : (h.openingStamp m).length = 8 ∧ (h.closingStamp m).length = 8 := ⟨rfl, rfl⟩
  rw [Half.burstContent_final hr, hw, hf, if_neg Bool.false_ne_true, List.drop_zero, List.length_append, List.length_append,
    entries_length (List.all_eq_true.1 ha), hstamps.1, hstamps.2]
  omega

end Burst

/-- Settles O52, by the content of a burst, the fields of the stamps and the fields of an entry. -/
theorem burstsCarryStampsAndEntries : Obligations.BurstsCarryStampsAndEntries := by
  unfold Obligations.BurstsCarryStampsAndEntries
  refine ⟨fun u m h => ?stamps, fun p r => ?entries⟩
  case stamps =>
    obtain ⟨hmark, hstopped, htripped, hswitched, hfull, htop⟩ := h.closingWord_flags m
    have ho := h.openingWord_eq m
    have hc := h.closingWord_eq m
    have hlt : 32 < 64 := by decide
    refine ⟨Half.burstContent_final, Half.burstContent_partial, Half.burstContent_whole, rfl, rfl, rfl, rfl,
      ho ▸ h.stamp_tag m hlt, h.openingWord_clear m, ho ▸ h.stamp_motor m hlt, hc ▸ h.stamp_motor m h.closingFlags_lt,
      ?_, ?_, ?_, hfull, ho ▸ h.stamp_flag m (i := 5) (by decide), ho ▸ h.stamp_flag m (i := 0) (by decide), htop, hmark,
      ho ▸ h.stamp_sequence m hlt, hc ▸ h.stamp_sequence m h.closingFlags_lt, hc ▸ h.stamp_tag m h.closingFlags_lt,
      BitVec.toNat_ofNat _ _⟩
    · rw [hstopped, decide_eq_true_eq]
    · rw [htripped, decide_eq_true_eq]
    · rw [hswitched, decide_eq_true_eq]
  case entries =>
    obtain ⟨hvalue, hinput, hstatus, hpurpose, hstep, hperiod, hclear⟩ := p.entryWord_fields r
    refine ⟨fun hr => ?_, hvalue, hinput, hstatus, hpurpose, hstep, p.entryWord_slid r, hperiod, hclear⟩
    rw [PositionRecord.entryBytes, hr]
    rfl

end Sys2Proof.Machine
end

section
/-! The start of a flush (R128, R146, R147): which half's request a motor presents, and what the start does to the state. -/
namespace Sys2Proof.Machine

/-! ### The half that presents (R128) -/

/-- A half is older by the sign of the wrapping difference of the sequences (R128). -/
theorem Half.olderThan_iff (h k : Half) : h.olderThan k = true ↔ (h.sequence - k.sequence).toInt < 0 := by
  rw [Half.olderThan, BitVec.msb_eq_toInt, decide_eq_true_eq]

section Presented

variable {a : FrameAssembler}

theorem FrameAssembler.presented_neither (h0 : a.half0.request = .none) (h1 : a.half1.request = .none) : a.presented = none := by
  rw [FrameAssembler.presented, decide_eq_true h0, decide_eq_true h1]

theorem FrameAssembler.presented_half0 (h0 : a.half0.request ≠ .none) (h1 : a.half1.request = .none) :
    a.presented = some .half0 := by
  rw [FrameAssembler.presented, decide_eq_false h0, decide_eq_true h1]

theorem FrameAssembler.presented_half1 (h0 : a.half0.request = .none) (h1 : a.half1.request ≠ .none) :
    a.presented = some .half1 := by
  rw [FrameAssembler.presented, decide_eq_true h0, decide_eq_false h1]

/-- Of two requests the motor presents that of the half with the older frame. -/
theorem FrameAssembler.presented_older (h0 : a.half0.request ≠ .none) (h1 : a.half1.request ≠ .none) :
    a.presented = some (if (a.half1.sequence - a.half0.sequence).toInt < 0 then .half1 else .half0) := by
  rw [FrameAssembler.presented, decide_eq_false h0, decide_eq_false h1]
  simp only [Half.olderThan_iff]
  exact (apply_ite some _ _ _).symm

end Presented

/-! ### The start (R146, R147) -/

/-- The arbiter's choice does not depend on the instant. -/
@[simp] theorem State.atInstant_candidate (s : State) (t : Instant) : (s.atInstant t).candidate = s.candidate := by
  have hpresents : (s.atInstant t).presents = s.presents := by
    funext m
    rw [State.presents, State.presents, State.atInstant_motor]
  have hpressing : (s.atInstant t).pressing = s.pressing := by
    funext m
    rw [State.pressing, State.pressing, State.atInstant_motor, hpresents]
  rw [State.candidate, State.candidate, State.atInstant_arbiter, State.atInstant_port, hpresents, hpressing]

/-- The flush that the arbiter chooses starts. -/
theorem State.chooseFlush_starts {s : State} {m : Motor} {n : HalfName} (hc : s.candidate = some m)
    (hp : (s.motor m).frames.presented = some n) : s.chooseFlush = s.startFlush m n := by
  simp only [State.chooseFlush, hc, hp]

/-- FLUSH_START, as a command outside reset. -/
theorem exec_flushStart (t : Instant) {s : State} (hs : s.inReset = false) :
    exec (.flushStart t) s = .next (s.atInstant t).chooseFlush := State.act_next hs

/-- The transactions of a flush: a LINK-CLEAR where one is due, and one WRITE (R146 items 3 and 4). -/
theorem Flush.transactions_eq (f : Flush) (clear : Bool) :
    f.transactions clear =
      if clear then [[0x7E], 0x2A :: (addrBytes f.address ++ f.content)] else [0x2A :: (addrBytes f.address ++ f.content)] := by
  cases clear <;> rfl

/-- The start of a flush, as the fields that it changes. -/
theorem State.startFlush_eq (s : State) (m : Motor) (n : HalfName) :
    s.startFlush m n =
      { s.setMotor m
          { s.motor m with
            frames := (s.motor m).frames.setHalf n { (s.motor m).frames.half n with request := .none, burst := true } } with
        arbiter := { s.arbiter with
          state := .flush, pointer := m.following, flight := some ((s.motor m).flushOf m n s.port.repeatSet s.timebase) }
        port := { s.port with
          repeatSet := false,
          issued := ((s.motor m).flushOf m n s.port.repeatSet s.timebase).transactions s.port.repeatSet }
        ram := if s.port.repeatSet then s.ram.clearRepeat else s.ram } := by
  cases m <;> rfl

/-- Settles O54: the flush in flight is the one that the model makes of the half at the instant of its choice. -/
theorem flushStartTakesTheLink : Obligations.FlushStartTakesTheLink := by
  unfold Obligations.FlushStartTakesTheLink
  refine ⟨fun a => ⟨FrameAssembler.presented_neither, FrameAssembler.presented_half0, FrameAssembler.presented_half1,
    FrameAssembler.presented_older⟩, fun s t m n hs hc hp => ?_⟩
  refine ⟨(s.motor m).flushOf m n s.port.repeatSet (s.atInstant t).timebase, ?start, rfl, rfl, decide_eq_true_iff, rfl, rfl,
    rfl, rfl, rfl, rfl⟩
  case start =>
    rw [exec_flushStart t hs, State.chooseFlush_starts (by simpa using hc) (by simpa using hp), State.startFlush_eq,
      State.atInstant_motor, State.atInstant_port, State.atInstant_arbiter, State.atInstant_ram, Flush.transactions_eq]
    rfl

end Sys2Proof.Machine
end

section
/-! The asserted reset pin (R104, R171, R197): no command but its release and the changes of the pins' levels does anything. -/
namespace Sys2Proof.Machine

/-- READY is low in reset (R171). -/
theorem State.ready_inReset {s : State} (hs : s.inReset = true) : s.ready = false := by
  simp only [State.ready, hs, Bool.not_true, Bool.false_and]

/-- The attention output is inactive in reset (R197). -/
theorem State.attentionOutput_inReset {s : State} (hs : s.inReset = true) : s.attentionOutput = false := by
  simp only [State.attentionOutput, hs, Bool.not_true, Bool.false_and]

/-- A driver-fault input becomes active in reset: its level alone is followed (R104, log 20). -/
theorem exec_driverFaultActivation_inReset (m : Motor) (t : Instant) {s : State} (hs : s.inReset = true) :
    exec (.driverFaultActivation m t) s = .next (s.onMotor m (MotorUnit.setFault true)) := by
  simp only [exec, execDriverFaultActivation, hs, if_true]

/-- A driver-fault input becomes inactive in reset: its level alone is followed (R104, log 20). -/
theorem exec_driverFaultRelease_inReset (m : Motor) (t : Instant) {s : State} (hs : s.inReset = true) :
    exec (.driverFaultRelease m t) s = .next (s.onMotor m (MotorUnit.setFault false)) := by
  simp only [exec, execDriverFaultRelease, hs, if_true]

/-- The Hall inputs change in reset: their levels alone are followed (log 20). -/
theorem exec_hallCodeChange_inReset (m : Motor) (code : HallCode) (t : Instant) {s : State} (hs : s.inReset = true) :
    exec (.hallCodeChange m code t) s = .next (s.onMotor m (MotorUnit.setHallCode code)) := by
  simp only [exec, execHallCodeChange, hs, if_true]

/-- What a command does outside reset does not matter in reset (R171). -/
theorem State.next_inReset {s s' : State} (hs : s.inReset = true) :
    (.next (if s.inReset then s else s') : Host.Outcome State Fault Refusal) = .next s := by
  rw [if_pos hs]

/-- Every other command is taken through `act`, or through `actStart` where it may give START, and neither acts in reset (R171). -/
theorem exec_inReset_eq {c : Instr} {s : State} (hs : s.inReset = true) (hrelease : ∀ straps, c ≠ .resetRelease straps)
    (hactive : ∀ m t, c ≠ .driverFaultActivation m t) (hinactive : ∀ m t, c ≠ .driverFaultRelease m t)
    (hhall : ∀ m code t, c ≠ .hallCodeChange m code t) : exec c s = .next s := by
  cases c with
  | resetRelease straps => exact absurd rfl (hrelease straps)
  | driverFaultActivation m t => exact absurd rfl (hactive m t)
  | driverFaultRelease m t => exact absurd rfl (hinactive m t)
  | hallCodeChange m code t => exact absurd rfl (hhall m code t)
  | _ => exact State.next_inReset hs

/-- Settles O4, command by command: the pins' levels are followed, and every other command leaves the state. -/
theorem assertedResetTakesNoCommand : Obligations.AssertedResetTakesNoCommand := by
  unfold Obligations.AssertedResetTakesNoCommand
  intro s hs
  exact ⟨State.ready_inReset hs, State.attentionOutput_inReset hs,
    fun _ => exec_inReset_eq hs, fun m t => exec_driverFaultActivation_inReset m t hs,
    fun m t => exec_driverFaultRelease_inReset m t hs, fun m code t => exec_hallCodeChange_inReset m code t hs⟩

end Sys2Proof.Machine
end

section
/-! The staging map (R161, R162, R200): a staging word by its fields, and the walk of MAP_COMMIT over the entries. -/
namespace Sys2Proof.Machine

/-! ### A staging word (R161) -/

/-- Every motor is that of its code (11.3). -/
theorem motorOf_number (m : Motor) : motorOf m.number = some m := by
  cases m <;> rfl

/-- Every row kind is that of its code (11.3). -/
theorem rowKindOf_number (k : RowKind) : rowKindOf k.number = some k := by
  cases k <;> rfl

/-- A staging word with its codes named and its bound in range is the entry of its fields (R161). -/
theorem stagingWordOf_inRange {v : Word} {kd : RowKind} {md : Motor} (hk : v.toNat / 2 ^ 20 % 4 = kd.number)
    (hm : v.toNat / 2 ^ 24 % 4 = md.number) (hb : v.toNat % 2 ^ 17 ≤ 65536) :
    stagingWordOf v = some { bound := v.toNat % 2 ^ 17, kind := kd, motor := md } := by
  have ek : field v 20 2 = kd.number := (field_eq v 20 2).trans hk
  have em : field v 24 2 = md.number := (field_eq v 24 2).trans hm
  rw [stagingWordOf, ek, em, rowKindOf_number, motorOf_number, field_zero]
  exact if_pos hb

/-- A staging word with a field out of range is no entry (R161). -/
theorem stagingWordOf_outOfRange {v : Word}
    (h : 65536 < v.toNat % 2 ^ 17 ∨ v.toNat / 2 ^ 20 % 4 = 3 ∨ v.toNat / 2 ^ 24 % 4 = 3) : stagingWordOf v = none := by
  unfold stagingWordOf
  rcases h with hb | hk | hm
  · have hr : ¬field v 0 17 ≤ 65536 := by
      rw [field_zero]
      exact Nat.not_le.2 hb
    split
    · exact if_neg hr
    · rfl
  · have ek : rowKindOf (field v 20 2) = none := congrArg rowKindOf ((field_eq v 20 2).trans hk)
    rw [ek]
  · have em : motorOf (field v 24 2) = none := congrArg motorOf ((field_eq v 24 2).trans hm)
    rw [em]
    split
    · contradiction
    · rfl

section StagingWord

variable {s : State} {k : Fin 8} {v : Word} {t : Instant}

/-- STAGING_WORD_WRITE, as a command outside reset. -/
theorem exec_stagingWordWrite (hs : s.inReset = false) :
    exec (.stagingWordWrite k v t) s = .next ((s.atInstant t).takeStaging k (0x80 + 4 * k.val) v) := by
  simp only [exec, execStagingWordWrite, State.act_next hs]

/-- STAGING_WORD_WRITE of an entry replaces it whole (R161). -/
theorem exec_stagingWordWrite_taken {e : MapEntry} (hs : s.inReset = false) (he : stagingWordOf v = some e) :
    exec (.stagingWordWrite k v t) s =
      .next { s.atInstant t with window := { s.window with staging := s.window.staging.set k e } } := by
  rw [exec_stagingWordWrite hs, State.takeStaging, he, State.atInstant_window]

/-- STAGING_WORD_WRITE of a word that is no entry is refused with its offset (R161, R176). -/
theorem exec_stagingWordWrite_refused (hs : s.inReset = false) (he : stagingWordOf v = none) :
    exec (.stagingWordWrite k v t) s =
      .next { s.atInstant t with
        log := s.log.add ⟨.settingRefused, .device, BitVec.ofNat 16 (0x80 + 4 * k.val), (s.atInstant t).timebase⟩ } := by
  rw [exec_stagingWordWrite hs, State.takeStaging, he]
  exact congrArg _ (s.atInstant_refuseDeviceWord t _)

end StagingWord

/-! ### The walk over the entries (R162) -/

/-- The bound of the entry before entry `k`; 0 before the first. -/
def MapEntry.boundBefore (entries : Fin 8 → MapEntry) : Nat → Nat
  | 0 => 0
  | k + 1 => if h : k < 8 then (entries ⟨k, h⟩).bound else 0

/-- The entries before entry `k` that are windows are those with the kinds and motors of `seen`. -/
def MapEntry.seenBefore (entries : Fin 8 → MapEntry) (k : Nat) (seen : List (RowKind × Motor)) : Prop :=
  ∀ kd md, (kd, md) ∈ seen ↔
    ∃ j : Fin 8, j.val < k ∧ (entries j).bound ≠ boundBefore entries j ∧ (entries j).kind = kd ∧ (entries j).motor = md

section Walk

variable {entries : Fin 8 → MapEntry}

/-- The bound of an entry is the one before the next. -/
theorem MapEntry.boundBefore_succ (i : Fin 8) : boundBefore entries (i.val + 1) = (entries i).bound := dif_pos i.isLt

/-- The checks of an entry, by the bound before it (R162). -/
theorem MapEntry.passes_iff (i : Fin 8) :
    MapEntry.passes entries i ↔
      boundBefore entries i ≤ (entries i).bound
        ∧ ((entries i).bound ≠ boundBefore entries i → (entries i).kind = .plan → (entries i).bound = boundBefore entries i + 2)
        ∧ ((entries i).bound ≠ boundBefore entries i → (entries i).kind ≠ .pass →
            ∀ j < i, (entries j).bound ≠ boundBefore entries j → (entries j).kind = (entries i).kind →
              (entries j).motor ≠ (entries i).motor) := by
  have hlow (j : Fin 8) :
      (if h : 0 < j.val then (entries ⟨j.val - 1, by omega⟩).bound else 0) = boundBefore entries j := by
    obtain ⟨j, hj⟩ := j
    cases j with
    | zero => rfl
    | succ j =>
      have hj' : j < 8 := by omega
      rw [dif_pos j.succ_pos, MapEntry.boundBefore, dif_pos hj']
      rfl
  simp only [MapEntry.passes, hlow]

/-- No window has been seen before the first entry. -/
theorem MapEntry.seenBefore_zero : seenBefore entries 0 [] := fun kd md => by
  simp only [List.not_mem_nil, Nat.not_lt_zero, false_and, exists_const]

/-- An entry adds its window to those seen. -/
theorem MapEntry.seenBefore_succ {i : Fin 8} {seen : List (RowKind × Motor)} (h : seenBefore entries i seen) :
    seenBefore entries (i.val + 1) ((entries i).addWindow (boundBefore entries i) seen) := by
  intro kd md
  have hlt (j : Fin 8) : j.val < i.val + 1 ↔ j.val < i.val ∨ j = i := by omega
  simp only [hlt, or_and_right, exists_or, exists_eq_left, ← h kd md, MapEntry.addWindow]
  by_cases hb : (entries i).bound = boundBefore entries i
  · simp only [hb, if_true, ne_eq, not_true_eq_false, false_and, or_false]
  · simp only [hb, if_false, List.mem_cons, Prod.mk.injEq, ne_eq, not_false_eq_true, true_and, eq_comm, or_comm]

/-- What the check of an entry asks of the bound before it and of the windows seen (R162). -/
theorem MapEntry.fails_eq_false_iff (e : MapEntry) (low : Nat) (seen : List (RowKind × Motor)) :
    e.fails low seen = false ↔
      low ≤ e.bound ∧ (e.bound ≠ low → e.kind = .plan → e.bound = low + 2)
        ∧ (e.bound ≠ low → e.kind ≠ .pass → (e.kind, e.motor) ∉ seen) := by
  obtain ⟨bound, kind, motor⟩ := e
  cases kind with
  | pass =>
    simp only [MapEntry.fails, ne_eq, Bool.and_false, Bool.or_false, decide_eq_false_iff_not, Nat.not_lt, reduceCtorEq,
      false_implies, implies_true, not_true_eq_false, and_true]
  | plan =>
    simp only [MapEntry.fails, ne_eq, decide_not, List.contains_eq_mem, Bool.or_eq_false_iff, decide_eq_false_iff_not,
      Nat.not_lt, Bool.and_eq_false_imp, Bool.not_eq_eq_eq_not, Bool.not_true, Bool.not_false, decide_eq_true_eq, imp_and,
      forall_const, reduceCtorEq, not_false_eq_true]
  | result =>
    simp only [MapEntry.fails, ne_eq, decide_not, List.contains_eq_mem, Bool.or_eq_false_iff, decide_eq_false_iff_not,
      Nat.not_lt, Bool.and_eq_false_imp, Bool.not_eq_eq_eq_not, Bool.not_true, reduceCtorEq, false_implies, implies_true,
      not_false_eq_true, forall_const, true_and]

/-- An entry does not fail in the walk exactly where it passes its checks (R162). -/
theorem MapEntry.fails_walk_iff {i : Fin 8} {seen : List (RowKind × Motor)} (h : seenBefore entries i seen) :
    (entries i).fails (boundBefore entries i) seen = false ↔ MapEntry.passes entries i := by
  have hseen : ((entries i).kind, (entries i).motor) ∉ seen ↔
      ∀ j < i, (entries j).bound ≠ boundBefore entries j → (entries j).kind = (entries i).kind →
        (entries j).motor ≠ (entries i).motor := by
    rw [h]
    simp only [not_exists, not_and, ne_eq, Fin.lt_def]
  rw [MapEntry.passes_iff, MapEntry.fails_eq_false_iff, hseen]

end Walk

section Staged

variable {w : Vector MapEntry 8}

/-- The entries of a map from entry `i` on. -/
theorem mapEntries_drop (i : Fin 8) : w.toList.drop i.val = w.get i :: w.toList.drop (i.val + 1) := by
  rw [List.drop_eq_getElem_cons (Nat.lt_of_lt_of_eq i.isLt Vector.length_toList.symm), Vector.getElem_toList]
  rfl

/-- The walk over a map comes to entry `k` where every entry before it passes (R162). -/
theorem failingEntry_reaches {k : Nat} (hk : k ≤ 8) (h : ∀ j : Fin 8, j.val < k → MapEntry.passes w.get j) :
    ∃ seen, MapEntry.seenBefore w.get k seen ∧
      failingEntry 0 0 [] w.toList = failingEntry k (MapEntry.boundBefore w.get k) seen (w.toList.drop k) := by
  induction k with
  | zero => exact ⟨[], MapEntry.seenBefore_zero, rfl⟩
  | succ k ih =>
    obtain ⟨seen, hseen, hwalk⟩ := ih (Nat.le_of_succ_le hk) fun j hj => h j (Nat.lt_succ_of_lt hj)
    have hpass : (w.get ⟨k, hk⟩).fails (MapEntry.boundBefore w.get k) seen = false :=
      (MapEntry.fails_walk_iff (i := ⟨k, hk⟩) hseen).2 (h ⟨k, hk⟩ k.lt_succ_self)
    refine ⟨_, MapEntry.seenBefore_succ (i := ⟨k, hk⟩) hseen, ?_⟩
    rw [hwalk, mapEntries_drop ⟨k, hk⟩, failingEntry, hpass, MapEntry.boundBefore_succ ⟨k, hk⟩]
    rfl

/-- No entry fails where every entry passes (R162). -/
theorem failingEntry_none (h : ∀ i, MapEntry.passes w.get i) : failingEntry 0 0 [] w.toList = none := by
  obtain ⟨seen, -, hwalk⟩ := failingEntry_reaches (Nat.le_refl 8) fun j _ => h j
  rw [hwalk, List.drop_eq_nil_of_le (Nat.le_of_eq Vector.length_toList)]
  rfl

/-- The entry that the walk names is the first that does not pass (R162). -/
theorem failingEntry_first {i : Fin 8} (hbefore : ∀ j < i, MapEntry.passes w.get j) (hi : ¬MapEntry.passes w.get i) :
    failingEntry 0 0 [] w.toList = some i.val := by
  obtain ⟨seen, hseen, hwalk⟩ := failingEntry_reaches (Nat.le_of_lt i.isLt) hbefore
  have hfails : (w.get i).fails (MapEntry.boundBefore w.get i) seen = true :=
    Bool.of_not_eq_false fun hf => hi ((MapEntry.fails_walk_iff hseen).1 hf)
  rw [hwalk, mapEntries_drop i, failingEntry, if_pos hfails]

end Staged

/-! ### MAP_COMMIT (R162) -/

section MapCommit

variable {s : State} {t : Instant}

/-- A refused MAP_COMMIT, at the instant of the command. -/
theorem State.atInstant_logDevice (s : State) (t : Instant) (c : LogCode) (info : Short) :
    (s.atInstant t).logDevice c info =
      { s.atInstant t with log := s.log.add ⟨c, .device, info, (s.atInstant t).timebase⟩ } := by
  simp only [State.logDevice, State.atInstant_log]

/-- MAP_COMMIT, as a command outside reset. -/
theorem exec_mapCommit (hs : s.inReset = false) : exec (.mapCommit t) s = .next (s.atInstant t).mapCommit :=
  State.act_next hs

/-- MAP_COMMIT with every motor STOPPED and no entry that fails: the staging map becomes the active map (R162). -/
theorem State.mapCommit_commits (hm : ∀ m, (s.motor m).channel.state = .stopped)
    (hw : failingEntry 0 0 [] s.window.staging.toList = none) :
    (s.atInstant t).mapCommit = { s.atInstant t with window := { s.window with active := s.window.staging } } := by
  rw [State.mapCommit, State.atInstant_allStopped, if_pos (s.allStopped_iff.2 hm), State.atInstant_window, hw]

/-- MAP_COMMIT with every motor STOPPED names the entry that fails (R162). -/
theorem State.mapCommit_names {i : Nat} (hm : ∀ m, (s.motor m).channel.state = .stopped)
    (hw : failingEntry 0 0 [] s.window.staging.toList = some i) :
    (s.atInstant t).mapCommit =
      { s.atInstant t with log := s.log.add ⟨.mapInvalid, .device, BitVec.ofNat 16 i, (s.atInstant t).timebase⟩ } := by
  rw [State.mapCommit, State.atInstant_allStopped, if_pos (s.allStopped_iff.2 hm), State.atInstant_window, hw]
  exact s.atInstant_logDevice t _ _

/-- MAP_COMMIT with a motor that is not STOPPED (R162). -/
theorem State.mapCommit_notStopped (hm : ∃ m, (s.motor m).channel.state ≠ .stopped) :
    (s.atInstant t).mapCommit =
      { s.atInstant t with log := s.log.add ⟨.mapInvalid, .device, notStoppedInfo, (s.atInstant t).timebase⟩ } := by
  have hguard : ¬s.allStopped = true := by
    obtain ⟨m, hne⟩ := hm
    exact fun hstopped => hne (s.allStopped_iff.1 hstopped m)
  rw [State.mapCommit, State.atInstant_allStopped, if_neg hguard, State.atInstant_logDevice]

end MapCommit

/-- Settles O22, by what the fields of the word name, and by how far the walk over the staging map comes. -/
theorem stagedMapIsCheckedAtMapCommit : Obligations.StagedMapIsCheckedAtMapCommit := by
  unfold Obligations.StagedMapIsCheckedAtMapCommit
  refine ⟨fun s k v t hs => ⟨fun kd md hkind hmotor hbound => ?taken, fun h => ?refused⟩, fun s t hs =>
    ⟨fun hm hpass => ?commits, fun i hm hbefore hfails => ?names, fun hm => ?notStopped⟩⟩
  case taken =>
    have hk : v.toNat / 2 ^ 20 % 4 = kd.number := by
      rcases hkind with ⟨hk, rfl⟩ | ⟨hk, rfl⟩ | ⟨hk, rfl⟩ <;> exact hk
    exact exec_stagingWordWrite_taken hs (stagingWordOf_inRange hk hmotor hbound)
  case refused => exact exec_stagingWordWrite_refused hs (stagingWordOf_outOfRange h)
  case commits => rw [exec_mapCommit hs, State.mapCommit_commits hm (failingEntry_none hpass)]
  case names => rw [exec_mapCommit hs, State.mapCommit_names hm (failingEntry_first hbefore hfails)]
  case notStopped =>
    rw [exec_mapCommit hs, State.mapCommit_notStopped hm]
    rfl

end Sys2Proof.Machine
end

section
/-! The command words, the consumed word and the words that ignore a write (R173, R175, R179, R181): what each gives as a command. -/
namespace Sys2Proof.Machine

/-! ### The command fields (11.3) -/

/-- The command field of a word, by the number it holds. -/
theorem commandField_of_code {v : Word} {code : Nat} (h : v.toNat % 16 = code) : (v.extractLsb' 0 4).toNat = code :=
  (field_zero v 4).trans h

/-- The codes of a motor command word that name no command (R179). -/
theorem motorCommandOf_none {v : Word} (h : v.toNat % 16 = 0 ∨ 7 ≤ v.toNat % 16) : motorCommandOf v = none := by
  have hfield : (v.extractLsb' 0 4).toNat = 0 ∨ 7 ≤ (v.extractLsb' 0 4).toNat := by
    rwa [commandField_of_code rfl]
  unfold motorCommandOf
  split
  case h_7 => rfl
  all_goals omega

/-- The codes of the device command word that name no command (R181). -/
theorem deviceCommandOf_none {v : Word} (h : v.toNat % 16 = 0 ∨ 4 ≤ v.toNat % 16) : deviceCommandOf v = none := by
  have hfield : (v.extractLsb' 0 4).toNat = 0 ∨ 4 ≤ (v.extractLsb' 0 4).toNat := by
    rwa [commandField_of_code rfl]
  unfold deviceCommandOf
  split
  case h_4 => rfl
  all_goals omega

/-- The row of the command table that a motor's command is (R179). -/
def motorCommandRow (m : Motor) (t : Instant) : MotorCommand → Instr
  | .start => .start m t
  | .stop => .stop m t
  | .restart => .restart m t
  | .commit slot tag kind => .commit m slot tag kind t
  | .cancel slot => .cancel m slot t
  | .clearCounts => .clearCounts m t

/-- The row of the command table that a command of the device is (R181). -/
def deviceCommandRow (t : Instant) : DeviceCommand → Instr
  | .softRestart => .softRestart t
  | .clearCountsDevice => .clearCountsDevice t
  | .mapCommit => .mapCommit t

/-! ### The words that ignore a write (R175) -/

/-- The words of a motor block that ignore a write: its status words and the unassigned ones (R175). -/
def MotorWord.isIgnored : MotorWord → Bool
  | .channelStatus | .tripInfo | .periodCount | .counts | .planStatus | .trackerStatus | .frameStatus | .assigned
  | .produced | .consumedStatus | .fill | .unassigned => true
  | _ => false

/-- The words of the part window that ignore a write (R175). -/
def WindowWord.isIgnored : WindowWord → Bool
  | .logTop | .logStamp | .logState | .deviceStatus | .unassigned => true
  | .motorBlock _ w => w.isIgnored
  | _ => false

/-- A word of a motor block that ignores a write leaves the state. -/
theorem State.takeMotorWord_ignored (s : State) (m : Motor) {w : MotorWord} (off : Nat) (v : Word) (h : w.isIgnored = true) :
    s.takeMotorWord m w off v = s := by
  cases w with
  | channelStatus | tripInfo | periodCount | counts | planStatus | trackerStatus | frameStatus | assigned | produced
  | consumedStatus | fill | unassigned => rfl
  | _ => cases h

/-- A word that ignores a write leaves the state. -/
theorem State.takeWord_ignored (s : State) {off : Nat} (v : Word) (h : (wordAt off).isIgnored = true) : s.takeWord off v = s := by
  unfold State.takeWord
  cases hw : wordAt off with
  | motorBlock m w =>
    rw [hw] at h
    exact s.takeMotorWord_ignored m off v h
  | logTop | logStamp | logState | deviceStatus | unassigned => rfl
  | _ =>
    rw [hw] at h
    cases h

/-- From 0x60 on, the words of a motor block ignore a write (11.3). -/
theorem motorWordAt_isIgnored {w : Nat} (h : 0x60 ≤ w) : (motorWordAt w).isIgnored = true := by
  unfold motorWordAt
  split <;> first | rfl | omega

/-- The words of the device area between its settings, its input words and its command words ignore a write (11.3). -/
theorem deviceWordAt_isIgnored {off : Nat} (h1 : 0x00C ≤ off) (h2 : off < 0x040 ∨ 0x0A8 ≤ off) (h3 : off < 0x0FC)
    (hpop : off ≠ 0x0BC) (hclear : off ≠ 0x0C0) : (deviceWordAt off).isIgnored = true := by
  have hinput : ¬(off % 4 = 0 ∧ 0x40 ≤ off ∧ off < 0x80) := by omega
  have hstaging : ¬(off % 4 = 0 ∧ 0x80 ≤ off ∧ off < 0xA0) := by omega
  unfold deviceWordAt
  split
  case h_13 =>
    rw [dif_neg hinput, dif_neg hstaging]
    rfl
  all_goals first | rfl | omega

/-- Beyond the last motor block no word is assigned (11.3). -/
theorem wordAt_unassigned {off : Nat} (h : 0x400 ≤ off) : wordAt off = .unassigned := by
  unfold wordAt
  split
  case h_5 => rfl
  all_goals omega

/-- The staging words stand from 0x080 on, in entry order (11.3). -/
theorem wordAt_staging (k : Fin 8) : wordAt (0x080 + 4 * k.val) = .staging k := by
  revert k
  decide

/-- The last word of the device area is its command word (11.3). -/
theorem State.takeWord_deviceCommand (s : State) (v : Word) : s.takeWord 0x0FC v = s.takeDeviceCommand 0x0FC v := rfl

/-! ### The words as commands -/

section Words

variable {s : State} {m : Motor} {v : Word} {t : Instant}

/-- A word that ignores a write, as a command: time moves on, and nothing else changes (R175). -/
theorem exec_ignoredWord (hs : s.inReset = false) {off : Nat} (h : off < 0x1000) (h4 : off % 4 = 0)
    (hw : (wordAt off).isIgnored = true) :
    exec (.settingWordWrite (BitVec.ofNat 12 off) v t) s = .next (s.atInstant t) := by
  have e : (BitVec.ofNat 12 off).toNat = off := by
    rw [BitVec.toNat_ofNat]
    omega
  rw [exec_word s _ v t hs (by rw [e]; exact h4), e, State.takeWord_ignored _ v hw]
  intro k hk
  rw [← e, hk] at hw
  cases hw

/-- A motor command word that is not START's is taken at the instant of the command (R179). -/
theorem exec_motorCommandWord_quiet (hs : s.inReset = false) (hv : motorCommandOf v ≠ some .start) :
    exec (.settingWordWrite (BitVec.ofNat 12 (256 * (m.number + 1) + 0x5C)) v t) s =
      .next ((s.atInstant t).takeMotorCommand m (256 * (m.number + 1) + 0x5C) v) :=
  exec_motorWord s m 0x5C v t hs (by decide) rfl fun _ => hv

/-- A motor command word whose field names a command is that command, START among them (R179). -/
theorem exec_motorCommandWord (hs : s.inReset = false) {c : MotorCommand} (hv : motorCommandOf v = some c) :
    exec (.settingWordWrite (BitVec.ofNat 12 (256 * (m.number + 1) + 0x5C)) v t) s = exec (motorCommandRow m t c) s := by
  cases c with
  | start => exact exec_startWord s m v t hv
  | stop | restart | commit | cancel | clearCounts =>
    rw [exec_motorCommandWord_quiet hs (by simp [hv]), State.takeMotorCommand, hv]
    simp only [motorCommandRow, exec, execStop, execRestart, execCommit, execCancel, execClearCounts, State.act_next hs]

/-- A motor command word whose field names no command is refused (R179). -/
theorem exec_motorCommandWord_refused (hs : s.inReset = false) (hv : motorCommandOf v = none) :
    exec (.settingWordWrite (BitVec.ofNat 12 (256 * (m.number + 1) + 0x5C)) v t) s =
      .next { s.atInstant t with
        log := s.log.add ⟨.settingRefused, .motor m, BitVec.ofNat 16 (256 * (m.number + 1) + 0x5C),
          (s.motor m).channel.periodCount⟩ } := by
  rw [exec_motorCommandWord_quiet hs (by simp [hv]), State.takeMotorCommand, hv]
  exact congrArg _ (s.atInstant_logMotor t m _ _)

/-- The consumed word is CONSUMED_WRITE of its value (R133, R173). -/
theorem exec_consumedWord (hs : s.inReset = false) :
    exec (.settingWordWrite (BitVec.ofNat 12 (256 * (m.number + 1) + 0x58)) v t) s = exec (.consumedWrite m v t) s := by
  rw [exec_motorWord s m 0x58 v t hs (by decide) rfl nofun, exec_consumedWrite m v t hs]
  rfl

/-- A word of the device area whose effect is that of a row of the command table is that row's command (R173). -/
theorem exec_deviceWord_row (hs : s.inReset = false) {off : Nat} (h : off < 256) (h4 : off % 4 = 0) {c : Instr}
    (f : State → State) (hc : exec c s = State.act t f s) (hw : (s.atInstant t).takeWord off v = f (s.atInstant t)) :
    exec (.settingWordWrite (BitVec.ofNat 12 off) v t) s = exec c s := by
  rw [exec_deviceWord hs h h4, hc, State.act_next hs, hw]

/-- A device command word whose field names a command is that command (R181). -/
theorem exec_deviceCommandWord (hs : s.inReset = false) {c : DeviceCommand} (hv : deviceCommandOf v = some c) :
    exec (.settingWordWrite (BitVec.ofNat 12 0x0FC) v t) s = exec (deviceCommandRow t c) s := by
  rw [exec_deviceWord hs (by decide) rfl, State.takeWord_deviceCommand, State.takeDeviceCommand, hv]
  cases c with
  | softRestart | clearCountsDevice | mapCommit =>
    simp only [deviceCommandRow, exec, execSoftRestart, execClearCountsDevice, execMapCommit, State.act_next hs]

/-- A device command word whose field names no command is refused (R181). -/
theorem exec_deviceCommandWord_refused (hs : s.inReset = false) (hv : deviceCommandOf v = none) :
    exec (.settingWordWrite (BitVec.ofNat 12 0x0FC) v t) s =
      .next { s.atInstant t with
        log := s.log.add ⟨.settingRefused, .device, 0x0FC, (s.atInstant t).timebase⟩ } := by
  refine exec_deviceWord_refused hs (by decide) rfl ?_
  rw [State.takeWord_deviceCommand, State.takeDeviceCommand, hv]

/-- A staging word is STAGING_WORD_WRITE of its entry (R161). -/
theorem exec_stagingWord (hs : s.inReset = false) (k : Fin 8) :
    exec (.settingWordWrite (BitVec.ofNat 12 (0x080 + 4 * k.val)) v t) s = exec (.stagingWordWrite k v t) s := by
  rw [exec_deviceWord hs (by omega) (by omega), exec_stagingWordWrite hs, State.takeWord, wordAt_staging]

end Words

/-! ### The words together -/

/-- Settles O26, word by word: what the field of a command word names, and which words ignore a write. -/
theorem commandWordsCarryTheirCommands : Obligations.CommandWordsCarryTheirCommands := by
  unfold Obligations.CommandWordsCarryTheirCommands
  intro s v t hs
  refine ⟨fun m => ⟨fun h => ?start, fun h => ?stop, fun h => ?restart, fun h => ?commit, fun h => ?cancel,
      fun h => ?clearCounts, fun h => exec_motorCommandWord_refused hs (motorCommandOf_none h), exec_consumedWord hs,
      fun w h4 hw h => ?motorIgnored⟩,
    fun h => ?softRestart, fun h => ?clearCountsDevice, fun h => ?mapCommit,
    fun h => exec_deviceCommandWord_refused hs (deviceCommandOf_none h), exec_stagingWord hs, ?pending, ?pop, ?clearOverflow,
    fun off h4 h1 h2 h3 hpop hclear => ?deviceIgnored, fun off h4 h1 h => ?unassigned⟩
  case start | stop | restart | commit | cancel | clearCounts =>
    exact exec_motorCommandWord hs (by rw [motorCommandOf, commandField_of_code h]; rfl)
  case softRestart | clearCountsDevice | mapCommit =>
    exact exec_deviceCommandWord hs (by rw [deviceCommandOf, commandField_of_code h]; rfl)
  case pending => exact exec_deviceWord_row hs (by decide) rfl (State.clearCauses v) rfl rfl
  case pop => exact exec_deviceWord_row hs (by decide) rfl State.popLog rfl rfl
  case clearOverflow => exact exec_deviceWord_row hs (by decide) rfl State.clearLogOverflow rfl rfl
  case motorIgnored =>
    have hm : m.number < 3 := by cases m <;> decide
    refine exec_ignoredWord hs (by omega) (by omega) ?_
    rw [wordAt_motor m w h]
    exact motorWordAt_isIgnored hw
  case deviceIgnored =>
    refine exec_ignoredWord hs (by omega) h4 ?_
    rw [wordAt_device (by omega)]
    exact deviceWordAt_isIgnored h1 h2 h3 hpop hclear
  case unassigned =>
    refine exec_ignoredWord hs h h4 ?_
    rw [wordAt_unassigned h1]
    rfl

end Sys2Proof.Machine
end

section
/-! The Fault Log (R186 to R189): how it takes an entry, and the commands that change their part of it or of the counts alone. -/
namespace Sys2Proof.Machine

/-! ### An addition (R187) -/

/-- The trip class, as the list of its codes (R187). -/
theorem LogCode.tripClass_iff (code : LogCode) :
    code.tripClass = true ↔ code ∈ [LogCode.converterLost, .limitTrip, .driverFault, .hallInvalid, .hallStall] := by
  cases code <;> decide

/-- The log does not simply append: its overflow flag is set, or it is full (R187). -/
def FaultLog.closed (l : FaultLog) : Prop := l.overflow = true ∨ logCapacity ≤ l.entries.length

section Add

variable {l : FaultLog} {e : LogEntry}

/-- With the flag clear and room an entry is appended (R187). -/
theorem FaultLog.add_appends (ho : l.overflow = false) (hl : l.entries.length < logCapacity) :
    l.add e = { l with entries := l.entries ++ [e] } := by
  rw [FaultLog.add, ho, decide_eq_true hl]
  rfl

/-- A closed log fails the test for an append. -/
theorem FaultLog.closed.noAppend (h : l.closed) : (!l.overflow && decide (l.entries.length < logCapacity)) = false := by
  rcases h with ho | hl
  · rw [ho]
    rfl
  · rw [decide_eq_false (Nat.not_lt.2 hl), Bool.and_false]

/-- A closed log discards an entry that is not of trip class (R187). -/
theorem FaultLog.add_nonTrip (h : l.closed) (he : e.code.tripClass = false) : l.add e = l.discard := by
  rw [FaultLog.add, h.noAppend, he]
  rfl

/-- In a closed log a trip-class entry takes the place of the newest non-trip entry (R187). -/
theorem FaultLog.add_displaces {older newer : List LogEntry} {x : LogEntry} (h : l.closed) (he : e.code.tripClass = true)
    (hl : l.entries = older ++ x :: newer) (hx : x.code.tripClass = false) (hn : ∀ y ∈ newer, y.code.tripClass = true) :
    l.add e = { l.discard with entries := older ++ newer ++ [e] } := by
  rw [FaultLog.add, h.noAppend, he, hl, dropNewestNonTrip_some hx hn]
  rfl

/-- A closed log of trip-class entries alone discards every entry (R187). -/
theorem FaultLog.add_allTrip (h : l.closed) (he : e.code.tripClass = true) (hl : ∀ y ∈ l.entries, y.code.tripClass = true) :
    l.add e = l.discard := by
  rw [FaultLog.add, h.noAppend, he, dropNewestNonTrip_none hl]
  rfl

/-- Whatever the class, an addition to a closed log discards an entry: the flag and the count are those of a discard (R187). -/
theorem FaultLog.add_counts (h : l.closed) (e : LogEntry) :
    (l.add e).overflow = true ∧ (l.add e).discarded = min 255 (l.discarded + 1) := by
  cases he : e.code.tripClass with
  | false =>
    rw [FaultLog.add_nonTrip h he]
    exact ⟨rfl, rfl⟩
  | true =>
    rw [FaultLog.add, h.noAppend, he]
    cases dropNewestNonTrip l.entries <;> exact ⟨rfl, rfl⟩

end Add

/-- Settles O16, by whether the log is closed, the class of the entry, and the classes of the entries it holds. -/
theorem logTakesAnEntryByItsClass : Obligations.LogTakesAnEntryByItsClass := by
  unfold Obligations.LogTakesAnEntryByItsClass
  refine ⟨LogCode.tripClass_iff, fun l e => ⟨FaultLog.add_appends, fun h => ?_⟩⟩
  have hc : l.closed := h
  exact ⟨FaultLog.add_nonTrip hc, fun _ _ _ he hl hx hn => FaultLog.add_displaces hc he hl hx hn, FaultLog.add_allTrip hc⟩

/-! ### LOG_POP, LOG_CLEAR_OVERFLOW and the clears of the counts (R16, R93, R179, R188, R189) -/

/-- A pop takes the oldest entry off the list (R188). -/
theorem State.popLog_cons {s : State} {e : LogEntry} {rest : List LogEntry} (h : s.log.entries = e :: rest) :
    s.popLog = { s with log := { s.log with entries := rest } } := by
  rw [State.popLog, h]
  rfl

/-- A pop of an empty log changes nothing (R188). -/
theorem State.popLog_empty {s : State} (h : s.log.entries = []) : s.popLog = s := by
  have hlog : { s.log with entries := s.log.entries.drop 1 } = s.log := by
    rw [h, List.drop_nil, ← h]
  rw [State.popLog, hlog]

section Commands

variable {s : State} {t : Instant}

/-- LOG_POP, as a command outside reset. -/
theorem exec_logPop (hs : s.inReset = false) : exec (.logPop t) s = .next (s.atInstant t).popLog := State.act_next hs

/-- LOG_CLEAR_OVERFLOW, as a command outside reset (R189). -/
theorem exec_logClearOverflow (hs : s.inReset = false) :
    exec (.logClearOverflow t) s = .next { s.atInstant t with log := { s.log with overflow := false, discarded := 0 } } := by
  rw [← State.atInstant_log s t]
  exact State.act_next hs

/-- CLEAR_COUNTS, as a command outside reset (R16, R179). -/
theorem exec_clearCounts (hs : s.inReset = false) (m : Motor) :
    exec (.clearCounts m t) s = .next ((s.atInstant t).setMotor m (s.motor m).clearCounts) := by
  rw [← State.atInstant_motor s t m]
  exact State.act_next (f := fun s => s.onMotor m MotorUnit.clearCounts) hs

/-- CLEAR_COUNTS_DEVICE, as a command outside reset (R93). -/
theorem exec_clearCountsDevice (hs : s.inReset = false) :
    exec (.clearCountsDevice t) s =
      .next { s.atInstant t with calendar := { s.calendar with highWater := s.calendar.reservations.length } } := by
  rw [← State.atInstant_calendar s t]
  exact State.act_next hs

end Commands

/-- Settles O17, command by command, the pop by whether the log is empty. -/
theorem logPopAndClearCountsDoTheirPartAlone : Obligations.LogPopAndClearCountsDoTheirPartAlone := by
  unfold Obligations.LogPopAndClearCountsDoTheirPartAlone
  refine ⟨fun s t hs => ⟨fun e rest he => ?entry, fun he => ?empty⟩,
    fun s m t hs => ⟨exec_clearCounts hs m, exec_clearCountsDevice hs⟩⟩
  all_goals rw [← State.atInstant_log s t] at he
  case entry => rw [exec_logPop hs, State.popLog_cons he, State.atInstant_log]
  case empty => rw [exec_logPop hs, State.popLog_empty he]

/-- Settles O18: the log that the clear leaves has its flag clear, so an addition asks for room alone. -/
theorem clearOverflowClearsFlagAndCount : Obligations.ClearOverflowClearsFlagAndCount := by
  unfold Obligations.ClearOverflowClearsFlagAndCount
  intro s t hs cleared
  exact ⟨exec_logClearOverflow hs,
    fun e => ⟨FaultLog.add_appends (l := cleared) rfl, fun hl => FaultLog.add_counts (l := cleared) (.inr (Nat.le_of_eq hl.symm)) e⟩⟩

end Sys2Proof.Machine
end

section
/-! The latched attention causes (R192, R193, R196): the bits that clear them, and the instants that raise them. -/
namespace Sys2Proof.Machine

/-! ### ATTENTION_PENDING_WRITE (R192) -/

/-- A bit of a field is that bit of the word. -/
theorem field_testBit (v : Word) (lo : Nat) {len i : Nat} (hi : i < len) : (field v lo len).testBit i = v.getLsbD (lo + i) := by
  rw [field, BitVec.testBit_toNat, BitVec.getLsbD_extractLsb', decide_eq_true hi, Bool.true_and]

/-- The four bits of a motor clear its latched causes, that of the level cause is not read (R192). -/
theorem MotorAttention.clearLatched_field (a : MotorAttention) (v : Word) (lo : Nat) :
    a.clearLatched (field v lo 4) =
      { a with
        frameDone := a.frameDone && !v.getLsbD lo
        ringStale := a.ringStale && !v.getLsbD (lo + 2)
        tripped := a.tripped && !v.getLsbD (lo + 3) } := by
  rw [MotorAttention.clearLatched, field_testBit v lo (by decide), field_testBit v lo (by decide),
    field_testBit v lo (by decide), Nat.add_zero]

/-! ### The frame-done records (R193) -/

/-- A record whose delay ends: where its mode was not met, it is met now in DELAY and EITHER, and in BOTH with the frame
written (R193). -/
theorem FrameDoneRecord.met_delayOver {r : FrameDoneRecord} (h : r.met = false) :
    ({ r with delayOver := true } : FrameDoneRecord).met = true ↔
      r.mode = .delay ∨ r.mode = .either ∨ (r.mode = .both ∧ r.written = true) := by
  unfold FrameDoneRecord.met at h ⊢
  cases hm : r.mode <;> simp_all

/-- The delay of the first record that falls due ends (R193, log 19). -/
theorem endFirstDelay_split {now : Instant} {before after_ : List FrameDoneRecord} {r : FrameDoneRecord}
    (hb : ∀ q ∈ before, q.fallsDue now = false) (hr : r.fallsDue now = true) :
    endFirstDelay now (before ++ r :: after_) = before ++ { r with delayOver := true } :: after_ := by
  induction before with
  | nil => exact if_pos hr
  | cons q rest ih =>
    obtain ⟨hq, hrest⟩ := List.forall_mem_cons.1 hb
    rw [List.cons_append, endFirstDelay, hq, if_neg Bool.false_ne_true, ih hrest, List.cons_append]

/-- Records whose modes are not met stay in the list (R193). -/
theorem filter_unmet {l : List FrameDoneRecord} (h : ∀ r ∈ l, r.met = false) : (l.filter fun r => !r.met) = l :=
  List.filter_eq_self.2 fun r hr => by rw [h r hr, Bool.not_false]

/-- Where no record's mode is met there is nothing to settle (R193). -/
theorem MotorAttention.settleRecords_unmet {a : MotorAttention} (h : ∀ r ∈ a.records, r.met = false) : a.settleRecords = a := by
  have hany : a.records.any FrameDoneRecord.met = false := by simpa using h
  rw [MotorAttention.settleRecords, hany, filter_unmet h, Bool.or_false]

/-- The one record whose mode is met leaves the list and latches FRAME_DONE (R193). -/
theorem MotorAttention.settleRecords_met {a : MotorAttention} {before after_ : List FrameDoneRecord} {r : FrameDoneRecord}
    (hl : a.records = before ++ r :: after_) (hb : ∀ q ∈ before, q.met = false) (hr : r.met = true)
    (ha : ∀ q ∈ after_, q.met = false) : a.settleRecords = { a with frameDone := true, records := before ++ after_ } := by
  have hany : a.records.any FrameDoneRecord.met = true := List.any_eq_true.2 ⟨r, by simp [hl], hr⟩
  have hfilter : (a.records.filter fun q => !q.met) = before ++ after_ := by
    rw [hl, List.filter_append, filter_unmet hb, List.filter_cons_of_neg (by simp [hr]), filter_unmet ha]
  rw [MotorAttention.settleRecords, hany, hfilter, Bool.or_true]

section Due

variable {now : Instant} {u : MotorUnit}

/-- Where no record falls due, FRAME_DONE_DUE leaves the motor (log 2). -/
theorem MotorUnit.recordDue_none (h : ∀ r ∈ u.attention.records, r.fallsDue now = false) : u.recordDue now = u := by
  refine if_neg ?_
  simpa using h

/-- The first record that falls due has its delay ended, and the records are settled (R193, log 19). -/
theorem MotorUnit.recordDue_split {before after_ : List FrameDoneRecord} {r : FrameDoneRecord}
    (hl : u.attention.records = before ++ r :: after_) (hb : ∀ q ∈ before, q.fallsDue now = false) (hr : r.fallsDue now = true) :
    u.recordDue now =
      { u with
        attention := MotorAttention.settleRecords
          { u.attention with records := before ++ { r with delayOver := true } :: after_ } } := by
  have hany : u.attention.records.any (FrameDoneRecord.fallsDue now) = true :=
    List.any_eq_true.2 ⟨r, by simp [hl], hr⟩
  rw [MotorUnit.recordDue, if_pos hany, hl, endFirstDelay_split hb hr]

/-- Where the record whose delay ends is the only one whose mode may then be met, it leaves the list and latches FRAME_DONE if
its mode is met, and stays if not (R193). -/
theorem MotorUnit.recordDue_first {before after_ : List FrameDoneRecord} {r : FrameDoneRecord}
    (hl : u.attention.records = before ++ r :: after_) (hb : ∀ q ∈ before, q.fallsDue now = false ∧ q.met = false)
    (ha : ∀ q ∈ after_, q.met = false) (hm : r.met = false) (hr : r.fallsDue now = true) :
    u.recordDue now =
      { u with attention :=
        if r.mode = .delay ∨ r.mode = .either ∨ (r.mode = .both ∧ r.written = true) then
          { u.attention with frameDone := true, records := before ++ after_ }
        else { u.attention with records := before ++ { r with delayOver := true } :: after_ } } := by
  have hbm : ∀ q ∈ before, q.met = false := fun q hq => (hb q hq).2
  rw [MotorUnit.recordDue_split hl (fun q hq => (hb q hq).1) hr]
  split
  case isTrue h => rw [MotorAttention.settleRecords_met rfl hbm ((FrameDoneRecord.met_delayOver hm).2 h) ha]
  case isFalse h =>
    have hstays := Bool.eq_false_iff.2 (mt (FrameDoneRecord.met_delayOver hm).1 h)
    rw [MotorAttention.settleRecords_unmet]
    exact List.forall_mem_append.2 ⟨hbm, List.forall_mem_cons.2 ⟨hstays, ha⟩⟩

end Due

/-- A record falls due where its delay is not over and its instant has arrived (R193). -/
theorem FrameDoneRecord.fallsDue_iff (r : FrameDoneRecord) (now : Instant) :
    r.fallsDue now = true ↔ r.delayOver = false ∧ reached r.due now = true := by
  rw [FrameDoneRecord.fallsDue, Bool.and_eq_true, Bool.not_eq_true']

/-- A record does not fall due where its delay is over or its instant has not arrived (log 2). -/
theorem FrameDoneRecord.fallsDue_eq_false (r : FrameDoneRecord) (now : Instant) :
    r.fallsDue now = false ↔ r.delayOver = true ∨ reached r.due now = false := by
  rw [FrameDoneRecord.fallsDue, Bool.and_eq_false_iff, Bool.not_eq_false']

/-! ### The commands -/

/-- A timer is not due where it is not armed or its instant has not arrived (log 2). -/
theorem timerDue_eq_false {timer : Option Instant} {now : Instant}
    (h : timer = none ∨ ∃ due, timer = some due ∧ reached due now = false) : timerDue timer now = false := by
  rcases h with rfl | ⟨due, rfl, hd⟩
  · rfl
  · exact hd

section Commands

variable {s : State} {m : Motor} {t : Instant}

/-- ATTENTION_PENDING_WRITE, as a command outside reset (R192). -/
theorem exec_attentionPendingWrite (v : Word) (hs : s.inReset = false) :
    exec (.attentionPendingWrite v t) s = .next ((s.atInstant t).clearCauses v) := State.act_next hs

/-- FRAME_DONE_DUE, as a command outside reset (R193). -/
theorem exec_frameDoneDue (hs : s.inReset = false) :
    exec (.frameDoneDue m t) s = .next ((s.atInstant t).setMotor m ((s.motor m).recordDue (s.atInstant t).timebase)) := by
  rw [← State.atInstant_motor s t m]
  exact State.act_next (f := fun s => s.onMotor m (MotorUnit.recordDue s.timebase)) hs

/-- STALE_TIMER_EXPIRY where the timer's instant has arrived (R196). -/
theorem exec_staleTimerExpiry_due (hs : s.inReset = false)
    (hd : timerDue (s.motor m).attention.staleTimer (s.atInstant t).timebase = true) :
    exec (.staleTimerExpiry m t) s = .next ((s.atInstant t).setMotor m (s.motor m).staleExpires) := by
  rw [← State.atInstant_motor s t m] at hd ⊢
  exact (State.act_next hs).trans (congrArg _ (if_pos hd))

/-- STALE_TIMER_EXPIRY where the timer is not due changes nothing (log 2). -/
theorem exec_staleTimerExpiry_notDue (hs : s.inReset = false)
    (hd : timerDue (s.motor m).attention.staleTimer (s.atInstant t).timebase = false) :
    exec (.staleTimerExpiry m t) s = .next (s.atInstant t) := by
  rw [← State.atInstant_motor s t m] at hd
  exact (State.act_next hs).trans (congrArg _ (if_neg (Bool.eq_false_iff.1 hd)))

end Commands

/-- Settles O20, command by command: the write by its bits, FRAME_DONE_DUE by its first due record, the stale timer by its
instant. -/
theorem latchedCausesAreClearedAndRaised : Obligations.LatchedCausesAreClearedAndRaised := by
  unfold Obligations.LatchedCausesAreClearedAndRaised
  refine ⟨fun s v t hs => ?write, fun s m t hs => ⟨fun before r after_ hl hb ha hm ho hr => ?first, fun h => ?noneDue,
    fun due he hd => ?expires, fun h => ?notDue⟩⟩
  case write =>
    rw [exec_attentionPendingWrite v hs]
    simp only [State.clearCauses, MotorAttention.clearLatched_field, State.atInstant_m0, State.atInstant_m1, State.atInstant_m2]
    rfl
  case first =>
    rw [exec_frameDoneDue hs, MotorUnit.recordDue_first hl hb ha hm ((r.fallsDue_iff _).2 ⟨ho, hr⟩)]
  case noneDue =>
    rw [exec_frameDoneDue hs, MotorUnit.recordDue_none fun r hr => (r.fallsDue_eq_false _).2 (h r hr),
      State.atInstant_setMotor_motor]
  case expires => exact exec_staleTimerExpiry_due hs (by rw [he]; exact hd)
  case notDue => exact exec_staleTimerExpiry_notDue hs (timerDue_eq_false h)

end Sys2Proof.Machine
end
